-- ==== Sys2Proof/Word.lean ====
section
/-! DEFINITION. Word.lean: the widths of the DZ9 (R10, R39, R41), and the sparse tables in which the
state holds numbered things. A table is a list read with a default beyond its end, so that a register
that nothing has written reads its reset value and no length is ever an obligation. -/

namespace Sys2Proof

abbrev Byte := BitVec 8
abbrev Half := BitVec 16
abbrev Word := BitVec 32
abbrev DWord := BitVec 64
abbrev QWord := BitVec 128

/-- Entry `i` of a table whose unlisted entries read `d`. -/
def tget {α : Type} (d : α) (l : List α) (i : Nat) : α := l.getD i d

/-- The table with entry `i` set to `x`; entries between its end and `i` keep the default. -/
def tset {α : Type} (d : α) : List α → Nat → α → List α
  | [], 0, x => [x]
  | [], i + 1, x => d :: tset d [] i x
  | _ :: l, 0, x => x :: l
  | y :: l, i + 1, x => y :: tset d l i x

/-- The first lane of a mask at or above `i`, looking at `k` lanes. -/
def lowFrom (m : Word) : Nat → Nat → Option Nat
  | 0, _ => none
  | k + 1, i => if m.getLsbD i then some i else lowFrom m k (i + 1)

/-- The lowest lane of a mask. -/
def lowLane (m : Word) : Option Nat := lowFrom m 32 0

/-- The lanes of a mask, ascending. -/
def lanesOf (m : Word) : List Nat := (List.range 32).filter fun l => m.getLsbD l

/-- The mask with exactly the lanes that a test accepts. -/
def maskOf (p : Nat → Bool) : Word :=
  (List.range 32).foldl (fun m l => if p l then m ||| (1#32 <<< l) else m) 0

/-- The mask of one lane. -/
def bitOf (l : Nat) : Word := 1#32 <<< l

/-- How many lanes a mask holds. -/
def countOf (m : Word) : Nat := (lanesOf m).length

end Sys2Proof
end

