-- ==== Sys2Proof/Config.lean ====
section
/-! DEFINITION. Config.lean: what the spec leaves to the device, as constants without a body. No proof can
see their values, so a theorem holds whatever they are (log entry 6). -/

namespace Sys2Proof.Config

/-- An undefined 64-bit value (R8), fresh for each value of the counter in the state. Narrower undefined
values are its low bits. -/
opaque freeWord : Nat → BitVec 64

/-- Undefined contents of a table (R184, R219), fresh for each counter value. -/
opaque freeList : Nat → List (BitVec 64)

/-- A choice that the spec does not specify (R144, R149, R188, R219), fresh for each counter value. -/
opaque pick : Nat → Nat

/-- The value that special function `op` gives for an FP32 input where the bound of R109 admits more than
one: a fixed function of the input. -/
opaque sfu : Nat → BitVec 32 → BitVec 32

/-- The scale byte of a block whose smallest k of R115 lies above those that E8M0 has. -/
opaque blockScale : Int → BitVec 8

/-- Whether a TDI state lets the partition's queues be enabled (R397: "the TDI's state decides"). -/
opaque tdiEnables : Nat → Bool

/-- The SHA-384 digest of a byte string (R406), as a number below 2^384. -/
opaque digest : List (BitVec 8) → Nat

/-- The signature made with key `k` over a digest (R406: 0 is Ed25519, 1 is ML-DSA-65). -/
opaque signature : Nat → Nat → Nat

/-- The contents of the certificate chain of an SPDM slot (R406). -/
opaque certificate : Nat → List (BitVec 8)

/-- The junction temperature above which the module shuts down (R408), in degrees. -/
opaque junctionLimit : Nat

/-- A place for a flow id among the slices of a partition (R200: "a hash of the id"). -/
opaque flowHash : BitVec 32 → Nat

/-- The HBM channel group, modulo 8, of a 4 KiB page of a slice's stack (R385 names the groups and gives no rule). -/
opaque channel : Nat → Nat

/-- The page of another channel group that stands for a page whose own group's chart entry names that group. -/
opaque channelPage : Nat → Nat → Nat

/-- Which of several mappings of a page that R343 and R344 let an access use it does use, by the time and the
number of the 4 KiB page. -/
opaque mapping : Nat → Nat → Nat

/-- Whether a core still holds a cached instruction word that memory has since changed under it (R54), by the time and
the place. -/
opaque keeps : Nat → Nat → Bool

/-- The export limit in pages of 4 KiB that the hypervisor of a peer device has set for a port of its own (R402),
where it has set one, by the time and the place of the peer. -/
opaque peerExport : Nat → Nat → Option Nat

/-- Host time, as PCIe PTM correlates it with device time (R12, R397). -/
opaque hostTime : Nat → BitVec 64

/-- How many arrays the power controller watches, each with its rail (R393). -/
opaque arrays : Nat

/-- The module's readings that telemetry reports (R407), by what is asked. -/
opaque reading : Nat → Nat

end Sys2Proof.Config
end

