-- ==== Sys2Proof/Syntax.lean ====
section
/-! DEFINITION. Syntax.lean: what can happen on a DZ9, one constructor per row of spec/opcode_table.json.
A Yeloz instruction carries the fields of its 128-bit word (R37 to R46), a pilot-code operation those of its
32-bit word (R355, R357), and a step of the device or its surroundings carries what that step is given. -/

namespace Sys2Proof

/-- The two slots of a warp (R18). -/
inductive Side where
  | port | star
  deriving DecidableEq, Repr

/-- An operand field (R40): a class and an index, none, the immediate, or a reserved encoding. -/
inductive Opnd where
  | v (n : BitVec 8)
  | s (n : BitVec 7)
  | p (n : BitVec 4)
  | t (n : BitVec 4)
  | e (n : BitVec 3)
  | q (n : BitVec 3)
  | none
  | imm
  | rsv (bits : BitVec 10)
  deriving DecidableEq, Repr

/-- A data type (R42). -/
inductive DType where
  | u32 | i32 | u64 | i64 | f32 | f64 | f16x2 | bf16x2 | u16x2 | i16x2 | u8x4 | i8x4 | b8 | b16 | b128 | rsv
  deriving DecidableEq, Repr

/-- An order (R43); codes 6 and 7 are reserved. -/
inductive Ord where
  | weak | rlx | acq | rel | ar | sc | rsv6 | rsv7
  deriving DecidableEq, Repr

/-- A scope (R43); codes 5 to 7 are reserved. -/
inductive Scope where
  | none | core | clu | dev | sys | rsv5 | rsv6 | rsv7
  deriving DecidableEq, Repr

/-- A cache policy (R43); codes 4 to 7 are reserved. -/
inductive CPol where
  | dflt | l2 | st | rep | rsv4 | rsv5 | rsv6 | rsv7
  deriving DecidableEq, Repr

/-- An eviction hint (R43, R340). -/
inductive Evp where
  | same | first | normal | last
  deriving DecidableEq, Repr

/-- A guard (R38): a predicate, perhaps inverted. -/
structure Guard where
  neg : Bool
  p : BitVec 4
  deriving DecidableEq, Repr

/-- The fields of a word of format R or M (R37, R39). -/
structure Fields where
  sub : BitVec 6
  g1 : Guard
  g2 : Guard
  d : Opnd
  a : Opnd
  b : Opnd
  c : Opnd
  e : Opnd
  imm : Word
  ty : DType
  ord : Ord
  scope : Scope
  cpol : CPol
  evp : Evp
  rsv : BitVec 5
  deriving DecidableEq, Repr

/-- The fields of a word of format C (R37, R46). -/
structure CFields where
  sub : BitVec 6
  g1 : Guard
  g2 : Guard
  sigx : Word
  ofs1 : BitVec 24
  ofs2 : BitVec 24
  cp : BitVec 4
  cn : Bool
  n : BitVec 7
  sreg : BitVec 8
  s : Bool
  rsv : Bool
  deriving DecidableEq, Repr

/-- What an ATS completion brings (R342): the page, its size as a power of two, where it lies and its rights. -/
structure AtsReply where
  va : DWord
  log : Nat
  pa : DWord
  mem : BitVec 2
  sysatom : Bool
  r : Bool
  w : Bool
  x : Bool
  deriving DecidableEq, Repr

/-- A device register that the host or the hypervisor writes (R347, R354, R370). -/
inductive DevReg where
  /-- Bytes [off, off+8) of an entry of the queue table (R347). -/
  | queueEntry (queue off : Nat)
  /-- A device-source vector of the status page at 0x400 (R354). -/
  | deviceVector (src : Nat)
  /-- A queue vector of the status page at 0x1000 (R354). -/
  | queueVector (queue : Nat)
  /-- A field of a partition's invalidation mailbox at this offset (R370). -/
  | mailbox (part off : Nat)
  /-- The export limit of a port (R402). -/
  | outLimit (port : Nat)
  /-- The assignment of a copy group to a partition, or to none (R382). -/
  | copyGroup (group : Nat)
  /-- The partition that a PASID runs in (R347, R384), by base slice. -/
  | pasidHome (pasid : Nat)
  /-- The corrected-error threshold of the guard-band windows (R393). -/
  | guardThreshold
  /-- A read-only or reserved location (R349, R354): the write is ignored. -/
  | ignored
  deriving DecidableEq, Repr

/-- Where an uncorrectable error is detected (R391). -/
inductive ErrLoc where
  /-- A memory line: it stays bad until it is written whole (R390). -/
  | line (line : Nat)
  /-- A line written back with no waiting requester. -/
  | writeBack (line : Nat)
  /-- A lane's vector registers or predicates. -/
  | lane (uid lane : Nat)
  /-- A warp's scalar registers, slot state or stack. -/
  | warp (uid : Nat)
  /-- A crew's tile, an envelope register of it, or a line of its local memory. -/
  | tile (crew tile : Nat)
  | env (crew env : Nat)
  | localLine (crew line : Nat)
  /-- A clean line of an L1. -/
  | l1Line (core line : Nat)
  /-- An update-only partial in an L1 (R339). -/
  | partialLine (core line : Nat)
  deriving DecidableEq, Repr

/-- A boot image as the ROM sees it (R405). -/
structure BootImage where
  ed25519 : Bool
  mldsa : Bool
  version : Nat
  digest : Nat
  deriving DecidableEq, Repr

/-- What a telemetry message asks for (R407). -/
inductive Telemetry where
  | temperatures | rails | corrected (array : Nat) | sigKills (core : Nat) | errorLog | powerLimit
  deriving DecidableEq, Repr

/-- A page of registers that the host reads over CXL.io (R398): a queue's notify page (R349), an entry of the queue table
(R347), a partition's invalidation mailbox (R370), its chart window (R385), the mapper's status page (R354). -/
inductive IoPage where
  | notify (queue : Nat)
  | queueEntry (queue : Nat)
  | mailbox (part : Nat)
  | chart (part : Nat)
  | status
  deriving DecidableEq, Repr

/-- A host access: over CXL.mem or PCIe to a partition's HBM, by the host to its own or CXL memory (R398, R399), or a read of
`n` bytes of a page of registers. -/
inductive HostAccess where
  | readHbm (part : Nat) (addr : DWord) (n : Nat)
  | writeHbm (part : Nat) (addr : DWord) (bytes : List Byte)
  | readSys (mem : BitVec 2) (addr : DWord) (n : Nat)
  | writeSys (mem : BitVec 2) (addr : DWord) (bytes : List Byte)
  | readIo (page : IoPage) (off n : Nat)
  deriving DecidableEq, Repr

/-- A request that a peer sends through a rhumb-link port (R402). -/
inductive FabricReq where
  | read (port : Nat) (ofs : BitVec 43) (n : Nat)
  | write (port : Nat) (ofs : BitVec 43) (bytes : List Byte)
  deriving DecidableEq, Repr

/-- A TDISP message (R397, R403). -/
inductive TdispReq where
  | lock | start | stop | error
  deriving DecidableEq, Repr

/-- The rows of spec/opcode_table.json. -/
inductive Instr where

  /-- R65. Adds two integer operands per element, wrapping or saturating under .sat. -/
  | add (f : Fields)
  /-- R65. Subtracts integer operands per element, wrapping or saturating under .sat. -/
  | sub (f : Fields)
  /-- R66. Adds with a carry-in predicate and writes a carry-out predicate. -/
  | addc (f : Fields)
  /-- R66. Subtracts with a borrow-in predicate and writes a borrow-out predicate. -/
  | subb (f : Fields)
  /-- R65. Writes the low w bits of the product. -/
  | mul (f : Fields)
  /-- R65. Writes the high w bits of the signed or unsigned product. -/
  | mulhi (f : Fields)
  /-- R65. Computes a times b plus c, wrapping. -/
  | mad (f : Fields)
  /-- R65. Multiplies two 32-bit values and adds a 64-bit value into a 64-bit result. -/
  | madw (f : Fields)
  /-- R65. Writes the smaller operand, signed or unsigned by TYPE. -/
  | min (f : Fields)
  /-- R65. Writes the larger operand, signed or unsigned by TYPE. -/
  | max (f : Fields)
  /-- R65. Writes the absolute value of a signed operand, optionally saturating. -/
  | abs (f : Fields)
  /-- R65. Writes zero minus the operand, wrapping or saturating. -/
  | neg (f : Fields)
  /-- R65. Adds c to the dot product of four byte pairs. -/
  | idp4 (f : Fields)
  /-- R67. Writes the integer quotient rounded toward zero, never trapping. -/
  | div (f : Fields)
  /-- R67. Writes the integer remainder with the sign of the dividend, never trapping. -/
  | rem (f : Fields)
  /-- R65. Clamps a between lo and hi, giving hi when lo exceeds hi. -/
  | clamp (f : Fields)
  /-- R68. Writes the bitwise AND of two operands. -/
  | and (f : Fields)
  /-- R68. Writes the bitwise OR of two operands. -/
  | or (f : Fields)
  /-- R68. Writes the bitwise XOR of two operands. -/
  | xor (f : Fields)
  /-- R68. Writes a AND NOT b. -/
  | andn (f : Fields)
  /-- R68. Writes the bitwise complement of a. -/
  | not (f : Fields)
  /-- R68. Computes any three-input bitwise function from an 8-bit truth table. -/
  | lop3 (f : Fields)
  /-- R69. Shifts left, giving zero for counts of w or more. -/
  | shl (f : Fields)
  /-- R69. Shifts right logically, giving zero for counts of w or more. -/
  | shr (f : Fields)
  /-- R69. Shifts right arithmetically. -/
  | sra (f : Fields)
  /-- R69. Rotates left by the count modulo w. -/
  | rol (f : Fields)
  /-- R69. Funnel-shifts the double-width value {b, a} right or left. -/
  | fsh (f : Fields)
  /-- R70. Extracts a bit field, zero- or sign-extended. -/
  | bext (f : Fields)
  /-- R70. Inserts a bit field of b into a. -/
  | bins (f : Fields)
  /-- R71. Counts the set bits. -/
  | popc (f : Fields)
  /-- R71. Counts the leading zero bits. -/
  | clz (f : Fields)
  /-- R71. Counts the trailing zero bits. -/
  | ctz (f : Fields)
  /-- R71. Reverses the bits of a. -/
  | brev (f : Fields)
  /-- R72. Builds each result byte from a selected byte of {b, a} with a fill mode. -/
  | bperm (f : Fields)
  /-- R73. Sets a predicate from an integer comparison, optionally combined with a predicate. -/
  | cmp (f : Fields)
  /-- R74. Selects a or b per lane by a predicate. -/
  | sel (f : Fields)
  /-- R75. Computes a 64-bit address sum without accessing memory. -/
  | lea (f : Fields)
  /-- R77. Copies 32, 64 or 128 bits from A to D. -/
  | mov (f : Fields)
  /-- R77. Computes a three-input predicate function from a truth table. -/
  | plop (f : Fields)
  /-- R78. Gathers the taking-part lanes' predicates into a mask in every lane. -/
  | pmask (f : Fields)
  /-- R78. Sets each lane's predicate from its own bit of a mask. -/
  | pmaskSet (f : Fields)
  /-- R79. Reads a status register into a register after access checks. -/
  | srd (f : Fields)
  /-- R79. Writes a status register after access and value checks. -/
  | swr (f : Fields)
  /-- R81. Reads one lane's register into a scalar register. -/
  | v2s (f : Fields)
  /-- R102. Adds floats with one correct rounding. -/
  | fadd (f : Fields)
  /-- R102. Subtracts floats with one correct rounding. -/
  | fsub (f : Fields)
  /-- R102. Multiplies floats with one correct rounding. -/
  | fmul (f : Fields)
  /-- R102. Computes a fused multiply-add with one rounding. -/
  | ffma (f : Fields)
  /-- R106. Returns the smaller float, preferring the numeric operand over NaN. -/
  | fmin (f : Fields)
  /-- R106. Returns the larger float, preferring the numeric operand over NaN. -/
  | fmax (f : Fields)
  /-- R106. Writes the absolute value, negated absolute value or negation. -/
  | fabs (f : Fields)
  /-- R107. Sets a predicate from a float comparison, optionally combined. -/
  | fcmp (f : Fields)
  /-- R108. Writes a class mask describing each float element. -/
  | fclass (f : Fields)
  /-- R109. Approximates the reciprocal within 1 ulp. -/
  | frcp (f : Fields)
  /-- R109. Approximates the reciprocal square root within 1 ulp. -/
  | frsq (f : Fields)
  /-- R102. Computes a correctly rounded square root. -/
  | fsqrt (f : Fields)
  /-- R109. Approximates 2 to the power a within 1 ulp. -/
  | fexp2 (f : Fields)
  /-- R109. Approximates log base 2 within 1 ulp. -/
  | flog2 (f : Fields)
  /-- R109. Approximates sin of pi times a within 2 ulp. -/
  | fsinpi (f : Fields)
  /-- R109. Approximates cos of pi times a within 2 ulp. -/
  | fcospi (f : Fields)
  /-- R109. Approximates tanh within 2 ulp. -/
  | ftanh (f : Fields)
  /-- R102. Divides floats with one correct rounding. -/
  | fdiv (f : Fields)
  /-- R104. Multiplies a by 2 to the power n with one rounding. -/
  | fscale (f : Fields)
  /-- R105. Rounds a float to an integral value in its own format. -/
  | frnd (f : Fields)
  /-- R103. Computes a two-element packed dot product plus an FP32 addend, rounded once. -/
  | fdp2 (f : Fields)
  /-- R111. Converts between integer and float TYPEs. -/
  | cvt (f : Fields)
  /-- R114. Rounds an FP32 value into a format slot's element code. -/
  | cvtf (f : Fields)
  /-- R114. Decodes a format slot's element code exactly to FP32. -/
  | cvtfDec (f : Fields)
  /-- R112. Packs two FP32 values into two 16-bit floats. -/
  | cvtx2 (f : Fields)
  /-- R112. Unpacks two 16-bit floats into an FP32 pair. -/
  | cvtx2Unp (f : Fields)
  /-- R113. Packs four FP32 values into four 8-bit floats. -/
  | cvt8x4 (f : Fields)
  /-- R113. Unpacks four 8-bit floats into four FP32 registers. -/
  | cvt8x4Unp (f : Fields)
  /-- R115. Quantises a block of lane values through a scaled slot, choosing scale and special byte. -/
  | bpack (f : Fields)
  /-- R116. Decodes one scaled block element per lane to FP32. -/
  | bunpack (f : Fields)
  /-- R123. Branches uniformly to a direct target after the signature check. -/
  | bra (f : CFields)
  /-- R123. Branches uniformly to a target held in a scalar pair. -/
  | brx (f : CFields)
  /-- R125. Divides the slot into taken and fall-through paths and pushes a join entry. -/
  | fork (f : CFields)
  /-- R126. Arrives the slot's lanes at a join entry and merges the paths when complete. -/
  | join (f : CFields)
  /-- R128. Breaks the taking-part lanes out of n enclosing regions. -/
  | brk (f : CFields)
  /-- R124. Pushes a call entry and transfers uniformly. -/
  | call (f : CFields)
  /-- R124. Pops the matching call entry and returns. -/
  | ret (f : CFields)
  /-- R129. Retires the taking-part lanes, making them vacant. -/
  | exit (f : CFields)
  /-- R122. Makes the reckoning signature checks and closes the block. -/
  | sigchk (f : CFields)
  /-- R122. Does nothing but extend the block signature. -/
  | nop (f : CFields)
  /-- R145. Loads global memory into registers after the address checks. -/
  | ld (f : Fields)
  /-- R145. Stores registers to global memory after the address checks. -/
  | st (f : Fields)
  /-- R145. Loads from the crew's local memory. -/
  | ldl (f : Fields)
  /-- R145. Stores to the crew's local memory. -/
  | stl (f : Fields)
  /-- R146. Performs an indivisible read-modify-write on global memory and returns the old value. -/
  | atom (f : Fields)
  /-- R146. Performs an indivisible read-modify-write on local memory. -/
  | atoml (f : Fields)
  /-- R148. Combines a value into memory through the update-only state, returning nothing. -/
  | red (f : Fields)
  /-- R150. Orders the slot's accesses of the before classes against those of the after classes. -/
  | fence (f : Fields)
  /-- R152. Reads a word at home, arming a monitor, and waits until a masked comparison holds. -/
  | wcmp (f : Fields)
  /-- R155. Requests each lane's line into L2 and L1 without visible effect. -/
  | prefetch (f : Fields)
  /-- R157. Discards this core's L1 copy of each lane's line after sending partials home. -/
  | cachectlInv (f : Fields)
  /-- R157. Sets each lane's line to the EVP replacement class at every level. -/
  | cachectlSetev (f : Fields)
  /-- R157. Discards every L1 line of the context on this core. -/
  | cachectlInvall (f : Fields)
  /-- R176. Reads the lane at a uniform offset with an edge mode. -/
  | nbr (f : Fields)
  /-- R176. Reads a lane chosen per lane by index or XOR. -/
  | xsh (f : Fields)
  /-- R177. Reduces A over the taking-part lanes. -/
  | lred (f : Fields)
  /-- R177. Writes the inclusive or exclusive prefix combination over taking-part lanes. -/
  | lscan (f : Fields)
  /-- R178. Writes a vote, mask, count or first lane from the taking-part lanes' predicates. -/
  | vote (f : Fields)
  /-- R180. Arrives at a crew barrier and, at the last arrival, moves threads between lanes by key. -/
  | regroup (f : Fields)
  /-- R188. Allocates team records and returns their handles. -/
  | tnew (f : Fields)
  /-- R189. Adds the lane's thread to a team and sets TEAMk. -/
  | tjoin (f : Fields)
  /-- R189. Removes the thread from a team and sets TEAMk to none. -/
  | tleave (f : Fields)
  /-- R188. Frees an empty team record and increments its generation. -/
  | tfree (f : Fields)
  /-- R194. Returns a snapshot of a team's membership, point counts or phase. -/
  | tinfo (f : Fields)
  /-- R191. Initialises an idle rendezvous point with an expected count. -/
  | rzinit (f : Fields)
  /-- R193. Arrives at a rendezvous point and returns the phase arrived in. -/
  | rzarr (f : Fields)
  /-- R193. Waits until a phase has completed and returns its bereaved bit. -/
  | rzwait (f : Fields)
  /-- R193. Arrives and waits for the arrived phase to complete. -/
  | rzaw (f : Fields)
  /-- R212. Enqueues one item per lane to a device-fed ring. -/
  | ispawn (f : Fields)
  /-- R208. Ends the lanes' items and refills vacant lanes from the packer, optionally waiting. -/
  | inext (f : Fields)
  /-- R211. Moves lanes to a new flow and class, waiting for head or grant as needed. -/
  | relabel (f : Fields)
  /-- R209. Posts an ordered-release record and discharges the lane's slot. -/
  | irel (f : Fields)
  /-- R207. Ends the item of each taking-part lane, discharging its label. -/
  | iend (f : Fields)
  /-- R212. Reads a flow's state at its home, optionally clearing FB. -/
  | iflowq (f : Fields)
  /-- R226. Tries a lock word and records the holding in one indivisible step. -/
  | hlock (f : Fields)
  /-- R226. Clears a held lock word and discharges its entry. -/
  | hunlock (f : Fields)
  /-- R227. Records an obligation to fulfil a promise word. -/
  | promise (f : Fields)
  /-- R227. Writes a promise word done with a value and discharges the entry. -/
  | fulfil (f : Fields)
  /-- R228. Writes the heir field of a held estate entry. -/
  | heir (f : Fields)
  /-- R229. Conveys an estate entry at once to a named heir. -/
  | convey (f : Fields)
  /-- R230. Reads and acknowledges the thread's oldest conveyance record. -/
  | bereft (f : Fields)
  /-- R230. Reads and acknowledges the oldest record held in custody. -/
  | bereftCust (f : Fields)
  /-- R231. Returns bytes 0 to 15 of an estate entry. -/
  | estqLo (f : Fields)
  /-- R231. Returns bytes 16 to 31 of an estate entry. -/
  | estqHi (f : Fields)
  /-- R231. Finds the index of the entry of a kind naming an object. -/
  | estqFind (f : Fields)
  /-- R232. Kills the taking-part lanes as one death event. -/
  | die (f : Fields)
  /-- R253. Accumulates A times B transposed into a tile per taking-part quarter. -/
  | mma (f : Fields)
  /-- R262. Zeroes a tile, sets its kind, makes it normal and unbinds its mask. -/
  | mzero (f : Fields)
  /-- R262. Loads 64 rows of raw elements into a tile. -/
  | mld (f : Fields)
  /-- R263. Writes a tile's corner to memory raw or through a format slot. -/
  | mst (f : Fields)
  /-- R265. Reads tile column elements into lanes' registers. -/
  | mmov (f : Fields)
  /-- R265. Writes lanes' registers into a tile column. -/
  | mmovW (f : Fields)
  /-- R268. Copies a mask parameter block and binds it to a tile. -/
  | mmask (f : Fields)
  /-- R268. Removes a tile's mask binding. -/
  | mmaskClear (f : Fields)
  /-- R267. Reduces each row's readouts into lane registers. -/
  | mrow (f : Fields)
  /-- R267. Reduces each row's readouts and writes the results to memory. -/
  | mrowM (f : Fields)
  /-- R261. Reads a quarter's matrix progress register. -/
  | mprog (f : Fields)
  /-- R261. Writes a quarter's matrix progress register after a validity check. -/
  | mprogSet (f : Fields)
  /-- R288. Writes a zero-line envelope on a domain. -/
  | einit (f : Fields)
  /-- R289. Inserts one line per lane into an envelope in canonical form. -/
  | eins (f : Fields)
  /-- R290. Writes the sum of two envelopes on their common domain. -/
  | esum (f : Fields)
  /-- R290. Writes the maximum of two envelopes on their common domain. -/
  | emax (f : Fields)
  /-- R291. Writes the infimal convolution of two envelopes. -/
  | einf (f : Fields)
  /-- R292. Writes the Legendre conjugate of an envelope. -/
  | econj (f : Fields)
  /-- R293. Writes an envelope shifted in x and tilted by a line. -/
  | eshift (f : Fields)
  /-- R294. Evaluates an envelope per lane and returns the value and line index. -/
  | eeval (f : Fields)
  /-- R295. Writes one line's slope and intercept per lane. -/
  | ebrk (f : Fields)
  /-- R295. Writes an envelope's line count and optionally its domain. -/
  | ecnt (f : Fields)
  /-- R297. Loads and validates an envelope image into a register. -/
  | eld (f : Fields)
  /-- R297. Stores an envelope register's image to memory. -/
  | est (f : Fields)
  /-- R307. Checks and submits engine commands to an engine-bound queue register. -/
  | qpush (f : Fields)
  /-- R315. Appends a lane-masked entry to a crew pipe, waiting while it is full. -/
  | qpushPipe (f : Fields)
  /-- R315. Takes the oldest pipe entry, waiting while the pipe is empty. -/
  | qpop (f : Fields)
  /-- R315. Takes the oldest pipe entry if one exists, without waiting. -/
  | qtry (f : Fields)
  /-- R314. Waits until some tag of a mask is done and returns the lowest. -/
  | twaitany (f : Fields)
  /-- R314. Waits until every tag of a mask is done. -/
  | twaitall (f : Fields)
  /-- R314. Returns the lowest done tag of a mask without waiting. -/
  | tffr (f : Fields)
  /-- R314. Frees the crew's done tags of a mask. -/
  | tclr (f : Fields)
  /-- R325. Raises a software trap vector. -/
  | trap (f : Fields)
  /-- R327. Posts one host-service entry per lane and parks the warp until resumed. -/
  | svc (f : Fields)
  /-- R324. Leaves the trap handler, restoring the saved control state. -/
  | rte (f : Fields)
  /-- R329. Suspends the warp with a control save during pre-emption, or acts as a hint. -/
  | yield (f : Fields)
  /-- R330. Writes device time, optionally after draining earlier work. -/
  | rdts (f : Fields)
  /-- R331. Makes the slot ineligible until device time reaches a deadline. -/
  | sleep (f : Fields)
  /-- R325. Raises the breakpoint vector. -/
  | bkpt (f : Fields)
  /-- R357. Loads a u64 from the current packet into kA. -/
  | ldp (a : BitVec 4) (o : BitVec 3)
  /-- R357. Loads a u64 from a window address into kA. -/
  | ldq (a b : BitVec 4) (w : BitVec 2) (o : BitVec 12)
  /-- R357. Stores kA as a u64 at a window address. -/
  | stq (a b : BitVec 4) (w : BitVec 2) (o : BitVec 12)
  /-- R357. Loads a sign-extended 17-bit immediate into kA. -/
  | ldi (a : BitVec 4) (v : BitVec 17)
  /-- R357. Shifts kA left 17 and ORs in an immediate. -/
  | ldiSh (a : BitVec 4) (v : BitVec 17)
  /-- R357. Adds kB to kA. -/
  | pilotAddReg (a b : BitVec 4)
  /-- R357. Adds a sign-extended immediate to kA. -/
  | pilotAddImm (a : BitVec 4) (v : BitVec 17)
  /-- R357. Subtracts kB from kA. -/
  | pilotSubReg (a b : BitVec 4)
  /-- R357. Subtracts a sign-extended immediate from kA. -/
  | pilotSubImm (a : BitVec 4) (v : BitVec 17)
  /-- R357. ANDs kB into kA. -/
  | pilotAndReg (a b : BitVec 4)
  /-- R357. ANDs a sign-extended immediate into kA. -/
  | pilotAndImm (a : BitVec 4) (v : BitVec 17)
  /-- R357. ORs kB into kA. -/
  | pilotOrReg (a b : BitVec 4)
  /-- R357. ORs a sign-extended immediate into kA. -/
  | pilotOrImm (a : BitVec 4) (v : BitVec 17)
  /-- R357. Shifts kA left by kB mod 64. -/
  | pilotShlReg (a b : BitVec 4)
  /-- R357. Shifts kA left by an immediate mod 64. -/
  | pilotShlImm (a : BitVec 4) (v : BitVec 17)
  /-- R357. Shifts kA right logically by kB mod 64. -/
  | pilotShrReg (a b : BitVec 4)
  /-- R357. Shifts kA right logically by an immediate mod 64. -/
  | pilotShrImm (a : BitVec 4) (v : BitVec 17)
  /-- R357. Jumps forward when a comparison of kA and kB holds. -/
  | cmpj (a b : BitVec 4) (c : BitVec 3) (t : BitVec 14)
  /-- R357. Runs the next len words n times. -/
  | loop (l : BitVec 5) (n : BitVec 7)
  /-- R362. Reads and checks a launch record and issues the launch. -/
  | launch (b : BitVec 4) (o : BitVec 12)
  /-- R357. Stores kA to a signal word as a release at system scope. -/
  | signalStore (a b : BitVec 4) (o : BitVec 12)
  /-- R357. Atomically adds kA to a signal word as a release at system scope. -/
  | signalAdd (a b : BitVec 4) (o : BitVec 12)
  /-- R359. Arms a monitor on a signal word and waits until a comparison with kA holds. -/
  | wait (a b : BitVec 4) (o : BitVec 12) (c : BitVec 3)
  /-- R361. Orders the queue's pilot accesses as acquire, release or both. -/
  | pilotFence (r q : Bool)
  /-- R357. Completes the packet and advances the read index. -/
  | done
  /-- R357. Faults the queue with reason 6 and detail kA. -/
  | err (a : BitVec 4)
  /-- R237. After the deceased's accesses drain, each holding is rewritten at its home and passed to its resolved heir. -/
  | conveyance (pasid : Nat)
  /-- R238. Vector 0x0B is delivered to an eligible custodian warp. -/
  | heirlessDelivery (pasid : Nat)
  /-- R152. A write performed at home to a monitored line makes the waiting lane re-read and compare. -/
  | monitorWake (uid : Nat) (side : Side)
  /-- R153. A wcmp without a monitor entry polls its address every microsecond. -/
  | monitorPoll (uid : Nat) (side : Side)
  /-- R331. The sleep deadline passes and the slot becomes eligible. -/
  | sleepWake (uid : Nat) (side : Side)
  /-- R310. An engine with buffer room accepts one pending command. -/
  | engineAccept (cmd engine : Nat)
  /-- R311. An engine command completes, setting its tag bits and waking tag waiters. -/
  | commandComplete (cmd : Nat)
  /-- R205. A warp waiting at the packer starts again when items arrive, or retires when the ring closes empty. -/
  | warpRestart (uid : Nat)
  /-- R365. The dispatcher places a launch's next crew on a core where it fits. -/
  | crewDispatch (launch core : Nat)
  /-- R362. A launch ends, performing its accesses and decrementing its completion signal. -/
  | launchEnd (launch : Nat)
  /-- R368. A warp ready but not issued for 64 cycles is promoted. -/
  | issuePromotion (uid : Nat)
  /-- R369. A warp or crew waiting 4 microseconds is spilled to the park area. -/
  | park (crew : Nat)
  /-- R369. A parked warp or crew whose wait ends resumes on a fitting core. -/
  | parkedResume (crew core : Nat)
  /-- R373. A queue that has held its slot 2 ms with an equal-priority queue pending receives a pre-emption request. -/
  | sliceExpiry (queue : Nat)
  /-- R373. After deferral ends, vector 0x10 reaches eligible warps and waiting warps are saved in full. -/
  | preemptionDelivery (crew : Nat)
  /-- R373. The grace deadline passes and warps that have not yielded are saved in full. -/
  | forcedSave (crew : Nat)
  /-- R373. The deferral limit passes and every warp of the crew is saved in full. -/
  | deferralLimit (crew : Nat)
  /-- R375. A saved crew resumes as a whole on a fitting core. -/
  | savedCrewResume (crew core : Nat)
  /-- R353. A pending queue that has waited 1 ms raises a host interrupt. -/
  | pendingWaitTimeout (queue : Nat)
  /-- R380. Once in-flight writes are swept, the reset closes, disables the queue and logs code 0x49. -/
  | resetSweepComplete (queue : Nat)
  /-- R404. After quiesce acknowledgements and saves, suspend completion is posted. -/
  | suspendComplete (pasid : Nat)
  /-- R370. When no affected translation remains in use, the completed sequence number is written. -/
  | invalidationComplete (part : Nat)
  /-- R393. At each 1 s window end, rails over the corrected-error threshold are raised and reported. -/
  | guardBandWindow
  /-- R389. The power controller remaps the failing cluster to its die's spare. -/
  | spareSubstitution (cluster : Nat)
  /-- R359. A write to a WAIT's signal word makes the interpreter re-test and continue. -/
  | pilotWaitWake (queue : Nat)
  /-- R360. A packet exceeding 512 words faults the queue with reason 2. -/
  | budgetExceeded (queue : Nat)
  /-- R50. A slot issues a word whose OP is unallocated and takes trap 0x01. -/
  | illegalOpcode (word : QWord)
  /-- R47. An instruction fetch at an address with bits [63:57] set, or without X rights, takes trap 0x08 naming an instruction fetch. -/
  | instructionFetchFault (perm : Bool)
  /-- R160. An outstanding access, such as a weak store written through from L1 or a request at a fabric peer, is performed at its home or target. -/
  | accessPerformed (n : Nat)
  /-- R338. A line is evicted from an L1, sending an update-only partial home and ending a stale copy. -/
  | l1Eviction (core line : Nat)
  /-- R346. A successful PRI response replays the waiting requesters or is dropped as stale. -/
  | pageResponseSuccess (pasid group : Nat)
  /-- R346. An Invalid Request response makes waiters take trap 0x08 or engines complete with error. -/
  | invalidRequest (pasid group : Nat)
  /-- R346. A Response Failure fails every outstanding record of the PASID and logs a record. -/
  | responseFailure (pasid group : Nat)
  /-- R342. An ATS translation completion is cached in the TLBs. -/
  | atsCompletion (pasid : Nat) (tr : AtsReply)
  /-- R349. A write of the notify register records a new write index and makes the queue pending. -/
  | notify (queue : Nat) (w : DWord)
  /-- R349. A write of a call id to the resume register completes an svc when every entry is done. -/
  | resume (queue : Nat) (callId : DWord)
  /-- R395. A host-launch register write issues the launch record at the address written. -/
  | hostLaunch (queue : Nat) (addr : DWord)
  /-- R395. A host-read-index write completes packets in host-assisted mode. -/
  | hostReadIndex (queue : Nat) (idx : DWord)
  /-- R348. A write of state 1 to a queue entry enables it after checking context record and pilot code. -/
  | queueEnable (queue : Nat)
  /-- R380. A reset-doorbell write kills the queue's threads, aborts its engines and discards its records. -/
  | queueReset (doorbell : Word)
  /-- R404. A suspend-doorbell write with bit 31 set evicts and fully saves every queue of the PASID. -/
  | partitionSuspend (pasid : Nat)
  /-- R404. A suspend-doorbell write with bit 31 clear resumes the PASID and re-arms its watches. -/
  | partitionResume (pasid : Nat)
  /-- R404. A peer's quiesce acknowledgement beat arrives at a port. -/
  | quiesceAck (port peer : Nat)
  /-- R354. The map command gives a named slot to a pending queue of a SLOTMAP partition. -/
  | map (cmd : Word)
  /-- R354. The evict command evicts the queue in a named slot. -/
  | evict (cmd : Word)
  /-- R396. A write of a partition's assist word changes its assist modes when allowed. -/
  | assistWordWrite (base : Nat) (w : Word)
  /-- R354. Writing 1 to a device-source pending bit clears it. -/
  | deviceSourcePendingClear (bits : Word)
  /-- R354. Writing 1 to a queue-vector pending bit clears it. -/
  | queueVectorPendingClear (queue : Nat)
  /-- R354. A write to a device register with no behaviour of its own stores the value. -/
  | registerWrite (reg : DevReg) (v : DWord)
  /-- R370. A mailbox doorbell write posts a translation invalidation. -/
  | invalidationDoorbell (part : Nat) (seq : DWord)
  /-- R385. A write to a non-peer place-chart entry remaps a logical unit. -/
  | chartEntryWrite (part idx : Nat) (v : DWord)
  /-- R387. A fabric-peer entry enters FORWARD, sending new requests to NEW. -/
  | peerForward (part peer : Nat) (v : DWord)
  /-- R387. A fabric-peer entry enters STALL, holding new requests in the port. -/
  | peerStall (part peer : Nat) (v : DWord)
  /-- R387. A fabric-peer entry becomes INVALID and new requests end at once. -/
  | peerInvalid (part peer : Nat) (v : DWord)
  /-- R387. A fabric-peer entry returns to VALID and held requests flow. -/
  | peerValid (part peer : Nat) (v : DWord)
  /-- R384. The partition layout changes, discarding caches, monitors and TLB entries of the affected slices. -/
  | partitionLayoutChange (runs : List (Nat × Nat))
  /-- R390. A detected uncorrectable error withholds the data, aborts the requester and interrupts the host. -/
  | uncorrectableError (loc : ErrLoc)
  /-- R388. A cluster marked failing stops, relaunching replayable items and killing other threads. -/
  | clusterFailure (cluster : Nat)
  /-- R408. The controller steps the arithmetic clock to keep within the power cap or inlet limit. -/
  | powerThrottle (drawn inlet : Nat)
  /-- R408. A junction over its limit kills every queue and powers the module down. -/
  | thermalShutdown (junction : Nat)
  /-- R397. A host-link lane failure retrains the link at a narrower width. -/
  | linkDegrade (lanes : Nat)
  /-- R405. The ROM verifies firmware images in order or enters recovery. -/
  | boot (images : List BootImage)
  /-- R406. SPDM request answered with the supported version. -/
  | getVersion
  /-- R406. SPDM request answered with the responder's capabilities. -/
  | getCapabilities
  /-- R406. SPDM request that negotiates algorithms. -/
  | negotiateAlgorithms (offered : Nat)
  /-- R406. SPDM request answered with certificate digests. -/
  | getDigests
  /-- R406. SPDM request answered with a certificate chain. -/
  | getCertificate (slot offset length : Nat)
  /-- R406. SPDM challenge answered with a doubly signed response. -/
  | challenge (slot nonce : Nat)
  /-- R406. SPDM request answered with the measurement blocks. -/
  | getMeasurements (index nonce : Nat)
  /-- R406. SPDM key exchange that opens a session for IDE keys. -/
  | keyExchange (session share : Nat)
  /-- R406. SPDM FINISH that completes session establishment. -/
  | finish (session : Nat)
  /-- R406. SPDM request that ends a session. -/
  | endSession (session : Nat)
  /-- R407. An MCTP control message is answered. -/
  | mctpControl (command : Nat)
  /-- R407. A vendor message requests temperatures, rails, error counts or the error log. -/
  | telemetryReport (what : Telemetry)
  /-- R407. A vendor message sets the host power cap. -/
  | setPowerLimit (watts : Nat)
  /-- R407. A vendor message pins or releases rail voltages. -/
  | railPinning (rail : Nat) (pin : Option Nat)
  /-- R397. A host FetchAdd to device memory is performed at its home. -/
  | atomicopFetchadd (part : Nat) (addr : DWord) (bits : Nat) (v : QWord)
  /-- R397. A host Swap to device memory is performed at its home. -/
  | atomicopSwap (part : Nat) (addr : DWord) (bits : Nat) (v : QWord)
  /-- R397. A host compare-and-swap to device memory is performed at its home, 128-bit refused. -/
  | atomicopCas (part : Nat) (addr : DWord) (bits : Nat) (cmp v : QWord)
  /-- R399. A host CXL.mem or PCIe access to device HBM is performed at its home slice. -/
  | hostMemoryAccess (acc : HostAccess)
  /-- R152. A host invalidating snoop of a monitored CXL.cache line counts as a write. -/
  | snoopInvalidate (line : Nat)
  /-- R402. A rhumb-link request arrives and is served against the export limit. -/
  | fabricRequest (req : FabricReq)
  /-- R390. A corrected error in an array is detected and counted for the guard-band windows. -/
  | correctedError (array : Nat)
  /-- R327. The host advances the service ring's read index, and an svc waiting for free entries posts its call. -/
  | hostServiceRingFreed (pasid : Nat) (idx : DWord)
  /-- R397. A TDISP message changes a partition's TDI state, which decides queue enabling and IDE protection. -/
  | tdispRequest (part : Nat) (req : TdispReq)
  /-- R408. The main rails are lost and every part of the module powers down with them. -/
  | mainRailsDown
  deriving DecidableEq, Repr

end Sys2Proof
end

