-- ==== Sys2Proof/Machine/Forms.lean ====
section
/-! DEFINITION. Machine/Forms.lean: which words are legal. For every instruction, the fields it uses and what
each may hold, from the field-fill tables (R64, R76, R101, R110, R118, R137, R138, R173, R186, R206, R224, R247,
R248, R279, R280, R306, R318), and the fixed order in which decoding checks them (R51, R52). -/

namespace Sys2Proof

/-- The FIELD codes of R52. -/
inductive Fld where
  | op | sub | g1 | g2 | d | a | b | c | e | imm | ty | ord | scope | cpol | evp | rsv
  deriving DecidableEq, Repr

/-- The number that TRAPINFO holds for a field (R52). -/
def Fld.code : Fld → Nat
  | .op => 0 | .sub => 1 | .g1 => 2 | .g2 => 3 | .d => 4 | .a => 5 | .b => 6 | .c => 7 | .e => 8 | .imm => 9
  | .ty => 10 | .ord => 11 | .scope => 12 | .cpol => 13 | .evp => 14 | .rsv => 15

/-- What a warp may name: its role's vector and scalar allotments and its crew's tiles and envelopes (R17, R19, R22). -/
structure Allot where
  v : Nat
  s : Nat
  t : Nat
  e : Nat
  deriving DecidableEq, Repr

/-- The widest allotment that a launch record can give. -/
def Allot.widest : Allot := ⟨256, 120, 16, 8⟩

/-- The classes of R40. -/
inductive Cls where
  | v | s | p | t | e | q | none | imm
  deriving DecidableEq, Repr

/-- What an operand field may hold: its classes and how many registers, or tiles, it spans (R41, R245). -/
structure OSpec where
  cls : List Cls
  regs : Nat := 1
  deriving DecidableEq, Repr

/-- Whether an operand field meets its specification within an allotment. `vz` stands for a register, a pair or a
group wherever a vector register may stand (R41); v255 is no register, so no pair or group reaches it. -/
def OSpec.ok (o : OSpec) (al : Allot) : Opnd → Bool
  | .v n => o.cls.contains .v &&
      ((n.toNat == 255 && o.regs ≤ 4) || (n.toNat % o.regs == 0 && n.toNat + o.regs ≤ min al.v 255))
  | .s n => o.cls.contains .s && n.toNat % o.regs == 0 &&
      (n.toNat + o.regs ≤ al.s || (120 ≤ n.toNat && n.toNat + o.regs ≤ 128))
  | .p _ => o.cls.contains .p
  | .t n => o.cls.contains .t && n.toNat % o.regs == 0 && n.toNat + o.regs ≤ al.t
  | .e n => o.cls.contains .e && n.toNat < al.e
  | .q _ => o.cls.contains .q
  | .none => o.cls.contains .none
  | .imm => o.cls.contains .imm
  | .rsv _ => false

/-- How a word uses IMM: zero unless an operand names it, or with a meaning of its own (R44). -/
inductive ImmUse where
  /-- IMM is the value of the operands that name it, and zero when none does. -/
  | operand
  /-- IMM has a meaning of its own and holds an accepted value or not; no operand may name it. -/
  | own (ok : Bool)
  /-- The same, and an operand field that names IMM is found at the IMM field (R63, R98, R318). -/
  | alone (ok : Bool)
  /-- IMM has a meaning of its own and an operand field names it (R76). -/
  | index (ok : Bool)
  deriving DecidableEq, Repr

/-- What a word of format R or M must hold. -/
structure Form where
  subOk : Bool
  d : OSpec := ⟨[.none], 1⟩
  a : OSpec := ⟨[.none], 1⟩
  b : OSpec := ⟨[.none], 1⟩
  c : OSpec := ⟨[.none], 1⟩
  e : OSpec := ⟨[.none], 1⟩
  /-- How many registers are read from C on, where they are more than its group (R209). -/
  run : Nat := 0
  imm : ImmUse := .operand
  tyOk : Bool
  ordOk : Bool
  scopeOk : Bool
  cpolOk : Bool
  evpOk : Bool
  /-- Whether the domain rule of R48 holds for it. -/
  dom : Bool := false
  /-- Whether both guards must be `pt` (R118). -/
  ptOnly : Bool := false
  deriving DecidableEq, Repr

/-- The guard that is `pt`, not negated. -/
def Guard.pt : Guard := ⟨false, 15⟩

/-- How many registers a value of a type spans (R41, R42). -/
def DType.regs : DType → Nat
  | .u64 | .i64 | .f64 => 2
  | .b128 => 4
  | _ => 1

/-- The width of one element of a type in bits (R42, R60). -/
def DType.elem : DType → Nat
  | .u64 | .i64 | .f64 => 64
  | .f16x2 | .bf16x2 | .u16x2 | .i16x2 | .b16 => 16
  | .u8x4 | .i8x4 | .b8 => 8
  | .b128 => 128
  | _ => 32

/-- Whether the elements of a type are signed (R60). -/
def DType.signed : DType → Bool
  | .i32 | .i64 | .i16x2 | .i8x4 => true
  | _ => false

def setI : List DType := [.u32, .i32, .u64, .i64]
def setIP : List DType := [.u32, .i32, .u64, .i64, .u16x2, .i16x2, .u8x4, .i8x4]
def setN : List DType := [.u32, .i32, .u64, .i64, .f32, .f64]
def setF : List DType := [.f32, .f64, .f16x2, .bf16x2]
def set011 : List DType := [.u32, .i32, .u64, .i64, .f32, .f64, .f16x2, .bf16x2, .u16x2, .i16x2, .u8x4, .i8x4]

/-- The bits `[lo + k - 1 : lo]` of SUB as a number. -/
def Fields.subBits (f : Fields) (lo k : Nat) : Nat := (f.sub.toNat / 2 ^ lo) % 2 ^ k

/-- A word that performs no memory access carries 0 in ORD, SCOPE, CPOL and EVP (R43). -/
def Form.plain (f : Fields) (F : Form) : Form :=
  { F with ordOk := f.ord == .weak, scopeOk := f.scope == .none, cpolOk := f.cpol == .dflt, evpOk := f.evp == .same }

/-- The access attributes of a memory instruction (R138): the orders it takes, and the scopes and policies that it
takes with the order it has. -/
def Form.mem (f : Fields) (ords : List Ord) (scopes : List Scope) (cpols : List CPol) (evps : Bool) (F : Form) : Form :=
  { F with
    ordOk := ords.contains f.ord
    scopeOk := if f.ord == .weak then f.scope == .none else scopes.contains f.scope
    cpolOk := cpols.contains f.cpol && (f.cpol != .rep || f.ord == .weak)
    evpOk := evps || f.evp == .same }

def oNo : OSpec := ⟨[.none], 1⟩
def oR (k : Nat) : OSpec := ⟨[.v, .s, .imm], k⟩
def oRN (k : Nat) : OSpec := ⟨[.v, .s, .imm, .none], k⟩
def oV (k : Nat) : OSpec := ⟨[.v], k⟩
def oS (k : Nat) : OSpec := ⟨[.s], k⟩
def oVS (k : Nat) : OSpec := ⟨[.v, .s], k⟩
def oVSN (k : Nat) : OSpec := ⟨[.v, .s, .none], k⟩
def oSI (k : Nat) : OSpec := ⟨[.s, .imm], k⟩
def oP : OSpec := ⟨[.p], 1⟩
def oPN : OSpec := ⟨[.p, .none], 1⟩
def oT (k : Nat) : OSpec := ⟨[.t], k⟩
def oE : OSpec := ⟨[.e], 1⟩
def oQ : OSpec := ⟨[.q], 1⟩
def oI : OSpec := ⟨[.imm], 1⟩

/-- The width of type-sized operands: one register when the type is not accepted (R52). -/
def Fields.tw (f : Fields) (tys : List DType) : Nat := if tys.contains f.ty then f.ty.regs else 1

/-- A register form of the groups that follow R48 (R60, R98). -/
def formR (f : Fields) (tys : List DType) (subOk : Bool) (a b c e : Nat → OSpec) : Form :=
  let k := f.tw tys
  Form.plain f { subOk, d := oR k, a := a k, b := b k, c := c k, e := e k, tyOk := tys.contains f.ty, dom := true,
                 ordOk := true, scopeOk := true, cpolOk := true, evpOk := true }

/-- A destination is never the immediate (R44). -/
def Form.dst (F : Form) (cls : List Cls) (k : Nat) : Form := { F with d := ⟨cls, k⟩ }

def oFix (o : OSpec) : Nat → OSpec := fun _ => o

/-- A register destination as wide as the type. -/
def Form.dR (F : Form) (k : Nat) : Form := F.dst [.v, .s] k

/-- The rounding bits of SUB: enabled with a mode, or all zero (R87). -/
def rndOk (f : Fields) : Bool := f.subBits 2 1 == 1 || f.subBits 0 2 == 0

/-- The immediate stands for a 128-bit value nowhere (R44). -/
def oRty (f : Fields) (k : Nat) : OSpec := if f.ty == .b128 then oVS k else oR k

/-- A format with neither domain rule nor access attributes. -/
def formX (f : Fields) (tys : List DType) (subOk : Bool) : Form :=
  Form.plain f { subOk, tyOk := tys.contains f.ty, ordOk := true, scopeOk := true, cpolOk := true, evpOk := true }

/-- The same with access attributes still to be set. -/
def formM (f : Fields) (tys : List DType) (subOk : Bool) : Form :=
  { subOk, tyOk := tys.contains f.ty, ordOk := true, scopeOk := true, cpolOk := true, evpOk := true, imm := .own true }

/-- IMM of format M is the offset, with no condition (R45). -/
def scaleOk (f : Fields) : Bool := f.subBits 0 3 ≤ 4

def oPairN : OSpec := ⟨[.v, .s, .none], 2⟩

/-- Integer, logic, move, predicate and status forms (R64, R76). -/
def formInt (i : Instr) : Option Form :=
  match i with
  | .add f | .sub f => some ((formR f setIP (f.sub.toNat ≤ 1) oR oR (oFix oNo) (oFix oNo)).dR (f.tw setIP))
  | .addc f | .subb f =>
      some ((formR f setI (f.sub == 0) oR oR (oFix oPN) (oFix oP)).dst [.v] (f.tw setI))
  | .mul f | .mulhi f | .min f | .max f =>
      some ((formR f setIP (f.sub == 0) oR oR (oFix oNo) (oFix oNo)).dR (f.tw setIP))
  | .mad f | .clamp f => some ((formR f setIP (f.sub == 0) oR oR oR (oFix oNo)).dR (f.tw setIP))
  | .madw f => some ((formR f [.u32, .i32] (f.sub == 0) (oFix (oR 1)) (oFix (oR 1)) (oFix (oR 2)) (oFix oNo)).dR 2)
  | .abs f => some ((formR f [.i32, .i64, .i16x2, .i8x4] (f.sub.toNat ≤ 1) oR (oFix oNo) (oFix oNo) (oFix oNo)).dR
                (f.tw [.i32, .i64, .i16x2, .i8x4]))
  | .neg f => some ((formR f setIP (f.sub.toNat ≤ 1) oR (oFix oNo) (oFix oNo) (oFix oNo)).dR (f.tw setIP))
  | .idp4 f => some ((formR f [.u8x4, .i8x4] (f.sub == 0) (oFix (oR 1)) (oFix (oR 1)) (oFix (oR 1)) (oFix oNo)).dR 1)
  | .div f | .rem f | .and f | .or f | .xor f | .andn f =>
      some ((formR f setI (f.sub == 0) oR oR (oFix oNo) (oFix oNo)).dR (f.tw setI))
  | .not f | .brev f => some ((formR f setI (f.sub == 0) oR (oFix oNo) (oFix oNo) (oFix oNo)).dR (f.tw setI))
  | .lop3 f => some { (formR f setI (f.sub == 0) oR oR oR (oFix oNo)).dR (f.tw setI) with
                      imm := .alone (f.imm.toNat < 256) }
  | .shl f | .shr f | .sra f | .rol f =>
      some ((formR f setIP (f.sub == 0) oR (oFix (oR 1)) (oFix oNo) (oFix oNo)).dR (f.tw setIP))
  | .fsh f => some ((formR f setI (f.sub.toNat ≤ 1) oR oR (oFix (oR 1)) (oFix oNo)).dR (f.tw setI))
  | .bext f => some ((formR f setI (f.sub.toNat ≤ 1) oR (oFix (oR 1)) (oFix (oR 1)) (oFix oNo)).dR (f.tw setI))
  | .bins f => some ((formR f setI (f.sub == 0) oR oR (oFix (oR 1)) (oFix (oR 1))).dR (f.tw setI))
  | .popc f | .clz f | .ctz f => some ((formR f setI (f.sub == 0) oR (oFix oNo) (oFix oNo) (oFix oNo)).dR 1)
  | .bperm f => some ((formR f [.u32] (f.sub == 0) oR oR oR (oFix oNo)).dR 1)
  | .cmp f => some ((formR f setI (f.subBits 0 3 ≤ 5 && f.subBits 3 1 == 0) oR oR
                (oFix (if f.subBits 4 2 == 0 then oNo else oP)) (oFix oNo)).dst [.p] 1)
  | .sel f => some ((formR f set011 (f.sub == 0) oR oR (oFix oP) (oFix oNo)).dst [.v] (f.tw set011))
  | .lea f => some ((formR f [.u32] (f.subBits 0 3 ≤ 4 && f.subBits 4 2 == 0) (oFix (oR 2)) (oFix (oRN 1)) (oFix (oRN 1))
                (oFix oNo)).dR 2)
  | .mov f => some ((formR f (set011 ++ [.b128]) (f.sub == 0) (oRty f) (oFix oNo) (oFix oNo) (oFix oNo)).dR
                (f.tw (set011 ++ [.b128])))
  | .plop f => some { (formR f [.u32] (f.sub == 0) (oFix oP) (oFix oP) (oFix oP) (oFix oNo)).dst [.p] 1 with imm := .alone (f.imm.toNat < 256) }
  | .pmask f => some ((formR f [.u32] (f.sub == 0) (oFix oP) (oFix oNo) (oFix oNo) (oFix oNo)).dst [.v] 1)
  | .pmaskSet f => some ((formR f [.u32] (f.sub == 1) (oFix (oR 1)) (oFix oNo) (oFix oNo) (oFix oNo)).dst [.p] 1)
  | .srd f => some { formX f [.u32] (f.sub == 0) with d := oVS 1, a := oI, imm := .index (f.imm.toNat < 256) }
  | .swr f => some { formX f [.u32] (f.sub == 0) with a := oVS 1, b := oI, imm := .index (f.imm.toNat < 256) }
  | .v2s f => some { formX f [.u32, .u64] (f.sub.toNat ≤ 1) with
                     d := oS (f.tw [.u32, .u64]), a := oV (f.tw [.u32, .u64]), b := oSI 1 }
  | _ => none

/-- Floating-point and conversion forms (R101, R110). -/
def formFloat (i : Instr) : Option Form :=
  match i with
  | .fadd f | .fsub f | .fmul f =>
      some ((formR f setF (rndOk f && f.subBits 3 3 == 0) oR oR (oFix oNo) (oFix oNo)).dR (f.tw setF))
  | .ffma f => some ((formR f setF (rndOk f && f.subBits 3 3 == 0) oR oR oR (oFix oNo)).dR (f.tw setF))
  | .fmin f | .fmax f => some ((formR f setF (f.sub == 0) oR oR (oFix oNo) (oFix oNo)).dR (f.tw setF))
  | .fabs f => some ((formR f setF (f.sub.toNat ≤ 2) oR (oFix oNo) (oFix oNo) (oFix oNo)).dR (f.tw setF))
  | .fcmp f => some ((formR f [.f32, .f64] (f.subBits 3 1 == 0) oR oR
                (oFix (if f.subBits 4 2 == 0 then oNo else oP)) (oFix oNo)).dst [.p] 1)
  | .fclass f => some ((formR f setF (f.sub == 0) oR (oFix oNo) (oFix oNo) (oFix oNo)).dR 1)
  | .frcp f | .frsq f | .fexp2 f | .flog2 f | .fsinpi f | .fcospi f | .ftanh f =>
      some ((formR f [.f32] (f.sub == 0) oR (oFix oNo) (oFix oNo) (oFix oNo)).dR 1)
  | .fsqrt f => some ((formR f [.f32, .f64] (rndOk f && f.subBits 3 3 == 0) oR (oFix oNo) (oFix oNo) (oFix oNo)).dR
                (f.tw [.f32, .f64]))
  | .fdiv f => some ((formR f [.f32, .f64] (rndOk f && f.subBits 3 3 == 0) oR oR (oFix oNo) (oFix oNo)).dR
                (f.tw [.f32, .f64]))
  | .fscale f => some ((formR f setF (rndOk f && f.subBits 3 3 == 0) oR (oFix (oR 1)) (oFix oNo) (oFix oNo)).dR (f.tw setF))
  | .frnd f => some ((formR f setF (rndOk f && f.subBits 4 2 == 0) oR (oFix oNo) (oFix oNo) (oFix oNo)).dR (f.tw setF))
  | .fdp2 f => some ((formR f [.f16x2, .bf16x2] (rndOk f && f.subBits 3 3 == 0) oR oR oR (oFix oNo)).dR 1)
  | .cvt f =>
      let src : DType := match f.imm.toNat with | 2 => .u64 | 3 => .i64 | 5 => .f64 | _ => .u32
      some { (formR f setN (rndOk f && f.subBits 4 2 == 0) (oFix (oR src.regs)) (oFix oNo) (oFix oNo) (oFix oNo)).dR
               (f.tw setN) with imm := .alone (f.imm.toNat ≤ 5) }
  | .cvtf f => some { (formR f [.u32] (f.sub == 0) oR (oFix oNo) (oFix oNo) (oFix oNo)).dR 1 with
                      imm := .alone (f.imm.toNat ≤ 7) }
  | .cvtfDec f => some { (formR f [.u32] (f.sub == 1) oR (oFix oNo) (oFix oNo) (oFix oNo)).dR 1 with
                      imm := .alone (f.imm.toNat ≤ 7) }
  | .cvtx2 f => some ((formR f [.f16x2, .bf16x2] (rndOk f && f.subBits 3 1 == 0 && f.subBits 5 1 == 0) oR oR
                (oFix oNo) (oFix oNo)).dR 1)
  | .cvtx2Unp f => some ((formR f [.f16x2, .bf16x2] (f.sub == 8) oR (oFix oNo) (oFix oNo) (oFix oNo)).dR 2)
  | .cvt8x4 f => some ((formR f [.u32] (rndOk f && f.subBits 4 1 == 0) (oFix (oVS 4)) (oFix oNo) (oFix oNo)
                (oFix oNo)).dR 1)
  | .cvt8x4Unp f => some ((formR f [.u32] (f.subBits 0 3 == 0 && f.subBits 4 1 == 1 && f.subBits 5 1 == 0) oR (oFix oNo)
                (oFix oNo) (oFix oNo)).dR 4)
  | .bpack f => some { (formR f [.u32] (f.sub == 0) (oFix (oV 1)) (oFix oNo) (oFix oNo) (oFix oNo)).dst [.v] 1 with
                      imm := .alone (f.imm.toNat ≤ 7) }
  | .bunpack f => some { (formR f [.u32] (rndOk f && f.subBits 3 3 == 0) oR (oFix oNo) (oFix oNo) (oFix oNo)).dR 1 with
                      imm := .alone (f.imm.toNat ≤ 7) }
  | _ => none

/-- Every ordinary and reserved type but the last of R42: the types of loads and stores. -/
def setMem : List DType := set011 ++ [.b8, .b16, .b128]

/-- The types of an atomic, by whether E names an operand and by its operation (R146). -/
def atomTys (f : Fields) : List DType := if f.e != .none && f.subBits 4 2 == 0 then [.u32, .u64] else setN

def atomSubOk (f : Fields) : Bool := scaleOk f && (f.e == .none || f.subBits 4 2 ≤ 1)

/-- Memory forms (R137, R138). -/
def formMem (i : Instr) : Option Form :=
  let g : List Scope := [.core, .clu, .dev, .sys]
  match i with
  | .ld f =>
      let ok := scaleOk f && f.subBits 5 1 == 0 && (f.subBits 4 1 == 0 || f.ty == .b8 || f.ty == .b16)
      some (Form.mem f [.weak, .rlx, .acq, .sc] g [.dflt, .l2, .st, .rep] true
        { formM f setMem ok with d := oVS (f.tw setMem), a := oVS 2, b := oVSN 1, dom := true })
  | .st f =>
      some (Form.mem f [.weak, .rlx, .rel, .sc] g [.dflt, .l2, .st] true
        { formM f setMem (scaleOk f && f.subBits 4 2 == 0) with a := oVS 2, b := oVSN 1, c := oVS (f.tw setMem) })
  | .ldl f =>
      let ok := scaleOk f && f.subBits 5 1 == 0 && (f.subBits 4 1 == 0 || f.ty == .b8 || f.ty == .b16)
      some (Form.mem f [.weak, .rlx, .acq, .sc] [.core] [.dflt] false
        { formM f setMem ok with d := oV (f.tw setMem), a := oVSN 1, b := oVSN 1 })
  | .stl f =>
      some (Form.mem f [.weak, .rlx, .rel, .sc] [.core] [.dflt] false
        { formM f setMem (scaleOk f && f.subBits 4 2 == 0) with a := oVSN 1, b := oVSN 1, c := oVS (f.tw setMem) })
  | .atom f =>
      let k := f.tw (atomTys f)
      some (Form.mem f [.rlx, .acq, .rel, .ar, .sc] g [.dflt] true
        { formM f (atomTys f) (atomSubOk f) with d := oV k, a := oVS 2, b := oVSN 1, c := oVS k, e := oVSN k })
  | .atoml f =>
      let k := f.tw (atomTys f)
      some (Form.mem f [.rlx, .acq, .rel, .ar, .sc] [.core] [.dflt] false
        { formM f (atomTys f) (atomSubOk f) with d := oV k, a := oVSN 1, b := oVSN 1, c := oVS k, e := oVSN k })
  | .red f =>
      let tys := if f.subBits 4 2 == 3 then [.u32, .u64] else setN
      some (Form.mem f [.rlx, .rel] g [.dflt] true
        { formM f tys (scaleOk f) with a := oVS 2, b := oVSN 1, c := oVS (f.tw tys) })
  | .fence f =>
      some (Form.mem f [.acq, .rel, .ar, .sc] g [.dflt] false
        { formM f [.u32] (f.sub == 0) with
          imm := .own (f.imm.toNat % 256 != 0 && f.imm.toNat / 256 % 256 != 0 && f.imm.toNat < 65536) })
  | .wcmp f =>
      let k := f.tw setI
      some (Form.mem f [.acq, .sc] [.dev, .sys] [.dflt] false
        { formM f setI (scaleOk f) with d := oV k, a := oVS 2, b := oVSN 1, c := oVS k, e := oVSN k })
  | .prefetch f =>
      some (Form.mem f [.weak] g [.dflt, .l2] true
        { formM f [.u32] (scaleOk f && f.subBits 4 2 == 0) with a := oVS 2, b := oVSN 1 })
  | .cachectlInv f =>
      some (Form.mem f [.weak] g [.dflt] false
        { formM f [.u32] (scaleOk f && f.subBits 4 2 == 0) with a := oVS 2, b := oVSN 1 })
  | .cachectlSetev f =>
      some { Form.mem f [.weak] g [.dflt] true
        { formM f [.u32] (scaleOk f && f.subBits 4 2 == 1) with a := oVS 2, b := oVSN 1 } with evpOk := f.evp != .same }
  | .cachectlInvall f =>
      some (Form.mem f [.weak] g [.dflt] false { formM f [.u32] (f.sub.toNat == 32) with imm := .own (f.imm == 0) })
  | _ => none

/-- Cross-lane and team forms (R173, R186). -/
def formLane (i : Instr) : Option Form :=
  match i with
  | .nbr f =>
      let k := f.tw [.u32, .u64]
      some { formX f [.u32, .u64] (f.subBits 0 2 ≤ 2 && f.subBits 5 1 == 0) with
        d := oV k, a := oV k, b := oSI 1, c := if f.subBits 0 2 == 2 then oR k else oNo }
  | .xsh f =>
      let k := f.tw [.u32, .u64]
      some { formX f [.u32, .u64] (f.subBits 0 2 ≤ 1 && f.subBits 5 1 == 0) with d := oV k, a := oV k, b := oR 1 }
  | .lred f =>
      let tys := if f.subBits 0 3 ≤ 2 then setN else [.u32, .u64]
      some { formX f tys (f.sub.toNat ≤ 5) with d := oVS (f.tw tys), a := oV (f.tw tys) }
  | .lscan f =>
      let tys := if f.subBits 0 3 ≤ 2 then setN else [.u32, .u64]
      some { formX f tys (f.subBits 0 3 ≤ 5 && f.subBits 4 2 == 0) with d := oV (f.tw tys), a := oV (f.tw tys) }
  | .vote f => some { formX f [.u32] (f.sub.toNat ≤ 5) with
      d := if f.subBits 0 3 ≤ 2 then oP else oVS 1, a := oP }
  | .regroup f => some { formX f [.u32] (f.sub == 0) with
      d := ⟨[.s, .none], 1⟩, a := oP, imm := .own (f.imm.toNat < 256), ptOnly := true }
  | .tnew f => some { formX f [.u32] (f.sub == 0) with d := oVS 1 }
  | .tjoin f => some { formX f [.u32] (f.sub.toNat ≤ 3) with a := oR 1 }
  | .tleave f => some (formX f [.u32] (f.sub.toNat ≤ 3))
  | .tfree f => some { formX f [.u32] (f.sub == 0) with a := oR 1 }
  | .tinfo f => some { formX f [.u32] (f.subBits 2 2 ≤ 2 && f.subBits 4 2 == 0) with d := oV 2, a := oR 1 }
  | .rzinit f => some { formX f [.u32] (f.sub.toNat ≤ 3) with a := oR 1, b := oR 1 }
  | .rzarr f => some { formX f [.u32] (f.sub.toNat ≤ 3) with d := oV 1, a := oR 1 }
  | .rzwait f => some { formX f [.u32] (f.sub.toNat ≤ 3) with d := oP, a := oR 1, b := oR 1 }
  | .rzaw f => some { formX f [.u32] (f.sub.toNat ≤ 3) with d := oP, a := oR 1 }
  | _ => none

/-- Item, estate, queue, tag and system forms (R206, R224, R306, R318). -/
def formSys (i : Instr) : Option Form :=
  match i with
  | .ispawn f => some { formX f [.u32] (f.subBits 0 2 ≤ 2 && f.subBits 3 3 == 0) with
      d := oP, a := oVS 2, b := oR 1, c := oVS 2 }
  | .inext f => some { formX f [.u32] (f.sub.toNat ≤ 1) with d := ⟨[.s, .none], 1⟩ }
  | .relabel f => some { formX f [.u32] (f.sub.toNat ≤ 2) with d := oP, a := oR 1 }
  | .irel f => some { formX f [.u32] (f.sub.toNat ≤ 3) with a := oVS 2, c := oV 4, run := 4 * (f.subBits 0 2 + 1) }
  | .iend f => some (formX f [.u32] (f.sub == 0))
  | .iflowq f => some { formX f [.u32] (f.sub.toNat ≤ 1) with d := oVS 2, a := oR 1, dom := true }
  | .hlock f => some { formX f [.u32] (f.sub == 0) with d := oP, a := oVS 2, b := oRN 1 }
  | .hunlock f => some { formX f [.u32] (f.sub == 0) with a := oVS 2 }
  | .promise f => some { formX f [.u32] (f.sub == 0) with d := oP, a := oVS 2, b := oRN 1 }
  | .fulfil f => some { formX f [.u32] (f.sub == 0) with a := oVS 2, c := oVS 2 }
  | .heir f => some { formX f [.u32] (f.sub == 0) with a := oR 1, b := oR 1 }
  | .convey f => some { formX f [.u32] (f.sub == 0) with a := oR 1, b := oR 1 }
  | .bereft f => some { formX f [.u32] (f.sub == 0) with d := oV 4 }
  | .bereftCust f => some { formX f [.u32] (f.sub.toNat == 1) with d := oV 4 }
  | .estqLo f => some { formX f [.u32] (f.sub == 0) with d := oV 4, a := oR 1 }
  | .estqHi f => some { formX f [.u32] (f.sub.toNat == 1) with d := oV 4, a := oR 1 }
  | .estqFind f => some { formX f [.u32] (f.sub.toNat == 2) with d := oV 1, a := oVS 2, b := oR 1 }
  | .die f => some (formX f [.u32] (f.sub == 0))
  | .qpush f => some { formX f [.u32] (f.sub == 0) with d := oQ, a := oVS 8 }
  | .qpushPipe f => some { formX f [.u32] (f.sub == 0) with d := oQ, a := oV 1 }
  | .qpop f => some { formX f [.u32] (f.sub == 0) with d := oV 1, a := oQ }
  | .qtry f => some { formX f [.u32] (f.sub == 0) with d := oV 1, a := oQ, e := oP }
  | .twaitany f => some { formX f [.u64] (f.sub == 0) with d := oVSN 1, a := oSI 2 }
  | .twaitall f => some { formX f [.u64] (f.sub == 0) with a := oSI 2 }
  | .tffr f => some { formX f [.u64] (f.sub == 0) with d := oVS 1, a := oSI 2 }
  | .tclr f => some { formX f [.u64] (f.sub == 0) with a := oSI 2 }
  | .trap f => some { formX f [.u32] (f.sub == 0) with
      a := oVSN 1, imm := .alone (32 ≤ f.imm.toNat && f.imm.toNat ≤ 63) }
  | .svc f => some { formX f [.u32] (f.sub == 0) with
      d := oP, a := oV 16, imm := .alone (f.imm.toNat < 65536) }
  | .rte f => some { formX f [.u32] (f.sub.toNat ≤ 1) with ptOnly := true }
  | .yield f => some { formX f [.u32] (f.sub == 0) with ptOnly := true }
  | .rdts f => some { formX f [.u64] (f.sub.toNat ≤ 1) with d := oVS 2 }
  | .sleep f => some { formX f [.u32] (f.sub == 0) with a := oSI 1 }
  | .bkpt f => some { formX f [.u32] (f.sub == 0) with imm := .alone (f.imm.toNat < 65536) }
  | _ => none

/-- Memory attributes of the matrix and horizon instructions that access memory (R248, R280): EVP alone is free. -/
def Form.eng (f : Fields) (F : Form) : Form := { Form.plain f F with evpOk := true }

/-- Matrix and horizon forms (R247, R248, R279, R280). -/
def formMat (i : Instr) : Option Form :=
  let ts : List DType := [.f32, .i32, .f64]
  match i with
  | .mma f => some (Form.eng f { formX f [.u32] (f.sub == 0) with
      d := oT 1, a := oVS 4, b := oVS 4, imm := .own (f.imm.toNat < 2 ^ 24 && f.imm.toNat / 256 % 256 ≤ 64 &&
        f.imm.toNat / 65536 % 256 ≤ 64) })
  | .mzero f => some { formX f ts (f.sub == 0) with d := oT (if f.ty == .f64 then 2 else 1) }
  | .mld f => some (Form.eng f { formX f ts (f.sub == 0) with
      d := oT (if f.ty == .f64 then 2 else 1), a := oVS 2, b := oR 1 })
  | .mst f => some (Form.eng f { formX f [.u32] (f.sub.toNat ≤ 1) with
      a := oVS 2, b := oVS 1, c := oT 1, imm := .own (f.imm.toNat < 2 ^ 24 && f.imm.toNat / 8 % 32 == 0 &&
        (f.sub.toNat == 0 || f.imm.toNat % 8 == 0) && f.imm.toNat / 256 % 256 ≤ 64 && f.imm.toNat / 65536 % 256 ≤ 64) })
  | .mmov f => some { formX f [.u32] (f.sub == 0) with d := oV 2, a := oT 1, b := oR 1 }
  | .mmovW f => some { formX f [.u32] (f.sub.toNat == 1) with d := oT 1, a := oV 2, b := oR 1 }
  | .mmask f => some (Form.eng f { formX f [.u32] (f.sub == 0) with d := oT 1, a := oVS 2 })
  | .mmaskClear f => some (Form.eng f { formX f [.u32] (f.sub == 0) with d := oT 1 })
  | .mrow f => some { formX f [.u32] (f.sub.toNat ≤ 1) with
      d := oV 2, c := oT 1, imm := .own (f.imm.toNat < 2 ^ 24 && f.imm.toNat % 256 == 0 &&
        f.imm.toNat / 256 % 256 ≤ 64 && f.imm.toNat / 65536 % 256 ≤ 64) }
  | .mrowM f => some (Form.eng f { formX f [.u32] (f.sub.toNat == 2 || f.sub.toNat == 3) with
      a := oVS 2, c := oT 1, imm := .own (f.imm.toNat < 2 ^ 24 && f.imm.toNat % 256 == 0 &&
        f.imm.toNat / 256 % 256 ≤ 64 && f.imm.toNat / 65536 % 256 ≤ 64) })
  | .mprog f => some { formX f [.u32] (f.sub.toNat ≤ 3) with d := oVS 2 }
  | .mprogSet f => some { formX f [.u32] (4 ≤ f.sub.toNat && f.sub.toNat ≤ 7) with a := oVS 2 }
  | .einit f | .eins f => some { formX f [.f64] (f.sub == 0) with d := oE, a := oR 2, b := oR 2 }
  | .esum f | .emax f | .einf f => some { formX f [.u32] (f.sub == 0) with d := oE, a := oE, b := oE }
  | .econj f => some { formX f [.u32] (f.sub == 0) with d := oE, a := oE }
  | .eshift f => some { formX f [.f64] (f.sub == 0) with d := oE, a := oE, b := oR 2, c := oR 2, e := oR 2 }
  | .eeval f => some { formX f [.f64] (f.sub == 0) with d := oV 2, a := oE, b := oR 2, e := oV 1 }
  | .ebrk f => some { formX f [.u32] (f.sub == 0) with d := oV 4, a := oE, b := oSI 1 }
  | .ecnt f => some { formX f [.u32] (f.sub == 0) with
      d := oVS 1, a := oE, e := match f.d with | .s _ => ⟨[.s, .none], 4⟩ | _ => ⟨[.v, .none], 4⟩ }
  | .eld f => some (Form.eng f { formX f [.u32] (f.sub == 0) with d := oE, a := oVS 2 })
  | .est f => some (Form.eng f { formX f [.u32] (f.sub == 0) with a := oVS 2, c := oE })
  | _ => none

/-- The fields of a word of format R or M. -/
def Instr.fields (i : Instr) : Option Fields :=
  match i with
  | .add f | .sub f | .addc f | .subb f | .mul f | .mulhi f | .mad f | .madw f | .min f | .max f | .abs f | .neg f
  | .idp4 f | .div f | .rem f | .clamp f | .and f | .or f | .xor f | .andn f | .not f | .lop3 f | .shl f | .shr f
  | .sra f | .rol f | .fsh f | .bext f | .bins f | .popc f | .clz f | .ctz f | .brev f | .bperm f | .cmp f | .sel f
  | .lea f | .mov f | .plop f | .pmask f | .pmaskSet f | .srd f | .swr f | .v2s f
  | .fadd f | .fsub f | .fmul f | .ffma f | .fmin f | .fmax f | .fabs f | .fcmp f | .fclass f | .frcp f | .frsq f
  | .fsqrt f | .fexp2 f | .flog2 f | .fsinpi f | .fcospi f | .ftanh f | .fdiv f | .fscale f | .frnd f | .fdp2 f
  | .cvt f | .cvtf f | .cvtfDec f | .cvtx2 f | .cvtx2Unp f | .cvt8x4 f | .cvt8x4Unp f | .bpack f | .bunpack f
  | .ld f | .st f | .ldl f | .stl f | .atom f | .atoml f | .red f | .fence f | .wcmp f | .prefetch f
  | .cachectlInv f | .cachectlSetev f | .cachectlInvall f
  | .nbr f | .xsh f | .lred f | .lscan f | .vote f | .regroup f
  | .tnew f | .tjoin f | .tleave f | .tfree f | .tinfo f | .rzinit f | .rzarr f | .rzwait f | .rzaw f
  | .ispawn f | .inext f | .relabel f | .irel f | .iend f | .iflowq f
  | .hlock f | .hunlock f | .promise f | .fulfil f | .heir f | .convey f | .bereft f | .bereftCust f | .estqLo f
  | .estqHi f | .estqFind f | .die f
  | .mma f | .mzero f | .mld f | .mst f | .mmov f | .mmovW f | .mmask f | .mmaskClear f | .mrow f | .mrowM f
  | .mprog f | .mprogSet f
  | .einit f | .eins f | .esum f | .emax f | .einf f | .econj f | .eshift f | .eeval f | .ebrk f | .ecnt f | .eld f
  | .est f
  | .qpush f | .qpushPipe f | .qpop f | .qtry f | .twaitany f | .twaitall f | .tffr f | .tclr f
  | .trap f | .svc f | .rte f | .yield f | .rdts f | .sleep f | .bkpt f => some f
  | _ => none

/-- The fields of a word of format C. -/
def Instr.cfields (i : Instr) : Option CFields :=
  match i with
  | .bra f | .brx f | .fork f | .join f | .brk f | .call f | .ret f | .exit f | .sigchk f | .nop f => some f
  | _ => none

/-- The form that a word of format R or M must have. -/
def Instr.form (i : Instr) : Option Form :=
  (formInt i).or ((formFloat i).or ((formMem i).or ((formLane i).or ((formSys i).or (formMat i)))))

/-- Whether some operand names the immediate. -/
def Fields.namesImm (f : Fields) : Bool := f.d == .imm || f.a == .imm || f.b == .imm || f.c == .imm || f.e == .imm

/-- Whether IMM holds what its use allows (R44). -/
def ImmUse.ok (f : Fields) : ImmUse → Bool
  | .operand => f.namesImm || f.imm == 0
  | .own v | .alone v => v && !f.namesImm
  | .index v => v

/-- Whether the registers from a vector register on lie in the allotment; `vz` stands for any number (R41). -/
def Allot.holds (al : Allot) (k : Nat) : Opnd → Bool
  | .v n => n.toNat == 255 || decide (n.toNat + k ≤ min al.v 255)
  | _ => true

/-- Whether an operand field is left to the check of IMM. -/
def ImmUse.later (u : ImmUse) (o : Opnd) : Bool :=
  match u, o with
  | .alone _, .imm => true
  | _, _ => false

/-- Whether an operand is one that a scalar destination does not take as a source (R48). -/
def Opnd.perLane : Opnd → Bool
  | .v _ | .p _ => true
  | _ => false

/-- The domain rule (R48): the first per-lane source of a word with a scalar destination. -/
def domFault (f : Fields) : Option Fld :=
  match f.d with
  | .s _ =>
      if f.a.perLane then some .a else if f.b.perLane then some .b
      else if f.c.perLane then some .c else if f.e.perLane then some .e else none
  | _ => none

/-- The checks of R52 for a word of format R or M, in their fixed order: the first field that fails. The access
attributes are judged in ascending order too (R138). -/
def Form.fault (F : Form) (al : Allot) (f : Fields) : Option Fld :=
  if f.rsv != 0 then some .rsv
  else if !F.subOk then some .sub
  else if F.ptOnly && f.g1 != .pt then some .g1
  else if F.ptOnly && f.g2 != .pt then some .g2
  else if !F.imm.later f.d && !F.d.ok al f.d then some .d
  else if !F.imm.later f.a && !F.a.ok al f.a then some .a
  else if !F.imm.later f.b && !F.b.ok al f.b then some .b
  else if !F.imm.later f.c && !(F.c.ok al f.c && al.holds F.run f.c) then some .c
  else if !F.imm.later f.e && !F.e.ok al f.e then some .e
  else if !F.imm.ok f then some .imm
  else if !F.tyOk then some .ty
  else if !F.ordOk then some .ord
  else if !F.scopeOk then some .scope
  else if !F.cpolOk then some .cpol
  else if !F.evpOk then some .evp
  else if F.dom then domFault f
  else none

/-- Which fields of format C an instruction uses (R118). -/
structure CForm where
  sigx : Bool := true
  ofs1 : Bool := false
  ofs2 : Bool := false
  cond : Bool := false
  n : Bool := false
  /-- S must be 0, must be 1, or may be either. -/
  s0 : Bool := true
  s1 : Bool := false
  ptOnly : Bool := false
  deriving DecidableEq, Repr

/-- The control forms (R118). -/
def Instr.cform (i : Instr) : Option CForm :=
  match i with
  | .bra _ => some { ofs1 := true }
  | .brx _ => some { s0 := false, s1 := true }
  | .fork _ => some { ofs1 := true, ofs2 := true, cond := true }
  | .join _ => some { ptOnly := true }
  | .brk _ => some { ofs1 := true, n := true }
  | .call f => some { ofs1 := !f.s, s1 := true }
  | .ret _ | .exit _ => some {}
  | .sigchk _ => some { ptOnly := true }
  | .nop _ => some { sigx := false }
  | _ => none

/-- The checks of R52 for a word of format C (R46, R118, R119). -/
def CForm.fault (F : CForm) (al : Allot) (f : CFields) : Option Fld :=
  if f.rsv || (!F.sigx && f.sigx != 0) || (!F.ofs1 && f.ofs1 != 0) || (!F.ofs2 && f.ofs2 != 0) ||
     (!F.cond && (f.cp != 0 || f.cn)) || (!F.n && f.n != 0) || (!F.s1 && f.s) || (!f.s && f.sreg != 0) then some .rsv
  else if f.sub != 0 then some .sub
  else if F.ptOnly && f.g1 != .pt then some .g1
  else if F.ptOnly && f.g2 != .pt then some .g2
  else if (F.n && f.n == 0) || (!F.s0 && !f.s) then some .rsv
  else if f.s && !(f.sreg.toNat < 128 && (OSpec.ok (oS 2) al (.s (f.sreg.setWidth 7)))) then some .rsv
  else none

/-- The field at which decoding stops for an instruction of a warp with this allotment, if any (R51, R52). -/
def Instr.fault (al : Allot) (i : Instr) : Option Fld :=
  match i.form, i.fields with
  | some F, some f => F.fault al f
  | _, _ =>
    match i.cform, i.cfields with
    | some F, some f => F.fault al f
    | _, _ => none

end Sys2Proof
end

