-- ==== Sys2Proof/WellFormed.lean ====
section
/-! DEFINITION. WellFormed.lean: which instructions are words that some warp, or some pilot code, may run. -/

namespace Sys2Proof

/-- Whether an OP has an instruction (R49). -/
def opAllocated (op : Nat) : Bool :=
  op ≤ 0x24 || (0x40 ≤ op && op ≤ 0x45) || (0x60 ≤ op && op ≤ 0x74) || (0x80 ≤ op && op ≤ 0x85) ||
  (0xC0 ≤ op && op ≤ 0xC9) || (0xE0 ≤ op && op ≤ 0xEA) || (0x100 ≤ op && op ≤ 0x105) ||
  (0x110 ≤ op && op ≤ 0x118) || (0x120 ≤ op && op ≤ 0x125) || (0x130 ≤ op && op ≤ 0x137) ||
  (0x140 ≤ op && op ≤ 0x147) || (0x150 ≤ op && op ≤ 0x15B) || (0x160 ≤ op && op ≤ 0x166) ||
  (0x170 ≤ op && op ≤ 0x177)

/-- The rules of R355 and R357 that a pilot-code operation's fields can break. -/
def Instr.pilotOk : Instr → Bool
  | .ldq _ _ w _ | .stq _ _ w _ => w != 3
  | .cmpj _ _ c _ => c != 7
  | .loop _ n => n != 0 && n.toNat ≤ 64
  | .wait _ _ _ c => c.toNat ≤ 3
  | .pilotFence r q => r || q
  | _ => true

/-- Well-formed: a Yeloz word that the widest launch may run (R51), a pilot-code word that the load-time check accepts
(R358), an unallocated OP where the term says one stands, and any step of the device or its surroundings. -/
def Instr.wf (i : Instr) : Bool :=
  (i.fault .widest).isNone && i.pilotOk &&
    match i with
    | .illegalOpcode w => !opAllocated (w.extractLsb' 0 10).toNat
    | _ => true

/-- Well-formedness as a proposition. -/
abbrev Instr.WellFormed (i : Instr) : Prop := i.wf = true

end Sys2Proof
end

