-- ==== Sys2Proof/Decode.lean ====
section
/-! DEFINITION. Decode.lean: from bits to instructions (R36 to R50, R355, R357), rejecting by name, and the encoder
written from the same tables. A 128-bit word with a malformed field still decodes: its trap depends on the allotment
of the warp that issues it (R51), so the step takes it. -/

namespace Sys2Proof

/-- Why bytes are no instruction. -/
inductive DecodeFault where
  /-- Fewer bytes than a word. -/
  | tooShort
  /-- A pilot-code operation that R357 rejects. -/
  | pilotOp
  /-- A pilot-code field that must be zero, or holds a rejected value. -/
  | pilotField
  deriving DecidableEq, Repr

/-! ### The codes of R40, R42 and R43 -/

def Opnd.ofCode (x : BitVec 10) : Opnd :=
  let i := x.extractLsb' 0 8
  match (x.extractLsb' 8 2).toNat with
  | 0 => .v i
  | 1 => if i.toNat < 128 then .s (i.extractLsb' 0 7) else .rsv x
  | 2 =>
    if i.toNat < 16 then .p (i.extractLsb' 0 4)
    else if i.toNat < 32 then .t (i.extractLsb' 0 4)
    else if i.toNat < 40 then .e (i.extractLsb' 0 3)
    else if i.toNat < 48 then .q (i.extractLsb' 0 3)
    else if i == 255 then .none else .rsv x
  | _ => if i == 0 then .imm else .rsv x

def Opnd.code : Opnd → BitVec 10
  | .v n => 0#2 ++ n
  | .s n => 1#2 ++ (0#1 ++ n)
  | .p n => 2#2 ++ (0#4 ++ n)
  | .t n => 2#2 ++ (1#4 ++ n)
  | .e n => 2#2 ++ (4#5 ++ n)
  | .q n => 2#2 ++ (5#5 ++ n)
  | .none => 0x2FF
  | .imm => 0x300
  | .rsv x => x

def DType.ofCode (x : BitVec 4) : DType :=
  match x.toNat with
  | 0 => .u32 | 1 => .i32 | 2 => .u64 | 3 => .i64 | 4 => .f32 | 5 => .f64 | 6 => .f16x2 | 7 => .bf16x2
  | 8 => .u16x2 | 9 => .i16x2 | 10 => .u8x4 | 11 => .i8x4 | 12 => .b8 | 13 => .b16 | 14 => .b128 | _ => .rsv

def DType.code : DType → BitVec 4
  | .u32 => 0 | .i32 => 1 | .u64 => 2 | .i64 => 3 | .f32 => 4 | .f64 => 5 | .f16x2 => 6 | .bf16x2 => 7
  | .u16x2 => 8 | .i16x2 => 9 | .u8x4 => 10 | .i8x4 => 11 | .b8 => 12 | .b16 => 13 | .b128 => 14 | .rsv => 15

def Ord.ofCode (x : BitVec 3) : Ord :=
  match x.toNat with
  | 0 => .weak | 1 => .rlx | 2 => .acq | 3 => .rel | 4 => .ar | 5 => .sc | 6 => .rsv6 | _ => .rsv7

def Ord.code : Ord → BitVec 3
  | .weak => 0 | .rlx => 1 | .acq => 2 | .rel => 3 | .ar => 4 | .sc => 5 | .rsv6 => 6 | .rsv7 => 7

def Scope.ofCode (x : BitVec 3) : Scope :=
  match x.toNat with
  | 0 => .none | 1 => .core | 2 => .clu | 3 => .dev | 4 => .sys | 5 => .rsv5 | 6 => .rsv6 | _ => .rsv7

def Scope.code : Scope → BitVec 3
  | .none => 0 | .core => 1 | .clu => 2 | .dev => 3 | .sys => 4 | .rsv5 => 5 | .rsv6 => 6 | .rsv7 => 7

def CPol.ofCode (x : BitVec 3) : CPol :=
  match x.toNat with
  | 0 => .dflt | 1 => .l2 | 2 => .st | 3 => .rep | 4 => .rsv4 | 5 => .rsv5 | 6 => .rsv6 | _ => .rsv7

def CPol.code : CPol → BitVec 3
  | .dflt => 0 | .l2 => 1 | .st => 2 | .rep => 3 | .rsv4 => 4 | .rsv5 => 5 | .rsv6 => 6 | .rsv7 => 7

def Evp.ofCode (x : BitVec 2) : Evp :=
  match x.toNat with
  | 0 => .same | 1 => .first | 2 => .normal | _ => .last

def Evp.code : Evp → BitVec 2
  | .same => 0 | .first => 1 | .normal => 2 | .last => 3

def Guard.ofCode (x : BitVec 5) : Guard := ⟨x.getLsbD 4, x.extractLsb' 0 4⟩

def Guard.code (g : Guard) : BitVec 5 := BitVec.ofBool g.neg ++ g.p

/-! ### Words of 128 bits -/

/-- The fields of formats R and M (R37, R39). -/
def Fields.ofWord (w : QWord) : Fields where
  sub := w.extractLsb' 10 6
  g1 := .ofCode (w.extractLsb' 16 5)
  g2 := .ofCode (w.extractLsb' 21 5)
  d := .ofCode (w.extractLsb' 26 10)
  a := .ofCode (w.extractLsb' 36 10)
  b := .ofCode (w.extractLsb' 46 10)
  c := .ofCode (w.extractLsb' 56 10)
  e := .ofCode (w.extractLsb' 66 10)
  imm := w.extractLsb' 76 32
  ty := .ofCode (w.extractLsb' 108 4)
  ord := .ofCode (w.extractLsb' 112 3)
  scope := .ofCode (w.extractLsb' 115 3)
  cpol := .ofCode (w.extractLsb' 118 3)
  evp := .ofCode (w.extractLsb' 121 2)
  rsv := w.extractLsb' 123 5

/-- The word of format R or M with these fields. -/
def Fields.toWord (op : BitVec 10) (f : Fields) : QWord :=
  f.rsv ++ (f.evp.code ++ (f.cpol.code ++ (f.scope.code ++ (f.ord.code ++ (f.ty.code ++ (f.imm ++ (f.e.code ++
    (f.c.code ++ (f.b.code ++ (f.a.code ++ (f.d.code ++ (f.g2.code ++ (f.g1.code ++ (f.sub ++ op))))))))))))))

/-- The fields of format C (R37, R46). -/
def CFields.ofWord (w : QWord) : CFields where
  sub := w.extractLsb' 10 6
  g1 := .ofCode (w.extractLsb' 16 5)
  g2 := .ofCode (w.extractLsb' 21 5)
  sigx := w.extractLsb' 26 32
  ofs1 := w.extractLsb' 58 24
  ofs2 := w.extractLsb' 82 24
  cp := w.extractLsb' 106 4
  cn := w.getLsbD 110
  n := w.extractLsb' 111 7
  sreg := w.extractLsb' 118 8
  s := w.getLsbD 126
  rsv := w.getLsbD 127

/-- The word of format C with these fields. -/
def CFields.toWord (op : BitVec 10) (f : CFields) : QWord :=
  BitVec.ofBool f.rsv ++ (BitVec.ofBool f.s ++ (f.sreg ++ (f.n ++ (BitVec.ofBool f.cn ++ (f.cp ++ (f.ofs2 ++ (f.ofs1 ++
    (f.sigx ++ (f.g2.code ++ (f.g1.code ++ (f.sub ++ op)))))))))))

/-- The instruction of an OP (R49). Where one OP has several rows, SUB tells them apart; a SUB that no row defines
goes to the first row, whose form refuses it. -/
def Instr.ofOp (op : Nat) (f : Fields) (c : CFields) (w : QWord) : Instr :=
  match op with
  | 0x000 => .add f
  | 0x001 => .sub f
  | 0x002 => .addc f
  | 0x003 => .subb f
  | 0x004 => .mul f
  | 0x005 => .mulhi f
  | 0x006 => .mad f
  | 0x007 => .madw f
  | 0x008 => .min f
  | 0x009 => .max f
  | 0x00a => .abs f
  | 0x00b => .neg f
  | 0x00c => .idp4 f
  | 0x00d => .div f
  | 0x00e => .rem f
  | 0x00f => .clamp f
  | 0x010 => .and f
  | 0x011 => .or f
  | 0x012 => .xor f
  | 0x013 => .andn f
  | 0x014 => .not f
  | 0x015 => .lop3 f
  | 0x016 => .shl f
  | 0x017 => .shr f
  | 0x018 => .sra f
  | 0x019 => .rol f
  | 0x01a => .fsh f
  | 0x01b => .bext f
  | 0x01c => .bins f
  | 0x01d => .popc f
  | 0x01e => .clz f
  | 0x01f => .ctz f
  | 0x020 => .brev f
  | 0x021 => .bperm f
  | 0x022 => .cmp f
  | 0x023 => .sel f
  | 0x024 => .lea f
  | 0x040 => .mov f
  | 0x041 => .plop f
  | 0x042 => if f.sub == 1 then .pmaskSet f else .pmask f
  | 0x043 => .srd f
  | 0x044 => .swr f
  | 0x045 => .v2s f
  | 0x060 => .fadd f
  | 0x061 => .fsub f
  | 0x062 => .fmul f
  | 0x063 => .ffma f
  | 0x064 => .fmin f
  | 0x065 => .fmax f
  | 0x066 => .fabs f
  | 0x067 => .fcmp f
  | 0x068 => .fclass f
  | 0x069 => .frcp f
  | 0x06a => .frsq f
  | 0x06b => .fsqrt f
  | 0x06c => .fexp2 f
  | 0x06d => .flog2 f
  | 0x06e => .fsinpi f
  | 0x06f => .fcospi f
  | 0x070 => .ftanh f
  | 0x071 => .fdiv f
  | 0x072 => .fscale f
  | 0x073 => .frnd f
  | 0x074 => .fdp2 f
  | 0x080 => .cvt f
  | 0x081 => if f.sub == 1 then .cvtfDec f else .cvtf f
  | 0x082 => if f.subBits 3 1 == 1 then .cvtx2Unp f else .cvtx2 f
  | 0x083 => if f.subBits 4 1 == 1 then .cvt8x4Unp f else .cvt8x4 f
  | 0x084 => .bpack f
  | 0x085 => .bunpack f
  | 0x0c0 => .bra c
  | 0x0c1 => .brx c
  | 0x0c2 => .fork c
  | 0x0c3 => .join c
  | 0x0c4 => .brk c
  | 0x0c5 => .call c
  | 0x0c6 => .ret c
  | 0x0c7 => .exit c
  | 0x0c8 => .sigchk c
  | 0x0c9 => .nop c
  | 0x0e0 => .ld f
  | 0x0e1 => .st f
  | 0x0e2 => .ldl f
  | 0x0e3 => .stl f
  | 0x0e4 => .atom f
  | 0x0e5 => .atoml f
  | 0x0e6 => .red f
  | 0x0e7 => .fence f
  | 0x0e8 => .wcmp f
  | 0x0e9 => .prefetch f
  | 0x0ea => if f.subBits 4 2 == 1 then .cachectlSetev f else if f.subBits 4 2 == 2 then .cachectlInvall f else .cachectlInv f
  | 0x100 => .nbr f
  | 0x101 => .xsh f
  | 0x102 => .lred f
  | 0x103 => .lscan f
  | 0x104 => .vote f
  | 0x105 => .regroup f
  | 0x110 => .tnew f
  | 0x111 => .tjoin f
  | 0x112 => .tleave f
  | 0x113 => .tfree f
  | 0x114 => .tinfo f
  | 0x115 => .rzinit f
  | 0x116 => .rzarr f
  | 0x117 => .rzwait f
  | 0x118 => .rzaw f
  | 0x120 => .ispawn f
  | 0x121 => .inext f
  | 0x122 => .relabel f
  | 0x123 => .irel f
  | 0x124 => .iend f
  | 0x125 => .iflowq f
  | 0x130 => .hlock f
  | 0x131 => .hunlock f
  | 0x132 => .promise f
  | 0x133 => .fulfil f
  | 0x134 => .heir f
  | 0x135 => .convey f
  | 0x136 => if f.sub == 1 then .bereftCust f else .bereft f
  | 0x137 => if f.sub == 1 then .estqHi f else if f.sub == 2 then .estqFind f else .estqLo f
  | 0x140 => .mma f
  | 0x141 => .mzero f
  | 0x142 => .mld f
  | 0x143 => .mst f
  | 0x144 => if f.sub == 1 then .mmovW f else .mmov f
  | 0x145 => if f.a == .none then .mmaskClear f else .mmask f
  | 0x146 => if f.subBits 1 5 == 1 then .mrowM f else .mrow f
  | 0x147 => if f.subBits 2 4 == 1 then .mprogSet f else .mprog f
  | 0x150 => .einit f
  | 0x151 => .eins f
  | 0x152 => .esum f
  | 0x153 => .emax f
  | 0x154 => .einf f
  | 0x155 => .econj f
  | 0x156 => .eshift f
  | 0x157 => .eeval f
  | 0x158 => .ebrk f
  | 0x159 => .ecnt f
  | 0x15a => .eld f
  | 0x15b => .est f
  | 0x160 => .qpush f
  | 0x161 => .qpop f
  | 0x162 => .qtry f
  | 0x163 => .twaitany f
  | 0x164 => .twaitall f
  | 0x165 => .tffr f
  | 0x166 => .tclr f
  | 0x170 => .trap f
  | 0x171 => .svc f
  | 0x172 => .rte f
  | 0x173 => .yield f
  | 0x174 => .rdts f
  | 0x175 => .sleep f
  | 0x176 => .die f
  | 0x177 => .bkpt f
  | _ => .illegalOpcode w

/-- The OP of an instruction that has a 128-bit word (R49). -/
def Instr.op : Instr → Option (BitVec 10)
  | .add _ => some 0x000
  | .sub _ => some 0x001
  | .addc _ => some 0x002
  | .subb _ => some 0x003
  | .mul _ => some 0x004
  | .mulhi _ => some 0x005
  | .mad _ => some 0x006
  | .madw _ => some 0x007
  | .min _ => some 0x008
  | .max _ => some 0x009
  | .abs _ => some 0x00a
  | .neg _ => some 0x00b
  | .idp4 _ => some 0x00c
  | .div _ => some 0x00d
  | .rem _ => some 0x00e
  | .clamp _ => some 0x00f
  | .and _ => some 0x010
  | .or _ => some 0x011
  | .xor _ => some 0x012
  | .andn _ => some 0x013
  | .not _ => some 0x014
  | .lop3 _ => some 0x015
  | .shl _ => some 0x016
  | .shr _ => some 0x017
  | .sra _ => some 0x018
  | .rol _ => some 0x019
  | .fsh _ => some 0x01a
  | .bext _ => some 0x01b
  | .bins _ => some 0x01c
  | .popc _ => some 0x01d
  | .clz _ => some 0x01e
  | .ctz _ => some 0x01f
  | .brev _ => some 0x020
  | .bperm _ => some 0x021
  | .cmp _ => some 0x022
  | .sel _ => some 0x023
  | .lea _ => some 0x024
  | .mov _ => some 0x040
  | .plop _ => some 0x041
  | .pmask _ | .pmaskSet _ => some 0x042
  | .srd _ => some 0x043
  | .swr _ => some 0x044
  | .v2s _ => some 0x045
  | .fadd _ => some 0x060
  | .fsub _ => some 0x061
  | .fmul _ => some 0x062
  | .ffma _ => some 0x063
  | .fmin _ => some 0x064
  | .fmax _ => some 0x065
  | .fabs _ => some 0x066
  | .fcmp _ => some 0x067
  | .fclass _ => some 0x068
  | .frcp _ => some 0x069
  | .frsq _ => some 0x06a
  | .fsqrt _ => some 0x06b
  | .fexp2 _ => some 0x06c
  | .flog2 _ => some 0x06d
  | .fsinpi _ => some 0x06e
  | .fcospi _ => some 0x06f
  | .ftanh _ => some 0x070
  | .fdiv _ => some 0x071
  | .fscale _ => some 0x072
  | .frnd _ => some 0x073
  | .fdp2 _ => some 0x074
  | .cvt _ => some 0x080
  | .cvtf _ | .cvtfDec _ => some 0x081
  | .cvtx2 _ | .cvtx2Unp _ => some 0x082
  | .cvt8x4 _ | .cvt8x4Unp _ => some 0x083
  | .bpack _ => some 0x084
  | .bunpack _ => some 0x085
  | .bra _ => some 0x0c0
  | .brx _ => some 0x0c1
  | .fork _ => some 0x0c2
  | .join _ => some 0x0c3
  | .brk _ => some 0x0c4
  | .call _ => some 0x0c5
  | .ret _ => some 0x0c6
  | .exit _ => some 0x0c7
  | .sigchk _ => some 0x0c8
  | .nop _ => some 0x0c9
  | .ld _ => some 0x0e0
  | .st _ => some 0x0e1
  | .ldl _ => some 0x0e2
  | .stl _ => some 0x0e3
  | .atom _ => some 0x0e4
  | .atoml _ => some 0x0e5
  | .red _ => some 0x0e6
  | .fence _ => some 0x0e7
  | .wcmp _ => some 0x0e8
  | .prefetch _ => some 0x0e9
  | .cachectlInv _ | .cachectlSetev _ | .cachectlInvall _ => some 0x0ea
  | .nbr _ => some 0x100
  | .xsh _ => some 0x101
  | .lred _ => some 0x102
  | .lscan _ => some 0x103
  | .vote _ => some 0x104
  | .regroup _ => some 0x105
  | .tnew _ => some 0x110
  | .tjoin _ => some 0x111
  | .tleave _ => some 0x112
  | .tfree _ => some 0x113
  | .tinfo _ => some 0x114
  | .rzinit _ => some 0x115
  | .rzarr _ => some 0x116
  | .rzwait _ => some 0x117
  | .rzaw _ => some 0x118
  | .ispawn _ => some 0x120
  | .inext _ => some 0x121
  | .relabel _ => some 0x122
  | .irel _ => some 0x123
  | .iend _ => some 0x124
  | .iflowq _ => some 0x125
  | .hlock _ => some 0x130
  | .hunlock _ => some 0x131
  | .promise _ => some 0x132
  | .fulfil _ => some 0x133
  | .heir _ => some 0x134
  | .convey _ => some 0x135
  | .bereft _ | .bereftCust _ => some 0x136
  | .estqLo _ | .estqHi _ | .estqFind _ => some 0x137
  | .mma _ => some 0x140
  | .mzero _ => some 0x141
  | .mld _ => some 0x142
  | .mst _ => some 0x143
  | .mmov _ | .mmovW _ => some 0x144
  | .mmask _ | .mmaskClear _ => some 0x145
  | .mrow _ | .mrowM _ => some 0x146
  | .mprog _ | .mprogSet _ => some 0x147
  | .einit _ => some 0x150
  | .eins _ => some 0x151
  | .esum _ => some 0x152
  | .emax _ => some 0x153
  | .einf _ => some 0x154
  | .econj _ => some 0x155
  | .eshift _ => some 0x156
  | .eeval _ => some 0x157
  | .ebrk _ => some 0x158
  | .ecnt _ => some 0x159
  | .eld _ => some 0x15a
  | .est _ => some 0x15b
  | .qpush _ | .qpushPipe _ => some 0x160
  | .qpop _ => some 0x161
  | .qtry _ => some 0x162
  | .twaitany _ => some 0x163
  | .twaitall _ => some 0x164
  | .tffr _ => some 0x165
  | .tclr _ => some 0x166
  | .trap _ => some 0x170
  | .svc _ => some 0x171
  | .rte _ => some 0x172
  | .yield _ => some 0x173
  | .rdts _ => some 0x174
  | .sleep _ => some 0x175
  | .die _ => some 0x176
  | .bkpt _ => some 0x177
  | .illegalOpcode w => some (w.extractLsb' 0 10)
  | _ => none

/-- Decode of a 128-bit word: total, since every word is issued and then runs or traps (R50, R51). -/
def decodeWord (w : QWord) : Instr :=
  Instr.ofOp (w.extractLsb' 0 10).toNat (.ofWord w) (.ofWord w) w

/-! ### Pilot-code words -/

/-- Decode of a pilot-code word (R355, R357). -/
def decodePilot (w : Word) : Except DecodeFault Instr :=
  let op := (w.extractLsb' 27 5).toNat
  let a := w.extractLsb' 22 4
  let b4 := w.getLsbD 21
  let b := w.extractLsb' 17 4
  let i := w.extractLsb' 0 17
  let win := w.extractLsb' 15 2
  let o := w.extractLsb' 3 12
  let m := w.extractLsb' 0 3
  let bad : Except DecodeFault Instr := .error .pilotField
  let alu (r : BitVec 4 → BitVec 4 → Instr) (k : BitVec 4 → BitVec 17 → Instr) : Except DecodeFault Instr :=
    if b4 then (if b == 0 then .ok (k a i) else bad) else (if i == 0 then .ok (r a b) else bad)
  if 18 ≤ op then .error .pilotOp
  else if w.getLsbD 26 then bad
  else match op with
  | 0 => if !b4 && b == 0 && w.extractLsb' 6 11 == 0 && m == 0 then .ok (.ldp a (w.extractLsb' 3 3)) else bad
  | 1 => if !b4 && m == 0 && win != 3 then .ok (.ldq a b win o) else bad
  | 2 => if !b4 && m == 0 && win != 3 then .ok (.stq a b win o) else bad
  | 3 => if b4 then bad else if b == 0 then .ok (.ldi a i) else if b == 1 then .ok (.ldiSh a i) else bad
  | 4 => alu .pilotAddReg .pilotAddImm
  | 5 => alu .pilotSubReg .pilotSubImm
  | 6 => alu .pilotAndReg .pilotAndImm
  | 7 => alu .pilotOrReg .pilotOrImm
  | 8 => alu .pilotShlReg .pilotShlImm
  | 9 => alu .pilotShrReg .pilotShrImm
  | 10 => if !b4 && w.extractLsb' 14 3 != 7 then .ok (.cmpj a b (w.extractLsb' 14 3) (w.extractLsb' 0 14)) else bad
  | 11 =>
    let n := w.extractLsb' 0 7
    if a == 0 && !b4 && b == 0 && w.extractLsb' 12 5 == 0 && n != 0 && n.toNat ≤ 64 then
      .ok (.loop (w.extractLsb' 7 5) n)
    else bad
  | 12 => if a == 0 && !b4 && win == 2 && m == 0 then .ok (.launch b o) else bad
  | 13 =>
    if !b4 && win == 1 then
      if m == 0 then .ok (.signalStore a b o) else if m == 1 then .ok (.signalAdd a b o) else bad
    else bad
  | 14 => if !b4 && win == 1 && m.toNat ≤ 3 then .ok (.wait a b o m) else bad
  | 15 =>
    if a == 0 && !b4 && b == 0 && w.extractLsb' 2 15 == 0 && m != 0 then
      .ok (.pilotFence (w.getLsbD 1) (w.getLsbD 0))
    else bad
  | 16 => if a == 0 && !b4 && b == 0 && i == 0 then .ok .done else bad
  | _ => if !b4 && b == 0 && i == 0 then .ok (.err a) else bad

/-- A pilot-code word from its OP, A, B and IMM (R355). -/
def pilotWord (op : BitVec 5) (a : BitVec 4) (b : BitVec 5) (i : BitVec 17) : Word := op ++ (0#1 ++ (a ++ (b ++ i)))

/-- An address immediate (R355). -/
def addrImm (w : BitVec 2) (o : BitVec 12) (m : BitVec 3) : BitVec 17 := w ++ (o ++ m)

/-- The word of a pilot-code operation. -/
def Instr.pilotEncode : Instr → Option Word
  | .ldp a o => some (pilotWord 0 a 0 (0#11 ++ (o ++ 0#3)))
  | .ldq a b w o => some (pilotWord 1 a (0#1 ++ b) (addrImm w o 0))
  | .stq a b w o => some (pilotWord 2 a (0#1 ++ b) (addrImm w o 0))
  | .ldi a i => some (pilotWord 3 a 0 i)
  | .ldiSh a i => some (pilotWord 3 a 1 i)
  | .pilotAddReg a b => some (pilotWord 4 a (0#1 ++ b) 0)
  | .pilotAddImm a i => some (pilotWord 4 a 16 i)
  | .pilotSubReg a b => some (pilotWord 5 a (0#1 ++ b) 0)
  | .pilotSubImm a i => some (pilotWord 5 a 16 i)
  | .pilotAndReg a b => some (pilotWord 6 a (0#1 ++ b) 0)
  | .pilotAndImm a i => some (pilotWord 6 a 16 i)
  | .pilotOrReg a b => some (pilotWord 7 a (0#1 ++ b) 0)
  | .pilotOrImm a i => some (pilotWord 7 a 16 i)
  | .pilotShlReg a b => some (pilotWord 8 a (0#1 ++ b) 0)
  | .pilotShlImm a i => some (pilotWord 8 a 16 i)
  | .pilotShrReg a b => some (pilotWord 9 a (0#1 ++ b) 0)
  | .pilotShrImm a i => some (pilotWord 9 a 16 i)
  | .cmpj a b c t => some (pilotWord 10 a (0#1 ++ b) (c ++ t))
  | .loop l n => some (pilotWord 11 0 0 (0#5 ++ (l ++ n)))
  | .launch b o => some (pilotWord 12 0 (0#1 ++ b) (addrImm 2 o 0))
  | .signalStore a b o => some (pilotWord 13 a (0#1 ++ b) (addrImm 1 o 0))
  | .signalAdd a b o => some (pilotWord 13 a (0#1 ++ b) (addrImm 1 o 1))
  | .wait a b o c => some (pilotWord 14 a (0#1 ++ b) (addrImm 1 o c))
  | .pilotFence r q => some (pilotWord 15 0 0 (0#15 ++ (BitVec.ofBool r ++ BitVec.ofBool q)))
  | .done => some (pilotWord 16 0 0 0)
  | .err a => some (pilotWord 17 a 0 0)
  | _ => none

/-! ### Encoding and bytes -/

/-- The 128-bit word of a Yeloz instruction. -/
def Instr.encode (i : Instr) : Option QWord :=
  match i with
  | .illegalOpcode w => some w
  | _ =>
    match i.op, i.fields, i.cfields with
    | some op, some f, _ => some (f.toWord op)
    | some op, _, some c => some (c.toWord op)
    | _, _, _ => none

/-- Little-endian bytes as a number (R10). -/
def leNat : List Byte → Nat
  | [] => 0
  | b :: bs => b.toNat + 256 * leNat bs

/-- The first `n` little-endian bytes of a number. -/
def leBytes : Nat → Nat → List Byte
  | 0, _ => []
  | n + 1, x => BitVec.ofNat 8 x :: leBytes n (x / 256)

/-- Decode of the bytes of a warp's instruction stream: the instruction and what follows it. -/
def decodeBytes (bs : List Byte) : Except DecodeFault (Instr × List Byte) :=
  if bs.length < 16 then .error .tooShort else .ok (decodeWord (BitVec.ofNat 128 (leNat (bs.take 16))), bs.drop 16)

/-- Decode of the bytes of pilot code: the operation and what follows it. -/
def decodePilotBytes (bs : List Byte) : Except DecodeFault (Instr × List Byte) :=
  if bs.length < 4 then .error .tooShort
  else (decodePilot (BitVec.ofNat 32 (leNat (bs.take 4)))).map fun i => (i, bs.drop 4)

/-- The bytes of an instruction that has an encoding. -/
def Instr.encodeBytes (i : Instr) : Option (List Byte) :=
  match i.encode with
  | some w => some (leBytes 16 w.toNat)
  | none => i.pilotEncode.map fun w => leBytes 4 w.toNat

/-- The instruction that the decoder reads from a word of the opcode table: the 32-bit words are pilot code, the rest
are Yeloz words, whose bits above `nbits` are zero. -/
def decodeTableWord (nbits w : Nat) : Option Instr :=
  if nbits == 32 then
    match decodePilotBytes (leBytes 4 w) with
    | .ok r => some r.1
    | .error _ => none
  else
    match decodeBytes (leBytes 16 (w % 2 ^ nbits)) with
    | .ok r => some r.1
    | .error _ => none

end Sys2Proof
end

