-- ==== Sys2Proof/Machine/State.lean ====
section
/-! DEFINITION. Machine/State.lean: everything the spec gives the module, as plain data, and the module right after
reset. Numbered things stand in sparse tables (`tget`, `tset`): what is not listed holds its reset value. -/

namespace Sys2Proof.Machine

/-- Why the machine stops. -/
inductive Fault where
  /-- Raised by the meaning of a Yeloz instruction when no warp holds the turn's slot; a step never gets there, since
  a turn for a slot that does not exist issues nothing. Safe: the machine stops where the hardware has no such issue. -/
  | noWarp
  /-- Raised by the meaning of a pilot-code operation when the turn is no queue's; a step never gets there. Safe. -/
  | noQueue
  deriving DecidableEq, Repr

/-- Why an instruction has no meaning here. -/
inductive Refusal where
  /-- Raised by `exec` for an instruction that is not modelled yet. Safe: the machine stops. -/
  | notModelled (mnemonic : String)
  deriving DecidableEq, Repr

/-! ### Lanes (R13 to R16) -/

inductive LaneSt where
  | live | vacant | dead
  deriving DecidableEq, Repr

/-- A lane of a warp. The last three fields are of the lane's item: whether it has posted its record (R209), whether it
is replayable (R199, R31), and its arrival time. -/
structure Lane where
  st : LaneSt := .vacant
  v : List Word := []
  p : BitVec 16 := 0
  nc : Byte := 0
  tid : Word := 0
  iflow : Word := 0
  iclass : Word := 0
  iseq : Word := 0
  iid : Word := 0
  ipay : DWord := 0
  heir : Word := 0
  inher : Word := 0
  teams : List Word := []
  posted : Bool := false
  replay : Bool := false
  arrival : Nat := 0
  deriving DecidableEq, Repr

/-! ### Slots, paths and waits -/

/-- A lane's wait for a phase of a point of a team. -/
structure RzWait where
  lane : Nat
  team : Word
  pt : Nat
  phase : Word
  deriving DecidableEq, Repr

/-- What a slot waits for, with what an instruction that is presented again must remember (R121, R369). -/
inductive Why where
  /-- The whole warp waits at the packer (R205). -/
  | packer
  /-- `inext.w` waits for a fill that places a lane; lanes placed take this NC (R208, R15). Whether it has changed its
  slot's mask already (R121). -/
  | fill (nc : Byte) (changed : Bool)
  /-- `relabel`: lanes refused, lanes that have taken their label, lanes queued for a grant (R211). -/
  | relabel (refused done queued : Word)
  /-- `irel`: lanes whose record waits for a buffer (R210). -/
  | release (left : Word)
  /-- `wcmp`: its word, the values of the lanes that have left the loop, and the lanes that poll (R152, R153). -/
  | monitor (f : Fields) (done : List (Nat × DWord)) (polls : Word)
  /-- `rzwait`, `rzaw`: what each lane waits for, and the bits of the lanes that have finished (R193). -/
  | rendezvous (left : List RzWait) (bits : List (Nat × Bool))
  /-- An arrival at `regroup`, with its word (R179). -/
  | regroup (f : Fields)
  /-- A full or an empty pipe (R315). -/
  | pipe (n : Nat) (full : Bool)
  /-- Tags: every one of the mask, or some one; and one of them that `tclr` has freed meanwhile (R314). -/
  | tags (mask : DWord) (all : Bool) (lost : Option Nat)
  /-- An engine push: the lanes whose commands are submitted (R310). -/
  | push (q : Nat) (sent : Word)
  /-- `svc` waits for ring entries, or for a call to be resumed (R327). -/
  | svcRoom (n : Nat)
  | svcCall (id : Nat)
  /-- `sleep` until a device time (R331). -/
  | sleep (until_ : Nat)
  /-- A page fault of every lane: the outstanding request groups waited on (R131, R345). -/
  | page (groups : List Nat)
  /-- A reconvergence point reached in a fault-split (R132). -/
  | split
  /-- A request held in a stalled port (R387). -/
  | stall (peer : Nat)
  deriving DecidableEq, Repr

structure Waiting where
  why : Why
  since : Nat
  deriving DecidableEq, Repr

/-- A slot (R18, R120, R121): PC, mask, SIG and latched mask, whether its path was resumed part-way (R133), the pages
that the host refused while it waited (R346), what its instruction waits for, and what the fetch of it waits for. -/
structure Slot where
  pc : DWord := 0
  mask : Word := 0
  sig : Word := 0
  latched : Word := 0
  resumed : Bool := false
  denied : List DWord := []
  wait : Option Waiting := none
  fetch : Option Waiting := none
  deriving DecidableEq, Repr

/-- An entry of the reconvergence stack (R21). The last field is the model's own: of a fault-split, the lanes that were
parked (R131). -/
structure SEntry where
  pc : DWord
  mask : Word
  kind : Byte
  depth : Byte
  late : Word := 0
  deriving DecidableEq, Repr

/-- Lanes parked by a fault-split (R131): where they continue, the requests they wait on, the pages that were refused. -/
structure Parked where
  pc : DWord
  mask : Word
  groups : List Nat
  denied : List DWord := []
  deriving DecidableEq, Repr

/-- The control state that trap entry saves (R319). -/
structure Saved where
  port : Slot
  star : Slot
  ncs : List (Nat × Byte)
  /-- The stack and the parked paths below the entry mark, which the handler cannot see. -/
  stack : List SEntry
  parked : List Parked
  side : Side
  vec : Nat
  last : Side
  deriving DecidableEq, Repr

/-- Whether a warp is on its core, spilled to the park area (R369), or saved by a pre-emption with its control state
alone or in full (R373). -/
inductive Place where
  | resident | parked | savedControl | savedFull
  deriving DecidableEq, Repr

/-- A warp (R18). -/
structure Warp where
  uid : Nat
  core : Nat := 0
  wid : Nat := 0
  crew : Nat := 0
  launch : Nat := 0
  role : Nat := 0
  vN : Nat := 8
  sN : Nat := 8
  lanes : List Lane := []
  sregs : List Word := []
  /-- Which of s120 to s127 have been written outside the handler since the last trap (R19). -/
  soiled : Byte := 0
  port : Slot := {}
  star : Slot := {}
  /-- The slot that issued last (R120). -/
  last : Side := .star
  stack : List SEntry := []
  parked : List Parked := []
  flags : Word := 0
  rmode : Word := 0
  trapv : Word := 0
  trappc : DWord := 0
  trapinfo : DWord := 0
  trapmask : Word := 0
  mqp : List DWord := []
  handler : Option Saved := none
  /-- The deadline of a vector 0x10 that is due (R322, R373). -/
  due : Option Nat := none
  /-- The entry of a vector 0x0B that is due (R238). -/
  custDue : Option Nat := none
  place : Place := .resident
  /-- Its stack region in the park area, by number (R21). -/
  region : Nat := 0
  /-- The issue choice: when it was dispatched, or yielded; since when it is ready; whether it is promoted (R368). -/
  age : Nat := 0
  readySince : Nat := 0
  promoted : Bool := false
  deriving DecidableEq, Repr

/-! ### Crews and cores (R22 to R24) -/

inductive TKind where
  | f32 | i32 | f64
  deriving DecidableEq, Repr

/-- A tile (R245). An element is a raw code: 32 or 64 bits, or 34 or 66 in a wide tile (R92). -/
structure Tile where
  kind : TKind := .f32
  wide : Bool := false
  mask : Option (List Byte) := none
  el : List (BitVec 66) := []
  /-- It stays bad until it is written whole (R390). -/
  bad : Bool := false
  deriving DecidableEq, Repr

/-- An envelope register (R277): the domain and the lines, in strictly rising slope; and whether it stays bad until it
is written whole (R390). -/
structure Env where
  lo : DWord := 0xFFF0000000000000
  hi : DWord := 0x7FF0000000000000
  lines : List (DWord × DWord) := []
  bad : Bool := false
  deriving DecidableEq, Repr

/-- An entry of a pipe (R315). -/
structure PipeEnt where
  mask : Word
  els : List Word
  deriving DecidableEq, Repr

/-- A completion tag that a crew owns: in flight, or done with or without error (R311). -/
structure Tag where
  n : Nat
  done : Bool := false
  err : Bool := false
  deriving DecidableEq, Repr

/-- A pre-emption request as a crew goes through it (R373). -/
inductive Preempt where
  /-- Step 1: asked at a time, deferred while a point is partly arrived. -/
  | deferred (asked : Nat)
  /-- Step 2: vector 0x10 is due, with the deadline of the forced save. -/
  | grace (deadline : Nat)
  deriving DecidableEq, Repr

/-- A crew (R22, R312, R315, R373). -/
structure Crew where
  uid : Nat
  launch : Nat := 0
  core : Nat := 0
  nT : Nat := 0
  nE : Nat := 0
  nL : Nat := 0
  tiles : List Tile := []
  envs : List Env := []
  loc : List Host.Cell := []
  /-- Lines of local memory that stay bad until they are written whole (R390). -/
  locBad : List Nat := []
  etol : DWord := 0
  pipes : List (List PipeEnt) := []
  tags : List Tag := []
  pre : Option Preempt := none
  deriving DecidableEq, Repr

/-- A replacement class (R340). -/
inductive ECls where
  | first | normal | last
  deriving DecidableEq, Repr

/-- A combining operation of an update-only line (R148, R338). -/
inductive ROp where
  | add | min | max | or
  deriving DecidableEq, Repr

inductive L1St where
  /-- A clean copy of 128 bytes. -/
  | clean (data : List Byte)
  /-- Partials by byte offset. -/
  | upd (op : ROp) (ty : DType) (parts : List (Nat × DWord))
  deriving DecidableEq, Repr

/-- A line of an L1 (R333, R338). -/
structure L1Line where
  line : Nat
  pasid : Nat
  st : L1St
  cls : ECls := .normal
  /-- The copy is bad until it is written whole or leaves the L1 (R390). -/
  bad : Bool := false
  deriving DecidableEq, Repr

/-- What a slice's L2 holds of a line: one of the HBM addresses that it homes, whose bytes are memory's own; the copy of
one of host or CXL memory (R336); a replica, of the launch that made it (R337). -/
inductive L2St where
  | home
  | copy (data : List Byte)
  | replica (launch : Nat) (data : List Byte)
  deriving DecidableEq, Repr

/-- A line of the L2 of a physical slice (R336, R340). -/
structure L2Line where
  unit : Nat
  line : Nat
  st : L2St := .home
  cls : ECls := .normal
  deriving DecidableEq, Repr

/-- An instruction word that a core's instruction cache holds (R54, R335). -/
structure Code where
  pasid : Nat
  key : Nat
  word : QWord
  deriving DecidableEq, Repr

/-- A core: its L1, its instruction cache, the tags of retired crews, each with the command whose completion frees it
(R311), its signature kills (R392). -/
structure Core where
  l1 : List L1Line := []
  /-- The instruction cache, the last fetched first. -/
  code : List Code := []
  orphans : List (Nat × Nat) := []
  sigKills : Nat := 0
  deriving DecidableEq, Repr

/-- A weak store that its home has not performed yet (R141, R160), or a request outstanding at a fabric peer (R387). -/
structure Pend where
  core : Nat
  uid : Nat
  side : Side
  /-- The thread that made it. -/
  tid : Word := 0xFFFFFFFF
  pasid : Nat
  queue : Nat
  key : Nat
  bytes : List Byte
  /-- The fabric peer's chart index and port under which it was sent. -/
  peer : Option Nat := none
  /-- The class that its hint gives the line at its home (R340). -/
  hint : Option ECls := none
  deriving DecidableEq, Repr

/-! ### Launches and items (R31, R198 to R202) -/

structure Role where
  entry : Word
  lanes : Nat
  v8 : Nat
  s8 : Nat
  tiles : Nat
  envs : Nat
  kib : Nat
  deriving DecidableEq, Repr

/-- A launch record as read (R31). -/
structure LRec where
  item : Bool
  fused : Bool
  chain : Bool
  replay : Bool
  prio : Nat
  custodian : Bool
  count : Nat
  code : DWord
  roles : List Role
  trapEntry : DWord
  ring : DWord
  args : DWord
  signal : DWord
  crewSize : Nat
  binds : Word
  fslots : List DWord
  deriving DecidableEq, Repr

/-- Why an item is held (R201 to R203, R214). -/
inductive HeldSt where
  | table | waiting
  /-- Granted its flow, with the FB read at the grant, and when in the order of grants. -/
  | granted (fb : Bool) (n : Nat)
  /-- A replayed item: it is placed as it ran before. Whether its exclusivity is kept for it (R214). -/
  | replayed (fb kept : Bool)
  deriving DecidableEq, Repr

/-- An item on a launch's held list (R202). -/
structure Held where
  flow : Word
  cls : BitVec 2
  replay : Bool
  pay : DWord
  iid : Word
  iseq : Word
  arrival : Nat
  st : HeldSt
  deriving DecidableEq, Repr

/-- A launch (R362 to R366). -/
structure Launch where
  uid : Nat
  queue : Nat
  gen : Half
  pasid : Nat
  recAddr : DWord
  lrec : LRec
  tidBase : Option Nat := none
  nextCrew : Nat := 0
  /-- The clusters that a fused launch has taken for itself (R334). -/
  clusters : List Nat := []
  held : List Held := []
  nextIid : Word := 0
  /-- ASSIST as it stood at the launch (R29, R396). -/
  assist : Word := 0
  /-- Step 1 of the end is done and the signal is still owed: the pages it waits on, whether one was refused (R362). -/
  ending : Bool := false
  groups : List Nat := []
  denied : Bool := false
  deriving DecidableEq, Repr

/-! ### Contexts (R184 to R239, R371, R377) -/

/-- An estate entry (R220). -/
structure Entry where
  object : DWord := 0
  holder : Word := 0
  heir : Word := 0
  from_ : Word := 0
  kind : BitVec 4 := 0
  state : BitVec 3 := 0
  brv : Bool := false
  unack : Bool := false
  sys : Bool := false
  time : DWord := 0
  deriving DecidableEq, Repr

/-- Who waits for a flow (R200): a lane's thread in `relabel`, or a held item of a launch. -/
inductive Waiter where
  | thread (tid : Word)
  | held (launch : Nat) (iid : Word)
  deriving DecidableEq, Repr

/-- A buffered release record (R209): its bytes by where they are written, the target's address, and whose it is. -/
structure Rec where
  parts : List (Nat × List Byte)
  addr : DWord
  queue : Nat
  tid : Word
  deriving DecidableEq, Repr

/-- A flow (R200), with the records and voids that its home holds (R209). -/
structure Flow where
  id : Word
  owner : Word := 0xFFFFFFFF
  fb : Bool := false
  assign : Word := 0
  release : Word := 0
  waiters : List Waiter := []
  recs : List (Word × Option Rec) := []
  deriving DecidableEq, Repr

/-- A member's state at a point (R192). -/
inductive MSt where
  | due | arrived | new | early
  deriving DecidableEq, Repr

/-- A rendezvous point (R190 to R192). -/
structure Point where
  init : Bool := false
  p : Word := 0
  x : Int := 0
  a : Nat := 0
  j : Int := 0
  y : Nat := 0
  b : Bool := false
  bw : Word := 0
  st : List (Word × MSt) := []
  deriving DecidableEq, Repr

/-- A team (R184, R185): its members in the order of joining. -/
structure Team where
  gen : BitVec 15 := 0
  used : Bool := false
  members : List Word := []
  points : List Point := []
  deriving DecidableEq, Repr

/-- A deceased thread of an event (R233): its TID, its HEIR, where it ran and for which queue. -/
structure Dead where
  tid : Word
  heir : Word
  teams : List Word
  core : Nat
  uid : Nat
  queue : Nat
  pc : DWord
  /-- Its death is a death, and no orderly end with holdings. -/
  died : Bool
  deriving DecidableEq, Repr

/-- A death event under way (R233 to R237). -/
structure Death where
  dead : List Dead
  /-- Steps 1 and 2 of R169 are done. -/
  fenced : Bool := false
  /-- The queue whose reset this is. -/
  reset : Option Nat := none
  /-- The pages that a conveyance waits on, and whether one of them was refused. -/
  groups : List Nat := []
  denied : Bool := false
  deriving DecidableEq, Repr

/-- A host-service call (R326, R327): its entries by lane, and once the host has resumed it the results of each lane
that has some. -/
structure Call where
  id : Nat
  uid : Nat
  side : Side
  entries : List (Nat × DWord)
  ready : Bool := false
  results : List (Nat × List Byte) := []
  deriving DecidableEq, Repr

/-- A fault record (R377). -/
structure FaultRec where
  time : DWord
  code : Byte
  source : Byte
  outcome : Byte
  aux : Byte
  tid : Word
  queue : Half
  gen : Half
  lanes : Word
  pc : DWord
  addr : DWord
  prog0 : DWord
  prog1 : DWord
  place : Word
  deriving DecidableEq, Repr

/-- The fields of a context record (R371). -/
structure CRec where
  root : DWord := 0
  estate : DWord := 0
  estateLog : Nat := 0
  flowLog : Nat := 10
  flow : DWord := 0
  team : DWord := 0
  service : DWord := 0
  park : DWord := 0
  parkSize : DWord := 0
  log : DWord := 0
  logLog : Nat := 4
  grace : Nat := 50
  deferral : Nat := 500
  deriving DecidableEq, Repr

/-- What the device has yet to write into a structure of a context: bytes, or a fault record. -/
inductive LateDo where
  | bytes (va : DWord) (bs : List Byte)
  | record (r : FaultRec)
  deriving DecidableEq, Repr

/-- The same, with the page requests that it waits on (R345). -/
structure Late where
  what : LateDo
  groups : List Nat
  deriving DecidableEq, Repr

/-- A context (R5, R371): its record, and what the device keeps for it. -/
structure Ctx where
  pasid : Nat
  /-- Where the record lies; an enabled queue names it (R347). -/
  addr : DWord := 0
  crec : CRec := {}
  /-- The base slice of its partition, and ASSIST as it stood at the last enable, mapping or launch (R396). -/
  part : Nat := 0
  assist : Word := 0
  estate : List Entry := []
  flows : List Flow := []
  teams : List Team := []
  deaths : List Death := []
  /-- Entries whose vector 0x0B has not been delivered (R238). -/
  heirless : List Nat := []
  /-- The fault log: the records appended, the write index, the records dropped. -/
  log : List FaultRec := []
  logW : Nat := 0
  dropped : Nat := 0
  calls : List Call := []
  nextCall : Nat := 0
  late : List Late := []
  suspended : Bool := false
  /-- A suspend has been asked and is not complete (R404). -/
  suspending : Bool := false
  deriving DecidableEq, Repr

/-- An outstanding page request (R345). -/
structure PageReq where
  pasid : Nat
  group : Nat
  queue : Nat
  gen : Half
  page : DWord
  r : Bool
  w : Bool
  x : Bool
  deriving DecidableEq, Repr

/-! ### Queues (R347 to R361) -/

inductive QSt where
  | disabled | ready | pending | mapped | waiting | faulted | resetting
  deriving DecidableEq, Repr

/-- A loop being run: the words of its body, and the passes left. -/
structure Loop where
  first : Nat
  past : Nat
  left : Nat
  deriving DecidableEq, Repr

/-- A queue: its table entry (R347) and its interpreter (R355, R359). -/
structure Queue where
  ring : DWord := 0
  logSize : Byte := 0
  prio : BitVec 3 := 0
  preemptible : Bool := false
  gen : Half := 0
  pasid : BitVec 20 := 0
  ctx : DWord := 0
  pilot : DWord := 0
  pilotLen : Half := 0
  st : QSt := .disabled
  reason : Byte := 0
  detail : DWord := 0
  rdx : DWord := 0
  wrx : DWord := 0
  sigBase : DWord := 0
  sigLen : Word := 0
  launchLen : Word := 0
  launchBase : DWord := 0
  faultTime : DWord := 0
  /-- The hardware slot, since when, and whether the host mapped it (R351, R354). -/
  slot : Option Nat := none
  mappedAt : Nat := 0
  byHost : Bool := false
  /-- Whether it has had its pre-emption request since it holds the slot (R373). -/
  sliced : Bool := false
  /-- The pending bit (R351) and when it was set; whether its 1 ms interrupt was raised, and whether the slot-pressure
  count counts this wait (R353). -/
  pend : Option Nat := none
  told : Bool := false
  counted : Bool := false
  /-- The checked code, the registers, the interpreter's place in the current packet (R355, R359). -/
  code : List Word := []
  k : List DWord := []
  pc : Nat := 0
  loops : List Loop := []
  budget : Nat := 512
  /-- Inside a packet: the registers are those of the packet at the read index. -/
  busy : Bool := false
  /-- The packet has had an effect (R378, code 0x46). -/
  effects : Bool := false
  /-- Enabled, with its pilot code still to be read and checked (R348). -/
  loading : Bool := false
  /-- Pages awaited by a pilot access, or by an enable; whether one of them was refused. -/
  page : List Nat := []
  denied : Bool := false
  /-- Host launches whose record's page is awaited (R349, R395). -/
  hosts : List (DWord × List Nat) := []
  deriving DecidableEq, Repr

/-! ### The device (R354, R370, R381 to R408) -/

/-- A chart entry (R386). Its DRAINED bit is what `State.drained` computes. -/
structure Chart where
  st : BitVec 2 := 0
  new : BitVec 24 := 0
  phys : BitVec 24 := 0
  deriving DecidableEq, Repr

inductive Tdi where
  | unlocked | locked | run | error
  deriving DecidableEq, Repr

/-- A posted invalidation (R370). -/
structure Inval where
  seq : DWord
  base : DWord
  len : DWord
  who : Word
  deriving DecidableEq, Repr

/-- A partition (R381, R382, R370, R385, R397, R402). -/
structure Part where
  base : Nat
  size : Nat
  chart : List (Nat × Chart) := []
  chartErr : Nat := 0
  mbBase : DWord := 0
  mbLen : DWord := 0
  mbWho : Word := 0
  mbBell : DWord := 0
  mbDone : DWord := 0
  invals : List Inval := []
  tdi : Tdi := .unlocked
  deriving DecidableEq, Repr

/-- The mapper's status page (R354), apart from what the queues hold. -/
structure Mapper where
  pressure : Word := 0
  stale : Word := 0
  droppedResume : Word := 0
  suspendDone : Word := 0
  mapResult : BitVec 4 := 0
  assist : List Word := []
  devVec : List Half := []
  devPend : BitVec 4 := 0
  qPend : List Bool := []
  qVec : List Half := []
  deriving DecidableEq, Repr

/-- A monitor entry of a home slice (R152), armed by a lane of a slot or by a queue's WAIT. -/
inductive Watcher where
  | lane (uid : Nat) (side : Side) (lane : Nat)
  | queue (q : Nat)
  deriving DecidableEq, Repr

structure Monitor where
  who : Watcher
  line : Nat
  /-- The home slice that holds the entry. -/
  home : Nat := 0
  hit : Bool := false
  deriving DecidableEq, Repr

/-- A TLB (R342): a core's, a cluster's, or the last-level one of a compute die. -/
inductive TlbAt where
  | core (n : Nat)
  | cluster (n : Nat)
  | die (n : Nat)
  deriving DecidableEq, Repr

/-- A translation that a TLB holds: an ATS reply, or a page of the tables (R342, R344). -/
structure Tlb where
  at_ : TlbAt := .die 0
  pasid : Nat
  va : DWord
  log : Nat
  pa : DWord
  mem : BitVec 2
  sysatom : Bool
  r : Bool
  w : Bool
  x : Bool
  deriving DecidableEq, Repr

/-- A translation asked of the host, and the core that asked (R342). -/
structure AtsReq where
  pasid : Nat
  page : DWord
  core : Nat
  deriving DecidableEq, Repr

inductive Engine where
  | copy | gather | coll
  deriving DecidableEq, Repr

/-- An engine command (R307 to R311). -/
structure Cmd where
  id : Nat
  eng : Engine
  words : List DWord
  tag : Nat
  crew : Nat
  core : Nat
  uid : Nat
  qreg : Nat
  tid : Word
  queue : Nat
  gen : Half
  pasid : Nat
  /-- The engine whose buffer it is in. -/
  at_ : Option Nat := none
  /-- Bytes or rows done; the page requests it waits on; whether a translation was refused. -/
  done : Nat := 0
  groups : List Nat := []
  denied : Bool := false
  /-- A collective: the phase it arrived for, and what its buffer receives once that has completed (R308). -/
  phase : Word := 0
  result : Option (List Nat) := none
  /-- The `qpush` that submitted it. -/
  pc : DWord := 0
  deriving DecidableEq, Repr

/-- A queue register that an engine has accepted a command of (R310). -/
structure Served where
  eng : Engine
  at_ : Nat
  uid : Nat
  qreg : Nat
  deriving DecidableEq, Repr

/-- A queue's WAIT saved by a suspend (R404). -/
structure Watch where
  ofs : DWord
  val : DWord
  cmp : BitVec 3
  queue : Nat
  deriving DecidableEq, Repr

/-- Voltage guard-band and power state (R393, R408). -/
structure Power where
  /-- Corrected errors of the current window, by array; errors counted in all. -/
  window : List Nat := []
  total : List Nat := []
  threshold : Nat := 16
  /-- Steps of 6.25 mV below nominal, by rail; windows at or below the threshold since it was raised; pinned steps. -/
  below : List Nat := []
  quiet : List Nat := []
  /-- When the current window ends. -/
  nextWindow : Nat := 1000000000
  pinned : List (Option Nat) := []
  /-- The host's cap in watts, the clock in MHz. -/
  cap : Nat := 3200
  clock : Nat := 1000
  /-- The module is down: only a boot brings it back. -/
  down : Bool := false
  /-- The device error log (R393, R407): kinds and numbers. -/
  errLog : List (Nat × Nat) := []
  deriving DecidableEq, Repr

/-- Where an SPDM connection stands (R406). -/
inductive Spdm where
  | start | version | caps | algs
  deriving DecidableEq, Repr

/-- Boot, attestation and management (R405 to R407). -/
structure Sec where
  booted : Bool := false
  recovery : Bool := false
  fuse : Nat := 0
  /-- Measurement blocks 1 to 6 at indices 0 to 5. -/
  meas : List Nat := []
  spdm : Spdm := .start
  /-- Sessions: id, and whether FINISH has been received. -/
  sessions : List (Nat × Bool) := []
  deriving DecidableEq, Repr

/-- What the module sends to the outside. -/
inductive Out where
  /-- An MSI-X interrupt (R400). -/
  | msix (vector : Nat)
  /-- A PRI page request (R345), and whether the partition's IDE stream protects it (R397, R403). -/
  | pri (req : PageReq) (ide : Bool)
  /-- An ATS translation request (R342), and the same. -/
  | ats (pasid : Nat) (va : DWord) (ide : Bool)
  /-- An SPDM or MCTP answer: what it answers, and its numbers and bytes (R406, R407). -/
  | answer (what : String) (nums : List Nat) (bytes : List Byte)
  /-- The answer to an SPDM request made out of turn, or to a message that the responder does not support. -/
  | errorAnswer
  /-- A completion of a host or peer access: its data, or a refusal (R397, R399, R402). -/
  | completion (data : List Byte)
  | unsupported
  | refusedExport
  /-- An abort completion, of a read that meets an uncorrectable error (R390). -/
  | aborted
  deriving DecidableEq, Repr

/-! ### Who moves next (log entry 1) -/

/-- A mover: a slot of a warp, the interpreter of a queue, a step of the device or its surroundings, or no one while
time passes. -/
inductive Act where
  | idle
  | slot (uid : Nat) (side : Side)
  | pilot (queue : Nat)
  | event (i : Instr)
  deriving DecidableEq, Repr

/-- A turn of the agenda: how much device time passes before it, and who moves. -/
structure Turn where
  dt : Nat
  act : Act
  deriving DecidableEq, Repr

/-- The issue ports of a core (R367). -/
inductive Port where
  | vector | second
  deriving DecidableEq, Repr

/-- An issue of the current cycle (R367): the core, the port, the slot. -/
structure Issued where
  core : Nat
  port : Port
  uid : Nat
  side : Side
  deriving DecidableEq, Repr

/-- The module. -/
structure State where
  now : Nat
  mem : List Host.Cell
  /-- Lines that stay bad until they are written whole (R390). -/
  bad : List Nat
  warps : List Warp
  crews : List Crew
  cores : List Core
  launches : List Launch
  ctxs : List Ctx
  queues : List Queue
  parts : List Part
  /-- The owner, by base slice, of each copy group (R382). -/
  copyGroups : List (Option Nat)
  /-- The export limit of each port (R402). -/
  outLimits : List DWord
  mapper : Mapper
  monitors : List Monitor
  pends : List Pend
  /-- The L2s of the slices, each line as old as its place tells (R336, R337, R340). -/
  l2 : List L2Line
  /-- The lines of host and CXL memory held over CXL.cache, the oldest first (R398). -/
  cxlLines : List Nat
  pageReqs : List PageReq
  tlb : List Tlb
  /-- ATS requests outstanding (R342). -/
  atsReqs : List AtsReq
  cmds : List Cmd
  /-- The queue registers that engines have served, the last served of an engine last (R310). -/
  served : List Served
  watches : List Watch
  /-- Quiesce acknowledgements received, by port and peer (R404). -/
  acks : List (Nat × Nat)
  /-- Lane deaths by uncorrectable error, by cluster and time (R388). -/
  laneDeaths : List (Nat × Nat)
  /-- Clusters that have failed and are not replaced; dies whose spare is in use (R388, R389). -/
  failed : List Nat
  sparesUsed : List Nat
  power : Power
  sec : Sec
  /-- Lanes of the host link (R397). -/
  linkLanes : Nat
  /-- Everything sent to the outside, oldest first. -/
  sent : List Out
  /-- The model's own: serial numbers of warps, crews, launches and commands. -/
  serial : Nat
  /-- The model's own: the free values used so far (log entry 6). -/
  free : Nat
  /-- The model's own: who moves next, and who moves now (log entry 1). -/
  agenda : List Turn
  turn : Option Act
  /-- The issues of the current cycle (R367). -/
  cycle : List Issued
  deriving DecidableEq, Repr

/-- The module right after the device's own reset: time 0 (R12), nothing in memory, every queue disabled, one
partition over the whole module and every copy group (log entry 7), and nothing booted (R405). -/
def State.reset : State where
  now := 0
  mem := []
  bad := []
  warps := []
  crews := []
  cores := []
  launches := []
  ctxs := []
  queues := []
  parts := [{ base := 0, size := 12 }]
  copyGroups := List.replicate 12 (some 0)
  outLimits := []
  mapper := {}
  monitors := []
  pends := []
  l2 := []
  cxlLines := []
  pageReqs := []
  tlb := []
  atsReqs := []
  cmds := []
  served := []
  watches := []
  acks := []
  laneDeaths := []
  failed := []
  sparesUsed := []
  power := {}
  sec := {}
  linkLanes := 16
  sent := []
  serial := 0
  free := 0
  agenda := []
  turn := none
  cycle := []

end Sys2Proof.Machine
end

