-- ==== Sys2Proof/Machine/Mem.lean ====
section
/-! DEFINITION. Machine/Mem.lean: the bytes of all memories under one key, in one canonical form: keys strictly
rising, and no byte listed that equals what an unlisted one reads as (log entries 3 and 4). -/

namespace Sys2Proof.Machine

abbrev Memory := List Host.Cell

/-- What a byte that nothing has written reads as (log entry 3). -/
def blank : Byte := 0

/-- The byte at a key. -/
def Memory.get : Memory → Nat → Byte
  | [], _ => blank
  | c :: m, a => if a == c.1 then c.2 else Memory.get m a

/-- Every entry of a key left out. -/
def Memory.drop : Memory → Nat → Memory
  | [], _ => []
  | c :: m, a => if a == c.1 then Memory.drop m a else c :: Memory.drop m a

/-- An entry put before the first with a greater key. -/
def Memory.put : Memory → Nat → Byte → Memory
  | [], a, b => [(a, b)]
  | c :: m, a, b => if a < c.1 then (a, b) :: c :: m else c :: Memory.put m a b

/-- A byte put at a key; a blank one leaves no entry. -/
def Memory.set (m : Memory) (a : Nat) (b : Byte) : Memory :=
  if b == blank then m.drop a else (m.drop a).put a b

/-- Whether every key is above a bound and rising, and every byte is not blank. -/
def Memory.above : Option Nat → Memory → Bool
  | _, [] => true
  | lo, c :: m => (match lo with | none => true | some x => x < c.1) && c.2 != blank && Memory.above (some c.1) m

/-- The canonical form. -/
def Memory.wf (m : Memory) : Bool := Memory.above none m

/-- `n` bytes from a key on. -/
def Memory.read (m : Memory) (a n : Nat) : List Byte := (List.range n).map fun i => m.get (a + i)

/-- Bytes put from a key on. -/
def Memory.write (m : Memory) (a : Nat) (bs : List Byte) : Memory :=
  match bs with
  | [] => m
  | b :: bs => Memory.write (m.set a b) (a + 1) bs

/-- `n` bytes as a number, little-endian (R10). -/
def Memory.num (m : Memory) (a n : Nat) : Nat := leNat (m.read a n)

/-- The low `n` bytes of a number, put from a key on. -/
def Memory.putNum (m : Memory) (a n x : Nat) : Memory := m.write a (leBytes n x)

end Sys2Proof.Machine
end

