-- ==== Sys2Proof/Machine/Find.lean ====
section
/-! DEFINITION. Machine/Find.lean: reading and replacing the numbered parts of the state. What is not listed reads
as at reset. -/

namespace Sys2Proof.Machine

/-- The first part that passes a test is replaced, or the part is appended. -/
def putBy {α : Type} (same : α → Bool) (x : α) : List α → List α
  | [] => [x]
  | y :: l => if same y then x :: l else y :: putBy same x l

def LRec.zero : LRec where
  item := false
  fused := false
  chain := false
  replay := false
  prio := 0
  custodian := false
  count := 0
  code := 0
  roles := []
  trapEntry := 0
  ring := 0
  args := 0
  signal := 0
  crewSize := 0
  binds := 0
  fslots := []

def State.warp? (s : State) (uid : Nat) : Option Warp := s.warps.find? fun w => w.uid == uid

/-- The warp of that serial number is replaced. -/
def State.setWarp (s : State) (w : Warp) : State :=
  { s with warps := s.warps.map fun x => if x.uid == w.uid then w else x }

def State.crew? (s : State) (uid : Nat) : Option Crew := s.crews.find? fun c => c.uid == uid

def State.crew (s : State) (uid : Nat) : Crew := (s.crew? uid).getD { uid := uid }

def State.setCrew (s : State) (c : Crew) : State :=
  { s with crews := s.crews.map fun x => if x.uid == c.uid then c else x }

def State.launch? (s : State) (uid : Nat) : Option Launch := s.launches.find? fun l => l.uid == uid

def State.launch (s : State) (uid : Nat) : Launch :=
  (s.launch? uid).getD
    { uid := uid, queue := 0, gen := 0, pasid := 0, recAddr := 0, lrec := .zero }

def State.setLaunch (s : State) (l : Launch) : State :=
  { s with launches := s.launches.map fun x => if x.uid == l.uid then l else x }

def State.ctx (s : State) (pasid : Nat) : Ctx :=
  (s.ctxs.find? fun c => c.pasid == pasid).getD { pasid := pasid }

def State.setCtx (s : State) (c : Ctx) : State := { s with ctxs := putBy (fun x => x.pasid == c.pasid) c s.ctxs }

def State.queue (s : State) (q : Nat) : Queue := tget {} s.queues q

def State.setQueue (s : State) (q : Nat) (x : Queue) : State := { s with queues := tset {} s.queues q x }

def State.core (s : State) (c : Nat) : Core := tget {} s.cores c

def State.setCore (s : State) (c : Nat) (x : Core) : State := { s with cores := tset {} s.cores c x }

/-- The partition that owns a slice, one of the whole module where none is listed (log entry 7). -/
def State.partOf (s : State) (slice : Nat) : Part :=
  (s.parts.find? fun p => p.base ≤ slice && slice < p.base + p.size).getD { base := 0, size := 12 }

def State.setPart (s : State) (p : Part) : State :=
  { s with parts := s.parts.map fun x => if x.base == p.base then p else x }

/-- The partition that a context runs in. -/
def State.ctxPart (s : State) (pasid : Nat) : Part := s.partOf (s.ctx pasid).part

/-- The assist word of a partition (R29, R396). -/
def State.assist (s : State) (p : Part) : Word := tget 0 s.mapper.assist p.base

/-- The cluster and the slice of a core (R2). -/
def clusterOf (core : Nat) : Nat := core / 16

def sliceOf (core : Nat) : Nat := core / 64

/-- Device time as a 64-bit count (R12). -/
def State.time (s : State) : DWord := BitVec.ofNat 64 s.now

/-! ### Warps, lanes and slots -/

def Warp.lane (w : Warp) (l : Nat) : Lane := tget {} w.lanes l

/-- The lanes of a mask, each changed. -/
def Warp.mapLanes (w : Warp) (m : Word) (f : Nat → Lane → Lane) : Warp :=
  { w with lanes := (List.range 32).map fun l => if m.getLsbD l then f l (w.lane l) else w.lane l }

def Warp.slot (w : Warp) : Side → Slot
  | .port => w.port
  | .star => w.star

def Warp.setSlot (w : Warp) (side : Side) (x : Slot) : Warp :=
  match side with
  | .port => { w with port := x }
  | .star => { w with star := x }

def otherSide : Side → Side
  | .port => .star
  | .star => .port

/-- The live lanes (R13). -/
def Warp.live (w : Warp) : Word := maskOf fun l => (w.lane l).st == .live

def Warp.deadMask (w : Warp) : Word := maskOf fun l => (w.lane l).st == .dead

def Warp.vacant (w : Warp) : Word := maskOf fun l => (w.lane l).st == .vacant

/-- The active lanes of a slot (R14): AMASK. -/
def Warp.active (w : Warp) (side : Side) : Word := (w.slot side).mask &&& w.live

/-- A predicate of a lane; `pt` reads 1 (R16). -/
def Lane.pred (x : Lane) (n : BitVec 4) : Bool := n == 15 || x.p.getLsbD n.toNat

/-- A predicate written; a write of `pt` is discarded (R16). -/
def Lane.setPred (x : Lane) (n : BitVec 4) (b : Bool) : Lane :=
  if n == 15 then x
  else { x with p := if b then x.p ||| (1#16 <<< n.toNat) else x.p &&& ~~~(1#16 <<< n.toNat) }

/-- A vector register of a lane; `vz` reads 0 (R16). -/
def Lane.reg (x : Lane) (n : Nat) : Word := if n == 255 then 0 else tget 0 x.v n

/-- A vector register written; a write of `vz` is discarded (R16). -/
def Lane.setReg (x : Lane) (n : Nat) (b : Word) : Lane := if n == 255 then x else { x with v := tset 0 x.v n b }

/-- A team register (R16); none is all ones. -/
def Lane.team (x : Lane) (k : Nat) : Word := tget 0xFFFFFFFF x.teams k

def Lane.setTeam (x : Lane) (k : Nat) (h : Word) : Lane := { x with teams := tset 0xFFFFFFFF x.teams k h }

def Warp.sreg (w : Warp) (n : Nat) : Word := tget 0 w.sregs n

/-- A scalar register written; outside the handler a write to s120 to s127 is remembered (R19). -/
def Warp.setSreg (w : Warp) (n : Nat) (b : Word) : Warp :=
  { w with sregs := tset 0 w.sregs n b,
           soiled := if w.handler.isNone && decide (120 ≤ n) then w.soiled ||| (1#8 <<< (n - 120)) else w.soiled }

/-- Whether a guard holds on a lane (R38). -/
def guardHolds (g : Guard) (x : Lane) : Bool := x.pred g.p != g.neg

/-- The lanes that take part under two guards (R14). -/
def Warp.takesPart (w : Warp) (side : Side) (g1 g2 : Guard) : Word :=
  let m := w.active side
  maskOf fun l => m.getLsbD l && guardHolds g1 (w.lane l) && guardHolds g2 (w.lane l)

/-- What a warp may name (R17, R19, R22). -/
def State.allotOf (s : State) (w : Warp) : Allot :=
  let c := s.crew w.crew
  ⟨w.vN, w.sN, c.nT, c.nE⟩

/-- The flags set, never cleared (R27). -/
def Warp.orFlags (w : Warp) (f : Word) : Warp := { w with flags := w.flags ||| f }

end Sys2Proof.Machine
end

