-- ==== Sys2Proof/Machine/Paths.lean ====
section
/-! DEFINITION. Machine/Paths.lean: the paths of a warp: blocks, the reconvergence stack, lanes that leave, joins that
complete, and slots that take a waiting path (R120 to R132). The top of the stack is the head of its list. -/

namespace Sys2Proof.Machine

/-! ### Blocks and reckoning signatures (R121) -/

/-- A block entered: SIG is 0 and the mask is latched. -/
def Slot.enter (x : Slot) : Slot := { x with sig := 0, latched := x.mask, resumed := false }

/-- One bit of the reflected CRC-32C. -/
def crcBit (c : Word) : Word := if c.getLsbD 0 then (c >>> 1) ^^^ 0x82F63B78#32 else c >>> 1

def crcByte (c : Word) (b : Byte) : Word :=
  crcBit (crcBit (crcBit (crcBit (crcBit (crcBit (crcBit (crcBit (c ^^^ b.setWidth 32))))))))

/-- SIG extended by bytes: the CRC-32C of what it covered and these after it. An empty block has 0. -/
def crcExtend (sig : Word) (bs : List Byte) : Word := ~~~(bs.foldl crcByte (~~~sig))

/-- A path that starts a block at a PC. -/
def freshPath (pc : DWord) (m : Word) : Slot := { pc := pc, mask := m, latched := m }

/-! ### The stack (R21) -/

/-- How many entries the warp's stack holds, below a handler's entry mark as well. -/
def Warp.depth (w : Warp) : Nat := w.stack.length + (match w.handler with | some h => h.stack.length | none => 0)

/-- Whether a push would make a 513th entry. -/
def Warp.full (w : Warp) : Bool := 512 ≤ w.depth

def Warp.push (w : Warp) (e : SEntry) : Warp := { w with stack := e :: w.stack }

/-- The first element that passes a test, and the others. -/
def takeFirst {α : Type} (p : α → Bool) : List α → Option (α × List α)
  | [] => none
  | x :: l => if p x then some (x, l) else (takeFirst p l).map fun (y, r) => (y, x :: r)

/-- The nesting counter of the lanes of a mask, changed (R120: the lanes of a slot have one). -/
def Warp.addNc (w : Warp) (m : Word) (d : Byte) : Warp := w.mapLanes m fun _ x => { x with nc := x.nc + d }

/-- The nesting counter of a slot: that of its lowest lane. -/
def Warp.nc (w : Warp) (side : Side) : Byte :=
  match lowLane (w.slot side).mask with
  | some l => (w.lane l).nc
  | none => 0

/-! ### Waiting paths (R127) -/

/-- A slot that waits with no lane: at the packer (R205), or in `inext.w` while the warp has no live lane (R208). -/
def Warp.idleWait (w : Warp) (side : Side) : Bool :=
  match (w.slot side).wait with
  | some ⟨.packer, _⟩ => true
  | some ⟨.fill _ _, _⟩ => w.live == 0
  | _ => false

/-- A free slot takes a resumed fault-split path, the one that was parked first of several (log entry 26: the spec does
not say), or else the topmost pending path. A slot that waits for items with no lane has no path to take. -/
def Warp.takePath (w : Warp) (side : Side) : Warp :=
  if (w.slot side).mask != 0 then w
  else
    match takeFirst (fun p => p.groups.isEmpty) w.parked with
    | some (p, rest) =>
      { w.setSlot side { pc := p.pc, mask := p.mask, latched := p.mask, resumed := true, denied := p.denied } with
        parked := rest }
    | none =>
      match takeFirst (fun e => e.kind == 3) w.stack with
      | some (e, rest) => { w.setSlot side (freshPath e.pc e.mask) with stack := rest }
      | none => if w.idleWait side then w else w.setSlot side {}

/-- A path takes a free slot, the named one first, or becomes a pending entry. -/
def Warp.addPath (w : Warp) (side : Side) (x : Slot) (depth : Byte) : Warp :=
  if (w.slot side).mask == 0 then w.setSlot side x
  else if (w.slot (otherSide side)).mask == 0 then w.setSlot (otherSide side) x
  else w.push ⟨x.pc, x.mask, 3, depth, 0⟩

/-! ### Completion (R126, R129, R132) -/

/-- The lanes that run or are parked. -/
def Warp.running (w : Warp) : Word := w.parked.foldl (fun m p => m ||| p.mask) (w.port.mask ||| w.star.mask)

/-- Whether some one path holds every lane of a mask. -/
def Warp.onePath (w : Warp) (above : List SEntry) (m : Word) : Bool :=
  m &&& ~~~w.port.mask == 0 || m &&& ~~~w.star.mask == 0 || w.parked.any (fun p => m &&& ~~~p.mask == 0) ||
  above.any (fun e => e.kind == 3 && m &&& ~~~e.mask == 0)

/-- Whether an entry with these above it is empty, is a join whose every lane has arrived, or is a split of which one
path is left. -/
def Warp.ripe (w : Warp) (above : List SEntry) (e : SEntry) : Bool :=
  e.mask == 0 ||
  (e.kind == 0 && e.mask &&& above.foldl (fun m x => m ||| x.mask) w.running == 0) ||
  (e.kind == 1 && w.onePath above e.mask)

/-- The topmost ripe entry, with what is above it (in reverse) and below it. -/
def Warp.findRipe (w : Warp) (above : List SEntry) : List SEntry → Option (List SEntry × SEntry × List SEntry)
  | [] => none
  | e :: rest => if w.ripe above e then some (above, e, rest) else w.findRipe (e :: above) rest

/-- A slot whose lanes lie in a finished split waits at its reconvergence point no more: its instruction is presented
again. -/
def Slot.freed (m : Word) (x : Slot) : Slot :=
  match x.wait with
  | some ⟨.split, _⟩ => if x.mask &&& m == 0 then x else { x with wait := none }
  | _ => x

/-- One ripe entry taken: an empty one is discarded, a completed join frees its merged path, a finished split is
popped, and a path that waited for the other one goes on. -/
def Warp.settleOne (w : Warp) : Option Warp :=
  match w.findRipe [] w.stack with
  | none => none
  | some (above, e, rest) =>
    if e.mask == 0 then some { w with stack := above.reverse ++ rest }
    else if e.kind == 1 then
      some ({ w with stack := above.reverse ++ rest, port := w.port.freed e.mask, star := w.star.freed e.mask }.addNc
        e.mask (-1))
    else
      let w := w.addNc e.mask (-1)
      let x := freshPath (e.pc + 16) e.mask
      if w.port.mask == 0 then some { w.setSlot .port x with stack := above.reverse ++ rest }
      else if w.star.mask == 0 then some { w.setSlot .star x with stack := above.reverse ++ rest }
      else some { w with stack := above.reverse ++ (⟨e.pc + 16, e.mask, 3, e.depth - 1, 0⟩ :: rest) }

/-- Ripe entries taken until none is left. -/
def Warp.settleAll : Nat → Warp → Warp
  | 0, w => w
  | n + 1, w =>
    match w.settleOne with
    | some w' => Warp.settleAll n w'
    | none => w

/-- Completed joins and finished splits are taken, and then free slots take waiting paths. -/
def Warp.settle (w : Warp) : Warp := ((Warp.settleAll (2 * w.stack.length + 1) w).takePath .port).takePath .star

/-! ### Lanes that leave (R129) -/

def Slot.drop (x : Slot) (m : Word) : Slot := { x with mask := x.mask &&& ~~~m, latched := x.latched &&& ~~~m }

def dropStack (m : Word) (l : List SEntry) : List SEntry := l.map fun e => { e with mask := e.mask &&& ~~~m }

def dropParked (m : Word) (l : List Parked) : List Parked :=
  (l.map fun p => { p with mask := p.mask &&& ~~~m }).filter fun p => p.mask != 0

/-- Lanes removed from every slot, entry and parked path, those saved at a trap entry too. -/
def Warp.drop (w : Warp) (m : Word) : Warp :=
  { w with
    port := w.port.drop m
    star := w.star.drop m
    stack := dropStack m w.stack
    parked := dropParked m w.parked
    handler := w.handler.map fun h =>
      { h with port := h.port.drop m, star := h.star.drop m, stack := dropStack m h.stack, parked := dropParked m h.parked } }

/-- Lanes that become vacant or dead, removed, and joins completed (R13, R129). -/
def Warp.lose (w : Warp) (m : Word) (st : LaneSt) : Warp :=
  ((w.mapLanes m fun _ x => { x with st := st }).drop m).settle

/-- A slot whose wait ends because its mask is gone waits for nothing. -/
def Slot.calm (x : Slot) : Slot := if x.mask == 0 then { x with wait := none } else x

end Sys2Proof.Machine
end

