-- ==== Sys2Proof/Machine/Space.lean ====
section
/-! DEFINITION. Machine/Space.lean: where an address lies. Translation through the device's page tables or cached ATS
replies (R342, R343), homes (R336), fabric peers (R387, R401), page requests (R345). -/

namespace Sys2Proof.Machine

/-! ### Keys: every byte of every memory under one number (log entry 4) -/

/-- A byte of a slice's HBM stack. -/
def hbmKey (slice ofs : Nat) : Nat := slice * 2 ^ 36 + ofs

def hostBase : Nat := 2 ^ 52

def cxlBase : Nat := 2 ^ 53

def fabricBase : Nat := 2 ^ 54

/-- A byte of a peer's window: the peer's place and the offset there. -/
def fabricKey (phys : BitVec 24) (ofs : Nat) : Nat := fabricBase + phys.toNat * 2 ^ 43 + ofs

/-- The 128-byte line of a key. -/
def lineOf (key : Nat) : Nat := key / 128

/-- The rights that an access needs (R343). -/
structure Need where
  r : Bool := false
  w : Bool := false
  x : Bool := false
  deriving DecidableEq, Repr

/-- Where a translated byte lies. -/
structure Loc where
  key : Nat
  /-- Device HBM, as against system or peer memory. -/
  hbm : Bool
  sysatom : Bool := false
  /-- The chart index of a fabric peer. -/
  peer : Option Nat := none
  /-- The home slice (R336), and the physical slice that it is (R385). -/
  home : Nat
  unit : Nat
  /-- The physical address (R334, R336). -/
  pa : Nat
  deriving DecidableEq, Repr

/-- How a translation ends. -/
inductive Tr where
  | ok (l : Loc)
  /-- Not present: a page request (R345). -/
  | absent
  /-- A translation that the host has not answered yet (R342). -/
  | pending
  /-- A permission failure. -/
  | refused
  /-- The peer's entry stalls, or an earlier request to the line is outstanding at the old place (R387). -/
  | stalled (peer : Nat)
  /-- The walk met an uncorrectable error (R390). -/
  | bad
  deriving DecidableEq, Repr

/-! ### Place charts (R385, R386, R401) -/

/-- The physical unit that a chart entry names after reset: the unit of its own number. -/
def chartUnit (i : Nat) : BitVec 24 :=
  BitVec.ofNat 24 (if i < 0x300 then i else if i < 0x330 then i - 0x300 else if i < 0x33C then i - 0x330
    else if i < 0x34C then i - 0x340 else if i < 0x3B0 then i - 0x350 else 0)

def Part.entry (p : Part) (i : Nat) : Chart :=
  match p.chart.find? (fun c => c.1 == i) with
  | some c => c.2
  | none => { phys := chartUnit i }

def Part.setEntry (p : Part) (i : Nat) (c : Chart) : Part := { p with chart := putBy (fun x => x.1 == i) (i, c) p.chart }

/-- Whether the partition's selective IDE stream protects its traffic on the link (R397, R403). -/
def Part.ide (p : Part) : Bool := p.tdi == .run

def Part.has (p : Part) (slice : Nat) : Bool := p.base ≤ slice && slice < p.base + p.size

/-- The physical slice that a logical one is (R385). -/
def Part.unit (p : Part) (slice : Nat) : Nat := (p.entry (0x330 + slice)).phys.toNat % 12

/-- Whether a chart index is an HBM channel group's: slice × 8 + group (R385). -/
def isChannel (i : Nat) : Bool := 0x350 ≤ i && i < 0x3B0

/-- Where a page of a slice's stack lies when the chart gives its channel group another unit than its own: the stack and the
page there (R385, log entry 21). -/
def Part.moved (p : Part) (slice page : Nat) : Option (Nat × Nat) :=
  if p.chart.all fun (c : Nat × Chart) => !isChannel c.1 then none
  else
    let g := Config.channel page % 8
    let unit := (p.entry (0x350 + 8 * slice + g)).phys.toNat
    if unit == 8 * slice + g then none
    else some (unit / 8, if unit % 8 == g then page else Config.channelPage page (unit % 8) % 2 ^ 24)

/-- The key of a byte of a partition's memory (R336, R385). -/
def Part.hbm (p : Part) (pa : Nat) : Nat :=
  let slice := p.base + pa / 4096 % p.size
  let page := pa / 4096 / p.size
  match p.moved slice page with
  | none => hbmKey (p.unit slice) (page * 4096 + pa % 4096)
  | some (u, pg) => hbmKey u (pg * 4096 + pa % 4096)

/-- Whether a request to a line is outstanding under a chart entry at this place. -/
def State.outstandingAt (s : State) (peer : Nat) (line : Nat) : Bool :=
  s.pends.any fun q => q.peer == some peer && lineOf q.key == line

/-- Whether the peer at a place takes an access at an offset of its window (R402, log entry 41). -/
def State.peerTakes (s : State) (phys : BitVec 24) (ofs : Nat) : Bool :=
  match Config.peerExport s.now phys.toNat with
  | none => true
  | some pages => ofs < pages * 4096

/-- Since when a slot's request waits in a port, if it does. -/
def Slot.inPort (x : Slot) (peer : Nat) : Option Nat :=
  match x.wait, x.fetch with
  | some ⟨.stall p, t⟩, _ => if p == peer then some t else none
  | _, some ⟨.stall p, t⟩ => if p == peer then some t else none
  | _, _ => none

/-- The requests that wait in the port of a partition's peer: since when, and whose they are. -/
def State.inPort (s : State) (part : Part) (peer : Nat) : List (Nat × Nat × Side) :=
  (s.warps.filter fun w => w.place == .resident && part.has (s.ctx (s.launch w.launch).pasid).part).flatMap fun w =>
    (match w.port.inPort peer with | some t => [(t, w.uid, Side.port)] | none => []) ++
    (match w.star.inPort peer with | some t => [(t, w.uid, Side.star)] | none => [])

/-- Whether a slot's request must let another one pass: one that waits already, and longer if its own waits too (R387). -/
def State.behind (s : State) (part : Part) (peer uid : Nat) (side : Side) : Bool :=
  let all := s.inPort part peer
  let mine := all.find? fun (r : Nat × Nat × Side) => r.2 == (uid, side)
  all.any fun (r : Nat × Nat × Side) => r.2 != (uid, side) &&
    match mine with
    | none => true
    | some m => r.1 < m.1 || (r.1 == m.1 && (r.2.1 < uid || (r.2.1 == uid && r.2.2 == .port)))

/-- The same for the slot whose turn it is. -/
def State.turnBehind (s : State) (part : Part) (peer : Nat) : Bool :=
  match s.turn with
  | some (.slot uid side) => s.behind part peer uid side
  | _ => false

/-- Where a fabric address goes (R387, R401, R402). Requests that have waited in a port go before new ones. -/
def State.fabric (s : State) (part : Part) (pa : Nat) : Tr :=
  let idx := 0x400 + pa / 2 ^ 43 % 256
  let e := part.entry idx
  let ofs := pa % 2 ^ 43
  let go (phys : BitVec 24) : Tr :=
    if part.has (phys.toNat / 2 ^ 20) && s.peerTakes phys ofs then
      .ok { key := fabricKey phys ofs, hbm := false, peer := some idx, home := part.base + pa / 4096 % part.size,
            unit := part.unit (part.base + pa / 4096 % part.size), pa := pa }
    else .refused
  if e.st == 3 then .refused
  else if e.st == 2 || s.turnBehind part idx then .stalled idx
  else if e.st == 1 then
    if s.outstandingAt idx (lineOf (fabricKey e.phys ofs)) then .stalled idx else go e.new
  else go e.phys

/-- Where a physical address of a page lies (R336, R385, R401). -/
def State.place (s : State) (part : Part) (mem : BitVec 2) (sysatom : Bool) (pa : Nat) : Tr :=
  let k := pa / 4096
  let home := part.base + k % part.size
  let unit := part.unit home
  if mem == 0 then
    if part.size * 2 ^ 36 ≤ pa then .refused
    else .ok { key := part.hbm pa, hbm := true, home := home, unit := part.hbm pa / 2 ^ 36, pa := pa }
  else if mem == 1 then
    if pa / 2 ^ 51 % 2 == 1 then (if sysatom then .refused else s.fabric part pa)
    else .ok { key := hostBase + pa, hbm := false, sysatom := sysatom, home := home, unit := unit, pa := pa }
  else if mem == 2 then
    .ok { key := cxlBase + pa, hbm := false, sysatom := sysatom, home := home, unit := unit, pa := pa }
  else .refused

/-! ### Bad lines (R386, R390) -/

/-- Whether two runs of bytes of one key space overlap. -/
def overlaps (a n b m : Nat) : Bool := a < b + m && b < a + n

/-- The stack and the group that a channel group's entry names. -/
def Part.channelAt (p : Part) (i : Nat) (c : Chart) : Nat × Nat :=
  let unit := c.phys.toNat
  if unit == i - 0x350 then (p.unit ((i - 0x350) / 8), unit % 8) else (unit / 8, unit % 8)

/-- Whether a line lies in an HBM channel group whose chart entry is INVALID (R386). -/
def State.channelLost (s : State) (line : Nat) : Bool :=
  s.parts.any fun p => p.chart.any fun (c : Nat × Chart) =>
    isChannel c.1 && c.2.st == 3 && p.has ((c.1 - 0x350) / 8) &&
      p.channelAt c.1 c.2 == (line / 2 ^ 29, Config.channel (line % 2 ^ 29 / 32) % 8)

/-- The lines of a run. -/
def linesOf (key n : Nat) : List Nat := (List.range (lineOf (key + n - 1) - lineOf key + 1)).map fun i => lineOf key + i

/-- Whether some byte of a run is in a bad line (R390), or in a channel group that may not be used (R386). -/
def State.isBad (s : State) (key n : Nat) : Bool :=
  n != 0 && (s.bad.any (fun l => overlaps key n (l * 128) 128) || (linesOf key n).any s.channelLost)

/-! ### The walk (R343) -/

/-- A leaf found by a walk, or how it ends. -/
inductive Walk where
  | leaf (t : Tlb)
  | absent
  | refused
  /-- An entry lies in a bad line (R390). -/
  | bad
  deriving DecidableEq, Repr

/-- Whether a reserved bit of an entry is set, at a level, as a leaf or as a table. -/
def badEntry (e : DWord) (level : Nat) (leaf : Bool) : Bool :=
  let mem := e.extractLsb' 8 2
  e.extractLsb' 52 12 != 0 || e.extractLsb' 10 2 != 0 || e.getLsbD 7 ||
  (level != 1 && e.getLsbD 5) ||
  (if leaf then
    mem == 3 || (mem == 0 && e.getLsbD 6) ||
    (level == 3 && e.extractLsb' 12 18 != 0) || (level == 2 && e.extractLsb' 12 9 != 0) ||
    (level == 1 && e.getLsbD 5 && e.extractLsb' 12 4 != 0)
  else mem != 0 || e.getLsbD 6 || (4 ≤ level && e.getLsbD 4))

/-- Whether a cached entry covers an address. -/
def Tlb.covers (t : Tlb) (pasid : Nat) (va : DWord) : Bool :=
  t.pasid == pasid && t.va.toNat / 2 ^ t.log == va.toNat / 2 ^ t.log

/-- What an entry says, wherever it is held. -/
def Tlb.bare (t : Tlb) : Tlb := { t with at_ := .die 0 }

/-- The physical address in an entry. -/
def entryPa (e : DWord) : Nat := (e.extractLsb' 12 40).toNat * 4096

/-- The translation of the page of an address, of 2 to the `log` bytes, with the rights and the memory of a leaf. -/
def leafTlb (pasid : Nat) (va e : DWord) (log pa : Nat) : Tlb :=
  { pasid := pasid, va := BitVec.ofNat 64 (va.toNat / 2 ^ log * 2 ^ log), log := log,
    pa := BitVec.ofNat 64 pa, mem := e.extractLsb' 8 2, sysatom := e.getLsbD 6,
    r := e.getLsbD 1, w := e.getLsbD 2, x := e.getLsbD 3 }

/-- An entry of a table. A table is device memory of the partition (log entry 5). -/
def tableEntry (mem : Memory) (part : Part) (table idx : Nat) : DWord :=
  BitVec.ofNat 64 (mem.num (part.hbm (table + 8 * idx)) 8)

/-- The aligned group of 16 entries of an L1 table that an index lies in. -/
def groupOf (mem : Memory) (part : Part) (table idx : Nat) : List DWord :=
  (List.range 16).map fun i => tableEntry mem part table (idx / 16 * 16 + i)

/-- The entry that an address has in an L1 table. A C64 entry stands for its group of 16, and any of them may be used
where they differ (R343). -/
def lastEntry (mem : Memory) (part : Part) (table idx pick : Nat) : DWord :=
  let e := tableEntry mem part table idx
  let group := groupOf mem part table idx
  if e.getLsbD 0 && e.getLsbD 5 && !(group.all fun g => g == e) then group.getD (pick % 16) e else e

/-- The page that an L1 entry maps: 64 KiB for a group of identical C64 entries, and else 4 KiB, for one of a group that
differs those of its 64 KiB that the address lies in. -/
def lastLeaf (mem : Memory) (part : Part) (pasid : Nat) (va e : DWord) (table idx : Nat) : Tlb :=
  if !e.getLsbD 5 then leafTlb pasid va e 12 (entryPa e)
  else if (groupOf mem part table idx).all fun g => g == e then leafTlb pasid va e 16 (entryPa e)
  else leafTlb pasid va e 12 (entryPa e + va.toNat % 2 ^ 16 / 2 ^ 12 * 2 ^ 12)

/-- The walk from a table at a level down. -/
def walkFrom (mem : Memory) (part : Part) (pasid : Nat) (va : DWord) (pick : Nat) : Nat → Nat → Walk
  | 0, _ => .refused
  | level + 1, table =>
    let idx := (va.extractLsb' (12 + 9 * level) 9).toNat
    let e := if level == 0 then lastEntry mem part table idx pick else tableEntry mem part table idx
    let isLeaf := level == 0 || (e.getLsbD 4 && level ≤ 2)
    if !e.getLsbD 0 then .absent
    else if badEntry e (level + 1) isLeaf then .refused
    else if level == 0 then .leaf (lastLeaf mem part pasid va e table idx)
    else if isLeaf then .leaf (leafTlb pasid va e (12 + 9 * level) (entryPa e))
    else walkFrom mem part pasid va pick level (entryPa e)

/-- Where the entries lie that the walk reads. -/
def walkKeys (mem : Memory) (part : Part) (va : DWord) : Nat → Nat → List Nat
  | 0, _ => []
  | level + 1, table =>
    let idx := (va.extractLsb' (12 + 9 * level) 9).toNat
    let e := tableEntry mem part table idx
    let isLeaf := level == 0 || (e.getLsbD 4 && level ≤ 2)
    let stops := !e.getLsbD 0 || isLeaf || badEntry e (level + 1) isLeaf
    part.hbm (table + 8 * idx) :: if stops then [] else walkKeys mem part va level (entryPa e)

/-- The page of an address by what the tables give, or by an entry that a TLB still holds and that no completed
invalidation has removed: either may be used (R344). -/
def oldOrNew (tlb : List Tlb) (pasid : Nat) (va : DWord) (pick : Nat) (new : Walk) : Walk :=
  match tlb.filter fun t => t.covers pasid va && new != .leaf t.bare with
  | [] => new
  | olds => (olds.map Walk.leaf ++ [new]).getD (pick % (olds.length + 1)) new

/-- The page of an address by the tables as they stand. -/
def State.freshWalk (s : State) (pasid : Nat) (va : DWord) : Walk :=
  let root := (s.ctx pasid).crec.root.toNat
  if (walkKeys s.mem (s.ctxPart pasid) va 5 root).any fun k => s.isBad k 8 then .bad
  else walkFrom s.mem (s.ctxPart pasid) pasid va (Config.mapping s.now (va.toNat / 2 ^ 12)) 5 root

/-- The page that an access to an address uses. -/
def State.walk (s : State) (pasid : Nat) (va : DWord) : Walk :=
  oldOrNew s.tlb pasid va (Config.mapping s.now (va.toNat / 2 ^ 12)) (s.freshWalk pasid va)

/-- Whether the rights of a page cover a need. -/
def rightsOk (n : Need) (r w x : Bool) : Bool := (!n.r || r) && (!n.w || w) && (!n.x || x)

/-- Where a page puts an address, if its rights cover the need. -/
def State.through (s : State) (t : Tlb) (va : DWord) (n : Need) (short : Tr) : Tr :=
  if rightsOk n t.r t.w t.x then
    s.place (s.ctxPart t.pasid) t.mem t.sysatom (t.pa.toNat / 2 ^ t.log * 2 ^ t.log + va.toNat % 2 ^ t.log)
  else short

/-- Whether a context's translations are the host's, over ATS (R29, R342, R396). -/
def State.walkAts (s : State) (pasid : Nat) : Bool := (s.ctx pasid).assist.getLsbD 0

/-- A virtual address translated under a PASID (R342, R343). The address has passed R33. -/
def State.translate (s : State) (pasid : Nat) (va : DWord) (n : Need) : Tr :=
  if s.walkAts pasid then
    match s.tlb.find? fun t => t.covers pasid va with
    | none => .pending
    | some t => s.through t va n .absent
  else
    match s.walk pasid va with
    | .absent => .absent
    | .refused => .refused
    | .bad => .bad
    | .leaf t => s.through t va n .refused

/-! ### The TLBs (R342) -/

/-- How many entries a TLB has. -/
def TlbAt.size : TlbAt → Nat
  | .core _ => 128
  | .cluster _ => 4096
  | .die _ => 262144

/-- What a TLB holds of a page for an address: the last-level one at most the 2 MiB region of the address. -/
def Tlb.part (t : Tlb) (where_ : TlbAt) (va : DWord) : Tlb :=
  match where_ with
  | .die _ =>
    if t.log ≤ 21 then { t with at_ := where_ }
    else
      let page := va.toNat / 2 ^ 21 * 2 ^ 21
      { t with at_ := where_, va := BitVec.ofNat 64 page, log := 21,
               pa := BitVec.ofNat 64 (t.pa.toNat / 2 ^ t.log * 2 ^ t.log + page % 2 ^ t.log) }
  | _ => { t with at_ := where_ }

/-- Whether an entry gives way to a new one whatever room there is: one of the same page, and in the last-level TLB one
of the same 2 MiB region. -/
def Tlb.meets (t u : Tlb) : Bool :=
  t.at_ == u.at_ && t.pasid == u.pasid &&
    match t.at_ with
    | .die _ => t.va.toNat / 2 ^ 21 == u.va.toNat / 2 ^ 21
    | _ => t.log == u.log && t.va.toNat / 2 ^ t.log == u.va.toNat / 2 ^ u.log

/-- An entry put into its TLB, whose oldest entry leaves it when it is full (log entry 12). -/
def putTlb (t : Tlb) (l : List Tlb) : List Tlb :=
  let l := l.filter fun u => !u.meets t
  let full := t.at_.size ≤ (l.filter fun u => u.at_ == t.at_).length
  (match (if full then l.find? fun u => u.at_ == t.at_ else none) with
    | some old => l.erase old
    | none => l) ++ [t]

/-- The TLBs that an access of a core goes through. -/
def tlbsOf (core : Nat) : List TlbAt := [.core core, .cluster (clusterOf core), .die (clusterOf core / 12)]

/-- A page put into the TLBs of a core that do not hold it. -/
def putTlbs (core : Nat) (t : Tlb) (va : DWord) (l : List Tlb) : List Tlb :=
  (tlbsOf core).foldl (fun l k => if l.contains (t.part k va) then l else putTlb (t.part k va) l) l

/-- The core whose TLBs an access goes through: that of the warp whose turn it is, and core 0's for an access that no
core makes (log entry 12). -/
def State.tlbCore (s : State) : Nat :=
  match s.turn with
  | some (.slot uid _) => (match s.warp? uid with | some w => w.core | none => 0)
  | _ => 0

/-- The TLBs hold the page that an access to an address uses (R342). -/
def State.cachePage (s : State) (pasid : Nat) (va : DWord) : State :=
  if s.walkAts pasid then s
  else
    match s.walk pasid va with
    | .leaf t => { s with tlb := putTlbs s.tlbCore t.bare va s.tlb }
    | _ => s

/-- Whether an address lies in the global space (R33). -/
def inSpace (va : DWord) : Bool := va.extractLsb' 57 7 == 0

/-! ### Page requests (R342, R345) -/

def Need.le (a b : Need) : Bool := (!a.r || b.r) && (!a.w || b.w) && (!a.x || b.x)

/-- Whether a request's queue is still of the generation that made it (R346). -/
def State.current (s : State) (r : PageReq) : Bool := (s.queue r.queue).gen == r.gen

/-- The outstanding request for the page and rights. -/
def State.pageReq? (s : State) (pasid : Nat) (page : DWord) (n : Need) : Option PageReq :=
  s.pageReqs.find? fun r => r.pasid == pasid && r.page == page && r.r == n.r && r.w == n.w && r.x == n.x && s.current r

/-- The lowest group index that no record of the PASID uses. An index that a queue reset has freed is used again only
when its late response has come, so that the response meets no new owner (R346, log entry 30). -/
def State.freeGroup (s : State) (pasid : Nat) : Option Nat :=
  (List.range 512).find? fun g => !s.pageReqs.any fun r => r.pasid == pasid && r.group == g

/-! Besides the groups of page requests, a wait may name one of these: a translation asked of the host, a port that
holds requests, a page-request record that must free first. -/

def grpAts : Nat := 512

def grpHold : Nat := 513

def grpRoom : Nat := 514

/-- A not-present page asked for over PRI: the request waited on, or a record to free while every one is in use
(R345). -/
def State.askPage (s : State) (pasid queue : Nat) (va : DWord) (n : Need) : State × List Nat :=
  let page := va &&& ~~~(0xFFF#64)
  match s.pageReq? pasid page n with
  | some r => (s, [r.group])
  | none =>
    match s.freeGroup pasid with
    | none => (s, [grpRoom])
    | some g =>
      let r : PageReq :=
        { pasid := pasid, group := g, queue := queue, gen := (s.queue queue).gen, page := page, r := n.r, w := n.w, x := n.x }
      ({ s with pageReqs := s.pageReqs ++ [r], sent := s.sent ++ [.pri r (s.ctxPart pasid).ide] }, [g])

/-- A translation request sent to the host, once for a page and a compute die (R342). -/
def State.askAts (s : State) (pasid : Nat) (va : DWord) : State :=
  let r : AtsReq := { pasid := pasid, page := va &&& ~~~(0xFFF#64), core := s.tlbCore }
  if s.atsReqs.any fun q =>
      q.pasid == r.pasid && q.page == r.page && clusterOf q.core / 12 == clusterOf r.core / 12 then s
  else { s with atsReqs := s.atsReqs ++ [r], sent := s.sent ++ [.ats pasid r.page (s.ctxPart pasid).ide] }

/-- A run of bytes cut at 4 KiB boundaries. -/
def chunksFrom : Nat → DWord → Nat → List (DWord × Nat)
  | 0, _, _ => []
  | fuel + 1, va, n =>
    if n == 0 then []
    else
      let k := min n (4096 - va.toNat % 4096)
      (va, k) :: chunksFrom fuel (va + BitVec.ofNat 64 k) (n - k)

def chunks (va : DWord) (n : Nat) : List (DWord × Nat) := chunksFrom (n / 4096 + 2) va n

/-- A run translated: its pieces, or the first address at which translation fails and how. -/
inductive Run where
  | ok (pieces : List (Loc × Nat))
  | bad (va : DWord) (t : Tr)
  deriving DecidableEq, Repr

def runOf (s : State) (pasid : Nat) (n : Need) : List (DWord × Nat) → Run
  | [] => .ok []
  | (va, k) :: rest =>
    match s.translate pasid va n with
    | .ok l =>
      match runOf s pasid n rest with
      | .ok ps => .ok ((l, k) :: ps)
      | .bad a t => .bad a t
    | t => .bad va t

/-- A run of `k` bytes translated. -/
def State.run (s : State) (pasid : Nat) (va : DWord) (k : Nat) (n : Need) : Run := runOf s pasid n (chunks va k)

/-- The pages of a run held by the TLBs. -/
def State.cacheRun (s : State) (pasid : Nat) (va : DWord) (k : Nat) : State :=
  (chunks va k).foldl (fun s c => s.cachePage pasid c.1) s

end Sys2Proof.Machine
end

