-- ==== Sys2Proof/Machine/Flags.lean ====
section
/-! DEFINITION. Machine/Flags.lean: the sticky flags (R27, R95) and the numbers that raise them: formats (R83 to
R85), rounding (R87 to R89), NaNs (R90), subnormals (R91), exact arithmetic and conversions (R102 to R111). -/

namespace Sys2Proof.Machine

/-! ### Flags (R27) -/

def NV : Word := 1
def DZ : Word := 2
def OF : Word := 4
def UF : Word := 8
def IX : Word := 16
def DEADREAD : Word := 32
def EVSIMP : Word := 64
def SAT : Word := 128

/-- A flag when a condition holds. -/
def flagIf (b : Bool) (f : Word) : Word := if b then f else 0

/-! ### Formats (R83, R84, R92) -/

/-- What the top exponent of a format means. -/
inductive Top where
  | ieee | e4m3 | e2m1
  deriving DecidableEq, Repr

/-- A format: exponent and fraction widths, its top exponent, whether it has signalling NaNs, whether its subnormal
inputs are flushed (R91). -/
structure Fmt where
  eb : Nat
  fb : Nat
  top : Top := .ieee
  snan : Bool := true
  flush : Bool := false
  deriving DecidableEq, Repr

def fp64 : Fmt := { eb := 11, fb := 52 }
def fp32 : Fmt := { eb := 8, fb := 23 }
def fp16 : Fmt := { eb := 5, fb := 10 }
def bf16 : Fmt := { eb := 8, fb := 7, flush := true }
def e5m2 : Fmt := { eb := 5, fb := 2, snan := false }
def e4m3 : Fmt := { eb := 4, fb := 3, top := .e4m3, snan := false }
def e2m1 : Fmt := { eb := 2, fb := 1, top := .e2m1, snan := false }
/-- The element of a wide tile (R92). -/
def wide32 : Fmt := { eb := 10, fb := 23 }
def wide64 : Fmt := { eb := 13, fb := 52 }

def Fmt.bias (f : Fmt) : Int := 2 ^ (f.eb - 1) - 1

/-- The exponent of the smallest normal. -/
def Fmt.emin (f : Fmt) : Int := 1 - f.bias

def Fmt.width (f : Fmt) : Nat := 1 + f.eb + f.fb

/-- The largest finite value as a mantissa and an exponent. -/
def Fmt.maxM (f : Fmt) : Nat := match f.top with | .e4m3 => 14 | _ => 2 ^ (f.fb + 1) - 1

def Fmt.maxE (f : Fmt) : Int :=
  match f.top with
  | .ieee => 2 ^ f.eb - 2 - f.bias - f.fb
  | _ => 2 ^ f.eb - 1 - f.bias - f.fb

/-- The canonical NaN; E2M1 has none and writes +0 (R90). -/
def Fmt.nan (f : Fmt) : Nat :=
  match f.top with
  | .ieee => (2 ^ f.eb - 1) * 2 ^ f.fb + 2 ^ (f.fb - 1)
  | .e4m3 => 0x7F
  | .e2m1 => 0

def Fmt.sign (f : Fmt) (neg : Bool) : Nat := if neg then 2 ^ (f.eb + f.fb) else 0

def Fmt.inf (f : Fmt) (neg : Bool) : Nat := f.sign neg + (2 ^ f.eb - 1) * 2 ^ f.fb

/-! ### Values -/

/-- A number read: a NaN, an infinity, or (-1)^neg * m * 2^e exactly; m = 0 is a zero with its sign. -/
inductive Val where
  | nan (signalling : Bool)
  | inf (neg : Bool)
  | num (neg : Bool) (m : Nat) (e : Int)
  deriving DecidableEq, Repr

/-- The value of a code (R83 to R85, R91). -/
def Fmt.decode (f : Fmt) (x : Nat) : Val :=
  let neg := x / 2 ^ (f.eb + f.fb) % 2 == 1
  let e := x / 2 ^ f.fb % 2 ^ f.eb
  let m := x % 2 ^ f.fb
  let normal : Val := .num neg (2 ^ f.fb + m) (e - f.bias - f.fb)
  if e == 0 then (if f.flush then .num neg 0 0 else .num neg m (f.emin - f.fb))
  else if e == 2 ^ f.eb - 1 then
    match f.top with
    | .ieee => if m == 0 then .inf neg else .nan (f.snan && m < 2 ^ (f.fb - 1))
    | .e4m3 => if m == 7 then .nan false else normal
    | .e2m1 => normal
  else normal

/-- How many bits a number has. -/
def bitLen (n : Nat) : Nat := if n == 0 then 0 else Nat.log2 n + 1

/-- The code of a magnitude n * 2^q on the format's grid. -/
def Fmt.encode (f : Fmt) (neg : Bool) (n : Nat) (q : Int) : Nat :=
  if n == 0 then f.sign neg
  else
    let l := bitLen n
    let (n, q) : Nat × Int := if f.fb + 1 < l then (n / 2 ^ (l - (f.fb + 1)), q + ((l : Int) - (f.fb + 1))) else (n, q)
    if n < 2 ^ f.fb then f.sign neg + n
    else f.sign neg + (q + f.fb + f.bias).toNat * 2 ^ f.fb + (n - 2 ^ f.fb)

/-- A rounding mode (R87). -/
inductive RM where
  | rne | rz | rd | ru
  deriving DecidableEq, Repr

def rmOf (n : Nat) : RM := match n % 4 with | 0 => .rne | 1 => .rz | 2 => .rd | _ => .ru

/-- A magnitude m * 2^e, and something less than its last bit where `sticky`, cut at 2^q: the integer below, whether
something is left, and whether what is left is more than, or exactly, half. (Two bits above the magnitude are as good as
any higher cut.) -/
def cut (m : Nat) (e : Int) (sticky : Bool) (q : Int) : Nat × Bool × Bool × Bool :=
  if q ≤ e then (m * 2 ^ (e - q).toNat, sticky, false, false)
  else
    let k := min (q - e).toNat (bitLen m + 2)
    let rest := m % 2 ^ k
    (m / 2 ^ k, rest != 0 || sticky, 2 ^ (k - 1) < rest || (rest == 2 ^ (k - 1) && sticky),
      rest == 2 ^ (k - 1) && !sticky)

/-- Whether a mode rounds the magnitude up, from the last bit kept and what is left (R87). -/
def RM.up (r : RM) (neg : Bool) (n : Nat) (left more half : Bool) : Bool :=
  match r with
  | .rne => more || (half && n % 2 == 1)
  | .rz => false
  | .rd => neg && left
  | .ru => !neg && left

/-- The power of two from the largest finite value's exponent up to `q`; one past its mantissa is as good as any more. -/
def Fmt.above (f : Fmt) (q : Int) : Nat := 2 ^ min (q - f.maxE).toNat (f.fb + 2)

/-- Whether a magnitude lies above the largest finite value. -/
def Fmt.beyond (f : Fmt) (n : Nat) (q : Int) : Bool :=
  if f.maxE ≤ q then f.maxM < n * f.above q else f.maxM * 2 ^ (f.maxE - q).toNat < n

def Fmt.isMax (f : Fmt) (n : Nat) (q : Int) : Bool :=
  if f.maxE ≤ q then f.maxM == n * f.above q else f.maxM * 2 ^ (f.maxE - q).toNat == n

/-- What an overflow writes, and whether that is ±max (R88). One in E2M1 is an out-of-range value converted to it, which is
invalid too (R95). -/
def Fmt.over (f : Fmt) (r : RM) (neg sat : Bool) : Nat × Bool :=
  let mx := f.encode neg f.maxM f.maxE
  let toMax := sat || f.top == .e2m1 || r == .rz || (r == .rd && !neg) || (r == .ru && neg)
  if toMax then (mx, true) else if f.top == .e4m3 then (f.nan, false) else (f.inf neg, false)

/-- An exact value rounded into a format, with its flags (R88, R89). A value beyond ±max that step 1 brings to ±max sets SAT in
every mode (log entry 61). -/
def Fmt.round (f : Fmt) (r : RM) (sat neg : Bool) (m : Nat) (e : Int) (sticky : Bool) : Nat × Word :=
  if m == 0 && !sticky then (f.sign neg, 0)
  else
    let q := max ((bitLen m : Int) + e - 1 - f.fb) (f.emin - f.fb)
    let (n, left, more, half) := cut m e sticky q
    let n' := if r.up neg n left more half then n + 1 else n
    if f.beyond n' q then
      let (x, isMax) := f.over r neg sat
      (x, OF ||| IX ||| flagIf isMax SAT ||| flagIf (f.top == .e2m1) NV)
    else
      let tiny := if f.emin ≤ q then false else n' < 2 ^ (f.emin - q).toNat
      (f.encode neg n' q,
        flagIf left IX ||| flagIf (tiny && left) UF ||| flagIf (left && n' == n && f.isMax n q) SAT)

/-- A value written in a format (R88, R90). -/
def Val.write (v : Val) (f : Fmt) (r : RM) (sat : Bool) : Nat × Word :=
  match v with
  | .nan s => (f.nan, flagIf (s || f.top == .e2m1) NV)
  | .inf neg =>
    match f.top with
    | .ieee => (f.inf neg, 0)
    | .e4m3 => if sat then (f.encode neg f.maxM f.maxE, NV ||| SAT) else (f.nan, NV)
    | .e2m1 => (f.encode neg f.maxM f.maxE, NV ||| SAT)
  | .num neg m e => f.round r sat neg m e false

/-! ### Exact arithmetic (R102, R103) -/

/-- A result before it is rounded: a NaN that raises NV or not, an infinity, or a magnitude with a sticky rest. -/
inductive Raw where
  | nan (nv : Bool)
  | inf (neg : Bool) (flags : Word)
  | num (neg : Bool) (m : Nat) (e : Int) (sticky : Bool)
  deriving DecidableEq, Repr

/-- A result rounded into a format. -/
def Raw.write (x : Raw) (f : Fmt) (r : RM) (sat : Bool) : Nat × Word :=
  match x with
  | .nan nv => (f.nan, flagIf (nv || f.top == .e2m1) NV)
  | .inf neg fl => let (c, g) := (Val.inf neg).write f r sat; (c, fl ||| g)
  | .num neg m e s => f.round r sat neg m e s

def Val.isNan : Val → Bool
  | .nan _ => true
  | _ => false

def Val.isSnan : Val → Bool
  | .nan s => s
  | _ => false

def Val.isZero : Val → Bool
  | .num _ m _ => m == 0
  | _ => false

def Val.neg : Val → Bool
  | .nan _ => false
  | .inf n => n
  | .num n _ _ => n

def Val.negate : Val → Val
  | .nan s => .nan s
  | .inf n => .inf (!n)
  | .num n m e => .num (!n) m e

/-- The signed integer of a number at an exponent no greater than its own. -/
def intAt (neg : Bool) (m : Nat) (e q : Int) : Int :=
  let x : Int := m * 2 ^ (e - q).toNat
  if neg then -x else x

/-- The exact sum of numbers, as an integer at the lowest exponent. -/
def sumAt (vs : List Val) : Int × Int :=
  let q := vs.foldl (fun q v => match v with | .num _ _ e => min q e | _ => q) 0
  (vs.foldl (fun s v => match v with | .num n m e => s + intAt n m e q | _ => s) 0, q)

/-- The exact sum of values (R102, R103, R177): invalid where infinities of both signs meet. A zero sum is negative
when every term is a negative zero, or under RD when terms of both signs cancel (for `fdp2`, log entry 62). -/
def Val.sum (vs : List Val) (r : RM) : Raw :=
  let nv := vs.any Val.isSnan
  let pinf := vs.any fun v => v == .inf false
  let ninf := vs.any fun v => v == .inf true
  if vs.any Val.isNan then .nan (nv || (pinf && ninf))
  else if pinf && ninf then .nan true
  else if pinf then .inf false 0
  else if ninf then .inf true 0
  else
    let (s, q) := sumAt vs
    if s == 0 then
      let neg := if vs.all Val.neg && !vs.isEmpty then true else if vs.any Val.neg then r == .rd else false
      .num neg 0 0 false
    else .num (s < 0) s.natAbs q false

/-- The exact product, or none where it is 0 × inf. -/
def Val.mul (a b : Val) : Option Val :=
  let neg := a.neg != b.neg
  match a, b with
  | .nan s, .nan t => some (.nan (s || t))
  | .nan s, _ => some (.nan s)
  | _, .nan t => some (.nan t)
  | .inf _, x => if x.isZero then none else some (.inf neg)
  | x, .inf _ => if x.isZero then none else some (.inf neg)
  | .num _ m e, .num _ n k => some (.num neg (m * n) (e + k))

def Val.raw : Val → Raw
  | .nan s => .nan s
  | .inf n => .inf n 0
  | .num n m e => .num n m e false

/-- The sum of products and addends, rounded once (R102, R103). -/
def fmaRaw (ps : List (Val × Val)) (cs : List Val) (r : RM) : Raw :=
  let xs := ps.map fun (a, b) => a.mul b
  if xs.any Option.isNone then .nan true
  else Val.sum (xs.filterMap id ++ cs) r

def mulRaw (a b : Val) : Raw :=
  match a.mul b with
  | none => .nan true
  | some v => v.raw

/-- The quotient (R102). -/
def divRaw (a b : Val) : Raw :=
  let neg := a.neg != b.neg
  match a, b with
  | .nan s, .nan t => .nan (s || t)
  | .nan s, _ => .nan s
  | _, .nan t => .nan t
  | .inf _, .inf _ => .nan true
  | .inf _, _ => .inf neg 0
  | _, .inf _ => .num neg 0 0 false
  | .num _ m e, .num _ n k =>
    if n == 0 then (if m == 0 then .nan true else .inf neg DZ)
    else
      let sh := bitLen n + 70
      .num neg (m * 2 ^ sh / n) (e - k - sh) (m * 2 ^ sh % n != 0)

/-- The integer square root, one result bit at a time from bit `k - 1` down. -/
def isqrt (n : Nat) : Nat → Nat → Nat
  | 0, r => r
  | k + 1, r => let t := r + 2 ^ k; isqrt n k (if t * t ≤ n then t else r)

/-- The square root (R102). -/
def sqrtRaw (a : Val) : Raw :=
  match a with
  | .nan s => .nan s
  | .inf n => if n then .nan true else .inf false 0
  | .num n m e =>
    if m == 0 then .num n 0 0 false
    else if n then .nan true
    else
      let odd := e % 2 == 1
      let m2 := (if odd then 2 * m else m) * 2 ^ 140
      let e2 : Int := (if odd then e - 1 else e) - 140
      let s := isqrt m2 (bitLen m2 / 2 + 1) 0
      .num false s (e2 / 2) (s * s != m2)

/-- The order of two numeric values, with -0 = +0. -/
def Val.cmp (a b : Val) : Ordering :=
  match a, b with
  | .inf true, .inf true => .eq
  | .inf false, .inf false => .eq
  | .inf true, _ => .lt
  | .inf false, _ => .gt
  | _, .inf true => .gt
  | _, .inf false => .lt
  | .num n m e, .num k l f =>
    let q := min e f
    compare (intAt n m e q) (intAt k l f q)
  | _, _ => .eq

/-- The order used by min and max: -0 below +0 (R106). -/
def Val.below (a b : Val) : Bool :=
  match a.cmp b with
  | .lt => true
  | .gt => false
  | .eq => a.neg && !b.neg

/-- The smaller, or the larger, of two codes of a format, unchanged but for flushing and the canonical NaN (R106). -/
def Fmt.pick (f : Fmt) (larger : Bool) (x y : Nat) : Nat × Word :=
  let a := f.decode x
  let b := f.decode y
  let nv := flagIf (a.isSnan || b.isSnan) NV
  let out (v : Val) : Nat := (v.write f .rne false).1
  if a.isNan && b.isNan then (f.nan, nv)
  else if a.isNan then (out b, nv)
  else if b.isNan then (out a, nv)
  else (out (if a.below b == larger then b else a), nv)

/-- The sign changed: absolute value, negated absolute value, negation (R106). -/
def Fmt.signOp (f : Fmt) (op x : Nat) : Nat × Word :=
  let v := f.decode x
  match v with
  | .nan s => (f.nan, flagIf s NV)
  | _ =>
    let w := match op with
      | 0 => if v.neg then v.negate else v
      | 1 => if v.neg then v else v.negate
      | _ => v.negate
    ((w.write f .rne false).1, 0)

/-- A relation of `fcmp` (R101, R107), with its flags. -/
def fcmpRel (cc : Nat) (a b : Val) : Bool × Word :=
  let un := a.isNan || b.isNan
  let o := a.cmp b
  let rel := match cc with
    | 0 => !un && o == .eq
    | 1 => un || o != .eq
    | 2 => !un && o == .lt
    | 3 => !un && o != .gt
    | 4 => !un && o == .gt
    | 5 => !un && o != .lt
    | 6 => un
    | _ => !un
  (rel, flagIf (a.isSnan || b.isSnan || (un && 2 ≤ cc && cc ≤ 5)) NV)

/-- The class mask of a code (R108). -/
def Fmt.classOf (f : Fmt) (x : Nat) : Nat :=
  match f.decode x with
  | .nan s => if s then 1 else 2
  | .inf n => if n then 4 else 512
  | .num n m _ =>
    if m == 0 then (if n then 32 else 64)
    else if x / 2 ^ f.fb % 2 ^ f.eb == 0 then (if n then 16 else 128)
    else (if n then 8 else 256)

/-! ### Integers from and to values (R105, R111) -/

/-- A value rounded to an integer by a mode: the signed integer, and whether it was rounded. -/
def roundInt (r : RM) (neg : Bool) (m : Nat) (e : Int) : Int × Bool :=
  let (n, left, more, half) := cut m e false 0
  let n' := if r.up neg n left more half then n + 1 else n
  (if neg then -(n' : Int) else n', left)

/-- The limits of an integer format of `w` bits. -/
def intMin (w : Nat) (signed : Bool) : Int := if signed then -(2 ^ (w - 1)) else 0

def intMax (w : Nat) (signed : Bool) : Int := if signed then 2 ^ (w - 1) - 1 else 2 ^ w - 1

/-- An integer brought into the range of a format; whether that changed it. -/
def clampInt (w : Nat) (signed : Bool) (x : Int) : Int × Bool :=
  if x < intMin w signed then (intMin w signed, true)
  else if intMax w signed < x then (intMax w signed, true) else (x, false)

/-- The bits of an integer in `w` bits. -/
def intBits (w : Nat) (x : Int) : Nat := (x % 2 ^ w).toNat

/-- The integer of `w` bits. -/
def intOf (w : Nat) (signed : Bool) (x : Nat) : Int :=
  let y := x % 2 ^ w
  if signed && 2 ^ (w - 1) ≤ y then (y : Int) - 2 ^ w else y

/-- A float value written as an integer (R111). -/
def Val.toInt (v : Val) (w : Nat) (signed : Bool) (r : RM) : Nat × Word :=
  match v with
  | .nan _ => (0, NV)
  | .inf n => (intBits w (if n then intMin w signed else intMax w signed), NV ||| SAT)
  | .num n m e =>
    let (x, left) := roundInt r n m e
    let (y, sat) := clampInt w signed x
    (intBits w y, if sat then NV ||| SAT else flagIf left IX)

/-- An integer as a value. -/
def intVal (x : Int) : Val := .num (x < 0) x.natAbs 0

/-- A value multiplied by a power of two (R104). -/
def Val.scale (v : Val) (k : Int) : Val :=
  match v with
  | .num n m e => .num n m (if m == 0 then e else e + k)
  | _ => v

end Sys2Proof.Machine
end

