-- ==== Sys2Proof/Machine/Home.lean ====
section
/-! DEFINITION. Machine/Home.lean: where accesses are performed (R140, R160): the homes with their monitors (R152),
bad lines (R390) and update-only collection (R338), the L1s, replicas (R337) and weak stores on their way (R141). -/

namespace Sys2Proof.Machine

/-! ### Combining (R146, R148, R177) -/

/-- The format of a floating-point type. -/
def fmtOf (ty : DType) : Fmt :=
  match ty with
  | .f64 => fp64
  | .f16x2 => fp16
  | .bf16x2 => bf16
  | _ => fp32

def isFloat (ty : DType) : Bool := ty == .f32 || ty == .f64 || ty == .f16x2 || ty == .bf16x2

/-- Two values of a type combined, without flags (R146, R148). -/
def combine (op : ROp) (ty : DType) (a b : Nat) : Nat :=
  let w := ty.elem
  match op with
  | .or => (a ||| b) % 2 ^ w
  | .add =>
    if isFloat ty then
      let f := fmtOf ty
      ((Val.sum [f.decode a, f.decode b] .rne).write f .rne false).1
    else (a + b) % 2 ^ w
  | .min =>
    if isFloat ty then ((fmtOf ty).pick false a b).1
    else if intOf w ty.signed b < intOf w ty.signed a then b % 2 ^ w else a % 2 ^ w
  | .max =>
    if isFloat ty then ((fmtOf ty).pick true a b).1
    else if intOf w ty.signed a < intOf w ty.signed b then b % 2 ^ w else a % 2 ^ w

/-! ### The homes -/

/-- Monitors on the lines of a run see a write (R152). -/
def State.wake (s : State) (key n : Nat) : State :=
  { s with monitors := s.monitors.map fun m =>
      if overlaps key n (m.line * 128) 128 then { m with hit := true } else m }

/-- A line's bytes with those of a run put over them. -/
def putOver (key : Nat) (bs : List Byte) (line : Nat) (data : List Byte) : List Byte :=
  (List.range 128).map fun i =>
    let k := line * 128 + i
    if key ≤ k && k < key + bs.length then bs.getD (k - key) 0 else data.getD i 0

/-- The L2 copy of a line of system memory follows a write of the device (R163). -/
def L2Line.follow (key : Nat) (bs : List Byte) (x : L2Line) : L2Line :=
  match x.st with
  | .copy data => { x with st := .copy (putOver key bs x.line data) }
  | _ => x

/-- Bytes put in memory: monitors see it, and a line written whole is no longer bad (R390). -/
def State.putMem (s : State) (key : Nat) (bs : List Byte) : State :=
  { s.wake key bs.length with
    mem := Memory.write s.mem key bs
    bad := s.bad.filter fun l => !(key ≤ l * 128 && l * 128 + 128 ≤ key + bs.length) }

/-- A write of the device: its own copies of system memory follow. -/
def State.put (s : State) (key : Nat) (bs : List Byte) : State :=
  { s.putMem key bs with l2 := s.l2.map (L2Line.follow key bs) }

def State.l1At (s : State) (core line : Nat) : Option L1Line := (s.core core).l1.find? fun x => x.line == line

def State.dropL1 (s : State) (core line : Nat) : State :=
  let c := s.core core
  s.setCore core { c with l1 := c.l1.filter fun x => x.line != line }

/-- Partials combined at the home, each once (R338). -/
def addParts (s : State) (line : Nat) (op : ROp) (ty : DType) : List (Nat × DWord) → State
  | [] => s
  | (ofs, v) :: rest =>
    let n := ty.elem / 8
    let key := line * 128 + ofs
    let old := Memory.num s.mem key n
    -- What is combined into a line that is bad is lost, and the line stays so (R390).
    addParts (if s.isBad key n then s else s.put key (leBytes n (combine op ty old v.toNat))) line op ty rest

/-- A core's partial of a line sent home and combined; the line becomes invalid there (R338). -/
def State.sendPartial (s : State) (core line : Nat) : State :=
  match s.l1At core line with
  | some { st := .upd op ty parts, .. } => addParts (s.dropL1 core line) line op ty parts
  | _ => s

/-! ### Replacement (R340) -/

/-- The line that leaves a full set: the oldest one of the first class that has any. A set lists its lines from the
oldest on. -/
def victimBy {α : Type} (cls : α → ECls) (set : List α) : Option α :=
  match set.find? fun x => cls x == .first with
  | some x => some x
  | none =>
    match set.find? fun x => cls x == .normal with
    | some x => some x
    | none => set.head?

/-- The oldest evict-last line of a set that has no room for one more (R340). -/
def tooMany {α : Type} (cls : α → ECls) (set : List α) : Option α :=
  let last := set.filter fun x => cls x == .last
  if 12 ≤ last.length then last.head? else none

/-- The ways of every set (R333, R336). -/
def ways : Nat := 16

/-- The set of an L1, of 128, and of an L2, of 65,536, that a line lies in (log entry 50). -/
def l1Set (line : Nat) : Nat := line % 128

def l2Set (line : Nat) : Nat := line % 65536

/-! ### The L2s (R336, R337, R340) -/

/-- Whether a line is a replica. -/
def L2Line.isRep (x : L2Line) : Bool := match x.st with | .replica _ _ => true | _ => false

/-- Whether an L2 line is the one that a unit holds of a line, as its home or as a replica. -/
def L2Line.is (unit line : Nat) (rep : Bool) (x : L2Line) : Bool := x.unit == unit && x.line == line && x.isRep == rep

def State.l2At (s : State) (unit line : Nat) (rep : Bool) : Option L2Line := s.l2.find? (L2Line.is unit line rep)

/-- The lines that a set of an L2 holds. -/
def State.l2Lines (s : State) (unit set : Nat) : List L2Line := s.l2.filter fun x => x.unit == unit && l2Set x.line == set

/-- Room made in the set of an L2 for one more line; a line that leaves is in memory already. -/
def State.l2Room (s : State) (unit line : Nat) : State :=
  let set := s.l2Lines unit (l2Set line)
  if set.length < ways then s
  else
    match victimBy L2Line.cls set with
    | some x => { s with l2 := s.l2.erase x }
    | none => s

/-- A line put into an L2 that does not hold it. -/
def State.putL2 (s : State) (x : L2Line) : State :=
  match s.l2At x.unit x.line x.isRep with
  | some _ => s
  | none => let s := s.l2Room x.unit x.line; { s with l2 := s.l2 ++ [x] }

/-- The HBM lines of a run in the L2 that homes them: an access performed at the home allocates its line there. -/
def State.touch (s : State) (key n : Nat) : State :=
  if n == 0 || hostBase ≤ key then s
  else (linesOf key n).foldl (fun s l => s.putL2 { unit := l / 2 ^ 29, line := l }) s

/-- The class of a line at its home set, where the L2 holds it; a replica keeps its own. -/
def State.setL2Class (s : State) (unit line : Nat) (c : ECls) : State :=
  match s.l2At unit line false with
  | none => s
  | some x =>
    let others := (s.l2Lines unit (l2Set line)).filter fun y => !(y.line == line && !y.isRep)
    let demoted := if c == .last then tooMany L2Line.cls others else none
    { s with l2 := s.l2.map fun y =>
        if y == x then { y with cls := c } else if demoted == some y then { y with cls := .normal } else y }

/-! ### Accesses at the homes -/

/-- The cores that hold a line update-only, those whose first partial of it came first at the front (R338). -/
def State.holders (s : State) (line : Nat) : List Nat :=
  (List.range s.cores.length).filter fun c =>
    match s.l1At c line with
    | some { st := .upd _ _ _, .. } => true
    | _ => false

/-- An order of some cores that the spec leaves to their partials' arrival (R149). -/
def arrivals : Nat → List Nat → State → State × List Nat
  | 0, l, s => (s, l)
  | n + 1, l, s =>
    if l.length ≤ 1 then (s, l)
    else
      let k := Config.pick s.free % l.length
      let (s, rest) := arrivals n (l.eraseIdx k) { s with free := s.free + 1 }
      (s, l.getD k 0 :: rest)

/-- Every holder's partial of a line collected, in the order of their arrival (R338). -/
def State.collectLine (s : State) (line : Nat) : State :=
  let (s, cs) := arrivals (s.holders line).length (s.holders line) s
  cs.foldl (fun s c => s.sendPartial c line) s

def State.collect (s : State) (key n : Nat) : State := (linesOf key n).foldl State.collectLine s

/-- A read performed at the home (R140): partials first. -/
def State.homeRead (s : State) (key n : Nat) : State × List Byte :=
  let s := (s.collect key n).touch key n
  (s, Memory.read s.mem key n)

/-- A write performed at the home: partials first. -/
def State.homeWrite (s : State) (key : Nat) (bs : List Byte) : State :=
  ((s.collect key bs.length).put key bs).touch key bs.length

/-- A number read at the home, and one written there. -/
def State.homeNum (s : State) (key n : Nat) : State × Nat := let (s, bs) := s.homeRead key n; (s, leNat bs)

def State.homePut (s : State) (key n x : Nat) : State := s.homeWrite key (leBytes n x)

/-- The bytes of a line of memory. -/
def State.lineBytes (s : State) (line : Nat) : List Byte := Memory.read s.mem (line * 128) 128

/-- The device-side copy of a line of system memory (R336): what the home slice holds, or memory's own bytes, which it
holds from now on. -/
def State.copyOf (s : State) (unit line : Nat) : State × List Byte :=
  match s.l2At unit line false with
  | some { st := .copy data, .. } => (s, data)
  | _ => let data := s.lineBytes line; (s.putL2 { unit := unit, line := line, st := .copy data }, data)

/-- The part of a line that a run takes. -/
def runOfLine (key n : Nat) (data : List Byte) : List Byte := (List.range n).map fun i => data.getD (key % 128 + i) 0

/-- A read at the device-side home of system memory: partials first. -/
def State.sysRead (s : State) (unit key n : Nat) : State × List Byte :=
  let (s, data) := (s.collect key n).copyOf unit (lineOf key)
  (s, runOfLine key n data)

/-! ### CXL.cache (R398) -/

/-- A line of host or CXL memory held over CXL.cache. Of 8,192 lines the oldest leaves, and a monitor on it looks
again. -/
def State.holdLine (s : State) (line : Nat) : State :=
  if s.cxlLines.contains line then s
  else
    let s : State := match (if 8192 ≤ s.cxlLines.length then s.cxlLines.head? else none) with
      | some old => { s with cxlLines := s.cxlLines.erase old }.wake (old * 128) 128
      | none => s
    { s with cxlLines := s.cxlLines ++ [line] }

/-- The lines of an access at the host coherence point, where it reaches host or CXL memory. -/
def State.holdRun (s : State) (key n : Nat) : State :=
  if n == 0 || key < hostBase || fabricBase ≤ key then s else (linesOf key n).foldl State.holdLine s

/-! ### Weak stores on their way (R141, R160, R399) -/

/-- The pending stores that a test picks, with the earlier ones of the same core whose bytes they meet, and the
others: stores of a core to one place are performed in their order (R163). -/
def splitPends (f : Pend → Bool) : List Pend → List Pend × List Pend
  | [] => ([], [])
  | p :: rest =>
    let (take, keep) := splitPends f rest
    if f p || take.any (fun q => q.core == p.core && overlaps q.key q.bytes.length p.key p.bytes.length) then
      (p :: take, keep)
    else (take, p :: keep)

/-- A run of bytes under the pending stores of a core. -/
def overlay (ps : List Pend) (key : Nat) (bs : List Byte) : List Byte :=
  ps.foldl (fun bs p =>
    (List.range bs.length).map fun i =>
      let k := key + i
      if p.key ≤ k && k < p.key + p.bytes.length then p.bytes.getD (k - p.key) 0 else bs.getD i 0) bs

/-! ### The L1s (R333, R334, R340) -/

/-- The core whose L1 holds the line of a physical address for a core: on a fused cluster, the one of the hash (R334). -/
def l1CoreOf (fused : Bool) (core pa : Nat) : Nat :=
  if fused then
    core / 16 * 16 + ((pa / 2 ^ 7 % 16) ^^^ (pa / 2 ^ 11 % 16) ^^^ (pa / 2 ^ 15 % 16) ^^^ (pa / 2 ^ 19 % 16))
  else core

/-- The cores whose L1s serve a core: on a fused cluster every one of it. -/
def l1sOf (fused : Bool) (core : Nat) : List Nat := if fused then (List.range 16).map (core / 16 * 16 + ·) else [core]

/-- The class that a hint names, if it names one (R340). -/
def evpClass : Evp → Option ECls
  | .same => none
  | .first => some .first
  | .normal => some .normal
  | .last => some .last

/-- A line's copy replaced in an L1 that holds it, or a line brought in: the set makes room, and a partial that leaves
goes home (R338). -/
def State.putL1 (s : State) (core : Nat) (x : L1Line) : State :=
  let put (s : State) : State :=
    let c := s.core core
    s.setCore core { c with l1 := putBy (fun y => y.line == x.line) x c.l1 }
  match s.l1At core x.line with
  | some _ => put s
  | none =>
    let set := (s.core core).l1.filter fun y => l1Set y.line == l1Set x.line
    if set.length < ways then put s
    else
      match victimBy L1Line.cls set with
      | some v => put ((s.sendPartial core v.line).dropL1 core v.line)
      | none => put s

/-- The class of a line set in an L1 that holds it. -/
def State.setL1Class (s : State) (core line : Nat) (k : ECls) : State :=
  match s.l1At core line with
  | none => s
  | some _ =>
    let c := s.core core
    let others := c.l1.filter fun y => l1Set y.line == l1Set line && y.line != line
    let demoted := if k == .last then tooMany L1Line.cls others else none
    s.setCore core { c with l1 := c.l1.map fun y =>
      if y.line == line then { y with cls := k } else if demoted == some y then { y with cls := .normal } else y }

/-- A hint sets the class of a line at the levels that the access has touched: an L1, the home (R340). -/
def State.hintAt (s : State) (l1 : Option Nat) (unit line : Nat) (home : Bool) (c : ECls) : State :=
  let s := match l1 with | some core => s.setL1Class core line c | none => s
  if home then s.setL2Class unit line c else s

/-- A pending store performed at its home, with the class that its hint names. -/
def State.perform (s : State) (p : Pend) : State :=
  let s := s.homeWrite p.key p.bytes
  match p.hint with
  | some c => s.setL2Class (p.key / 2 ^ 36) (lineOf p.key) c
  | none => s

/-- The pending stores that a test picks, performed in their order. -/
def State.performIf (s : State) (f : Pend → Bool) : State :=
  let (take, keep) := splitPends f s.pends
  take.foldl State.perform { s with pends := keep }

/-- The stores of a core on their way to some bytes, performed. -/
def State.performAt (s : State) (core key n : Nat) : State :=
  s.performIf fun p => p.core == core && overlaps p.key p.bytes.length key n

/-- A clean line brought into an L1: the home's bytes under the core's own weak stores. -/
def State.fillL1 (s : State) (core pasid line : Nat) (from_ : List Byte) : State × List Byte :=
  let data := overlay (s.pends.filter fun p => p.core == core) (line * 128) from_
  (s.putL1 core { line := line, pasid := pasid, st := .clean data }, data)

/-- A line as the home slice holds it, without collecting what L1s hold of it (R167). -/
def State.plainLine (s : State) (l : Loc) : State × List Byte :=
  let line := lineOf l.key
  if l.hbm then (s.touch (line * 128) 128, s.lineBytes line) else s.copyOf l.unit line

/-- A line that a reader takes at its home: partials first. -/
def State.readLine (s : State) (l : Loc) : State × List Byte :=
  let line := lineOf l.key
  (if l.hbm then s.collectLine line else s).plainLine l

/-- Whether an L1 has a clean copy of a line. -/
def State.l1Hit (s : State) (core line : Nat) : Bool :=
  match s.l1At core line with
  | some { st := .clean _, .. } => true
  | _ => false

/-- A load performed at an L1 (R140, R338). A clean line answers. A weak load that finds no copy takes the line as its
home has it; one that finds it update-only, and every strong load, is served as a reader. The line is brought in, unless
the load is not to allocate. -/
def State.l1Load (s : State) (core pasid : Nat) (l : Loc) (n : Nat) (strong alloc : Bool) : State × List Byte :=
  let line := lineOf l.key
  match s.l1At core line with
  | some { st := .clean data, .. } => (s, runOfLine l.key n data)
  | old =>
    let (s, bs) := if strong || old.isSome then s.readLine l else s.plainLine l
    if alloc then
      let (s, data) := s.fillL1 core pasid line bs
      (s, runOfLine l.key n data)
    else (s, runOfLine l.key n (overlay (s.pends.filter fun p => p.core == core) (line * 128) bs))

/-- A store performed at an L1 (R140, R338): a partial goes home first, a clean line takes the bytes, and the store
goes on to the home. -/
def State.l1Store (s : State) (p : Pend) : State :=
  let line := lineOf p.key
  let s := s.sendPartial p.core line
  let s : State := match s.l1At p.core line with
    | some ({ st := .clean data, .. } : L1Line) =>
      let c := s.core p.core
      s.setCore p.core { c with l1 := c.l1.map fun (y : L1Line) =>
        if y.line == line then { y with st := .clean (overlay [p] (line * 128) data) } else y }
    | _ => s
  { s with pends := s.pends ++ [p] }

/-- The lines that a slice devotes to replicas: 32 MiB (R337). -/
def repLines : Nat := 262144

/-- A replica put into the L2 of a slice; the oldest one leaves where the slice has as many as it may. -/
def State.putReplica (s : State) (unit launch line : Nat) (data : List Byte) : State :=
  let reps := s.l2.filter fun x => x.unit == unit && x.isRep
  let s : State := match (if repLines ≤ reps.length then reps.head? else none) with
    | some old => { s with l2 := s.l2.erase old }
    | none => s
  s.putL2 { unit := unit, line := line, st := .replica launch data, cls := .first }

/-- A `.rep` load (R140, R337) of a core whose slice is this physical one: the L1, the slice's replica, or the home's
line, which is copied to the slice; on system memory it is an `.l2` load. -/
def State.repLoad (s : State) (core unit launch : Nat) (l : Loc) (n : Nat) : State × List Byte :=
  let line := lineOf l.key
  if !l.hbm then s.sysRead l.unit l.key n
  else
    match s.l1At core line with
    | some { st := .clean data, .. } => (s, runOfLine l.key n data)
    | _ =>
      if unit == l.unit then s.homeRead l.key n
      else
        match s.l2At unit line true with
        | some { st := .replica _ data, .. } => (s, runOfLine l.key n data)
        | _ =>
          let (s, bs) := s.homeRead (line * 128) 128
          (s.putReplica unit launch line bs, runOfLine l.key n bs)

/-- The replicas that a test picks, dropped. -/
def State.dropReps (s : State) (f : L2Line → Bool) : State := { s with l2 := s.l2.filter fun x => !(x.isRep && f x) }

/-- Every L1 line of a context on a core discarded, after its partials have gone home (R157, R335). -/
def State.discardL1 (s : State) (core pasid : Nat) : State :=
  let s := ((s.core core).l1.filter fun x => x.pasid == pasid).foldl (fun s x => s.sendPartial core x.line) s
  let c := s.core core
  s.setCore core { c with l1 := c.l1.filter fun x => x.pasid != pasid }

/-- A core's instruction-cache lines of a context discarded (R335). -/
def State.discardCode (s : State) (core pasid : Nat) : State :=
  let c := s.core core
  s.setCore core { c with code := c.code.filter fun x => x.pasid != pasid }

/-- A context's partials on a core sent home (R338, R374). -/
def State.sendPartials (s : State) (core pasid : Nat) : State :=
  ((s.core core).l1.filter fun x => x.pasid == pasid).foldl (fun s x => s.sendPartial core x.line) s

/-! ### A context's own structures, by virtual address (log entry 5) -/

/-- Bytes of a context's structure read at their homes, where they are mapped and no line of them is bad (R390). -/
def State.ctxRead (s : State) (pasid : Nat) (va : DWord) (n : Nat) : Option (State × List Byte) :=
  match s.run pasid va n { r := true } with
  | .ok ps =>
    if ps.any fun (p : Loc × Nat) => s.isBad p.1.key p.2 then none
    else some (ps.foldl (fun (s, bs) (l, k) => let (s, x) := s.homeRead l.key k; (s, bs ++ x)) (s, []))
  | .bad _ _ => none

/-- Bytes of a context's structure written at their homes, where they are mapped. -/
def putPieces (s : State) (ps : List (Loc × Nat)) (bs : List Byte) : State :=
  match ps with
  | [] => s
  | (l, k) :: rest => putPieces (s.homeWrite l.key (bs.take k)) rest (bs.drop k)

/-- The lowest-indexed queue in states 1 to 6 that names the context's record (R354, R377). -/
def State.ctxQueue (s : State) (pasid : Nat) : Option Nat :=
  (List.range s.queues.length).find? fun q =>
    let x := s.queue q
    x.st != .disabled && x.pasid.toNat == pasid && x.ctx == (s.ctx pasid).addr

/-- What an access of the device's own waits on when its translation has not come about: the requests, under the
context's lowest queue, or `none` where it is refused (R345, log entry 5). -/
def State.ctxAsk (s : State) (pasid : Nat) (va : DWord) (n : Need) : Tr → State × Option (List Nat)
  | .absent => let (s, gs) := s.askPage pasid ((s.ctxQueue pasid).getD 0) va n; (s, some gs)
  | .pending => (s.askAts pasid va, some [grpAts])
  | .stalled _ => (s, some [grpHold])
  | _ => (s, none)

/-- Something for the device to write later. -/
def State.addLate (s : State) (pasid : Nat) (what : LateDo) (groups : List Nat) : State :=
  let c := s.ctx pasid
  s.setCtx { c with late := c.late ++ [⟨what, groups⟩] }

/-- Whether bytes yet to be written meet a run. -/
def Late.meets (va : DWord) (n : Nat) (x : Late) : Bool :=
  match x.what with
  | .bytes a bs => overlaps a.toNat bs.length va.toNat n
  | .record _ => false

/-- Bytes of a context's structure written: at once, or when the page has come, and after those that wait already. -/
def State.ctxWrite (s : State) (pasid : Nat) (va : DWord) (bs : List Byte) : State :=
  match (s.ctx pasid).late.find? (Late.meets va bs.length) with
  | some x => s.addLate pasid (.bytes va bs) x.groups
  | none =>
    match s.run pasid va bs.length { w := true } with
    | .ok ps => putPieces s ps bs
    | .bad a t =>
      match s.ctxAsk pasid a { w := true } t with
      | (s, some gs) => s.addLate pasid (.bytes va bs) gs
      | (s, none) => s

def State.ctxNum (s : State) (pasid : Nat) (va : DWord) (n : Nat) : Nat :=
  match s.ctxRead pasid va n with
  | some (_, bs) => leNat bs
  | none => 0

end Sys2Proof.Machine
end

