-- ==== Sys2Proof/Machine/Ops.lean ====
section
/-! DEFINITION. Machine/Ops.lean: the operations that many meanings share: interrupts (R400), fault records (R377),
issuing and waiting (R121, R369), deaths of lanes (R13, R233), trap entry and return (R319 to R324). -/

namespace Sys2Proof.Machine

/-! ### Free values (log entry 6) -/

/-- An undefined 64-bit value, and the state that has used it. -/
def State.fresh (s : State) : State × DWord := ({ s with free := s.free + 1 }, Config.freeWord s.free)

/-- Undefined words (R8). -/
def State.freeWords (s : State) (n : Nat) : State × List Word :=
  ({ s with free := s.free + n }, (List.range n).map fun i => (Config.freeWord (s.free + i)).setWidth 32)

/-- A choice among `n` things that the spec does not fix. -/
def State.pick (s : State) (n : Nat) : State × Nat := ({ s with free := s.free + 1 }, Config.pick s.free % n)

/-! ### Interrupts (R354, R400) -/

def State.send (s : State) (o : Out) : State := { s with sent := s.sent ++ [o] }

/-- A queue's vector raised; while it is unbound its pending bit is set and nothing is sent. -/
def State.raiseQueue (s : State) (q : Nat) : State :=
  let v := (tget 0 s.mapper.qVec q).toNat
  if v == 0 then { s with mapper := { s.mapper with qPend := tset false s.mapper.qPend q true } } else s.send (.msix v)

/-- A device source raised: 0 slot pressure, 1 spare decision, 2 guard-band report, 3 chart error. -/
def State.raiseDev (s : State) (src : Nat) : State :=
  let v := (tget 0 s.mapper.devVec src).toNat
  if v == 0 then { s with mapper := { s.mapper with devPend := s.mapper.devPend ||| (1#4 <<< src) } } else s.send (.msix v)

def State.raiseCtx (s : State) (pasid : Nat) : State :=
  match s.ctxQueue pasid with
  | some q => s.raiseQueue q
  | none => s

/-! ### Fault records (R377) -/

/-- A fault record with everything that an event leaves out at zero. -/
def FaultRec.of (s : State) (code source outcome : Byte) (queue : Nat) : FaultRec where
  time := s.time
  code := code
  source := source
  outcome := outcome
  aux := 0
  tid := 0xFFFFFFFF
  queue := BitVec.ofNat 16 queue
  gen := (s.queue queue).gen
  lanes := 0
  pc := 0
  addr := 0
  prog0 := 0
  prog1 := 0
  place := 0xFFFF

/-- The 64 bytes of a record. -/
def FaultRec.bytes (r : FaultRec) : List Byte :=
  leBytes 8 r.time.toNat ++ [r.code, r.source, r.outcome, r.aux] ++ leBytes 4 r.tid.toNat ++ leBytes 2 r.queue.toNat ++
    leBytes 2 r.gen.toNat ++ leBytes 4 r.lanes.toNat ++ leBytes 8 r.pc.toNat ++ leBytes 8 r.addr.toNat ++
    leBytes 8 r.prog0.toNat ++ leBytes 8 r.prog1.toNat ++ leBytes 4 r.place.toNat ++ leBytes 4 0

/-- A record appended to a context's log: it is dropped and counted while the log is full, and the context's interrupt
is raised when the log was empty. -/
def State.append (s : State) (pasid : Nat) (r : FaultRec) : State :=
  let c := s.ctx pasid
  let size := 2 ^ c.crec.logLog
  let readIdx := s.ctxNum pasid (c.crec.log + 8) 8
  if c.logW - readIdx == size then
    let s := s.setCtx { c with dropped := c.dropped + 1 }
    s.ctxWrite pasid (c.crec.log + 16) (leBytes 4 (c.dropped + 1))
  else
    let s := s.setCtx { c with log := c.log ++ [r], logW := c.logW + 1 }
    let s := s.ctxWrite pasid (c.crec.log + 64 + BitVec.ofNat 64 (64 * (c.logW % size))) r.bytes
    let s := s.ctxWrite pasid c.crec.log (leBytes 8 (c.logW + 1))
    if c.logW == readIdx then s.raiseCtx pasid else s

/-- The same, once the log's header is mapped and after those that wait for it already (R345). -/
def State.log (s : State) (pasid : Nat) (r : FaultRec) : State :=
  let c := s.ctx pasid
  let waiting := c.late.find? fun x => match x.what with | .record _ => true | .bytes _ _ => false
  match waiting with
  | some x => s.addLate pasid (.record r) x.groups
  | none =>
    match s.run pasid c.crec.log 24 { r := true } with
    | .ok _ => s.append pasid r
    | .bad a t =>
      match s.ctxAsk pasid a { r := true } t with
      | (s, some gs) => s.addLate pasid (.record r) gs
      | (s, none) => s.append pasid r

/-- PLACE of an event at a slice alone: [15:0] no core, [23:16] the slice. -/
def placeAt (slice : Nat) : Word := BitVec.ofNat 32 (0xFFFF + slice % 256 * 2 ^ 16)

/-- PLACE of an event on a core: [15:0] core, [23:16] its slice; a crew that stands on none has neither. -/
def placeOf (core : Nat) : Word := if core < 768 then BitVec.ofNat 32 (core + sliceOf core * 2 ^ 16) else 0xFFFF

/-! ### Issue (R121, R120, R369) -/

def State.pasidOf (s : State) (w : Warp) : Nat := (s.launch w.launch).pasid

def State.queueOf (s : State) (w : Warp) : Nat := (s.launch w.launch).queue

/-- The bytes of an instruction as SIG covers them. -/
def sigBytes (i : Instr) : List Byte :=
  match i.encode with
  | some w => leBytes 16 w.toNat
  | none => []

/-- A slot past an instruction: the next PC, and SIG extended by its word. -/
def Slot.past (x : Slot) (i : Instr) : Slot :=
  { x with pc := x.pc + 16, sig := crcExtend x.sig (sigBytes i), wait := none, fetch := none, denied := [] }

/-- The instruction completes, and its slot goes on to the next. -/
def Warp.advance (w : Warp) (side : Side) (i : Instr) : Warp :=
  { w.setSlot side ((w.slot side).past i) with last := side, promoted := false }

/-- The instruction is presented again later: its slot waits. -/
def Warp.await (w : Warp) (side : Side) (why : Why) (now : Nat) : Warp :=
  let x := w.slot side
  let since := match x.wait with | some v => v.since | none => now
  { w.setSlot side { x with wait := some ⟨why, since⟩, fetch := none, denied := [] } with last := side, promoted := false }

/-- The reason a slot waits, if it does. -/
def Warp.why (w : Warp) (side : Side) : Option Why := (w.slot side).wait.map Waiting.why

/-! ### Lanes that end (R13, R129, R233, R234) -/

/-- Monitor entries of lanes freed (R154). -/
def State.dropMonitors (s : State) (uid : Nat) (m : Word) : State :=
  { s with monitors := s.monitors.filter fun x =>
      match x.who with
      | .lane u _ l => !(u == uid && m.getLsbD l)
      | .queue _ => true }

/-- The core of a crew that stands on none. -/
def noCore : Nat := 768

/-- Whether a warp is saved by a pre-emption. -/
def Place.saved (p : Place) : Bool := p == .savedControl || p == .savedFull

/-- A crew whose every warp has left its core stands on none; a pre-emption of it is over once every warp is saved
(R373). -/
def State.crewOut (s : State) (uid : Nat) : State :=
  let ws := s.warps.filter fun w => w.crew == uid
  if ws.all fun w => w.place != .resident then
    s.setCrew { s.crew uid with core := noCore, pre := if ws.all fun w => w.place.saved then none else (s.crew uid).pre }
  else s

/-- A warp removed: its crew goes on with the warps that remain (R376), or ends with its last one, and tags in flight
free later (R311). -/
def State.retire (s : State) (w : Warp) : State :=
  let s := s.dropMonitors w.uid 0xFFFFFFFF
  let s := { s with warps := s.warps.filter fun x => x.uid != w.uid }
  if s.warps.any fun x => x.crew == w.crew then s.crewOut w.crew
  else
    let c := s.crew w.crew
    let k := s.core c.core
    let flying := c.tags.filterMap fun t =>
      if t.done then none else (s.cmds.find? fun m => m.crew == c.uid && m.tag == t.n).map fun m => (t.n, m.id)
    let s := s.setCore c.core { k with orphans := k.orphans ++ flying }
    { s with crews := s.crews.filter fun x => x.uid != w.crew }

/-- A warp left with no live lane waits at the packer in an item launch (R205) and retires in a count launch (R13). -/
def State.checkRetire (s : State) (uid : Nat) : State :=
  match s.warp? uid with
  | none => s
  | some w =>
    if w.live != 0 then s
    else if (s.launch w.launch).lrec.item then
      s.setWarp { w with port := { wait := some ⟨.packer, s.now⟩ }, star := {}, stack := [], parked := [], handler := none,
                         due := none, custDue := none }
    else s.retire w

/-- Lanes become vacant or dead; the warp retires, or waits at the packer, when none is left. -/
def State.lose (s : State) (uid : Nat) (m : Word) (st : LaneSt) : State :=
  match s.warp? uid with
  | none => s
  | some w => ((s.dropMonitors uid m).setWarp (w.lose m st)).checkRetire uid

/-- Entries kept for threads and items that wait for a flow: one each (R220). -/
def Ctx.reserved (c : Ctx) : Nat := (c.flows.map fun f => f.waiters.length).sum

/-- The free indices of an estate table. -/
def Ctx.freeEntries (c : Ctx) : List Nat :=
  (List.range (2 ^ c.crec.estateLog)).filter fun i => (tget {} c.estate i).kind == 0

/-- Some free index, unless every one is reserved (R219). -/
def State.freeEntry (s : State) (pasid : Nat) : State × Option Nat :=
  let c := s.ctx pasid
  let free := c.freeEntries
  if free.length ≤ c.reserved then (s, none) else let (s, k) := s.pick free.length; (s, free[k]?)

/-- An entry written, in the table that the device keeps and in the context's memory (R219, R220). -/
def Entry.status (e : Entry) : Word :=
  BitVec.ofNat 32 (e.kind.toNat + e.state.toNat * 16 + (if e.brv then 128 else 0) + (if e.unack then 256 else 0) +
    (if e.sys then 512 else 0))

def Entry.bytes (e : Entry) : List Byte :=
  leBytes 8 e.object.toNat ++ leBytes 4 e.holder.toNat ++ leBytes 4 e.heir.toNat ++ leBytes 4 e.from_.toNat ++
    leBytes 4 e.status.toNat ++ leBytes 8 e.time.toNat

def State.setEntry (s : State) (pasid idx : Nat) (e : Entry) : State :=
  let c := s.ctx pasid
  let s := s.setCtx { c with estate := tset {} c.estate idx e }
  s.ctxWrite pasid (c.crec.estate + BitVec.ofNat 64 (32 * idx)) e.bytes

/-- Some entry names a thread as heir, directly (R234). TID 0 cannot be named so (R223). -/
def Ctx.namesHeir (c : Ctx) (tid : Word) : Bool := c.estate.any fun e => e.kind != 0 && e.heir == tid && tid != 0

/-- The FORWARD entries of an event (R234). -/
def State.forwards (s : State) (pasid : Nat) : List Dead → State
  | [] => s
  | d :: rest =>
    let s :=
      if d.heir != 0 && (s.ctx pasid).namesHeir d.tid then
        match s.freeEntry pasid with
        | (s, some i) =>
          s.setEntry pasid i { kind := 5, holder := d.tid, heir := d.heir, from_ := 0xFFFFFFFF, time := s.time }
        | (s, none) => s
      else s
    s.forwards pasid rest

/-- A death event starts (R233, R234). -/
def State.addDeath (s : State) (pasid : Nat) (dead : List Dead) (reset : Option Nat) : State :=
  if dead.isEmpty then s
  else
    let s := s.forwards pasid dead
    let c := s.ctx pasid
    s.setCtx { c with deaths := c.deaths ++ [{ dead := dead, reset := reset }] }

/-- The threads of lanes, as an event names them. -/
def State.deadOf (s : State) (w : Warp) (m : Word) (pc : DWord) (died : Bool) : List Dead :=
  (lanesOf m).map fun l =>
    let x := w.lane l
    { tid := x.tid, heir := x.heir, teams := x.teams, core := w.core, uid := w.uid, queue := s.queueOf w, pc := pc,
      died := died }

/-- Lanes die as one event (R13, R232, R233). -/
def State.kill (s : State) (uid : Nat) (m : Word) (pc : DWord) : State :=
  match s.warp? uid with
  | none => s
  | some w =>
    let m := m &&& w.live
    (s.addDeath (s.pasidOf w) (s.deadOf w m pc true) none).lose uid m .dead

/-- The record of a kill (R377): the lanes, the thread when it is one. -/
def State.killRec (s : State) (w : Warp) (m : Word) (code source outcome aux : Byte) (pc addr : DWord) : State :=
  let tid := if countOf m == 1 then (w.lane ((lowLane m).getD 0)).tid else 0xFFFFFFFF
  s.log (s.pasidOf w)
    { FaultRec.of s code source outcome (s.queueOf w) with
      aux := aux, tid := tid, lanes := m, pc := pc, addr := addr, place := placeOf w.core }

/-- Lane deaths by uncorrectable error counted, by cluster and time (R388). -/
def State.countDeaths (s : State) (core : Nat) (m : Word) : State :=
  { s with laneDeaths := s.laneDeaths ++ List.replicate (countOf m) (clusterOf core, s.now) }

/-- Every live lane of a warp dies, by a signature kill or a double trap (R122, R323). -/
def State.killWarp (s : State) (w : Warp) (pc : DWord) (aux : Byte) : State :=
  let s := s.killRec w w.live 0x0C 0 1 aux pc 0
  s.kill w.uid w.live pc

/-- A signature kill, which its core counts (R122, R392). -/
def State.sigKill (s : State) (w : Warp) (pc : DWord) : State :=
  let k := s.core w.core
  (s.setCore w.core { k with sigKills := k.sigKills + 1 }).killWarp w pc 0

/-! ### Trap entry and return (R319 to R324) -/

/-- The vectors that stand in for no instruction of their own (R322). -/
def asyncVec (vec : Nat) : Bool := vec == 0x10 || vec == 0x0B

/-- The warp in its handler: both slots, SIG and latched masks and every live lane's NC saved, the trap registers
written, the port slot at the trap entry with every live lane, the starboard slot free. -/
def Warp.enterTrap (w : Warp) (side : Side) (vec : Nat) (trapv : Word) (pc info : DWord) (mask : Word) (entry : DWord) :
    Warp :=
  let live := w.live
  -- A refused translation is reported once: the instruction asks again when it is executed again (R346).
  let w := w.setSlot side { w.slot side with denied := if asyncVec vec then (w.slot side).denied else [] }
  let saved : Saved :=
    { port := w.port, star := w.star, ncs := (lanesOf live).map fun l => (l, (w.lane l).nc), stack := w.stack,
      parked := w.parked, side := side, vec := vec, last := w.last }
  { w.mapLanes live fun _ x => { x with nc := 0 } with
    handler := some saved
    trapv := trapv
    trappc := pc
    trapinfo := info
    trapmask := mask
    port := freshPath entry live
    star := {}
    stack := []
    parked := [] }

/-- At a trap, what code outside the handler wrote to s120 to s127 is undefined (R19). -/
def State.spoil (s : State) (w : Warp) : State × Warp :=
  if w.soiled == 0 then (s, w)
  else
    let (s, ws) := s.freeWords 8
    (s, { w with
      sregs := (List.range 8).foldl (fun l i => if w.soiled.getLsbD i then tset 0 l (120 + i) (ws.getD i 0) else l) w.sregs,
      soiled := 0 })

/-- A trap taken: a synchronous one inside a handler is a double trap (R323). The handler starts at code base + trap entry as
the sum stands: the spec does not check that it is a multiple of 16 (DESIGN CHOICE, log entry 65). -/
def State.takeTrap (s : State) (w : Warp) (side : Side) (vec : Nat) (trapv : Word) (pc info : DWord) (mask : Word) :
    State :=
  match w.handler with
  | some _ => s.killWarp w (w.slot side).pc (BitVec.ofNat 8 vec)
  | none =>
    let l := (s.launch w.launch).lrec
    let (s, w) := s.spoil w
    s.setWarp (w.enterTrap side vec trapv pc info mask (l.code + l.trapEntry))

/-- A trap on the instruction that a slot issues: TRAPPC is its address (R321). -/
def State.trap (s : State) (w : Warp) (side : Side) (vec : Nat) (info : DWord) (mask : Word) : State :=
  s.takeTrap w side vec (BitVec.ofNat 32 vec) (w.slot side).pc info mask

/-- Trap 0x08, or 0x07, with its SPACE and PERM (R320). -/
def State.trapAddr (s : State) (w : Warp) (side : Side) (vec space : Nat) (perm : Bool) (addr : DWord) (mask : Word) :
    State :=
  s.takeTrap w side vec (BitVec.ofNat 32 (vec + space * 2 ^ 8 + (if perm then 2 ^ 12 else 0))) (w.slot side).pc addr mask

/-- TRAPINFO of traps 0x01 and 0x02 (R52). -/
def fieldInfo (i : Instr) (f : Fld) : DWord :=
  BitVec.ofNat 64 (f.code * 2 ^ 12 + (match i.op with | some o => o.toNat | none => 0))

/-- Trap 0x02 with a FIELD. -/
def State.trapField (s : State) (w : Warp) (side : Side) (i : Instr) (f : Fld) (mask : Word) : State :=
  s.trap w side 2 (fieldInfo i f) mask

/-- A lane's nesting counter as it was saved; a lane that was not live then keeps its own. -/
def Saved.restoreNc (h : Saved) (l : Nat) (x : Lane) : Lane :=
  match h.ncs.find? fun (y : Nat × Byte) => y.1 == l with
  | some y => { x with nc := y.2 }
  | none => x

/-- A slot that goes on at a PC after its trap. What an instruction had done when an asynchronous vector came in front of
it stays done, if the slot goes on at that instruction. -/
def Slot.resumeAt (x : Slot) (pc : DWord) (async : Bool) : Slot :=
  if async && pc == x.pc then { x with fetch := none } else { x with pc := pc, wait := none, fetch := none, denied := [] }

/-- The slots, SIG, latched masks and NC restored, the trapping slot at a PC; lanes lost in the handler are missing
from all of it, and joins they left complete (R324). -/
def Warp.leaveTrap (w : Warp) (h : Saved) (pc : DWord) : Warp :=
  let w := { w with port := h.port, star := h.star, stack := h.stack, parked := h.parked, last := h.last, handler := none }
  let w := w.setSlot h.side ((w.slot h.side).resumeAt pc (asyncVec h.vec))
  let w := w.mapLanes w.live h.restoreNc
  w.settle

/-! ### The issue of a Yeloz instruction -/

/-- An instruction as its slot issues it: the warp, the slot, the lanes that take part. -/
structure Issue where
  s : State
  w : Warp
  side : Side
  i : Instr
  tp : Word
  deriving DecidableEq, Repr

abbrev Res := Host.Outcome State Fault Refusal

/-- The slot's PC. -/
def Issue.pc (x : Issue) : DWord := (x.w.slot x.side).pc

/-- A trap on the instruction. -/
def Issue.trap (x : Issue) (vec : Nat) (info : DWord) (mask : Word) : State := x.s.trap x.w x.side vec info mask

def Issue.trapField (x : Issue) (f : Fld) (mask : Word) : State := x.s.trapField x.w x.side x.i f mask

/-- The instruction completes with this warp. -/
def Issue.done (x : Issue) (w : Warp) : State := x.s.setWarp (w.advance x.side x.i)

/-- The instruction has no effect but its own issue. -/
def Issue.skip (x : Issue) : State := x.done x.w

/-- The instruction waits. -/
def Issue.await (x : Issue) (why : Why) : State := x.s.setWarp (x.w.await x.side why x.s.now)

/-- The instruction completes in another state of the rest of the machine, in which its warp still runs. -/
def Issue.doneIn (x : Issue) (s : State) : State :=
  match s.warp? x.w.uid with
  | some w => s.setWarp (w.advance x.side x.i)
  | none => s

/-- The guards of an instruction. -/
def guardsOf (i : Instr) : Guard × Guard :=
  match i.fields, i.cfields with
  | some f, _ => (f.g1, f.g2)
  | _, some f => (f.g1, f.g2)
  | _, _ => (Guard.pt, Guard.pt)

/-- The issue of an instruction by the slot whose turn it is: its fields are checked against the warp's allotment
(R51 to R53), and then it acts. -/
def issue (i : Instr) (s : State) (act : Issue → State) : Res :=
  match s.turn with
  | some (.slot uid side) =>
    match s.warp? uid with
    | none => .fault .noWarp
    | some w =>
      match i.fault (s.allotOf w) with
      | some f => .next (s.trapField w side i f (w.active side))
      | none =>
        let g := guardsOf i
        .next (act { s := s, w := w, side := side, i := i, tp := w.takesPart side g.1 g.2 })
  | _ => .fault .noWarp

end Sys2Proof.Machine
end

