-- ==== Sys2Proof/Machine/Operands.lean ====
section
/-! DEFINITION. Machine/Operands.lean: reading and writing the operands of a word (R40, R41, R44), and running an
operation once or lane by lane under the domain rule (R48). Operand values are numbers of the operand's width. -/

namespace Sys2Proof.Machine

/-- `k` registers from `n` on as one number, the first lowest (R41). -/
def regsNum (get : Nat → Word) (n : Nat) : Nat → Nat
  | 0 => 0
  | k + 1 => (get n).toNat + 2 ^ 32 * regsNum get (n + 1) k

/-- A vector register, pair or group of a lane; `vz` reads 0 in every part. -/
def Lane.num (x : Lane) (n k : Nat) : Nat := if n == 255 then 0 else regsNum x.reg n k

/-- A vector register, pair or group written; `vz` discards every part. -/
def Lane.put (x : Lane) (n : Nat) : Nat → Nat → Lane
  | 0, _ => x
  | k + 1, v => if n == 255 then x else (x.setReg n (BitVec.ofNat 32 v)).put (n + 1) k (v / 2 ^ 32)

def Warp.snum (w : Warp) (n k : Nat) : Nat := regsNum w.sreg n k

def Warp.sput (w : Warp) (n : Nat) : Nat → Nat → Warp
  | 0, _ => w
  | k + 1, v => (w.setSreg n (BitVec.ofNat 32 v)).sput (n + 1) k (v / 2 ^ 32)

/-- FP32 widened exactly to FP64 (R44). -/
def widen (x : Nat) : Nat :=
  match fp32.decode x with
  | .nan _ =>
    -- The bits of a NaN, widened as they stand.
    x / 2 ^ 31 % 2 * 2 ^ 63 + 0x7FF * 2 ^ 52 + x % 2 ^ 23 * 2 ^ 29
  | v => (v.write fp64 .rne false).1

/-- The immediate as an operand reads it (R44). -/
def immNum (ty : DType) (imm : Word) : Nat :=
  match ty with
  | .i64 => (imm.signExtend 64).toNat
  | .f64 => widen imm.toNat
  | _ => imm.toNat

/-- Whether an operand is a scalar register. -/
def isScalar : Opnd → Bool
  | .s _ => true
  | _ => false

/-- An operand of a lane as a number `k` registers wide; a predicate reads 0 or 1, none reads 0. -/
def Warp.opnd (w : Warp) (l k imm : Nat) : Opnd → Nat
  | .v n => (w.lane l).num n.toNat k
  | .s n => w.snum n.toNat k
  | .p n => if (w.lane l).pred n then 1 else 0
  | .imm => imm
  | _ => 0

/-- The operands of a word in a lane. -/
def Issue.get (x : Issue) (f : Fields) (l k : Nat) (o : Opnd) : Nat := x.w.opnd l k (immNum f.ty f.imm) o

/-- The flags of every lane of a mask together. -/
def orAll (m : Word) (g : Nat → Word) : Word := (lanesOf m).foldl (fun a l => a ||| g l) 0

/-- A result written to a destination in the lanes that take part, or once to a scalar one (R48). -/
def Warp.write (w : Warp) (tp : Word) (d : Opnd) (k : Nat) (val : Nat → Nat) : Warp :=
  match d with
  | .s n => if tp == 0 then w else w.sput n.toNat k (val 0)
  | .v n => w.mapLanes tp fun l x => x.put n.toNat k (val l)
  | .p n => w.mapLanes tp fun l x => x.setPred n (val l != 0)
  | _ => w

/-- The flags that go with `write`: one lane's for a scalar destination, every taking-part lane's otherwise (R96). -/
def resultFlags (tp : Word) (d : Opnd) (fl : Nat → Word) : Word :=
  match d with
  | .s _ => if tp == 0 then 0 else fl 0
  | _ => orAll tp fl

/-- An operation under R48: its value and its flags in each lane, from the registers as they were. -/
def Issue.alu (x : Issue) (d : Opnd) (k : Nat) (op : Nat → Nat × Word) : State :=
  x.done ((x.w.write x.tp d k fun l => (op l).1).orFlags (resultFlags x.tp d fun l => (op l).2))

/-- Element by element: operands cut into elements of the type, results joined (R60, R82). -/
def mapElems (ty : DType) (args : List Nat) (g : List Nat → Nat) : Nat :=
  let w := ty.elem
  (List.range (32 * ty.regs / w)).foldl
    (fun acc i => acc + g (args.map fun a => a / 2 ^ (w * i) % 2 ^ w) % 2 ^ w * 2 ^ (w * i)) 0

/-- The flags of every element together. -/
def flagElems (ty : DType) (args : List Nat) (g : List Nat → Word) : Word :=
  let w := ty.elem
  (List.range (32 * ty.regs / w)).foldl (fun acc i => acc ||| g (args.map fun a => a / 2 ^ (w * i) % 2 ^ w)) 0

/-- The sources of a word in a lane, as wide as its type. -/
def Issue.srcs (x : Issue) (f : Fields) (l : Nat) (os : List Opnd) : List Nat := os.map fun o => x.get f l f.ty.regs o

end Sys2Proof.Machine
end

