-- ==== Sys2Proof/Machine/Control.lean ====
section
/-! DEFINITION. Machine/Control.lean: the control instructions that move paths (R118 to R135), and the wait of a
fault-split's paths at a reconvergence point (R132). `exit` stands with the items. -/

namespace Sys2Proof.Machine

/-! ### Where a path goes -/

/-- A slot goes to a PC and starts a block there (R121). -/
def Warp.jump (w : Warp) (side : Side) (pc : DWord) : Warp :=
  { w.setSlot side { (w.slot side).enter with pc := pc, wait := none, fetch := none, denied := [] } with
    last := side, promoted := false }

/-- The path of the issuing slot goes on at a PC, in a new block. -/
def Issue.goto (x : Issue) (pc : DWord) : State := x.s.setWarp (x.w.jump x.side pc)

/-- The address after the instruction. -/
def Issue.next (x : Issue) : DWord := x.pc + 16

/-- A direct target (R47). -/
def Issue.target (x : Issue) (ofs : BitVec 24) : DWord := x.next + ofs.signExtend 64 * 16

/-- The active lanes of the issuing slot. -/
def Issue.am (x : Issue) : Word := x.w.active x.side

/-- Trap 0x04 with a reason (R134). -/
def Issue.diverge (x : Issue) (reason : Nat) (mask : Word) : State := x.trap 4 (BitVec.ofNat 64 reason) mask

/-! ### The reckoning checks (R122, R133) -/

/-- Checks 1 and 2 of R122: none with SIGX = 0, and none at the first block exit of a resumed path. -/
def Issue.sigOk (x : Issue) (sigx : Word) : Bool :=
  let p := x.w.slot x.side
  sigx == 0 || p.resumed || (p.sig == sigx && p.mask == p.latched)

/-- An instruction that closes its block acts after the checks, or its warp is killed. -/
def Issue.checked (x : Issue) (sigx : Word) (act : State) : State :=
  if x.sigOk sigx then act else x.s.sigKill x.w x.pc

/-! ### Fault-splits at a reconvergence point (R132) -/

/-- The topmost entry that holds a lane of a mask. -/
def Warp.topEntry (w : Warp) (m : Word) : Option SEntry := w.stack.find? fun e => e.mask &&& m != 0

/-- The slot of the running path of a split, as against the path that was parked. -/
def Warp.runner (w : Warp) (e : SEntry) : Side := if w.port.mask &&& ~~~e.late == 0 then .star else .port

/-- The two paths of a split merged: the entry popped, the masks united in the running path's slot, which keeps its SIG
and to whose latched mask the parked lanes are added (R133), the other slot free. -/
def Warp.mergeSplit (w : Warp) (e : SEntry) : Warp × Side :=
  let run := w.runner e
  let a := w.slot run
  let b := w.slot (otherSide run)
  let w := { w with stack := w.stack.erase e }
  let w := w.addNc e.mask (-1)
  let w := w.setSlot run { a with mask := a.mask ||| b.mask, latched := a.latched ||| b.mask, wait := none }
  let w := w.setSlot (otherSide run) {}
  (w.takePath (otherSide run), run)

/-- A reconvergence point: the instruction acts at once, unless a fault-split is open above its path; then it waits for
the other path, and acts with the lanes of both. -/
def Issue.converge (x : Issue) (act : Issue → State) : State :=
  let p := x.w.slot x.side
  match x.w.topEntry p.mask with
  | none => act x
  | some e =>
    if e.kind != 1 then act x
    else
      let q := x.w.slot (otherSide x.side)
      let there := match q.wait with | some ⟨.split, _⟩ => true | _ => false
      if there && q.mask &&& e.mask != 0 && (p.mask ||| q.mask) == e.mask then
        if q.pc == p.pc then
          let (w, side) := x.w.mergeSplit e
          let g := guardsOf x.i
          let y := { x with s := x.s.setWarp w, w := w, side := side, tp := w.takesPart side g.1 g.2 }
          -- A split around the one that has merged makes the united path wait in its turn.
          match w.topEntry (w.slot side).mask with
          | some o => if o.kind == 1 then y.await .split else act y
          | none => act y
        else x.diverge 5 e.mask
      else x.await .split

/-! ### Uniform transfers (R123, R124) -/

/-- A guard evaluated over the active lanes of the slot: the transfer is made, or the path goes on, or trap 0x04. -/
def Issue.uniform (x : Issue) (go : State) : State :=
  if x.tp == 0 then x.goto x.next
  else if x.tp == x.am then go
  else x.diverge 1 x.tp

/-- A target held in a scalar pair (R47, R119). -/
def Issue.indirect (x : Issue) (f : CFields) (go : DWord → State) : State :=
  let t : DWord := BitVec.ofNat 64 (x.w.snum f.sreg.toNat 2)
  if t.extractLsb' 0 4 != 0 then x.s.trapAddr x.w x.side 7 2 false t x.am else go t

def execBra (f : CFields) (s : State) : Res :=
  issue (.bra f) s fun x => x.checked f.sigx (x.uniform (x.goto (x.target f.ofs1)))

def execBrx (f : CFields) (s : State) : Res :=
  issue (.brx f) s fun x => x.checked f.sigx (x.uniform (x.indirect f fun t => x.goto t))

/-- Trap 0x05 (R21, R130). -/
def Issue.overflow (x : Issue) : State := x.trap 5 0 (x.w.slot x.side).mask

/-- A record that fails (R126, R130): a signature kill, or trap 0x04 with reason 2. -/
def Issue.badRecord (x : Issue) (sigx : Word) : State :=
  if sigx != 0 then x.s.sigKill x.w x.pc else x.diverge 2 (x.w.slot x.side).mask

/-- R124: the call entry, and the transfer. -/
def Issue.callTo (x : Issue) (t : DWord) : State :=
  if x.w.full then x.overflow
  else
    let w := x.w.push ⟨x.next, (x.w.slot x.side).mask, 2, x.w.nc x.side, 0⟩
    x.s.setWarp (w.jump x.side t)

def execCall (f : CFields) (s : State) : Res :=
  issue (.call f) s fun x => x.checked f.sigx (x.uniform
    (if f.s then x.indirect f x.callTo else x.callTo (x.target f.ofs1)))

/-- R124: the matching call entry popped. The TRAPMASK of reason 4, which R124 does not give, is the slot's active lanes
(DESIGN CHOICE, log entry 51). -/
def Issue.popCall (x : Issue) (sigx : Word) : State :=
  let m := (x.w.slot x.side).mask
  match x.w.topEntry m with
  | some e =>
    if 4 ≤ e.kind.toNat then x.badRecord sigx
    else if e.kind == 2 && e.mask == m then
      x.s.setWarp ({ x.w with stack := x.w.stack.erase e }.jump x.side e.pc)
    else x.diverge 4 x.am
  | none => x.diverge 4 x.am

/-- `ret`: its transfer is a reconvergence point when it would cross a fault-split (R132). -/
def execRet (f : CFields) (s : State) : Res :=
  issue (.ret f) s fun x => x.checked f.sigx (x.uniform (x.converge fun x => x.uniform (x.popCall f.sigx)))

/-! ### Fork and join (R125, R126) -/

/-- The lanes for which a fork's condition and guard hold. -/
def Issue.taken (x : Issue) (f : CFields) : Word :=
  maskOf fun l => x.tp.getLsbD l && ((x.w.lane l).pred f.cp != f.cn)

def Issue.fork (x : Issue) (f : CFields) : State :=
  let p := x.w.slot x.side
  let tk := x.taken f
  let ft := p.mask &&& ~~~tk
  if tk == 0 then x.goto x.next
  else if ft == 0 then x.goto (x.target f.ofs1)
  else
    let nc := x.w.nc x.side
    let free := (x.w.slot (otherSide x.side)).mask == 0
    if nc == 255 then x.overflow
    else if 512 < x.w.depth + (if free then 1 else 2) then x.overflow
    else
      let w := x.w.push ⟨x.target f.ofs2, p.mask, 0, nc, 0⟩
      let w := w.addNc p.mask 1
      let w := (w.setSlot x.side { p with mask := ft }).jump x.side x.next
      x.s.setWarp (w.addPath (otherSide x.side) (freshPath (x.target f.ofs1) tk) (nc + 1))

def execFork (f : CFields) (s : State) : Res := issue (.fork f) s fun x => x.checked f.sigx (x.fork f)

/-- The lanes of the slot arrive at their join entry. -/
def Issue.join (x : Issue) (f : CFields) : State :=
  let p := x.w.slot x.side
  let bad : State := x.badRecord f.sigx
  match x.w.topEntry p.mask with
  | none => bad
  | some e =>
    if e.kind == 0 && e.pc == x.pc && p.mask &&& ~~~e.mask == 0 && e.depth + 1 == x.w.nc x.side && x.w.nc x.side != 0
    then
      let above := x.w.stack.takeWhile fun y => y != e
      let w := { x.w.setSlot x.side {} with last := x.side, promoted := false }
      if w.ripe above e then
        let w := { w with stack := w.stack.erase e }.addNc e.mask (-1)
        x.s.setWarp (w.setSlot x.side (freshPath (e.pc + 16) e.mask)).settle
      else x.s.setWarp w.settle
    else bad

def execJoin (f : CFields) (s : State) : Res :=
  issue (.join f) s fun x => x.checked f.sigx (x.converge fun x => x.join f)

/-! ### Breaking out (R128) -/

/-- The regions of a break, from the top: the first `n` join entries that hold every lane of a mask. -/
def regionsOf (b : Word) : Nat → List SEntry → List SEntry
  | 0, _ => []
  | _, [] => []
  | n + 1, e :: rest => if e.kind == 0 && b &&& ~~~e.mask == 0 then e :: regionsOf b n rest else regionsOf b (n + 1) rest

/-- The entries above and up to the last region of a break. -/
def reachOf (b : Word) : Nat → List SEntry → List SEntry
  | 0, _ => []
  | _, [] => []
  | n + 1, e :: rest => e :: (if e.kind == 0 && b &&& ~~~e.mask == 0 then reachOf b n rest else reachOf b (n + 1) rest)

/-- The first `n` join entries that hold every lane of a mask, without it. -/
def cutRegions (b : Word) : Nat → List SEntry → List SEntry
  | 0, l => l
  | _, [] => []
  | n + 1, e :: rest =>
    if e.kind == 0 && b &&& ~~~e.mask == 0 then { e with mask := e.mask &&& ~~~b } :: cutRegions b n rest
    else e :: cutRegions b (n + 1) rest

/-- What a break of the lanes that take part fails with before any effect: an entry of a reserved KIND that it examines
(R130), too few regions, a call entry of theirs above the last one. The TRAPMASK of reason 3, which R128 does not give, is
the slot's active lanes (DESIGN CHOICE, log entry 51). -/
def Issue.breakFails (x : Issue) (f : CFields) : Option State :=
  let b := x.tp
  let n := f.n.toNat
  let reach := reachOf b n x.w.stack
  if reach.any fun e => 4 ≤ e.kind.toNat && e.mask &&& b != 0 then some (x.badRecord f.sigx)
  else if (regionsOf b n x.w.stack).length < n || reach.any fun e => e.kind == 2 && e.mask &&& b != 0 then
    some (x.diverge 3 x.am)
  else none

/-- A break of the lanes that take part. -/
def Issue.breakOut (x : Issue) (f : CFields) : State :=
  let b := x.tp
  let n := f.n.toNat
  if b == 0 then x.goto x.next
  else
    match x.breakFails f with
    | some s => s
    | none =>
      let p := x.w.slot x.side
      let t := x.target f.ofs1
      let w := { x.w with stack := cutRegions b n x.w.stack }.addNc b (-(BitVec.ofNat 8 n))
      if b == p.mask then x.s.setWarp (w.jump x.side t).settle
      else if x.w.full && (x.w.slot (otherSide x.side)).mask != 0 then x.overflow
      else
        let nc := x.w.nc x.side - BitVec.ofNat 8 n
        let w := (w.setSlot x.side { p with mask := p.mask &&& ~~~b }).jump x.side x.next
        x.s.setWarp (w.addPath (otherSide x.side) (freshPath t b) nc).settle

/-- Whether a break that passes its checks would cross a fault-split. -/
def Issue.crossesSplit (x : Issue) (f : CFields) : Bool :=
  x.tp != 0 && (x.breakFails f).isNone &&
    (reachOf x.tp f.n.toNat x.w.stack).any fun e => e.kind == 1 && e.mask &&& x.tp != 0

def execBrk (f : CFields) (s : State) : Res :=
  issue (.brk f) s fun x => x.checked f.sigx
    (if x.crossesSplit f then x.converge fun x => x.breakOut f else x.breakOut f)

/-! ### The rest (R122) -/

def execSigchk (f : CFields) (s : State) : Res :=
  issue (.sigchk f) s fun x => x.checked f.sigx (x.goto x.next)

def execNop (f : CFields) (s : State) : Res := issue (.nop f) s fun x => x.skip

end Sys2Proof.Machine
end

