-- ==== Sys2Proof/Machine/IntOps.lean ====
section
/-! DEFINITION. Machine/IntOps.lean: the integer and logic group (R60 to R75). -/

namespace Sys2Proof.Machine

/-! ### Shapes -/

/-- An exact integer result of the elements, wrapped or saturated (R65). -/
def exactInt (ty : DType) (sat : Bool) (f : List Int → Int) (es : List Nat) : Nat :=
  let w := ty.elem
  let x := f (es.map fun e => intOf w ty.signed e)
  intBits w (if sat then (clampInt w ty.signed x).1 else x)

/-- An arithmetic instruction of R65. -/
def Issue.arith (x : Issue) (f : Fields) (os : List Opnd) (sat : Bool) (g : List Int → Int) : State :=
  x.alu f.d f.ty.regs fun l => (mapElems f.ty (x.srcs f l os) (exactInt f.ty sat g), 0)

/-- An operation on the bits of whole operands of `w` bits. -/
def Issue.bits (x : Issue) (f : Fields) (os : List Opnd) (g : List Nat → Nat) : State :=
  x.alu f.d f.ty.regs fun l => (g (x.srcs f l os) % 2 ^ f.ty.elem, 0)

def arg (l : List Int) (i : Nat) : Int := l.getD i 0

def nat (l : List Nat) (i : Nat) : Nat := l.getD i 0

/-! ### Arithmetic (R65 to R67) -/

def execAdd (f : Fields) (s : State) : Res :=
  issue (.add f) s fun x => x.arith f [f.a, f.b] (f.sub == 1) fun v => arg v 0 + arg v 1

def execSub (f : Fields) (s : State) : Res :=
  issue (.sub f) s fun x => x.arith f [f.a, f.b] (f.sub == 1) fun v => arg v 0 - arg v 1

/-- `addc` and `subb` (R66): the result, and the carry or borrow out. -/
def carryOp (w : Nat) (minus : Bool) (a b c : Nat) : Nat × Bool :=
  if minus then ((a + 2 ^ (w + 1) - b - c) % 2 ^ w, a < b + c) else ((a + b + c) % 2 ^ w, 2 ^ w ≤ a + b + c)

def Issue.carry (x : Issue) (f : Fields) (minus : Bool) : State :=
  let r (l : Nat) : Nat × Bool :=
    carryOp f.ty.elem minus (x.get f l f.ty.regs f.a) (x.get f l f.ty.regs f.b) (x.get f l 1 f.c)
  x.done ((x.w.write x.tp f.d f.ty.regs fun l => (r l).1).write x.tp f.e 1 fun l => if (r l).2 then 1 else 0)

def execAddc (f : Fields) (s : State) : Res := issue (.addc f) s fun x => x.carry f false

def execSubb (f : Fields) (s : State) : Res := issue (.subb f) s fun x => x.carry f true

def execMul (f : Fields) (s : State) : Res :=
  issue (.mul f) s fun x => x.arith f [f.a, f.b] false fun v => arg v 0 * arg v 1

def execMulhi (f : Fields) (s : State) : Res :=
  issue (.mulhi f) s fun x => x.arith f [f.a, f.b] false fun v => (arg v 0 * arg v 1) / 2 ^ f.ty.elem

def execMad (f : Fields) (s : State) : Res :=
  issue (.mad f) s fun x => x.arith f [f.a, f.b, f.c] false fun v => arg v 0 * arg v 1 + arg v 2

/-- R65: 32-bit factors, a 64-bit addend and result. -/
def execMadw (f : Fields) (s : State) : Res :=
  issue (.madw f) s fun x => x.alu f.d 2 fun l =>
    let a := intOf 32 f.ty.signed (x.get f l 1 f.a)
    let b := intOf 32 f.ty.signed (x.get f l 1 f.b)
    (intBits 64 (a * b + x.get f l 2 f.c), 0)

def execMin (f : Fields) (s : State) : Res :=
  issue (.min f) s fun x => x.arith f [f.a, f.b] false fun v => min (arg v 0) (arg v 1)

def execMax (f : Fields) (s : State) : Res :=
  issue (.max f) s fun x => x.arith f [f.a, f.b] false fun v => max (arg v 0) (arg v 1)

def execAbs (f : Fields) (s : State) : Res :=
  issue (.abs f) s fun x => x.arith f [f.a] (f.sub == 1) fun v => (arg v 0).natAbs

def execNeg (f : Fields) (s : State) : Res :=
  issue (.neg f) s fun x => x.arith f [f.a] (f.sub == 1) fun v => - arg v 0

/-- R65: the dot product of four byte pairs, added to c. -/
def execIdp4 (f : Fields) (s : State) : Res :=
  issue (.idp4 f) s fun x => x.alu f.d 1 fun l =>
    let a := x.get f l 1 f.a
    let b := x.get f l 1 f.b
    let byte (y k : Nat) : Int := intOf 8 f.ty.signed (y / 2 ^ (8 * k))
    let dot := byte a 0 * byte b 0 + byte a 1 * byte b 1 + byte a 2 * byte b 2 + byte a 3 * byte b 3
    (intBits 32 (intOf 32 f.ty.signed (x.get f l 1 f.c) + dot), 0)

/-- The quotient of R67, rounded toward zero, with its edge cases. -/
def quot (signed : Bool) (a b : Int) : Int :=
  if b == 0 then (if signed && a < 0 then 1 else -1) else Int.tdiv a b

/-- The remainder of R67. -/
def remainder (a b : Int) : Int := if b == 0 then a else Int.tmod a b

def execDiv (f : Fields) (s : State) : Res :=
  issue (.div f) s fun x => x.arith f [f.a, f.b] false fun v => quot f.ty.signed (arg v 0) (arg v 1)

def execRem (f : Fields) (s : State) : Res :=
  issue (.rem f) s fun x => x.arith f [f.a, f.b] false fun v => remainder (arg v 0) (arg v 1)

def execClamp (f : Fields) (s : State) : Res :=
  issue (.clamp f) s fun x => x.arith f [f.a, f.b, f.c] false fun v => min (max (arg v 0) (arg v 1)) (arg v 2)

/-! ### Logic, shifts and bit fields (R68 to R72) -/

def execAnd (f : Fields) (s : State) : Res :=
  issue (.and f) s fun x => x.bits f [f.a, f.b] fun v => nat v 0 &&& nat v 1

def execOr (f : Fields) (s : State) : Res :=
  issue (.or f) s fun x => x.bits f [f.a, f.b] fun v => nat v 0 ||| nat v 1

def execXor (f : Fields) (s : State) : Res :=
  issue (.xor f) s fun x => x.bits f [f.a, f.b] fun v => nat v 0 ^^^ nat v 1

/-- The complement of `w` bits. -/
def notBits (w a : Nat) : Nat := 2 ^ w - 1 - a % 2 ^ w

def execAndn (f : Fields) (s : State) : Res :=
  issue (.andn f) s fun x => x.bits f [f.a, f.b] fun v => nat v 0 &&& notBits f.ty.elem (nat v 1)

def execNot (f : Fields) (s : State) : Res :=
  issue (.not f) s fun x => x.bits f [f.a] fun v => notBits f.ty.elem (nat v 0)

/-- The entry of a truth table that three bits pick (R68, R77). -/
def lutBit (lut : Nat) (a b c : Bool) : Bool :=
  lut.testBit ((if a then 1 else 0) + (if b then 2 else 0) + (if c then 4 else 0))

/-- A number of `w` bits, bit by bit. -/
def ofBits (w : Nat) (p : Nat → Bool) : Nat := (List.range w).foldl (fun a i => if p i then a + 2 ^ i else a) 0

def execLop3 (f : Fields) (s : State) : Res :=
  issue (.lop3 f) s fun x => x.bits f [f.a, f.b, f.c] fun v =>
    ofBits f.ty.elem fun j => lutBit f.imm.toNat ((nat v 0).testBit j) ((nat v 1).testBit j) ((nat v 2).testBit j)

/-- A shift of every element by one count (R69). -/
def Issue.shift (x : Issue) (f : Fields) (g : Nat → Nat → Nat) : State :=
  x.alu f.d f.ty.regs fun l =>
    let n := x.get f l 1 f.b % 2 ^ 32
    (mapElems f.ty [x.get f l f.ty.regs f.a] fun v => g (nat v 0) n, 0)

def shlBits (w a n : Nat) : Nat := if w ≤ n then 0 else a * 2 ^ n % 2 ^ w

def shrBits (w a n : Nat) : Nat := if w ≤ n then 0 else a / 2 ^ n

def sraBits (w a n : Nat) : Nat := intBits w (intOf w true a / 2 ^ (min n w))

def rolBits (w a n : Nat) : Nat := let k := n % w; (a * 2 ^ k + a / 2 ^ (w - k)) % 2 ^ w

def execShl (f : Fields) (s : State) : Res := issue (.shl f) s fun x => x.shift f (shlBits f.ty.elem)

def execShr (f : Fields) (s : State) : Res := issue (.shr f) s fun x => x.shift f (shrBits f.ty.elem)

def execSra (f : Fields) (s : State) : Res := issue (.sra f) s fun x => x.shift f (sraBits f.ty.elem)

def execRol (f : Fields) (s : State) : Res := issue (.rol f) s fun x => x.shift f (rolBits f.ty.elem)

/-- The funnel shift of R69. -/
def fshBits (w : Nat) (left : Bool) (a b n : Nat) : Nat :=
  let m := min n w
  let y := a + b * 2 ^ w
  if left then y * 2 ^ m / 2 ^ w % 2 ^ w else y / 2 ^ m % 2 ^ w

def execFsh (f : Fields) (s : State) : Res :=
  issue (.fsh f) s fun x => x.alu f.d f.ty.regs fun l =>
    (fshBits f.ty.elem (f.sub == 1) (x.get f l f.ty.regs f.a) (x.get f l f.ty.regs f.b) (x.get f l 1 f.c % 2 ^ 32), 0)

/-- The field of R70: `k` bits of `a` from bit `p`, bits beyond the width read as 0 or, signed, as the top bit. -/
def bextBits (w : Nat) (signed : Bool) (a p k : Nat) : Nat :=
  let k := min k w
  let top := signed && a.testBit (w - 1)
  let bit (j : Nat) : Bool := if p + j < w then a.testBit (p + j) else top
  ofBits w fun j => if j < k then bit j else (signed && 0 < k && bit (k - 1))

def execBext (f : Fields) (s : State) : Res :=
  issue (.bext f) s fun x => x.alu f.d f.ty.regs fun l =>
    (bextBits f.ty.elem (f.sub == 1) (x.get f l f.ty.regs f.a) (x.get f l 1 f.b % 256) (x.get f l 1 f.c % 256), 0)

/-- The insertion of R70. -/
def binsBits (w a b p k : Nat) : Nat :=
  let k := min k w
  ofBits w fun j => if p ≤ j && j < p + k then b.testBit (j - p) else a.testBit j

def execBins (f : Fields) (s : State) : Res :=
  issue (.bins f) s fun x => x.alu f.d f.ty.regs fun l =>
    (binsBits f.ty.elem (x.get f l f.ty.regs f.a) (x.get f l f.ty.regs f.b) (x.get f l 1 f.c % 256)
      (x.get f l 1 f.e % 256), 0)

/-- A count of bits, written to one 32-bit register (R71). -/
def Issue.count (x : Issue) (f : Fields) (g : Nat → Nat) : State :=
  x.alu f.d 1 fun l => (g (x.get f l f.ty.regs f.a), 0)

def execPopc (f : Fields) (s : State) : Res :=
  issue (.popc f) s fun x => x.count f fun a => ((List.range f.ty.elem).filter fun i => a.testBit i).length

def execClz (f : Fields) (s : State) : Res := issue (.clz f) s fun x => x.count f fun a => f.ty.elem - bitLen a

def execCtz (f : Fields) (s : State) : Res :=
  issue (.ctz f) s fun x => x.count f fun a =>
    match (List.range f.ty.elem).find? fun i => a.testBit i with
    | some i => i
    | none => f.ty.elem

def execBrev (f : Fields) (s : State) : Res :=
  issue (.brev f) s fun x => x.bits f [f.a] fun v =>
    ofBits f.ty.elem fun j => (nat v 0).testBit (f.ty.elem - 1 - j)

/-- One result byte of `bperm` (R72): `y` is {b, a}, `c` the control byte. -/
def bpermByte (y c : Nat) : Nat :=
  let b := y / 2 ^ (8 * (c % 8)) % 256
  match c / 8 % 4 with
  | 0 => b
  | 1 => 0
  | 2 => if 128 ≤ b then 255 else 0
  | _ => 255

def execBperm (f : Fields) (s : State) : Res :=
  issue (.bperm f) s fun x => x.alu f.d 1 fun l =>
    let y := x.get f l 1 f.a + 2 ^ 32 * x.get f l 1 f.b
    let c := x.get f l 1 f.c
    ((List.range 4).foldl (fun acc k => acc + bpermByte y (c / 2 ^ (8 * k) % 256) * 2 ^ (8 * k)) 0, 0)

/-! ### Compare, select and address (R73 to R75) -/

/-- An integer relation by its cc (R73). -/
def intRel (cc : Nat) (a b : Int) : Bool :=
  match cc with
  | 0 => a == b
  | 1 => a != b
  | 2 => a < b
  | 3 => a ≤ b
  | 4 => b < a
  | _ => b ≤ a

/-- A relation combined with a predicate by its op (R73). -/
def combineBool (op : Nat) (t c : Bool) : Bool :=
  match op with
  | 0 => t
  | 1 => t && c
  | 2 => t || c
  | _ => t != c

def execCmp (f : Fields) (s : State) : Res :=
  issue (.cmp f) s fun x => x.alu f.d 1 fun l =>
    let a := intOf f.ty.elem f.ty.signed (x.get f l f.ty.regs f.a)
    let b := intOf f.ty.elem f.ty.signed (x.get f l f.ty.regs f.b)
    (if combineBool (f.subBits 4 2) (intRel (f.subBits 0 3) a b) (x.get f l 1 f.c != 0) then 1 else 0, 0)

def execSel (f : Fields) (s : State) : Res :=
  issue (.sel f) s fun x => x.alu f.d f.ty.regs fun l =>
    (if x.get f l 1 f.c != 0 then x.get f l f.ty.regs f.a else x.get f l f.ty.regs f.b, 0)

/-- The address sum of R45 and R75. -/
def addrSum (sub : BitVec 6) (base idx : Nat) (hasIdx : Bool) (ofs : Int) : DWord :=
  let i : Int := if !hasIdx then 0 else if sub.getLsbD 3 then (idx % 2 ^ 32 : Nat) else intOf 32 true idx
  BitVec.ofNat 64 (intBits 64 (base + i * 2 ^ (sub.toNat % 8) + ofs))

def execLea (f : Fields) (s : State) : Res :=
  issue (.lea f) s fun x => x.alu f.d 2 fun l =>
    ((addrSum f.sub (x.get f l 2 f.a) (x.get f l 1 f.b) (f.b != .none)
      (if f.c == .none then 0 else intOf 32 true (x.get f l 1 f.c))).toNat, 0)

end Sys2Proof.Machine
end

