-- ==== Sys2Proof/Machine/MoveOps.lean ====
section
/-! DEFINITION. Machine/MoveOps.lean: the move, predicate and status group (R76 to R81), and the status registers
(R25 to R32). -/

namespace Sys2Proof.Machine

def execMov (f : Fields) (s : State) : Res :=
  issue (.mov f) s fun x => x.alu f.d f.ty.regs fun l => (x.get f l f.ty.regs f.a, 0)

def execPlop (f : Fields) (s : State) : Res :=
  issue (.plop f) s fun x => x.alu f.d 1 fun l =>
    (if lutBit f.imm.toNat (x.get f l 1 f.a != 0) (x.get f l 1 f.b != 0) (x.get f l 1 f.c != 0) then 1 else 0, 0)

/-- R78: the gathered mask in every lane that takes part. -/
def execPmask (f : Fields) (s : State) : Res :=
  issue (.pmask f) s fun x => x.alu f.d 1 fun _ =>
    ((maskOf fun l => x.tp.getLsbD l && x.get f l 1 f.a != 0).toNat, 0)

def execPmaskSet (f : Fields) (s : State) : Res :=
  issue (.pmaskSet f) s fun x => x.alu f.d 1 fun l => (if (x.get f l 1 f.a).testBit l then 1 else 0, 0)

/-! ### Status registers (R25) -/

/-- The scope, width and access of a status register. -/
structure SrInfo where
  lane : Bool := false
  wide : Bool := false
  rw : Bool := false
  deriving DecidableEq, Repr

/-- The status registers; a reserved index has none. -/
def srInfo (i : Nat) : Option SrInfo :=
  if i == 0x01 || i == 0x07 || i == 0x0B then some { lane := true }
  else if i == 0x08 then some { wide := true }
  else if i == 0x0D || i == 0x0E then some { rw := true }
  else if i == 0x0F || i == 0x10 then some { wide := true }
  else if 0x11 ≤ i && i ≤ 0x15 then some { wide := true, rw := true }
  else if 0x16 ≤ i && i ≤ 0x19 then some { lane := true }
  else if i == 0x1A then some { lane := true, wide := true }
  else if i == 0x1B then some { lane := true, rw := true }
  else if i == 0x1C then some { lane := true }
  else if i == 0x1E || i == 0x1F then some { wide := true }
  else if 0x21 ≤ i && i ≤ 0x24 then some { lane := true }
  else if 0x28 ≤ i && i ≤ 0x2F then some { wide := true }
  else if i == 0x31 || i == 0x32 then some { wide := true }
  else if i ≤ 0x20 || i == 0x30 then some {}
  else none

/-- The done tags of a core: TAGS, or TAGERR (R24). -/
def State.tagsOf (s : State) (core : Nat) (err : Bool) : Nat :=
  ((s.crews.filter fun c => c.core == core).flatMap fun c => c.tags).foldl
    (fun a t => if t.done && (!err || t.err) then a ||| 2 ^ t.n else a) 0

/-- A quarter's progress register (R258). -/
def Warp.mqpAt (w : Warp) (q : Nat) : DWord := tget 0 w.mqp q

/-- A format slot of a launch (R32). -/
def Issue.fslot (x : Issue) (n : Nat) : DWord := tget 0 (x.s.launch x.w.launch).lrec.fslots n

/-- The value of a status register in a lane (R25). -/
def Issue.srValue (x : Issue) (i l : Nat) : Nat :=
  let w := x.w
  let y := w.lane l
  let part := x.s.partOf (sliceOf w.core)
  match i with
  | 0x00 => 32
  | 0x01 => l
  | 0x02 => w.wid
  | 0x03 => w.core
  | 0x04 => clusterOf w.core
  | 0x05 => sliceOf w.core
  | 0x06 => part.base + part.size * 256
  | 0x07 => y.tid.toNat
  | 0x08 => x.s.time.toNat
  | 0x09 => (w.active x.side).toNat
  | 0x0A => w.deadMask.toNat
  | 0x0B => y.nc.toNat
  | 0x0C => (w.slot x.side).sig.toNat
  | 0x0D => w.flags.toNat
  | 0x0E => w.rmode.toNat
  | 0x0F => x.s.tagsOf w.core false
  | 0x10 => x.s.tagsOf w.core true
  | 0x11 => (x.s.crew w.crew).etol.toNat
  | 0x12 => (w.mqpAt 0).toNat
  | 0x13 => (w.mqpAt 1).toNat
  | 0x14 => (w.mqpAt 2).toNat
  | 0x15 => (w.mqpAt 3).toNat
  | 0x16 => y.iflow.toNat
  | 0x17 => y.iclass.toNat
  | 0x18 => y.iseq.toNat
  | 0x19 => y.iid.toNat
  | 0x1A => y.ipay.toNat
  | 0x1B => y.heir.toNat
  | 0x1C => y.inher.toNat
  | 0x1D => w.trapv.toNat
  | 0x1E => w.trappc.toNat
  | 0x1F => w.trapinfo.toNat
  | 0x20 => w.trapmask.toNat
  | 0x21 => (y.team 0).toNat
  | 0x22 => (y.team 1).toNat
  | 0x23 => (y.team 2).toNat
  | 0x24 => (y.team 3).toNat
  | 0x30 => (x.s.launch w.launch).assist.toNat
  | 0x31 => (x.s.launch w.launch).lrec.args.toNat
  | 0x32 => (x.s.launch w.launch).recAddr.toNat
  | _ => (x.fslot (i - 0x28)).toNat

/-- Whether a register operand may stand for a 64-bit status register: an even first index, inside the allotment. -/
def wideOk (al : Allot) (o : Opnd) : Bool := OSpec.ok (oVS 2) al o

/-- TRAPINFO of trap 0x03 (R321). -/
def srTrapInfo (i : Nat) (write : Bool) : DWord := BitVec.ofNat 64 (i + if write then 256 else 0)

/-- R79: steps 1 to 3 depend on the word alone. -/
def execSrd (f : Fields) (s : State) : Res :=
  issue (.srd f) s fun x =>
    let i := f.imm.toNat % 256
    let am := x.w.active x.side
    match srInfo i with
    | none => x.trap 3 (srTrapInfo i false) am
    | some r =>
      if r.lane && isScalar f.d then x.trap 3 (srTrapInfo i false) am
      else if r.wide && !wideOk (s.allotOf x.w) f.d then x.trapField .d am
      else x.alu f.d (if r.wide then 2 else 1) fun l => (x.srValue i l, 0)

/-- Whether HEIR accepts a value (R26, R223). -/
def heirOk (v : Word) : Bool := v.toNat < 0x80010000 || v.toNat == 0xFFFFFFFF

/-- Whether a quarter's progress register accepts a value (R261). -/
def mqpOk (v : DWord) : Bool := v == 0 || v.getLsbD 0

/-- Whether a status register accepts a value (R26). -/
def srAccepts (i : Nat) (v : Nat) : Bool :=
  match i with
  | 0x0D => v < 256
  | 0x0E => v < 4
  | 0x11 =>
    match fp64.decode v with
    | .nan _ => false
    | .inf n => !n
    | .num n m _ => !n || m == 0
  | 0x1B => heirOk (BitVec.ofNat 32 v)
  | _ => mqpOk (BitVec.ofNat 64 v)

/-- A status register of a warp or crew written. -/
def Issue.srPut (x : Issue) (i v : Nat) : State :=
  match i with
  | 0x0D => x.done { x.w with flags := BitVec.ofNat 32 v }
  | 0x0E => x.done { x.w with rmode := BitVec.ofNat 32 v }
  | 0x11 =>
    let c := x.s.crew x.w.crew
    x.doneIn (x.s.setCrew { c with etol := if v == 2 ^ 63 then 0 else BitVec.ofNat 64 v })
  | _ => x.done { x.w with mqp := tset 0 x.w.mqp (i - 0x12) (BitVec.ofNat 64 v) }

def execSwr (f : Fields) (s : State) : Res :=
  issue (.swr f) s fun x =>
    let i := f.imm.toNat % 256
    let am := x.w.active x.side
    match srInfo i with
    | none => x.trap 3 (srTrapInfo i true) am
    | some r =>
      if !r.rw then x.trap 3 (srTrapInfo i true) am
      else if r.wide && !wideOk (s.allotOf x.w) f.a then x.trapField .a am
      else
        let v (l : Nat) : Nat := x.get f l (if r.wide then 2 else 1) f.a
        match lowLane x.tp with
        | none => x.skip
        | some low =>
          if r.lane then
            let bad := maskOf fun l => x.tp.getLsbD l && !srAccepts i (v l)
            if bad != 0 then x.trap 3 (srTrapInfo i true) (if isScalar f.a then x.tp else bad)
            else x.done (x.w.mapLanes x.tp fun l y => { y with heir := BitVec.ofNat 32 (v l) })
          else if srAccepts i (v low) then x.srPut i (v low)
          else x.trap 3 (srTrapInfo i true) (if isScalar f.a then x.tp else bitOf low)

/-! ### Reading one lane (R81) -/

def execV2s (f : Fields) (s : State) : Res :=
  issue (.v2s f) s fun x =>
    if x.tp == 0 then x.skip
    else
      let l := x.get f 0 1 f.b % 32
      let st := (x.w.lane l).st
      let give (v : Nat) (fl : Word) : State := x.done ((x.w.write x.tp f.d f.ty.regs fun _ => v).orFlags fl)
      if x.tp.getLsbD l then give (x.get f l f.ty.regs f.a) 0
      else if st == .dead then give 0 DEADREAD
      else if f.sub == 1 then give 0 0
      else x.trap 6 0 (bitOf l)

end Sys2Proof.Machine
end

