-- ==== Sys2Proof/Machine/Sfu.lean ====
section
/-! DEFINITION. Machine/Sfu.lean: the special functions of R109. Outside their exact cases a result is any value
within the bound of R109: the device's own value where it lies within the bound, and the correctly rounded one where
it does not, so that the bound holds whatever the device's function is (log entry 10). The exact value is enclosed in
fixed point with `sfuP` fraction bits. -/

namespace Sys2Proof.Machine

/-- Fraction bits of the enclosures. -/
def sfuP : Nat := 320

/-- 1 in fixed point. -/
def fx1 : Int := 2 ^ sfuP

def fxMul (a b : Int) : Int := a * b / fx1

def fxDiv (a b : Int) : Int := a * fx1 / b

/-- The sum of x * t_k where t_1 = x and t_(k+1) = t_k * y / d(k): a power series cut after `n` terms. -/
def series (y : Int) (d : Nat → Int) : Nat → Nat → Int → Int
  | 0, _, t => t
  | n + 1, k, t => t + series y d n (k + 1) (fxMul t y / d k)

/-- e^x for |x| below 1. -/
def fxExp (x : Int) : Int := fx1 + series x (fun k => k + 1) 80 1 x

/-- The sum of z^(2k+1) / (2k+1). -/
def atanhFrom (z2 : Int) : Nat → Nat → Int → Int
  | 0, _, _ => 0
  | n + 1, k, t => t / (2 * k + 1) + atanhFrom z2 n (k + 1) (fxMul t z2)

def fxAtanh (z : Int) : Int := atanhFrom (fxMul z z) 110 0 z

/-- ln 2 = 2 atanh(1/3). -/
def fxLn2 : Int := 2 * fxAtanh (fx1 / 3)

/-- arctan(1/n). -/
def atanInv (n : Int) : Nat → Nat → Int → Int
  | 0, _, _ => 0
  | j + 1, k, t => (if k % 2 == 0 then t / (2 * k + 1) else - (t / (2 * k + 1))) + atanInv n j (k + 1) (t / (n * n))

/-- pi = 16 arctan(1/5) - 4 arctan(1/239). -/
def fxPi : Int := 16 * atanInv 5 80 0 (fx1 / 5) - 4 * atanInv 239 30 0 (fx1 / 239)

/-- sin x for |x| up to 2. -/
def fxSin (x : Int) : Int := series (- fxMul x x) (fun k => (2 * k) * (2 * k + 1)) 60 1 x

/-- The special functions. -/
inductive Sfu where
  | rcp | rsq | exp2 | log2 | sinpi | cospi | tanh
  deriving DecidableEq, Repr

/-- The device's function that a special function is (R109: a fixed function of the input). -/
def Sfu.code : Sfu → Nat
  | .rcp => 0 | .rsq => 1 | .exp2 => 2 | .log2 => 3 | .sinpi => 4 | .cospi => 5 | .tanh => 6

/-- The bound in ulp. -/
def Sfu.ulps : Sfu → Nat
  | .sinpi | .cospi | .tanh => 2
  | _ => 1

/-- A dyadic number in fixed point. -/
def fxOf (neg : Bool) (m : Nat) (e : Int) : Int :=
  let k := e + sfuP
  let x : Int := if 0 ≤ k then m * 2 ^ k.toNat else m / 2 ^ (-k).toNat
  if neg then -x else x

/-- 2^(n) times an integer mantissa of `sfuP` fraction bits, as mantissa and exponent. -/
structure Enc where
  neg : Bool
  m : Nat
  e : Int
  deriving DecidableEq, Repr

/-- The exact value of a function, enclosed: it differs from `m * 2^e` by a part in 2^100 at most. -/
def Sfu.enclose (op : Sfu) (neg : Bool) (m : Nat) (e : Int) : Enc :=
  match op with
  | .rcp => ⟨neg, 2 ^ (bitLen m + 150) / m, -e - bitLen m - 150⟩
  | .rsq =>
    match divRaw (.num false 1 0) (.num false m e) with
    | .num _ q k _ => match sqrtRaw (.num false q k) with | .num _ r j _ => ⟨false, r, j⟩ | _ => ⟨false, 0, 0⟩
    | _ => ⟨false, 0, 0⟩
  | .exp2 =>
    let x := fxOf neg m e
    let n := x / fx1
    ⟨false, (fxExp (fxMul (x - n * fx1) fxLn2)).toNat, n - sfuP⟩
  | .log2 =>
    let k := bitLen m - 1
    let y := fxOf false m (-(k : Int))
    let y2 := if 3 * fx1 < 2 * y then y / 2 else y
    let n : Int := e + k + (if 3 * fx1 < 2 * y then 1 else 0)
    let v := n * fx1 + fxDiv (2 * fxAtanh (fxDiv (y2 - fx1) (y2 + fx1))) fxLn2
    ⟨v < 0, v.natAbs, -(sfuP : Int)⟩
  | .sinpi | .cospi =>
    let x := fxOf neg m e + (if op == .cospi then fx1 / 2 else 0)
    let r := x % (2 * fx1)
    -- sin(pi r) for r in [0, 2), brought to [-1/2, 1/2].
    let r := if r < fx1 / 2 then r else if r < 3 * fx1 / 2 then fx1 - r else r - 2 * fx1
    let v := fxSin (fxMul r fxPi)
    ⟨v < 0, v.natAbs, -(sfuP : Int)⟩
  | .tanh =>
    let x := fxOf false m e
    -- Both ends lie strictly below their limits 1 and |a|, by less than a part in 2^100.
    if 64 * fx1 < x then ⟨neg, 2 ^ 200 - 1, -200⟩
    else if x < 2 ^ (sfuP - 60) then ⟨neg, m * 2 ^ 200 - 1, e - 200⟩
    else
      -- tanh x = (1 - e^(-2x)) / (1 + e^(-2x)), with e^(-2x) by 2^(-2x/ln 2); for small x by the odd series quotient.
      let n := (2 * x) / fxLn2
      let p := fxExp (-(2 * x - n * fxLn2)) / 2 ^ n.toNat
      let q := if x < fx1 / 4 then fxDiv (fxExp x - fxExp (-x)) (fxExp x + fxExp (-x)) else fxDiv (fx1 - p) (fx1 + p)
      ⟨neg, q.toNat, -(sfuP : Int)⟩

/-- The FP32 spacing at a value: the exponent of its ulp. -/
def Enc.ulp (x : Enc) : Int := max ((bitLen x.m : Int) + x.e - 1 - 23) (-149)

/-- Whether a code lies within so many ulp of an enclosed value, with room for the enclosure's own error. -/
def Enc.within (x : Enc) (ulps : Nat) (c : Word) : Bool :=
  match fp32.decode c.toNat with
  | .num n m e =>
    let q := min (min e x.e) x.ulp - 60
    let d := intAt n m e q - intAt x.neg x.m x.e q
    let lim : Int := ulps * 2 ^ (x.ulp - q).toNat
    d.natAbs + 2 ^ (x.ulp - q - 60).toNat ≤ lim.natAbs
  | .inf n =>
    -- Infinity stands one step above the largest finite value.
    n == x.neg && (fp32.encode n fp32.maxM fp32.maxE ==
      (fp32.round .rz false x.neg x.m x.e true).1)
  | .nan _ => false

/-- The value of an FP32 special function outside its exact cases, with its flags (R109). -/
def Sfu.approx (op : Sfu) (a : Word) (neg : Bool) (m : Nat) (e : Int) : Nat × Word :=
  let x := op.enclose neg m e
  let c := Config.sfu op.code a
  let capped := match op with
    | .sinpi | .cospi | .tanh => c.toNat % 2 ^ 31 ≤ 0x3F800000
    | _ => true
  let near := (fp32.round .rne false x.neg x.m x.e true).1
  let y := if x.within op.ulps c && capped then c.toNat else near
  let tiny := match fp32.round .rne false x.neg x.m x.e true with | (_, fl) => fl &&& UF != 0
  (y, IX ||| flagIf tiny UF ||| flagIf (y % 2 ^ 31 == 0x7F800000) OF)

/-- Whether a number is a power of two, and of which. -/
def powerOf (m : Nat) (e : Int) : Option Int :=
  if m == 2 ^ (bitLen m - 1) then some (e + bitLen m - 1) else none

/-- A power of two as FP32. -/
def pow2 (neg : Bool) (n : Int) : Nat := (fp32.round .rne false neg 1 n false).1

/-- Twice a number when that is an integer. -/
def twice (neg : Bool) (m : Nat) (e : Int) : Option Int :=
  if -1 ≤ e then some ((if neg then -1 else 1) * (m * 2 ^ (e + 1).toNat : Nat))
  else if m % 2 ^ (-1 - e).toNat == 0 then some ((if neg then -1 else 1) * (m / 2 ^ (-1 - e).toNat : Nat)) else none

def fpOne (neg : Bool) : Nat := fp32.sign neg + 0x3F800000

/-- A special function of an FP32 code: its exact cases first (R109). -/
def Sfu.run (op : Sfu) (a : Word) : Nat × Word :=
  let v := fp32.decode a.toNat
  match op, v with
  | _, .nan s => (fp32.nan, flagIf s NV)
  | .rcp, .inf n => (fp32.sign n, 0)
  | .rcp, .num n m e =>
    if m == 0 then (fp32.inf n, DZ)
    else
      match powerOf m e with
      | some k => if k ≤ 149 && -127 ≤ k then (pow2 n (-k), 0) else op.approx a n m e
      | none => op.approx a n m e
  | .rsq, .inf n => if n then (fp32.nan, NV) else (0, 0)
  | .rsq, .num n m e =>
    if m == 0 then (fp32.inf n, DZ)
    else if n then (fp32.nan, NV)
    else
      match powerOf m e with
      | some k => if k % 2 == 0 then (pow2 false (-(k / 2)), 0) else op.approx a n m e
      | none => op.approx a n m e
  | .exp2, .inf n => if n then (0, 0) else (fp32.inf false, 0)
  | .exp2, .num n m e =>
    if m == 0 then (fpOne false, 0)
    else
      match twice n m e with
      | some t =>
        if t % 2 == 0 && -298 ≤ t && t ≤ 254 then (pow2 false (t / 2), 0)
        else if 256 ≤ t then (fp32.inf false, OF ||| IX)
        else if t < -300 then (0, UF ||| IX)
        else op.approx a n m e
      | none =>
        if !n && 128 * 2 ^ 150 ≤ fxOf false m (e + 150 - sfuP) then (fp32.inf false, OF ||| IX)
        else if n && 150 * 2 ^ 150 < fxOf false m (e + 150 - sfuP) then (0, UF ||| IX)
        else op.approx a n m e
  | .log2, .inf n => if n then (fp32.nan, NV) else (fp32.inf false, 0)
  | .log2, .num n m e =>
    if m == 0 then (fp32.inf true, DZ)
    else if n then (fp32.nan, NV)
    else
      match powerOf m e with
      | some k => ((intVal k).write fp32 .rne false).fst |> fun c => (c, 0)
      | none => op.approx a n m e
  | .sinpi, .inf _ => (fp32.nan, NV)
  | .sinpi, .num n m e =>
    if m == 0 then (fp32.sign n, 0)
    else
      match twice n m e with
      | some t => if t % 2 == 0 then (fp32.sign n, 0) else (fpOne (t % 4 == 3), 0)
      | none => op.approx a n m e
  | .cospi, .inf _ => (fp32.nan, NV)
  | .cospi, .num n m e =>
    if m == 0 then (fpOne false, 0)
    else
      match twice n m e with
      | some t => if t % 2 == 0 then (fpOne (t % 4 == 2), 0) else (0, 0)
      | none => op.approx a n m e
  | .tanh, .inf n => (fpOne n, 0)
  | .tanh, .num n m e => if m == 0 then (fp32.sign n, 0) else op.approx a n m e

end Sys2Proof.Machine
end

