-- ==== Sys2Proof/Machine/FloatOps.lean ====
section
/-! DEFINITION. Machine/FloatOps.lean: the floating-point group (R98 to R109). -/

namespace Sys2Proof.Machine

/-- The rounding mode of an instruction: SUB's when it is enabled, else RMODE's (R87, R99). -/
def Issue.rm (x : Issue) (f : Fields) : RM := rmOf (if f.subBits 2 1 == 1 then f.subBits 0 2 else x.w.rmode.toNat)

/-- Element by element, a code and its flags. -/
def Issue.floats (x : Issue) (f : Fields) (os : List Opnd) (g : List Nat → Nat × Word) : State :=
  x.alu f.d f.ty.regs fun l =>
    (mapElems f.ty (x.srcs f l os) fun v => (g v).1, flagElems f.ty (x.srcs f l os) fun v => (g v).2)

/-- A rounded operation on the values of the elements. -/
def Issue.rounded (x : Issue) (f : Fields) (os : List Opnd) (g : List Val → Raw) : State :=
  let fm := fmtOf f.ty
  x.floats f os fun v => (g (v.map fm.decode)).write fm (x.rm f) false

def val (l : List Val) (i : Nat) : Val := l.getD i (.num false 0 0)

def execFadd (f : Fields) (s : State) : Res :=
  issue (.fadd f) s fun x => x.rounded f [f.a, f.b] fun v => Val.sum v (x.rm f)

def execFsub (f : Fields) (s : State) : Res :=
  issue (.fsub f) s fun x => x.rounded f [f.a, f.b] fun v => Val.sum [val v 0, (val v 1).negate] (x.rm f)

def execFmul (f : Fields) (s : State) : Res :=
  issue (.fmul f) s fun x => x.rounded f [f.a, f.b] fun v => mulRaw (val v 0) (val v 1)

def execFfma (f : Fields) (s : State) : Res :=
  issue (.ffma f) s fun x => x.rounded f [f.a, f.b, f.c] fun v => fmaRaw [(val v 0, val v 1)] [val v 2] (x.rm f)

def execFmin (f : Fields) (s : State) : Res :=
  issue (.fmin f) s fun x => x.floats f [f.a, f.b] fun v => (fmtOf f.ty).pick false (nat v 0) (nat v 1)

def execFmax (f : Fields) (s : State) : Res :=
  issue (.fmax f) s fun x => x.floats f [f.a, f.b] fun v => (fmtOf f.ty).pick true (nat v 0) (nat v 1)

def execFabs (f : Fields) (s : State) : Res :=
  issue (.fabs f) s fun x => x.floats f [f.a] fun v => (fmtOf f.ty).signOp f.sub.toNat (nat v 0)

/-- R107. -/
def execFcmp (f : Fields) (s : State) : Res :=
  issue (.fcmp f) s fun x => x.alu f.d 1 fun l =>
    let fm := fmtOf f.ty
    let (t, fl) := fcmpRel (f.subBits 0 3) (fm.decode (x.get f l f.ty.regs f.a)) (fm.decode (x.get f l f.ty.regs f.b))
    (if combineBool (f.subBits 4 2) t (x.get f l 1 f.c != 0) then 1 else 0, fl)

/-- R108: one class mask, or two halves. -/
def execFclass (f : Fields) (s : State) : Res :=
  issue (.fclass f) s fun x => x.alu f.d 1 fun l =>
    let fm := fmtOf f.ty
    let a := x.get f l f.ty.regs f.a
    (if f.ty == .f16x2 || f.ty == .bf16x2 then fm.classOf (a % 2 ^ 16) + fm.classOf (a / 2 ^ 16 % 2 ^ 16) * 2 ^ 16
     else fm.classOf a, 0)

/-- A special function of an FP32 operand (R109). -/
def Issue.special (x : Issue) (f : Fields) (op : Sfu) : State :=
  x.alu f.d 1 fun l => op.run (BitVec.ofNat 32 (x.get f l 1 f.a))

def execFrcp (f : Fields) (s : State) : Res := issue (.frcp f) s fun x => x.special f .rcp

def execFrsq (f : Fields) (s : State) : Res := issue (.frsq f) s fun x => x.special f .rsq

def execFsqrt (f : Fields) (s : State) : Res :=
  issue (.fsqrt f) s fun x => x.rounded f [f.a] fun v => sqrtRaw (val v 0)

def execFexp2 (f : Fields) (s : State) : Res := issue (.fexp2 f) s fun x => x.special f .exp2

def execFlog2 (f : Fields) (s : State) : Res := issue (.flog2 f) s fun x => x.special f .log2

def execFsinpi (f : Fields) (s : State) : Res := issue (.fsinpi f) s fun x => x.special f .sinpi

def execFcospi (f : Fields) (s : State) : Res := issue (.fcospi f) s fun x => x.special f .cospi

def execFtanh (f : Fields) (s : State) : Res := issue (.ftanh f) s fun x => x.special f .tanh

def execFdiv (f : Fields) (s : State) : Res :=
  issue (.fdiv f) s fun x => x.rounded f [f.a, f.b] fun v => divRaw (val v 0) (val v 1)

/-- R104: every element multiplied by 2^n. The count is 32 bits whatever TYPE (R101), and so is an immediate that it names (log
entry 63). -/
def execFscale (f : Fields) (s : State) : Res :=
  issue (.fscale f) s fun x => x.alu f.d f.ty.regs fun l =>
    let fm := fmtOf f.ty
    let n := intOf 32 true (if f.b == .imm then f.imm.toNat else x.get f l 1 f.b)
    let g (v : List Nat) : Nat × Word := ((fm.decode (nat v 0)).scale n).write fm (x.rm f) false
    let a := [x.get f l f.ty.regs f.a]
    (mapElems f.ty a fun v => (g v).1, flagElems f.ty a fun v => (g v).2)

/-- A value rounded to an integral one of its own format (R105). -/
def Fmt.integral (f : Fmt) (r : RM) (exact : Bool) (x : Nat) : Nat × Word :=
  match f.decode x with
  | .num n m e =>
    if m == 0 then (f.sign n, 0)
    else
      let (i, left) := roundInt r n m e
      (((Val.num n i.natAbs 0).write f .rne false).1, flagIf (exact && left) IX)
  | v => v.write f r false

def execFrnd (f : Fields) (s : State) : Res :=
  issue (.frnd f) s fun x => x.floats f [f.a] fun v =>
    (fmtOf f.ty).integral (x.rm f) (f.subBits 3 1 == 1) (nat v 0)

/-- R103: two products and an FP32 addend, rounded once to FP32. -/
def execFdp2 (f : Fields) (s : State) : Res :=
  issue (.fdp2 f) s fun x => x.alu f.d 1 fun l =>
    let fm := fmtOf f.ty
    let h (y k : Nat) : Val := fm.decode (y / 2 ^ (16 * k) % 2 ^ 16)
    let a := x.get f l 1 f.a
    let b := x.get f l 1 f.b
    (fmaRaw [(h a 0, h b 0), (h a 1, h b 1)] [fp32.decode (x.get f l 1 f.c)] (x.rm f)).write fp32 (x.rm f) false

end Sys2Proof.Machine
end

