-- ==== Sys2Proof/Machine/Convert.lean ====
section
/-! DEFINITION. Machine/Convert.lean: the conversion group (R110 to R116), format slots (R93, R94) and block scales
(R86). -/

namespace Sys2Proof.Machine

/-! ### Format slots (R32, R93) -/

/-- The fields of a format slot. -/
def slotElem (x : DWord) : Nat := (x.extractLsb' 0 4).toNat

def slotScaled (x : DWord) : Bool := x.extractLsb' 4 2 == 1

def slotSpecial (x : DWord) : Bool := x.getLsbD 6

def slotWide (x : DWord) : Bool := x.getLsbD 7

def slotRound (x : DWord) : RM := rmOf (x.extractLsb' 8 2).toNat

def slotSat (x : DWord) : Bool := x.getLsbD 10

/-- The reason for which a slot is refused wherever it is used (R93). -/
def slotFault (x : DWord) : Option Nat :=
  let e := slotElem x
  if 10 ≤ e || 2 ≤ (x.extractLsb' 4 2).toNat || x.extractLsb' 11 53 != 0 then some 1
  else if e == 0 then some 2
  else if slotScaled x && !(e == 5 || e == 6 || e == 7) then some 3
  else if slotSpecial x && (e != 7 || !slotScaled x) then some 3
  else none

/-- TRAPINFO of trap 0x0E (R93). -/
def slotInfo (n : Nat) (second : Bool) (reason : Nat) : DWord :=
  BitVec.ofNat 64 (n + (if second then 8 else 0) + reason * 16)

/-- The element format of a float slot. -/
def slotFmt (x : DWord) : Fmt :=
  match slotElem x with
  | 1 => fp64
  | 3 => fp16
  | 4 => bf16
  | 5 => e4m3
  | 6 => e5m2
  | 7 => e2m1
  | _ => fp32

/-- A slot used by an instruction: checked only when some lane takes part (R93). -/
def Issue.withSlot (x : Issue) (n : Nat) (takes : DWord → Bool) (act : DWord → State) : State :=
  if x.tp == 0 then x.skip
  else
    let fs := x.fslot n
    match slotFault fs with
    | some r => x.trap 0x0E (slotInfo n false r) x.tp
    | none => if takes fs then act fs else x.trap 0x0E (slotInfo n false 4) x.tp

/-- A value written through a slot: an integer element saturates (R94). -/
def slotWrite (fs : DWord) (v : Val) : Nat × Word :=
  match slotElem fs with
  | 8 => v.toInt 8 true (slotRound fs)
  | 9 => v.toInt 8 false (slotRound fs)
  | _ => v.write (slotFmt fs) (slotRound fs) (slotSat fs)

/-- The value of an element code, unscaled. -/
def slotRead (fs : DWord) (c : Nat) : Val :=
  match slotElem fs with
  | 8 => intVal (intOf 8 true c)
  | 9 => intVal (intOf 8 false c)
  | _ => (slotFmt fs).decode (c % 2 ^ (slotFmt fs).width)

/-- The value of an element of a scaled block (R86). -/
def blockRead (fs : DWord) (c scale special : Nat) : Val :=
  if scale == 0xFF then .nan false
  else if slotElem fs == 7 && slotSpecial fs && c % 16 == 8 then (e4m3.decode special).scale (scale - 127)
  else (slotRead fs c).scale (scale - 127)

/-! ### cvt (R111) -/

/-- A type by its code. -/
def tyOf (n : Nat) : DType :=
  match n with
  | 0 => .u32 | 1 => .i32 | 2 => .u64 | 3 => .i64 | 4 => .f32 | _ => .f64

/-- One conversion. -/
def convert (src dst : DType) (r : RM) (sat : Bool) (a : Nat) : Nat × Word :=
  if isFloat src then
    let v := (fmtOf src).decode a
    if isFloat dst then v.write (fmtOf dst) r sat else v.toInt dst.elem dst.signed r
  else
    let x := intOf src.elem src.signed a
    if isFloat dst then (intVal x).write (fmtOf dst) r sat
    else
      let (y, clipped) := clampInt dst.elem dst.signed x
      (intBits dst.elem y, flagIf clipped SAT)

def execCvt (f : Fields) (s : State) : Res :=
  issue (.cvt f) s fun x => x.alu f.d f.ty.regs fun l =>
    let src := tyOf f.imm.toNat
    convert src f.ty (x.rm f) (f.subBits 3 1 == 1) (x.get f l src.regs f.a)

/-! ### cvtf, cvtx2, cvt8x4 (R112 to R114) -/

def cvtfTakes (fs : DWord) : Bool := !slotScaled fs && slotElem fs != 1

def execCvtf (f : Fields) (s : State) : Res :=
  issue (.cvtf f) s fun x => x.withSlot f.imm.toNat cvtfTakes fun fs =>
    x.alu f.d 1 fun l => slotWrite fs (fp32.decode (x.get f l 1 f.a))

def execCvtfDec (f : Fields) (s : State) : Res :=
  issue (.cvtfDec f) s fun x => x.withSlot f.imm.toNat cvtfTakes fun fs =>
    x.alu f.d 1 fun l => (slotRead fs (x.get f l 1 f.a)).write fp32 .rne false

def execCvtx2 (f : Fields) (s : State) : Res :=
  issue (.cvtx2 f) s fun x => x.alu f.d 1 fun l =>
    let one (o : Opnd) : Nat × Word :=
      (fp32.decode (x.get f l 1 o)).write (fmtOf f.ty) (x.rm f) (f.subBits 4 1 == 1)
    ((one f.a).1 + (one f.b).1 * 2 ^ 16, (one f.a).2 ||| (one f.b).2)

def execCvtx2Unp (f : Fields) (s : State) : Res :=
  issue (.cvtx2Unp f) s fun x => x.alu f.d 2 fun l =>
    let a := x.get f l 1 f.a
    let one (k : Nat) : Nat × Word := ((fmtOf f.ty).decode (a / 2 ^ (16 * k) % 2 ^ 16)).write fp32 .rne false
    ((one 0).1 + (one 1).1 * 2 ^ 32, (one 0).2 ||| (one 1).2)

/-- The byte format of `cvt8x4` (R110). -/
def fmt8 (f : Fields) : Fmt := if f.subBits 3 1 == 1 then e5m2 else e4m3

/-- Four parts joined, each `w` bits apart, with their flags. -/
def join4 (w : Nat) (g : Nat → Nat × Word) : Nat × Word :=
  (List.range 4).foldl (fun acc k => (acc.1 + (g k).1 * 2 ^ (w * k), acc.2 ||| (g k).2)) (0, 0)

def execCvt8x4 (f : Fields) (s : State) : Res :=
  issue (.cvt8x4 f) s fun x => x.alu f.d 1 fun l =>
    let a := x.get f l 4 f.a
    join4 8 fun k => (fp32.decode (a / 2 ^ (32 * k) % 2 ^ 32)).write (fmt8 f) (x.rm f) (f.subBits 5 1 == 1)

def execCvt8x4Unp (f : Fields) (s : State) : Res :=
  issue (.cvt8x4Unp f) s fun x => x.alu f.d 4 fun l =>
    let a := x.get f l 1 f.a
    join4 32 fun k => ((fmt8 f).decode (a / 2 ^ (8 * k) % 2 ^ 8)).write fp32 .rne false

/-! ### Block quantisation (R115, R116) -/

/-- A number's magnitude compared with a bound times a power of two: |x| <= emax * 2^k. -/
def withinScale (m : Nat) (e : Int) (emax : Nat) (k : Int) : Bool :=
  if k ≤ e then m * 2 ^ (e - k).toNat ≤ emax else m ≤ emax * 2 ^ (k - e).toNat

/-- The smallest k at or above a start, looking at `n` of them, with every value within emax * 2^k. -/
def leastScale (vs : List Val) (emax : Nat) : Nat → Int → Int
  | 0, k => k
  | n + 1, k =>
    if vs.all fun v => match v with | .num _ m e => withinScale m e emax k | _ => true then k
    else leastScale vs emax n (k + 1)

/-- The largest element magnitude of a scaled format (R115). -/
def blockMax (fs : DWord) : Nat := match slotElem fs with | 7 => 6 | 5 => 448 | _ => 57344

/-- |a - b| of two numbers. -/
def distance (a b : Val) : Nat × Int :=
  match a, b with
  | .num n m e, .num k l f => let q := min e f; ((intAt n m e q - intAt k l f q).natAbs, q)
  | _, _ => (0, 0)

/-- Whether a distance is below another. -/
def closer (a b : Nat × Int) : Bool :=
  let q := min a.2 b.2
  a.1 * 2 ^ (a.2 - q).toNat < b.1 * 2 ^ (b.2 - q).toNat

/-- What `bpack` writes: the special byte, the scale byte, and each lane's code with its flags (R115). -/
structure Block where
  special : Nat
  scale : Nat
  codes : List (Nat × Nat)
  flags : Word
  deriving DecidableEq, Repr

/-- The codes of values through a slot, with one scale (R115). E8M0 has no scale above 2^127: what stands there for a greater k is
left open (log entry 60). -/
def quantise (fs : DWord) (xs : List (Nat × Val)) : Block :=
  let r := slotRound fs
  let fm := slotFmt fs
  if xs.any fun p => match p.2 with | .num _ _ _ => false | _ => true then
    { special := 0, scale := 0xFF, codes := xs.map fun p => (p.1, 0), flags := NV }
  else
    -- No value of a wide FP64 tile needs a k above 4,100.
    let k := leastScale (xs.map Prod.snd) (blockMax fs) 4300 (-127)
    let scale := if k ≤ 127 then (127 + k).toNat else (Config.blockScale k).toNat
    let ys := xs.map fun p => (p.1, p.2.scale (-k))
    let q (y : Val) : Nat × Word := y.write fm r (slotSat fs)
    if slotElem fs == 7 && slotSpecial fs then
      let err (y : Val) : Nat × Int := distance y (fm.decode (q y).1)
      let worst := ys.foldl (fun (best : Option Val) p =>
        match best with
        | none => some p.2
        | some b => if closer (err b) (err p.2) then some p.2 else some b) none
      let j := worst.getD (.num false 0 0)
      let (sp, spFl) := j.write e4m3 r (slotSat fs)
      let spv := e4m3.decode sp
      let one (y : Val) : Nat × Word :=
        if closer (distance y spv) (err y) then
          -- Written as the special value, which is tiny below E4M3's smallest normal (R89, R115).
          let inexact := (distance y spv).1 != 0
          (8, flagIf inexact IX ||| flagIf (inexact && closer (distance spv (.num false 0 0)) (1, e4m3.emin)) UF)
        else (if (fm.decode (q y).1).isZero then 0 else (q y).1, (q y).2)
      { special := sp, scale := scale, codes := ys.map fun p => (p.1, (one p.2).1),
        flags := ys.foldl (fun a p => a ||| (one p.2).2) spFl }
    else
      { special := 0, scale := scale, codes := ys.map fun p => (p.1, (q p.2).1),
        flags := ys.foldl (fun a p => a ||| (q p.2).2) 0 }

def execBpack (f : Fields) (s : State) : Res :=
  issue (.bpack f) s fun x => x.withSlot f.imm.toNat slotScaled fun fs =>
    let b := quantise fs ((lanesOf x.tp).map fun l => (l, fp32.decode (x.get f l 1 f.a)))
    let code (l : Nat) : Nat := match b.codes.find? fun p => p.1 == l with | some p => p.2 | none => 0
    x.done ((x.w.write x.tp f.d 1 fun l => b.special * 2 ^ 16 + b.scale * 2 ^ 8 + code l).orFlags b.flags)

def bunpackTakes (fs : DWord) : Bool := slotElem fs == 5 || slotElem fs == 6 || slotElem fs == 7

def execBunpack (f : Fields) (s : State) : Res :=
  issue (.bunpack f) s fun x => x.withSlot f.imm.toNat bunpackTakes fun fs =>
    x.alu f.d 1 fun l =>
      let a := x.get f l 1 f.a
      let v := if slotScaled fs then blockRead fs (a % 256) (a / 2 ^ 8 % 256) (a / 2 ^ 16 % 256) else slotRead fs a
      v.write fp32 (x.rm f) false

end Sys2Proof.Machine
end

