-- ==== Sys2Proof/Machine/Access.lean ====
section
/-! DEFINITION. Machine/Access.lean: the accesses of lanes: their checks in the order of R143, page faults and
fault-splits (R131, R345), lanes that meet an uncorrectable error (R391), and the level at which an access is
performed (R140). -/

namespace Sys2Proof.Machine

/-! ### Page faults (R131, R345) -/

/-- Page requests for several addresses: the groups waited on. -/
def State.askPages (s : State) (pasid queue : Nat) (n : Need) : List DWord → State × List Nat
  | [] => (s, [])
  | va :: rest =>
    let (s, g) := s.askPage pasid queue va n
    let (s, gs) := s.askPages pasid queue n rest
    (s, g ++ gs.filter fun k => !g.contains k)

/-- The lanes of a split parked, once the others have completed the instruction (R131), with the pages that they may not
ask for again. -/
def Issue.parkLanes (x : Issue) (p : Word) (groups : List Nat) (denied : List DWord) (s : State) : State :=
  match s.warp? x.w.uid with
  | none => s
  | some w =>
    let q := w.slot x.side
    let p := p &&& q.mask
    let w := w.push ⟨x.pc, q.mask, 1, w.nc x.side, p⟩
    let w := w.addNc q.mask 1
    let w := w.setSlot x.side (q.drop p)
    s.setWarp ({ w with parked := w.parked ++ [⟨x.pc, p, groups, denied⟩] } : Warp).settle

/-- Whether a split has no room: NC is 255 or the stack is full (R21, R130). -/
def Issue.noSplit (x : Issue) : Bool := x.w.nc x.side == 255 || x.w.full

/-- An instruction whose lanes in `absent` meet a page that is not present: it waits when they are all that take part
or `whole` is set, and else it completes on the others and splits. -/
def Issue.faultSplit (x : Issue) (absent : Word) (whole : Bool) (n : Need) (addr : Nat → DWord)
    (act : Issue → State) : State :=
  if absent == 0 then act x
  else
    let ask (s : State) : State × List Nat :=
      s.askPages (s.pasidOf x.w) (s.queueOf x.w) n ((lanesOf absent).map addr)
    if whole || x.tp &&& ~~~absent == 0 then
      let (s, gs) := ask x.s
      { x with s := s }.await (.page gs)
    else if x.noSplit then x.overflow
    else
      let (s, gs) := ask x.s
      x.parkLanes absent gs [] (act { x with s := s, tp := x.tp &&& ~~~absent })

/-! ### Uncorrectable errors (R390, R391) -/

/-- The outstanding stores of some threads of a warp aborted, and the L1 lines discarded that show them (R143). -/
def State.abortStores (s : State) (uid : Nat) (tids : List Word) : State :=
  let mine (p : Pend) : Bool := p.uid == uid && tids.contains p.tid
  let s := (s.pends.filter mine).foldl (fun s p => s.dropL1 p.core (lineOf p.key)) s
  { s with pends := s.pends.filter fun p => !mine p }

/-- Lanes of an instruction die at an uncorrectable error of their access: the error interrupt, their outstanding
accesses aborted (log entry 52), one record, the deaths. -/
def Issue.abort (x : Issue) (dead : Word) (addr : DWord) (s : State) : State :=
  if dead == 0 then s
  else
    match s.warp? x.w.uid with
    | none => s
    | some w =>
      let s := (s.send (.msix 0)).countDeaths w.core dead
      let s := s.abortStores w.uid ((lanesOf dead).map fun l => (w.lane l).tid)
      let s := s.killRec w dead 0x40 0 (if x.tp &&& ~~~dead == 0 then 1 else 2) 0 x.pc addr
      s.kill w.uid dead x.pc

/-! ### The checks of R143 -/

/-- The lowest lane of a mask, or 0. -/
def lowOf (m : Word) : Nat := (lowLane m).getD 0

/-- A lane's run translated: its pieces, or the first address at which that fails and how. -/
def Issue.runs (x : Issue) (n : Need) (k : Nat) (addr : Nat → DWord) (l : Nat) : Run :=
  x.s.run (x.s.pasidOf x.w) (addr l) k n

/-- How the translation of a lane's run fails. -/
def Run.fails : Run → Tr → Bool
  | .ok _, _ => false
  | .bad _ t, u => t == u

/-- The address at which a run fails, or the one given. -/
def Run.at (r : Run) (va : DWord) : DWord :=
  match r with
  | .ok _ => va
  | .bad a _ => a

/-- Whether a run of `k` bytes lies partly in a 4 KiB page. -/
def touches (page va : DWord) (k : Nat) : Bool := overlaps page.toNat 4096 va.toNat k

/-- The first byte of a run that lies in a page that the host has refused (R346). -/
def deniedAt (denied : List DWord) (va : DWord) (k : Nat) : Option DWord :=
  (denied.find? fun page => touches page va k).map fun page => if page.toNat ≤ va.toNat then va else page

/-- Steps 3 and 4 of R143 for what each lane touches: how its translations end (`tr`), the address that a trap of it
names, the runs of bytes. A refusal on any lane traps, one by the host while the instruction waited (R346) too; then comes
what else the instruction checks (`mid`); then a lane whose page is not present is split off, and `act` is given where each
lane's runs lie. -/
def Issue.settleRuns (x : Issue) (n : Need) (whole : Bool) (tr : Nat → Run) (info : Nat → DWord)
    (runs : Nat → List (DWord × Nat)) (mid : Option State) (act : Issue → (Nat → List (Loc × Nat)) → State) : State :=
  let pasid := x.s.pasidOf x.w
  let denied := (x.w.slot x.side).denied
  let ends (t : Tr) : Word := maskOf fun l => x.tp.getLsbD l && (tr l).fails t
  let refused := ends .refused ||| maskOf fun l =>
    x.tp.getLsbD l && denied.any fun page => (runs l).any fun (r : DWord × Nat) => touches page r.1 r.2
  let absent := ends .absent
  let pending := ends .pending
  let broken := ends .bad
  let held := (lanesOf x.tp).findSome? fun l => match tr l with | .bad _ (.stalled p) => some p | _ => none
  if refused != 0 then x.s.trapAddr x.w x.side 8 0 true (info (lowOf refused)) refused
  else
    match mid, held with
    | some s, _ => s
    | none, some p => x.await (.stall p)
    | none, none =>
      if pending != 0 then
        let s := (lanesOf pending).foldl (fun s l => s.askAts pasid ((tr l).at (info l))) x.s
        { x with s := s }.await (.page [grpAts])
      else
        -- A lane whose walk meets a bad line dies (R391), and the others go on.
        let dead := if whole && broken != 0 then x.tp else broken
        x.abort dead (info (lowOf broken)) <|
          ({ x with tp := x.tp &&& ~~~dead } : Issue).faultSplit (absent &&& ~~~dead) whole n
            (fun l => (tr l).at (info l)) fun y =>
              let s := (lanesOf y.tp).foldl (fun s l =>
                (runs l).foldl (fun s (r : DWord × Nat) => s.cacheRun pasid r.1 r.2) s) y.s
              act { y with s := s } fun l => match tr l with | .ok ps => ps | _ => []

/-- The same for one run of `k` bytes of each lane. -/
def Issue.translated (x : Issue) (n : Need) (whole : Bool) (k : Nat) (addr : Nat → DWord) (mid : Option State)
    (act : Issue → (Nat → List (Loc × Nat)) → State) : State :=
  x.settleRuns n whole (x.runs n k addr) addr (fun l => [(addr l, k)]) mid act

/-- Steps 1 and 2 of R143 for lanes' runs of `k` bytes in the global space, in order: the address, and every byte of a run longer
than its alignment, lies in the space; and the address is a multiple of `align` (R33). -/
def Issue.addressed (x : Issue) (k align : Nat) (addr : Nat → DWord) (act : State) : State :=
  let out := maskOf fun l => x.tp.getLsbD l && !(inSpace (addr l) && (k ≤ align || (addr l).toNat + k ≤ 2 ^ 57))
  let odd := maskOf fun l => x.tp.getLsbD l && (addr l).toNat % align != 0
  if out != 0 then x.s.trapAddr x.w x.side 8 0 false (addr (lowOf out)) out
  else if odd != 0 then x.s.trapAddr x.w x.side 7 0 false (addr (lowOf odd)) odd
  else act

/-- All the checks of lanes' runs of `k` bytes. -/
def Issue.globalRun (x : Issue) (n : Need) (whole : Bool) (k align : Nat) (addr : Nat → DWord) (mid : Option State)
    (act : Issue → (Nat → List (Loc × Nat)) → State) : State :=
  x.addressed k align addr (x.translated n whole k addr mid act)

/-- The same for an access that is no wider than its alignment: it lies in one page. -/
def Issue.global (x : Issue) (n : Need) (whole : Bool) (k : Nat) (addr : Nat → DWord) (mid : Option State)
    (act : Issue → (Nat → Option Loc) → State) : State :=
  x.globalRun n whole k k addr mid fun y ps => act y fun l => (ps l).head?.map Prod.fst

/-- The bytes of a crew's local memory (R22, R34). -/
def State.locSize (s : State) (w : Warp) : Nat :=
  1024 * ((s.launch w.launch).lrec.roles.map Role.kib).sum

/-- The checks of lanes' accesses of `k` bytes in local memory (R34, R143); lanes that meet a bad line of it die, and
the others act. -/
def Issue.inLocal (x : Issue) (k : Nat) (ofs : Nat → Nat) (act : Issue → State) : State :=
  let size := x.s.locSize x.w
  let out := maskOf fun l => x.tp.getLsbD l && size ≤ ofs l
  let odd := maskOf fun l => x.tp.getLsbD l && ofs l % k != 0
  if out != 0 then x.s.trapAddr x.w x.side 8 1 false (BitVec.ofNat 64 (ofs (lowOf out))) out
  else if odd != 0 then x.s.trapAddr x.w x.side 7 1 false (BitVec.ofNat 64 (ofs (lowOf odd))) odd
  else
    let bad := (x.s.crew x.w.crew).locBad
    let dead := maskOf fun l => x.tp.getLsbD l && bad.any fun n => overlaps (ofs l) k (n * 128) 128
    x.abort dead (BitVec.ofNat 64 (ofs (lowOf dead))) (act { x with tp := x.tp &&& ~~~dead })

/-! ### Levels (R140) -/

/-- The attributes of an access. -/
structure Att where
  ord : Ord
  scope : Scope
  cpol : CPol := .dflt
  evp : Evp := .same
  deriving DecidableEq, Repr

def attOf (f : Fields) : Att := ⟨f.ord, f.scope, f.cpol, f.evp⟩

/-- Where an access is performed. -/
inductive Level where
  /-- An L1. -/
  | l1
  /-- The home, or the device-side home of system memory. -/
  | home
  /-- The home, or the coherence point of system memory. -/
  | point
  /-- The nearest slice. -/
  | near
  deriving DecidableEq, Repr

/-- R140's table; `hbm` says that the memory is the device's. -/
def levelOf (fused hbm : Bool) (a : Att) : Level :=
  if a.ord == .weak then
    match a.cpol with
    | .dflt => .l1
    | .rep => .near
    | _ => .home
  else
    match a.scope with
    | .core => .l1
    | .clu => if fused && hbm then .l1 else .home
    | .sys => .point
    | _ => .home

def Issue.fused (x : Issue) : Bool := (x.s.launch x.w.launch).lrec.fused

def Issue.level (x : Issue) (a : Att) (l : Loc) : Level := levelOf x.fused l.hbm a

/-- The core whose L1 serves the warp for a place. -/
def Issue.l1Core (x : Issue) (l : Loc) : Nat := l1CoreOf x.fused x.w.core l.pa

/-- The physical slice that is the warp's own. -/
def Issue.nearUnit (x : Issue) : Nat := (x.s.ctxPart (x.s.pasidOf x.w)).unit (sliceOf x.w.core)

/-- After an access that has touched an L1 or the home: its hint sets the class of the line there, and without a hint
`.st` makes evict-first a line that the home has newly allocated (R140, R340). -/
def Issue.hint (x : Issue) (a : Att) (l : Loc) (l1 home fresh : Bool) (s : State) : State :=
  match evpClass a.evp with
  | some c => s.hintAt (if l1 then some (x.l1Core l) else none) l.unit (lineOf l.key) home c
  | none => if a.cpol == .st && home && fresh then s.setL2Class l.unit (lineOf l.key) .first else s

/-- Whether the home's L2 does not hold a line yet. -/
def State.l2New (s : State) (l : Loc) : Bool := (s.l2At l.unit (lineOf l.key) false).isNone

/-- After a strong access at a home, the core's clean copy leaves its L1 where it differs from what the access has seen,
so that strong accesses to one address keep one order wherever they are performed (R163). -/
def State.evictStale (s : State) (core key : Nat) (bs : List Byte) : State :=
  match s.l1At core (lineOf key) with
  | some { st := .clean data, .. } => if runOfLine key bs.length data == bs then s else s.dropL1 core (lineOf key)
  | _ => s

/-- A read of `k` bytes at its level. A strong one at an L1 performs first what the core itself has stored there
(R163). -/
def Issue.readAt (x : Issue) (a : Att) (l : Loc) (k : Nat) (s : State) : State × List Byte :=
  let core := x.l1Core l
  let strong := a.ord != .weak
  match x.level a l with
  | .l1 =>
    (if strong then s.performAt core l.key k else s).l1Load core (s.pasidOf x.w) l k strong (a.cpol != .st)
  | .near => s.repLoad core x.nearUnit x.w.launch l k
  | .home => if l.hbm then s.homeRead l.key k else s.sysRead l.unit l.key k
  | .point => (s.holdRun l.key k).homeRead l.key k

/-- A read of `k` bytes by a warp, with the state it leaves. -/
def Issue.read (x : Issue) (a : Att) (l : Loc) (k : Nat) (s : State) : State × List Byte :=
  let core := x.l1Core l
  let atL1 := x.level a l == .l1
  let hit := atL1 && s.l1Hit core (lineOf l.key)
  let (t, bs) := x.readAt a l k s
  let t := if a.ord != .weak && !atL1 then t.evictStale core l.key bs else t
  (x.hint a l atL1 (!hit) (s.l2New l) t, bs)

/-- A write by a warp, for a thread. A weak one at the L1 goes on to its home, or to its fabric peer, later (R141, R160,
R387). -/
def Issue.write (x : Issue) (a : Att) (tid : Word) (l : Loc) (bs : List Byte) (s : State) : State :=
  let core := x.l1Core l
  let strong := a.ord != .weak
  if x.level a l == .l1 then
    let p : Pend :=
      { core := core, uid := x.w.uid, side := x.side, tid := tid, pasid := s.pasidOf x.w, queue := s.queueOf x.w,
        key := l.key, bytes := bs, peer := l.peer, hint := evpClass a.evp }
    let t := if strong then ((s.performAt core l.key bs.length).l1Store p).performIf fun q => q == p else s.l1Store p
    x.hint a l true false false t
  else
    let t := (if x.level a l == .point then s.holdRun l.key bs.length else s).homeWrite l.key bs
    x.hint a l false true (s.l2New l) (if strong then t.evictStale core l.key bs else t)

/-- Whether a line cannot be read at its home: a copy of system memory still answers. -/
def State.badHome (s : State) (l : Loc) : Bool :=
  if !l.hbm && (s.l2At l.unit (lineOf l.key) false).isSome then false else s.isBad (lineOf l.key * 128) 128

/-- Whether an L1's clean copy answers, and is itself bad; `none` where it has no such copy. -/
def State.badCopy (s : State) (core line : Nat) : Option Bool :=
  match s.l1At core line with
  | some { st := .clean _, bad := b, .. } => some b
  | _ => none

/-- Whether a read would have to take bytes of a bad line. -/
def Issue.badRead (x : Issue) (a : Att) (l : Loc) (k : Nat) (s : State) : Bool :=
  let line := lineOf l.key
  match x.level a l with
  | .l1 => (s.badCopy (x.l1Core l) line).getD (s.badHome l)
  | .near =>
    if !l.hbm then s.badHome l
    else
      (s.badCopy (x.l1Core l) line).getD
        ((x.nearUnit == l.unit || (s.l2At x.nearUnit line true).isNone) && s.badHome l)
  | .home => s.badHome l
  | .point => s.isBad l.key k

/-- Whether a write meets a bad line: at its home, or the copy in the L1 that it is performed at. -/
def Issue.badWrite (x : Issue) (a : Att) (l : Loc) (k : Nat) (s : State) : Bool :=
  s.isBad l.key k || (x.level a l == .l1 && (s.badCopy (x.l1Core l) (lineOf l.key)).getD false)

/-! ### Release and acquire (R151) -/

/-- Whether a scope performs an L1 store to a place at its home: on a fused cluster, `.clu` only one to system memory
(R140). -/
def Issue.reaches (x : Issue) (sc : Scope) (key : Nat) : Bool :=
  match sc with
  | .dev | .sys => true
  | .clu => !x.fused || hostBase ≤ key
  | _ => false

/-- What a release of a scope performs first: the warp's weak stores. An acquire needs nothing here, since a slot's
later accesses are performed later. -/
def Issue.release (x : Issue) (sc : Scope) (s : State) : State :=
  s.performIf fun p => p.uid == x.w.uid && x.reaches sc p.key

/-- Whether an order is a release. -/
def releases (o : Ord) : Bool := o == .rel || o == .ar || o == .sc

/-! ### Software's writes to tables that are the hardware's (R184, R219) -/

/-- An undefined list of words. -/
def State.freeList (s : State) : State × List DWord := ({ s with free := s.free + 1 }, Config.freeList s.free)

/-- A list cut into pieces of `k`. -/
def piecesOf {α : Type} (k : Nat) : Nat → List α → List (List α)
  | 0, _ => []
  | n + 1, l => if l.isEmpty then [] else l.take k :: piecesOf k n (l.drop k)

/-- An estate entry of undefined words. -/
def Entry.undef (w : List DWord) : Entry :=
  let word (i : Nat) : DWord := w.getD i 0
  { object := word 0, holder := (word 1).setWidth 32, heir := (word 1).extractLsb' 32 32, from_ := (word 2).setWidth 32,
    kind := (word 2).extractLsb' 32 4, state := (word 2).extractLsb' 36 3, brv := (word 2).getLsbD 39,
    unack := (word 2).getLsbD 40, sys := (word 2).getLsbD 41, time := word 3 }

/-- The same for a member's state and for a point of a team. -/
def MSt.undef (n : Nat) : MSt := [MSt.due, .arrived, .new, .early].getD (n % 4) .due

def Point.undef (w : List DWord) : Point :=
  let num (i : Nat) : Nat := (w.getD i 0).toNat
  { init := (num 0).testBit 0, b := (num 0).testBit 1, p := BitVec.ofNat 32 (num 1), bw := BitVec.ofNat 32 (num 1 / 2 ^ 32),
    x := (w.getD 2 0).toInt, j := (w.getD 3 0).toInt, a := num 4, y := num 5,
    st := (w.drop 6).map fun m => (m.setWidth 32, MSt.undef (m.toNat / 2 ^ 32)) }

/-- Undefined points, and undefined team records. -/
def undefPoints : Nat → State → State × List Point
  | 0, s => (s, [])
  | n + 1, s =>
    let (s, w) := s.freeList
    let (s, ps) := undefPoints n s
    (s, Point.undef w :: ps)

def undefTeams : List DWord → State → State × List Team
  | [], s => (s, [])
  | g :: rest, s =>
    let (s, members) := s.freeList
    let (s, points) := undefPoints 24 s
    let (s, ts) := undefTeams rest s
    (s, { gen := g.setWidth 15, used := g.getLsbD 15, members := members.map fun m => m.setWidth 32, points := points } :: ts)

/-- The holdings, or the teams, of a context become undefined. -/
def State.undefEstate (s : State) (pasid : Nat) : State :=
  let (s, w) := s.freeList
  let c := s.ctx pasid
  s.setCtx { c with estate := ((piecesOf 4 w.length w).map Entry.undef).take (2 ^ c.crec.estateLog) }

def State.undefTeamTable (s : State) (pasid : Nat) : State :=
  let (s, w) := s.freeList
  let (s, ts) := undefTeams (w.take 65536) s
  s.setCtx { s.ctx pasid with teams := ts }

/-- Whether a run meets a table. -/
def meetsTable (base : DWord) (size : Nat) (va : DWord) (k : Nat) : Bool := overlaps base.toNat size va.toNat k

/-- After software has written runs of bytes under a PASID: where one meets the estate table, or the team table of
64 MiB, what the device held in it is undefined (R184, R219, log entry 54). -/
def State.soil (s : State) (pasid : Nat) (runs : List (DWord × Nat)) : State :=
  let c := (s.ctx pasid).crec
  let s := if runs.any fun (r : DWord × Nat) => meetsTable c.estate (32 * 2 ^ c.estateLog) r.1 r.2 then s.undefEstate pasid else s
  if runs.any fun (r : DWord × Nat) => meetsTable c.team (2 ^ 26) r.1 r.2 then s.undefTeamTable pasid else s

/-- The same for lanes' runs of `k` bytes. -/
def Issue.soil (x : Issue) (lanes : Word) (k : Nat) (addr : Nat → DWord) (s : State) : State :=
  s.soil (s.pasidOf x.w) ((lanesOf lanes).map fun l => (addr l, k))

/-! ### The order of lanes (R144) -/

/-- Some order of a list. -/
def shuffle : Nat → List Nat → State → State × List Nat
  | 0, l, s => (s, l)
  | n + 1, l, s =>
    if l.length ≤ 1 then (s, l)
    else
      let (s, k) := s.pick l.length
      let (s, rest) := shuffle n (l.eraseIdx k) s
      (s, l.getD k 0 :: rest)

/-- Whether two lanes' runs overlap. -/
def clash (key : Nat → Nat) (k : Nat) : List Nat → Bool
  | [] => false
  | l :: rest => rest.any (fun m => overlaps (key l) k (key m) k) || clash key k rest

/-- The order in which lanes act: one that the spec leaves open where their bytes meet, and ascending where they do
not. -/
def State.order (s : State) (m : Word) (k : Nat) (key : Nat → Nat) : State × List Nat :=
  let l := lanesOf m
  if clash key k l then shuffle l.length l s else (s, l)

end Sys2Proof.Machine
end

