-- ==== Sys2Proof/Machine/MemOps.lean ====
section
/-! DEFINITION. Machine/MemOps.lean: the memory instructions (R137 to R157), and the two events that let a waiting
`wcmp` look again (R152, R153). -/

namespace Sys2Proof.Machine

/-- The global address of a lane (R45). -/
def Issue.addrOf (x : Issue) (f : Fields) (l : Nat) : DWord :=
  addrSum f.sub (x.get f l 2 f.a) (x.get f l 1 f.b) (f.b != .none) (intOf 32 true f.imm.toNat)

/-- The local offset of a lane: the 32-bit sum (R145). -/
def Issue.ofsOf (x : Issue) (f : Fields) (l : Nat) : Nat :=
  (addrSum f.sub (x.get f l 1 f.a) (x.get f l 1 f.b) (f.b != .none) (intOf 32 true f.imm.toNat)).toNat % 2 ^ 32

/-- The bytes that a type moves (R42, R145). -/
def bytesOf : DType → Nat
  | .b8 => 1
  | .b16 => 2
  | .u64 | .i64 | .f64 => 8
  | .b128 => 16
  | _ => 4

/-- The lane's entry of a list by lane, or 0. -/
def laneVal (vals : List (Nat × Nat)) (l : Nat) : Nat :=
  match vals.find? fun (v : Nat × Nat) => v.1 == l with
  | some v => v.2
  | none => 0

/-- A loaded value as D receives it (R145). -/
def loaded (f : Fields) (v : Nat) : Nat :=
  if f.sub.getLsbD 4 then
    match f.ty with
    | .b8 => intBits 32 (intOf 8 true v)
    | .b16 => intBits 32 (intOf 16 true v)
    | _ => v
  else v

/-! ### Loads and stores (R145) -/

/-- What lanes have read so far: the state, their values, and the lanes that met a bad line. -/
structure Reads where
  s : State
  vals : List (Nat × Nat) := []
  dead : Word := 0

/-- Lanes read, one after another. -/
def Issue.readLanes (x : Issue) (a : Att) (k : Nat) (loc : Nat → Option Loc) (lanes : List Nat) (s : State) : Reads :=
  lanes.foldl (fun (r : Reads) l =>
    match loc l with
    | none => r
    | some p =>
      if x.badRead a p k r.s then { r with dead := r.dead ||| bitOf l }
      else
        let (s, bs) := x.read a p k r.s
        { r with s := s, vals := r.vals ++ [(l, leNat bs)] }) ⟨s, [], 0⟩

def Issue.loadGlobal (x : Issue) (f : Fields) : State :=
  let k := bytesOf f.ty
  let addr := x.addrOf f
  x.global { r := true } (isScalar f.d) k addr none fun y loc =>
    let lanes := if isScalar f.d then (lanesOf y.tp).take 1 else lanesOf y.tp
    let r := y.readLanes (attOf f) k loc lanes y.s
    -- A scalar load is an access of every lane that takes part (R139).
    let dead := if isScalar f.d && r.dead != 0 then y.tp else r.dead
    let low := laneVal r.vals (lowOf y.tp)
    let w := y.w.write (y.tp &&& ~~~dead) f.d f.ty.regs fun l =>
      loaded f (if isScalar f.d then low else laneVal r.vals l)
    y.abort dead (addr (lowOf dead)) (y.doneIn (r.s.setWarp w))

def execLd (f : Fields) (s : State) : Res := issue (.ld f) s fun x => x.loadGlobal f

/-- Lanes write, in an order that is open where they meet (R144). -/
def Issue.storeGlobal (x : Issue) (f : Fields) : State :=
  let k := bytesOf f.ty
  let addr := x.addrOf f
  x.global { w := true } false k addr none fun y loc =>
    let s := if releases f.ord then y.release f.scope y.s else y.s
    let key (l : Nat) : Nat := match loc l with | some p => p.key | none => 0
    let dead := maskOf fun l =>
      y.tp.getLsbD l && match loc l with | some p => y.badWrite (attOf f) p k s | none => false
    let (s, lanes) := s.order (y.tp &&& ~~~dead) k key
    let s := lanes.foldl (fun s l =>
      match loc l with
      | some p => y.write (attOf f) (y.w.lane l).tid p (leBytes k (y.get f l f.ty.regs f.c)) s
      | none => s) s
    y.abort dead (addr (lowOf dead)) (y.doneIn (y.soil (y.tp &&& ~~~dead) k addr s))

def execSt (f : Fields) (s : State) : Res := issue (.st f) s fun x => x.storeGlobal f

/-- R145, R34: local memory is not cached. -/
def execLdl (f : Fields) (s : State) : Res :=
  issue (.ldl f) s fun x =>
    let k := bytesOf f.ty
    x.inLocal k (x.ofsOf f) fun x =>
      x.done (x.w.write x.tp f.d f.ty.regs fun l =>
        loaded f (Memory.num (x.s.crew x.w.crew).loc (x.ofsOf f l) k))

def execStl (f : Fields) (s : State) : Res :=
  issue (.stl f) s fun x =>
    let k := bytesOf f.ty
    x.inLocal k (x.ofsOf f) fun x =>
      let (s, lanes) := x.s.order x.tp k (x.ofsOf f)
      let c := s.crew x.w.crew
      let loc := lanes.foldl (fun m l => Memory.putNum m (x.ofsOf f l) k (x.get f l f.ty.regs f.c)) c.loc
      x.doneIn (s.setCrew { c with loc := loc })

/-! ### Atomics (R146, R147) -/

/-- The operations of R146. -/
inductive AOp where
  | comb (op : ROp)
  | exch | bit | cas
  deriving DecidableEq, Repr

def aopOf (f : Fields) : AOp :=
  match f.subBits 4 2, f.e == .none with
  | 0, true => .comb .add
  | 1, true => .comb .min
  | 2, true => .comb .max
  | _, true => .exch
  | 0, false => .bit
  | _, false => .cas

/-- The value that an atomic writes, if it writes one. -/
def AOp.new (op : AOp) (ty : DType) (old c e : Nat) : Option Nat :=
  match op with
  | .comb r => some (combine r ty old c)
  | .exch => some c
  | .bit => some ((old &&& e) ^^^ c)
  | .cas => if old == e then some c else none

/-- A read-modify-write at the home, or at the place that R147 gives it. -/
def Issue.rmw (x : Issue) (a : Att) (op : AOp) (ty : DType) (p : Loc) (k c e : Nat) (s : State) : State × Nat :=
  let fresh := s.l2New p
  let s := s.collect p.key k
  let s := s.dropL1 (x.l1Core p) (lineOf p.key)
  let atHost := p.sysatom && a.scope == .sys
  let s := if atHost then s.holdRun p.key k else s
  let (s, bs) := if p.hbm || atHost then s.homeRead p.key k else s.sysRead p.unit p.key k
  let old := leNat bs
  let s := match op.new ty old c e with
    | some v => s.homePut p.key k v
    | none => s
  (x.hint a p false true fresh s, old)

/-- The lanes whose read-modify-write meets a bad line. -/
def Issue.badAtoms (x : Issue) (loc : Nat → Option Loc) (k : Nat) (s : State) : Word :=
  maskOf fun l => x.tp.getLsbD l && match loc l with | some p => s.isBad p.key k | none => false

/-- Lanes do their read-modify-writes, in an order that is open where they meet. -/
def Issue.rmwLanes (x : Issue) (a : Att) (op : AOp) (f : Fields) (loc : Nat → Option Loc) (addr : Nat → DWord) :
    State :=
  let k := bytesOf f.ty
  let s := if releases a.ord then x.release a.scope x.s else x.s
  let key (l : Nat) : Nat := match loc l with | some p => p.key | none => 0
  let dead := x.badAtoms loc k s
  let (s, lanes) := s.order (x.tp &&& ~~~dead) k key
  let r := lanes.foldl (fun (r : Reads) l =>
    match loc l with
    | some p =>
      let (s, old) := x.rmw a op f.ty p k (x.get f l f.ty.regs f.c) (x.get f l f.ty.regs f.e) r.s
      { r with s := s, vals := r.vals ++ [(l, old)] }
    | none => r) ⟨s, [], 0⟩
  let w := x.w.write (x.tp &&& ~~~dead) f.d f.ty.regs fun l => laneVal r.vals l
  x.abort dead (addr (lowOf dead)) (x.doneIn (x.soil (x.tp &&& ~~~dead) k addr (r.s.setWarp w)))

def execAtom (f : Fields) (s : State) : Res :=
  issue (.atom f) s fun x =>
    x.global { r := true, w := true } false (bytesOf f.ty) (x.addrOf f) none fun y loc =>
      y.rmwLanes (attOf f) (aopOf f) f loc (x.addrOf f)

def execAtoml (f : Fields) (s : State) : Res :=
  issue (.atoml f) s fun x =>
    let k := bytesOf f.ty
    x.inLocal k (x.ofsOf f) fun x =>
      let (s, lanes) := x.s.order x.tp k (x.ofsOf f)
      let c := s.crew x.w.crew
      let (loc, vals) := lanes.foldl (fun (mv : Memory × List (Nat × Nat)) l =>
        let old := Memory.num mv.1 (x.ofsOf f l) k
        let m := match (aopOf f).new f.ty old (x.get f l f.ty.regs f.c) (x.get f l f.ty.regs f.e) with
          | some v => Memory.putNum mv.1 (x.ofsOf f l) k v
          | none => mv.1
        (m, mv.2 ++ [(l, old)])) (c.loc, [])
      let w := x.w.write x.tp f.d f.ty.regs fun l => laneVal vals l
      x.doneIn ((s.setCrew { c with loc := loc }).setWarp w)

/-! ### Reductions (R148, R149, R338) -/

def ropOf (f : Fields) : ROp :=
  match f.subBits 4 2 with
  | 0 => .add
  | 1 => .min
  | 2 => .max
  | _ => .or

/-- The identity of a combining operation (R177). -/
def identity (op : ROp) (ty : DType) : Nat :=
  let w := ty.elem
  match op with
  | .add | .or => 0
  | .min =>
    if isFloat ty then ((Val.inf false).write (fmtOf ty) .rne false).1 else intBits w (intMax w ty.signed)
  | .max =>
    if isFloat ty then ((Val.inf true).write (fmtOf ty) .rne false).1 else intBits w (intMin w ty.signed)

/-- How many lines the cores hold in the update-only state for a home. -/
def State.updLines (s : State) (home : Nat) : Nat :=
  let all := s.cores.flatMap fun c =>
    c.l1.filterMap fun x => match x.st with
      | .upd _ _ _ => if x.line * 128 / 2 ^ 36 == home then some x.line else none
      | .clean _ => none
  all.eraseDups.length

/-- Whether some L1 holds partials of a line of another operation or type. -/
def State.otherOp (s : State) (op : ROp) (ty : DType) (line : Nat) : Bool :=
  (s.holders line).any fun c =>
    match s.l1At c line with
    | some { st := .upd o t _, .. } => o != op || t != ty
    | _ => false

/-- A value combined into an update-only line of an L1, or at the home when the home can track no more lines. Partials
of another operation or type, wherever they are held, are combined first (R149). -/
def State.redAt (s : State) (core pasid : Nat) (op : ROp) (ty : DType) (key v : Nat) (home : Nat) : State :=
  let line := lineOf key
  let ofs := key % 128
  let s := if s.otherOp op ty line then s.collectLine line else s
  let first : List (Nat × DWord) := [(ofs, BitVec.ofNat 64 (combine op ty (identity op ty) v))]
  let start (s : State) : State :=
    if 65536 ≤ s.updLines home then addParts s line op ty [(ofs, BitVec.ofNat 64 v)]
    else s.putL1 core { line := line, pasid := pasid, st := .upd op ty first }
  match s.l1At core line with
  | some { st := .upd _ _ parts, cls := cls, .. } =>
    let parts := match parts.find? fun (q : Nat × DWord) => q.1 == ofs with
      | some q => putBy (fun (y : Nat × DWord) => y.1 == ofs) (ofs, BitVec.ofNat 64 (combine op ty q.2.toNat v)) parts
      | none => parts ++ first
    s.putL1 core { line := line, pasid := pasid, st := .upd op ty parts, cls := cls }
  | some _ => start (s.dropL1 core line)
  | none => start s

/-- Lanes reduce, in an order that is open where they meet. On system memory a `red` is an atomic, whose lane dies at a
bad line. -/
def Issue.redLanes (x : Issue) (f : Fields) (loc : Nat → Option Loc) (addr : Nat → DWord) : State :=
  let s := if releases f.ord then x.release f.scope x.s else x.s
  let op := ropOf f
  let key (l : Nat) : Nat := match loc l with | some p => p.key | none => 0
  let dead := x.badAtoms (fun l => (loc l).filter fun p => !p.hbm) (bytesOf f.ty) s
  let (s, lanes) := s.order (x.tp &&& ~~~dead) (bytesOf f.ty) key
  x.abort dead (addr (lowOf dead)) <| x.doneIn <| x.soil (x.tp &&& ~~~dead) (bytesOf f.ty) addr (lanes.foldl (fun s l =>
    let c := x.get f l f.ty.regs f.c
    match loc l with
    | none => s
    | some p =>
      if p.hbm then x.hint (attOf f) p true false false (s.redAt (x.l1Core p) (s.pasidOf x.w) op f.ty p.key c p.home)
      else (x.rmw (attOf f) (.comb op) f.ty p (bytesOf f.ty) c 0 s).1) s)

def execRed (f : Fields) (s : State) : Res :=
  issue (.red f) s fun x =>
    x.global { w := true } false (bytesOf f.ty) (x.addrOf f) none fun y loc => y.redLanes f loc (x.addrOf f)

/-! ### Fences (R150, R166) -/

/-- A fence of the slot: the warp's weak stores are performed at their homes when the before set holds class L and the
scope reaches that far; nothing else is outstanding in program order. -/
def execFence (f : Fields) (s : State) : Res :=
  issue (.fence f) s fun x =>
    if x.tp != 0 && f.imm.getLsbD 0 then x.doneIn (x.release f.scope x.s) else x.skip

/-! ### Monitor waits (R152 to R154) -/

/-- The comparison of a `wcmp`. -/
def wcmpHolds (f : Fields) (v c m : Nat) : Bool :=
  let w := f.ty.elem
  let a := intOf w f.ty.signed (v &&& m)
  let b := intOf w f.ty.signed (c &&& m)
  match f.subBits 4 2 with
  | 0 => a == b
  | 1 => a != b
  | 2 => a < b
  | _ => b ≤ a

/-- A monitor entry armed at a home, if one is free. -/
def State.arm (s : State) (who : Watcher) (line home : Nat) : State × Bool :=
  let others := s.monitors.filter fun m => m.who != who
  if 4096 ≤ (others.filter fun m => m.home == home).length then ({ s with monitors := others }, false)
  else ({ s with monitors := others ++ [{ who := who, line := line, home := home }] }, true)

def State.disarm (s : State) (who : Watcher) : State := { s with monitors := s.monitors.filter fun m => m.who != who }

/-- Where a `wcmp` stands: the values of the lanes that are through, those that poll, those that die. -/
structure Watching where
  s : State
  done : List (Nat × DWord)
  polls : Word
  dead : Word := 0

/-- Lanes of a `wcmp` look at their words. -/
def Issue.look (x : Issue) (f : Fields) (loc : Nat → Option Loc) (lanes : Word) (v : Watching) : Watching :=
  let k := bytesOf f.ty
  (lanesOf lanes).foldl (fun (v : Watching) l =>
    let who : Watcher := .lane x.w.uid x.side l
    match loc l with
    | none => v
    | some p =>
      if x.badRead (attOf f) p k v.s then { v with s := v.s.disarm who, dead := v.dead ||| bitOf l }
      else
        let (s, bs) := x.read (attOf f) p k v.s
        let val := leNat bs
        let m := if f.e == .none then 2 ^ f.ty.elem - 1 else x.get f l f.ty.regs f.e
        if wcmpHolds f val (x.get f l f.ty.regs f.c) m then
          { v with s := s.disarm who, done := v.done ++ [(l, BitVec.ofNat 64 val)], polls := v.polls &&& ~~~bitOf l }
        else
          let (s, armed) := s.arm who (lineOf p.key) p.home
          { v with s := s, polls := if armed then v.polls &&& ~~~bitOf l else v.polls ||| bitOf l }) v

/-- A `wcmp` completes when every lane is through, and else its slot waits. -/
def Issue.settleWatch (x : Issue) (f : Fields) (addr : Nat → DWord) (v : Watching) : State :=
  let left := x.tp &&& ~~~v.dead &&& ~~~(maskOf fun l => v.done.any fun (d : Nat × DWord) => d.1 == l)
  let s :=
    if left == 0 then
      let w := x.w.write (x.tp &&& ~~~v.dead) f.d f.ty.regs fun l =>
        laneVal (v.done.map fun (d : Nat × DWord) => (d.1, d.2.toNat)) l
      x.doneIn (v.s.setWarp w)
    else { x with s := v.s }.await (.monitor f v.done v.polls)
  x.abort v.dead (addr (lowOf v.dead)) s

def Issue.wcmp (x : Issue) (f : Fields) : State :=
  x.global { r := true } false (bytesOf f.ty) (x.addrOf f) none fun y loc =>
    y.settleWatch f (x.addrOf f) (y.look f loc y.tp ⟨y.s.dropMonitors y.w.uid y.tp, [], 0, 0⟩)

def execWcmp (f : Fields) (s : State) : Res := issue (.wcmp f) s fun x => x.wcmp f

/-- The lanes whose monitor has seen a write. -/
def State.hits (s : State) (uid : Nat) (side : Side) : Word :=
  maskOf fun l => s.monitors.any fun m => m.who == .lane uid side l && m.hit

/-- Some lanes of a waiting `wcmp` look again. An address that is no longer mapped starts the instruction again. -/
def State.lookAgain (s : State) (uid : Nat) (side : Side) (pick : Word → Word) : State :=
  match s.warp? uid with
  | none => s
  | some w =>
    match w.why side with
    | some (.monitor f done polls) =>
      let x : Issue := { s := s, w := w, side := side, i := .wcmp f, tp := w.takesPart side f.g1 f.g2 }
      let todo := pick polls &&& x.tp &&& ~~~(maskOf fun l => done.any fun (d : Nat × DWord) => d.1 == l)
      let tr (l : Nat) : Tr := s.translate (s.pasidOf w) (x.addrOf f l) { r := true }
      if (lanesOf todo).all fun l => match tr l with | .ok _ => true | _ => false then
        x.settleWatch f (x.addrOf f)
          (x.look f (fun l => match tr l with | .ok p => some p | _ => none) todo ⟨s, done, polls, 0⟩)
      else s.setWarp (w.setSlot side { w.slot side with wait := none })
    | _ => s

/-- The same; which slot issued last stays as it is, since none has issued. -/
def State.lookLater (s : State) (uid : Nat) (side : Side) (pick : Word → Word) : State :=
  let t := s.lookAgain uid side pick
  match s.warp? uid, t.warp? uid with
  | some w, some y => t.setWarp { y with last := w.last, promoted := w.promoted }
  | _, _ => t

/-- MONITOR_WAKE (R152): the lanes whose line has been written look again. -/
def execMonitorWake (uid : Nat) (side : Side) (s : State) : Res :=
  .next (s.lookLater uid side fun _ => s.hits uid side)

/-- MONITOR_POLL (R153): the lanes without a monitor entry look again. -/
def execMonitorPoll (uid : Nat) (side : Side) (s : State) : Res := .next (s.lookLater uid side fun polls => polls)

/-! ### Prefetch and cache control (R155 to R157) -/

/-- The lanes' lines that pass every check, the others' requests dropped (R156). The spec gives these requests neither a
width nor an access need: they are held to no alignment and to the right R (DESIGN CHOICE, log entry 53). -/
def Issue.lines (x : Issue) (f : Fields) : List Loc :=
  (lanesOf x.tp).filterMap fun l =>
    let a := x.addrOf f l
    if inSpace a then
      match x.s.translate (x.s.pasidOf x.w) a { r := true } with
      | .ok p => if x.s.isBad (lineOf p.key * 128) 128 then none else some p
      | _ => none
    else none

/-- A line requested into the L2, and with CPOL 0 into the L1, where nothing holds it. -/
def Issue.fetchLine (x : Issue) (a : Att) (p : Loc) (s : State) : State :=
  let l1 := a.cpol == .dflt
  let held := l1 && (s.l1At (x.l1Core p) (lineOf p.key)).isSome
  let t :=
    if held then s
    else if l1 then (s.l1Load (x.l1Core p) (s.pasidOf x.w) p 1 false true).1
    else (s.plainLine p).1
  x.hint a p l1 (!held) (s.l2New p) t

def execPrefetch (f : Fields) (s : State) : Res :=
  issue (.prefetch f) s fun x => x.doneIn ((x.lines f).foldl (fun s p => x.fetchLine (attOf f) p s) x.s)

def execCachectlInv (f : Fields) (s : State) : Res :=
  issue (.cachectlInv f) s fun x =>
    x.doneIn ((x.lines f).foldl (fun s p =>
      let core := x.l1Core p
      (s.sendPartial core (lineOf p.key)).dropL1 core (lineOf p.key)) x.s)

def execCachectlSetev (f : Fields) (s : State) : Res :=
  issue (.cachectlSetev f) s fun x =>
    x.doneIn ((x.lines f).foldl (fun s p => x.hint (attOf f) p true true false s) x.s)

def execCachectlInvall (f : Fields) (s : State) : Res :=
  issue (.cachectlInvall f) s fun x =>
    if x.tp == 0 then x.skip
    else x.doneIn ((l1sOf x.fused x.w.core).foldl (fun s c => s.discardL1 c (x.s.pasidOf x.w)) x.s)

end Sys2Proof.Machine
end

