-- ==== Sys2Proof/Machine/CrossLane.lean ====
section
/-! DEFINITION. Machine/CrossLane.lean: the cross-lane group and `regroup` (R172 to R182). -/

namespace Sys2Proof.Machine

/-! ### Reading another lane (R174 to R176) -/

/-- The term that the width bits of SUB add (R175). -/
def widthTerm (f : Fields) : Int := 8 * [0, 1, 2, 4].getD (f.subBits 3 2) 0

/-- What a reading lane receives. -/
inductive Got where
  | val (v : Nat)
  /-- A dead source: 0, and DEADREAD. -/
  | dead
  /-- A source that is absent: trap 0x06. -/
  | absent (lane : Nat)
  deriving DecidableEq, Repr

/-- A source lane inside the warp (R174). -/
def Issue.from (x : Issue) (f : Fields) (z : Bool) (src : Nat) : Got :=
  if x.tp.getLsbD src then .val (x.get f src f.ty.regs f.a)
  else if (x.w.lane src).st == .dead then .dead
  else if z then .val 0
  else .absent src

/-- Every taking-part lane receives its value, or the instruction traps. -/
def Issue.gather (x : Issue) (f : Fields) (got : Nat → Got) : State :=
  let readers := maskOf fun l => x.tp.getLsbD l && (match got l with | .absent _ => true | _ => false)
  let sources := maskOf fun src => (lanesOf x.tp).any fun l => got l == .absent src
  if readers != 0 then x.trap 6 (readers.setWidth 64) sources
  else x.alu f.d f.ty.regs fun l =>
    match got l with
    | .val v => (v, 0)
    | .dead => (0, DEADREAD)
    | .absent _ => (0, 0)

def Issue.nbr (x : Issue) (f : Fields) : State :=
  x.gather f fun l =>
    let src : Int := l + (intOf 32 true (x.get f l 1 f.b) + widthTerm f)
    let z := f.sub.getLsbD 2
    if 0 ≤ src && src < 32 then x.from f z src.toNat
    else match f.subBits 0 2 with
      | 0 => .val 0
      | 1 => x.from f z (src % 32).toNat
      | _ => .val (x.get f l f.ty.regs f.c)

def execNbr (f : Fields) (s : State) : Res := issue (.nbr f) s fun x => x.converge fun x => x.nbr f

def Issue.xsh (x : Issue) (f : Fields) : State :=
  x.gather f fun l =>
    let b := x.get f l 1 f.b + (widthTerm f).toNat
    let src := if f.subBits 0 2 == 0 then b else l ^^^ b
    if src < 32 then x.from f (f.sub.getLsbD 2) src else .val 0

def execXsh (f : Fields) (s : State) : Res := issue (.xsh f) s fun x => x.converge fun x => x.xsh f

/-! ### Reductions, scans and votes (R177, R178) -/

/-- The combination of some lanes' values, with its flags; none of them gives the identity. -/
def combineAll (op : Nat) (ty : DType) (vs : List Nat) : Nat × Word :=
  let w := ty.elem
  let fm := fmtOf ty
  let fold (r : ROp) : Nat × Word :=
    match vs with
    | [] => (identity r ty, 0)
    | v :: rest =>
      if isFloat ty then
        rest.foldl (fun acc u => let (c, g) := fm.pick (r == .max) acc.1 u; (c, acc.2 ||| g)) (fm.pick (r == .max) v v)
      else (rest.foldl (combine r ty) v, 0)
  match op with
  | 0 =>
    if isFloat ty then
      if vs.isEmpty then (0, 0) else (Val.sum (vs.map fm.decode) .rne).write fm .rne false
    else (vs.foldl (fun a b => (a + b) % 2 ^ w) 0, 0)
  | 1 => fold .min
  | 2 => fold .max
  | 3 => (vs.foldl (fun a b => a &&& b) (2 ^ w - 1), 0)
  | 4 => (vs.foldl (fun a b => a ||| b) 0, 0)
  | _ => (vs.foldl (fun a b => a ^^^ b) 0, 0)

def Issue.valuesOf (x : Issue) (f : Fields) (lanes : List Nat) : List Nat :=
  lanes.map fun l => x.get f l f.ty.regs f.a

def execLred (f : Fields) (s : State) : Res :=
  issue (.lred f) s fun x => x.converge fun x =>
    let r := combineAll (f.subBits 0 3) f.ty (x.valuesOf f (lanesOf x.tp))
    x.alu f.d f.ty.regs fun _ => r

def execLscan (f : Fields) (s : State) : Res :=
  issue (.lscan f) s fun x => x.converge fun x =>
    let excl := f.sub.getLsbD 3
    x.alu f.d f.ty.regs fun l =>
      combineAll (f.subBits 0 3) f.ty
        (x.valuesOf f ((lanesOf x.tp).filter fun j => j < l || (j == l && !excl)))

def execVote (f : Fields) (s : State) : Res :=
  issue (.vote f) s fun x => x.converge fun x =>
    let yes := maskOf fun l => x.tp.getLsbD l && x.get f l 1 f.a != 0
    let bit (b : Bool) : Nat := if b then 1 else 0
    let r : Nat := match f.subBits 0 3 with
      | 0 => bit (yes == x.tp)
      | 1 => bit (yes != 0)
      | 2 => bit (yes == 0 || yes == x.tp)
      | 3 => yes.toNat
      | 4 => countOf yes
      | _ => (lowLane yes).getD 0xFFFFFFFF
    x.alu f.d 1 fun _ => (r, 0)

/-! ### Regroup (R179 to R181) -/

/-- Insertion by WID. -/
def insertWid (w : Warp) : List Warp → List Warp
  | [] => [w]
  | y :: l => if w.wid ≤ y.wid then w :: y :: l else y :: insertWid w l

def sortWid (l : List Warp) : List Warp := l.foldr insertWid []

/-- The participants: the warps of the crew that run the same role, by ascending WID. -/
def State.groupOf (s : State) (w : Warp) : List Warp :=
  sortWid (s.warps.filter fun y => y.crew == w.crew && y.role == w.role)

/-- The word of `regroup` with which a warp has arrived. -/
def Warp.arrived (w : Warp) : Option Fields :=
  match w.why .port with
  | some (.regroup f) => some f
  | _ => none

/-- The key of a lane: the predicate that its warp's `regroup` names. -/
def Warp.keyOf (w : Warp) (x : Lane) : Bool :=
  match w.arrived.map Fields.a with
  | some (.p n) => x.pred n
  | _ => false

/-- The lanes of participants that pass a test, in order. -/
def lanesWhere (ws : List Warp) (p : Warp → Lane → Bool) : List (Nat × Nat × Lane) :=
  ws.flatMap fun w => (List.range 32).filterMap fun l => if p w (w.lane l) then some (w.uid, l, w.lane l) else none

/-- The threads with the key, and those without it. -/
def keyed (ws : List Warp) (b : Bool) : List (Nat × Nat × Lane) :=
  lanesWhere ws fun w x => x.st == .live && w.keyOf x == b

/-- What each position receives: a thread, or none. -/
def regroupMoves (ws : List Warp) : List ((Nat × Nat) × Option Lane) :=
  let ord := keyed ws true ++ keyed ws false
  let pos := lanesWhere ws fun _ x => x.st != .dead
  (List.range pos.length).map fun k => ((pos[k]?).elim (0, 0) fun q => (q.1, q.2.1), (ord[k]?).map fun q => q.2.2)

/-- A position left vacant, whose registers are undefined (R181). -/
def Lane.vacated (w : List DWord) : Lane :=
  { st := .vacant, v := w.tail.map fun x => x.setWidth 32, p := (w.headD 0).setWidth 16 }

/-- The positions of a warp from `l` on, with the threads that they receive. -/
def receiveFrom (w : Warp) (moves : List ((Nat × Nat) × Option Lane)) : List Nat → State → State × List Lane
  | [], s => (s, [])
  | l :: rest, s =>
    let (s, x) : State × Lane :=
      match moves.find? fun (m : (Nat × Nat) × Option Lane) => m.1 == (w.uid, l) with
      | some (_, some y) => (s, y)
      | some (_, none) => let (s, ws) := s.freeList; (s, Lane.vacated ws)
      | none => (s, w.lane l)
    let (s, xs) := receiveFrom w moves rest s
    (s, x :: xs)

/-- A warp with the threads that it receives. -/
def Warp.receive (w : Warp) (moves : List ((Nat × Nat) × Option Lane)) (s : State) : State × Warp :=
  let (s, lanes) := receiveFrom w moves (List.range 32) s
  (s, { w with lanes := lanes })

/-- A participant goes on after the move, with the count in its scalar destination; where its mask has changed the next
instruction opens a block. -/
def Warp.regrouped (w y : Warp) (count : Nat) : Warp :=
  match w.arrived with
  | none => y
  | some f =>
    let y := match f.d with
      | .s n => y.setSreg n.toNat (BitVec.ofNat 32 count)
      | _ => y
    if y.live == w.port.mask then y.advance .port (.regroup f)
    else ({ y with port := { y.port with mask := y.live } } : Warp).jump .port (y.port.pc + 16)

/-- The last arrival: one tag moves the threads, several trap every participant (R180). -/
def State.regroupAll (s : State) (ws : List Warp) : State :=
  let tags := (ws.filterMap Warp.arrived).map fun f => f.imm
  if tags.eraseDups.length ≤ 1 then
    let s := s.performIf fun p => ws.any fun w => w.uid == p.uid
    let moves := regroupMoves ws
    let count := (keyed ws true).length
    ws.foldl (fun s w =>
      let (s, y) := w.receive moves s
      if y.live == 0 then s.retire y else s.setWarp (w.regrouped y count)) s
  else ws.foldl (fun s w => s.trap w .port 4 7 w.port.mask) s

/-- A warp arrives. -/
def Issue.regroup (x : Issue) (f : Fields) : State :=
  if x.w.star.mask != 0 || !x.w.stack.isEmpty then x.diverge 6 x.am
  else
    let s := x.await (.regroup f)
    let ws := s.groupOf x.w
    if ws.all fun w => w.arrived.isSome then s.regroupAll ws else s

def execRegroup (f : Fields) (s : State) : Res :=
  issue (.regroup f) s fun x => x.converge fun x => x.regroup f

end Sys2Proof.Machine
end

