-- ==== Sys2Proof/Machine/Fetch.lean ====
section
/-! DEFINITION. Machine/Fetch.lean: fetching the 16 bytes of an instruction (R47, R54, R343, R391). -/

namespace Sys2Proof.Machine

/-- How a fetch ends. -/
inductive Fetch where
  | word (w : QWord)
  /-- Outside the space, or no right to execute. -/
  | fault (perm : Bool)
  | absent (va : DWord)
  | pending (va : DWord)
  | stalled (peer : Nat)
  | bad
  deriving DecidableEq, Repr

/-- The bytes of runs as they stand in memory. -/
def bytesAt (m : Memory) (ps : List (Loc × Nat)) : List Byte := ps.flatMap fun (p : Loc × Nat) => Memory.read m p.1.key p.2

/-- The word that a core's instruction cache holds for a place. -/
def State.codeAt (s : State) (core pasid key : Nat) : Option QWord :=
  ((s.core core).code.find? fun c => c.pasid == pasid && c.key == key).map Code.word

/-- The place of a fetched word. -/
def codeKey (ps : List (Loc × Nat)) : Nat := (ps.head?.map fun (p : Loc × Nat) => p.1.key).getD 0

/-- The word at a PC. A core that holds another word than memory does may still use it (R54). -/
def State.fetch (s : State) (core pasid : Nat) (pc : DWord) : Fetch :=
  if !inSpace pc || 2 ^ 57 < pc.toNat + 16 then .fault false
  else
    match s.run pasid pc 16 { x := true } with
    | .ok ps =>
      let fresh := BitVec.ofNat 128 (leNat (bytesAt s.mem ps))
      let bad := ps.any fun (p : Loc × Nat) => s.isBad p.1.key p.2
      match s.codeAt core pasid (codeKey ps) with
      | some old =>
        if (bad || old != fresh) && Config.keeps s.now (codeKey ps) then .word old else if bad then .bad else .word fresh
      | none => if bad then .bad else .word fresh
    | .bad va .absent => .absent va
    | .bad va .pending => .pending va
    | .bad _ (.stalled p) => .stalled p
    | .bad _ .bad => .bad
    | .bad _ _ => .fault true

/-- The words that an instruction cache of 64 KiB holds. -/
def codeWords : Nat := 4096

/-- After a fetch the TLBs hold its page, and the core's instruction cache holds the word. -/
def State.fetched (s : State) (core pasid : Nat) (pc : DWord) (v : QWord) : State :=
  match s.run pasid pc 16 { x := true } with
  | .ok ps =>
    let s := s.cacheRun pasid pc 16
    let c := s.core core
    let key := codeKey ps
    s.setCore core
      { c with code := (⟨pasid, key, v⟩ :: c.code.filter fun x => !(x.pasid == pasid && x.key == key)).take codeWords }
  | .bad _ _ => s

end Sys2Proof.Machine
end

