-- ==== Sys2Proof/Machine/Matrix.lean ====
section
/-! DEFINITION. Machine/Matrix.lean: the matrix unit: tiles (R245, R246), `mma` with its faults and progress records
(R249 to R261), loading, storing, moving and reducing tiles (R262 to R267), masks (R268, R269), and the accesses of a
unit that acts once for all its lanes (R143, R264, R298). -/

namespace Sys2Proof.Machine

/-! ### Accesses of a unit -/

/-- One access of a unit: a run of bytes, the alignment of its first byte, the rights it needs. -/
structure Acc where
  va : DWord
  n : Nat
  align : Nat
  need : Need
  deriving DecidableEq, Repr

/-- The first of an access's first and last byte that lies outside the space (R33). -/
def Acc.outside (a : Acc) : Option DWord :=
  let last := a.va + BitVec.ofNat 64 (a.n - 1)
  if a.n == 0 then none else if !inSpace a.va then some a.va else if !inSpace last then some last else none

def Acc.odd (a : Acc) : Option DWord := if a.va.toNat % a.align != 0 then some a.va else none

/-- Whether a run of `n` bytes cannot use a line of it: it lies in a channel group that may not be used (R386), or it is
bad and is read, or written in part (R390). -/
def State.spoilt (s : State) (w : Bool) (key n line : Nat) : Bool :=
  s.channelLost line || (s.bad.contains line && !(w && key ≤ line * 128 && line * 128 + 128 ≤ key + n))

/-- Whether an access meets such a line. -/
def State.meetsBad (s : State) (w : Bool) (p : Loc × Nat) : Bool :=
  p.2 != 0 && (linesOf p.1.key p.2).any (s.spoilt w p.1.key p.2)

/-- The first byte of a run that does. -/
def State.badAt (s : State) (w : Bool) (va : DWord) : List (Loc × Nat) → Option DWord
  | [] => none
  | (l, k) :: rest =>
    match (if k == 0 then none else (linesOf l.key k).find? (s.spoilt w l.key k)) with
    | some line => some (va + BitVec.ofNat 64 (line * 128 - l.key))
    | none => s.badAt w (va + BitVec.ofNat 64 k) rest

/-- The runs of a unit's accesses, or how some of them fail. -/
inductive Runs where
  | ok (ps : List (List (Loc × Nat)))
  | refused (va : DWord)
  | stalled (peer : Nat)
  | pending (vas : List DWord)
  /-- A walk met a bad line (R390). -/
  | bad (va : DWord)
  | absent (as : List (Acc × DWord))
  deriving DecidableEq, Repr

/-- The accesses of a unit translated: a refusal comes before a page that is not present (R143). -/
def State.unitRuns (s : State) (pasid : Nat) (denied : List DWord) (as : List Acc) : Runs :=
  let rs : List (Acc × Run) := as.map fun a => (a, s.run pasid a.va a.n a.need)
  let bad (t : Tr) : List (Acc × DWord) :=
    rs.filterMap fun (r : Acc × Run) => if r.2.fails t then some (r.1, r.2.at r.1.va) else none
  let refused := rs.findSome? fun (r : Acc × Run) =>
    if r.2.fails .refused then some (r.2.at r.1.va) else deniedAt denied r.1.va r.1.n
  let held := rs.findSome? fun (r : Acc × Run) => match r.2 with | .bad _ (.stalled p) => some p | _ => none
  match refused, held with
  | some va, _ => .refused va
  | none, some p => .stalled p
  | none, none =>
    match bad .bad with
    | r :: _ => .bad r.2
    | [] =>
    if !(bad .pending).isEmpty then .pending ((bad .pending).map Prod.snd)
    else if !(bad .absent).isEmpty then .absent (bad .absent)
    else .ok (rs.map fun (r : Acc × Run) => match r.2 with | .ok ps => ps | .bad _ _ => [])

/-- Translations asked of the host; the instruction is presented again (R342). -/
def Issue.askAts (x : Issue) (vas : List DWord) : State :=
  let s := vas.foldl (fun s va => s.askAts (s.pasidOf x.w) va) x.s
  { x with s := s }.await (.page [grpAts])

/-- Pages asked for, one request for each access that lacks one. -/
def Issue.askAll (x : Issue) (s : State) (as : List (Acc × DWord)) : State × List Nat :=
  as.foldl (fun (r : State × List Nat) a =>
    let (s, g) := r.1.askPage (r.1.pasidOf x.w) (r.1.queueOf x.w) a.2 a.1.need
    (s, r.2 ++ g.filter fun k => !r.2.contains k)) (s, [])

/-- The first two checks of R143 on every access, on behalf of every lane that takes part. -/
def Issue.unitChecks (x : Issue) (as : List Acc) (act : State) : State :=
  match as.findSome? Acc.outside, as.findSome? Acc.odd with
  | some va, _ => x.s.trapAddr x.w x.side 8 0 false va x.tp
  | none, some va => x.s.trapAddr x.w x.side 7 0 false va x.tp
  | none, none => act

/-- The accesses of an instruction that acts once: the checks of R143 in its order. No split occurs: on a page fault
the slot waits. An uncorrectable error kills every lane that takes part and leaves the state that `onBad` gives. -/
def Issue.unit (x : Issue) (as : List Acc) (onBad : List (List (Loc × Nat)) → State → State)
    (act : List (List (Loc × Nat)) → State) : State :=
  x.unitChecks as
    (match x.s.unitRuns (x.s.pasidOf x.w) (x.w.slot x.side).denied as with
      | .refused va => x.s.trapAddr x.w x.side 8 0 true va x.tp
      | .stalled p => x.await (.stall p)
      | .bad va => x.abort x.tp va (x.doneIn (onBad [] x.s))
      | .pending vas => x.askAts vas
      | .absent bs => let (s, gs) := x.askAll x.s bs; { x with s := s }.await (.page gs)
      | .ok ps =>
        match (as.zip ps).findSome? fun (r : Acc × List (Loc × Nat)) => x.s.badAt r.1.need.w r.1.va r.2 with
        | some va => x.abort x.tp va (x.doneIn (onBad ps x.s))
        | none => act ps)

/-- A run read at its homes, or at the coherence point of system memory (R270). -/
def readPieces (s : State) (ps : List (Loc × Nat)) : State × List Byte :=
  ps.foldl (fun (r : State × List Byte) p =>
    let (s, x) := (r.1.holdRun p.1.key p.2).homeRead p.1.key p.2
    (s, r.2 ++ x)) (s, [])

/-- A run written there. -/
def writePieces (s : State) (ps : List (Loc × Nat)) (bs : List Byte) : State :=
  putPieces (ps.foldl (fun s (p : Loc × Nat) => s.holdRun p.1.key p.2) s) ps bs

/-- Every run of a list read. -/
def readRuns (s : State) (rs : List (List (Loc × Nat))) : State × List (List Byte) :=
  rs.foldl (fun (r : State × List (List Byte)) ps =>
    let (s, x) := readPieces r.1 ps
    (s, r.2 ++ [x])) (s, [])

/-- The lines that runs touch take the class of the instruction's hint (R248, R340). -/
def State.hintRuns (f : Fields) (rs : List (List (Loc × Nat))) (s : State) : State :=
  match evpClass f.evp with
  | none => s
  | some k =>
    rs.flatten.foldl (fun s (p : Loc × Nat) =>
      (linesOf p.1.key p.2).foldl (fun s line => s.setL2Class p.1.unit line k) s) s

/-! ### Tiles (R245) -/

def Crew.tile (c : Crew) (t : Nat) : Tile := tget {} c.tiles t

def Crew.setTile (c : Crew) (t : Nat) (x : Tile) : Crew := { c with tiles := tset {} c.tiles t x }

/-- The format of a float tile's elements. -/
def tileFmt (k : TKind) (wide : Bool) : Fmt :=
  match k, wide with
  | .f64, false => fp64
  | .f64, true => wide64
  | _, false => fp32
  | _, true => wide32

/-- The raw code of element (i, j). -/
def Crew.code (c : Crew) (t i j : Nat) : Nat :=
  let x := c.tile t
  match x.kind with
  | .f64 => (tget 0 (c.tile (t + i / 32)).el (i % 32 * 64 + j)).toNat
  | _ => (tget 0 x.el (i * 64 + j)).toNat

/-- Elements of a tile changed, by row from a first one on, column, and old code. -/
def mapEls (first rows : Nat) (g : Nat → Nat → Nat → Nat) (el : List (BitVec 66)) : List (BitVec 66) :=
  (el ++ List.replicate (64 * rows - el.length) 0).mapIdx fun k (e : BitVec 66) =>
    BitVec.ofNat 66 (g (first + k / 64) (k % 64) e.toNat)

/-- Every element of a tile, or of a pair, changed. -/
def Crew.mapTile (c : Crew) (t : Nat) (g : Nat → Nat → Nat → Nat) : Crew :=
  let x := c.tile t
  match x.kind with
  | .f64 =>
    let y := c.tile (t + 1)
    (c.setTile t { x with el := mapEls 0 32 g x.el }).setTile (t + 1) { y with el := mapEls 32 32 g y.el }
  | _ => c.setTile t { x with el := mapEls 0 64 g x.el }

/-- Undefined elements (R8), as wide as a format. -/
def State.freeEls (s : State) (width : Nat) : State × List (BitVec 66) :=
  ({ s with free := s.free + 8192 },
    (List.range 4096).map fun k =>
      BitVec.ofNat 66 (((Config.freeWord (s.free + k)).toNat +
        (Config.freeWord (s.free + 4096 + k)).toNat * 2 ^ 64) % 2 ^ width))

/-- A tile, or a pair, made normal and of a kind; the other tile of a broken pair becomes F32 with undefined
elements (R245). -/
def State.setKind (s : State) (crew t : Nat) (kind : TKind) : State :=
  let c := s.crew crew
  let x := c.tile t
  let c' := c.setTile t { x with kind := kind, wide := false }
  match kind, x.kind with
  | .f64, _ => s.setCrew (c'.setTile (t + 1) { c.tile (t + 1) with kind := .f64, wide := false })
  | _, .f64 =>
    let (s, el) := s.freeEls 32
    s.setCrew (c'.setTile (t + 1) { c.tile (t + 1) with kind := .f32, wide := false, el := el })
  | _, _ => s.setCrew c'

/-- A tile, or a pair, written whole is no longer bad (R390). -/
def State.cleanTile (s : State) (crew t : Nat) : State :=
  let c := s.crew crew
  let x := c.tile t
  let c := c.setTile t { x with bad := false }
  s.setCrew (if x.kind == .f64 then c.setTile (t + 1) { c.tile (t + 1) with bad := false } else c)

/-- Every element of a tile, or of a pair, undefined (R260, R264). -/
def State.undefTile (s : State) (crew t : Nat) : State :=
  let x := (s.crew crew).tile t
  let width := (tileFmt x.kind x.wide).width
  let (s, el) := s.freeEls width
  let c := s.crew crew
  match x.kind with
  | .f64 =>
    let (s, el') := s.freeEls width
    s.setCrew ((c.setTile t { x with el := el }).setTile (t + 1) { c.tile (t + 1) with el := el' })
  | _ => s.setCrew (c.setTile t { x with el := el })

/-- Whether a tile index names the odd tile of an F64 pair. -/
def Crew.oddOfPair (c : Crew) (t : Nat) : Bool := t % 2 == 1 && (c.tile t).kind == .f64

/-- The index of a tile operand. -/
def tileNo : Opnd → Nat
  | .t n => n.toNat
  | _ => 0

/-- The kind that a type names. -/
def kindOf (ty : DType) : TKind := match ty with | .f64 => .f64 | .i32 => .i32 | _ => .f32

/-- An instruction that acts when some lane takes part and whose tile is no odd tile of a pair (R245, R262). -/
def Issue.onTile (x : Issue) (t : Nat) (fld : Fld) (act : State) : State :=
  if x.tp == 0 then x.skip
  else if (x.s.crew x.w.crew).oddOfPair t then x.trapField fld x.am
  else act

/-- Whether a tile, or a pair, is bad (R390). -/
def Crew.badTile (c : Crew) (t : Nat) : Bool := (c.tile t).bad || ((c.tile t).kind == .f64 && (c.tile (t + 1)).bad)

/-- What storage that is bad does to an instruction that reads it, or writes a part of it: every lane that takes part dies
(R390, R391). -/
def Issue.unlessBad (x : Issue) (bad : Bool) (act : State) : State :=
  if bad && x.tp != 0 then x.abort x.tp 0 (x.doneIn x.s) else act

/-- An instruction on the elements of a tile. -/
def Issue.withTile (x : Issue) (t : Nat) (fld : Fld) (act : State) : State :=
  x.onTile t fld (x.unlessBad ((x.s.crew x.w.crew).badTile t) act)

/-! ### Masks (R268, R269) -/

/-- A number in a mask parameter block. -/
def maskNum (b : List Byte) (ofs n : Nat) : Nat := leNat ((b.drop ofs).take n)

def maskBase (b : List Byte) (ofs : Nat) : DWord := BitVec.ofNat 64 (maskNum b ofs 8)

/-- Whether `mmask` accepts a block. -/
def maskOk (b : List Byte) : Bool :=
  let mode := maskNum b 0 4
  mode < 3 && maskNum b 4 2 ≤ 64 && maskNum b 6 2 ≤ 64 && maskNum b 12 4 == 0 && maskNum b 40 24 == 0 &&
    (mode != 2 || maskNum b 16 8 % 8 == 0) && (mode != 1 || (maskNum b 24 8 % 4 == 0 && maskNum b 32 8 % 4 == 0))

/-- Whether an element lies within the valid rows and columns. -/
def maskIn (b : List Byte) (i j : Nat) : Bool := i < maskNum b 4 2 && j < maskNum b 6 2

/-- The bitmap and position words that readouts of elements need: for a row or a column, by 0 and 1, and its index. -/
def maskKeys (b : Option (List Byte)) (cells : List (Nat × Nat)) : List (Nat × Nat) :=
  match b with
  | none => []
  | some b =>
    let cells := cells.filter fun (c : Nat × Nat) => maskIn b c.1 c.2
    let rows := (cells.map Prod.fst).eraseDups.map fun i => (0, i)
    let cols := (cells.map Prod.snd).eraseDups.map fun j => (1, j)
    match maskNum b 0 4 with
    | 1 => rows ++ cols
    | 2 => rows
    | _ => []

/-- Where such a word lies. -/
def maskAcc (b : List Byte) (k : Nat × Nat) : Acc :=
  if maskNum b 0 4 == 2 then { va := maskBase b 16 + BitVec.ofNat 64 (8 * k.2), n := 8, align := 8, need := { r := true } }
  else
    { va := maskBase b (if k.1 == 0 then 24 else 32) + BitVec.ofNat 64 (4 * k.2), n := 4, align := 4,
      need := { r := true } }

/-- Whether an element is masked, from the words read. -/
def maskedBy (b : Option (List Byte)) (words : List ((Nat × Nat) × Nat)) (i j : Nat) : Bool :=
  match b with
  | none => false
  | some b =>
    let word (k : Nat × Nat) : Nat :=
      match words.find? fun (q : (Nat × Nat) × Nat) => q.1 == k with
      | some q => q.2
      | none => 0
    !maskIn b i j ||
    (match maskNum b 0 4 with
      | 1 => word (0, i) < word (1, j)
      | 2 => !(word (0, i)).testBit j
      | _ => false)

/-- The accesses of an instruction that reads elements out, with those of their mask words, whose lines take the class of
its hint too: `act` gets the runs of the instruction's own accesses and which elements are masked. -/
def Issue.unitOut (x : Issue) (f : Fields) (b : Option (List Byte)) (cells : List (Nat × Nat)) (as : List Acc)
    (act : State → List (List (Loc × Nat)) → (Nat → Nat → Bool) → State) : State :=
  let keys := maskKeys b cells
  let more := match b with | some b => keys.map (maskAcc b) | none => []
  x.unit (as ++ more) (fun _ s => s) fun ps =>
    let (s, words) := readRuns x.s (ps.drop as.length)
    act (s.hintRuns f (ps.drop as.length)) (ps.take as.length) (maskedBy b (keys.zip (words.map leNat)))

/-- The fill value of a masked element as a code of the tile's kind (R266). -/
def fillCode (k : TKind) (b : Option (List Byte)) : Nat :=
  let v := match b with | some b => maskNum b 8 4 | none => 0
  match k with
  | .f64 => widen v
  | _ => v

/-- A readout: a code of the tile's normal format, and its flags (R266, R92). -/
def Crew.readout (c : Crew) (t i j : Nat) (masked : Bool) : Nat × Word :=
  let x := c.tile t
  if masked then (fillCode x.kind x.mask, 0)
  else if x.wide && x.kind != .i32 then ((tileFmt x.kind true).decode (c.code t i j)).write (tileFmt x.kind false) .rne false
  else (c.code t i j, 0)

/-- The exact value of a readout for a conversion that rounds it itself (R92, R263). -/
def Crew.readVal (c : Crew) (t i j : Nat) (masked : Bool) : Val :=
  let x := c.tile t
  let code := if masked then fillCode x.kind x.mask else c.code t i j
  match x.kind with
  | .i32 => intVal (intOf 32 true code)
  | k => (tileFmt k (x.wide && !masked)).decode code

/-! ### mma (R249 to R261) -/

/-- How many elements, and what kind of tile, a valid pair of slots stands for (R250). -/
def mmaShape (fa fb : DWord) : Option (Nat × TKind) :=
  let a := slotElem fa
  let b := slotElem fb
  let fp8 (n : Nat) : Bool := n == 5 || n == 6
  let int8 (n : Nat) : Bool := n == 8 || n == 9
  if fp8 a && fp8 b then some (64, .f32)
  else if int8 a && int8 b then some (64, .i32)
  else if a != b then none
  else
    match a with
    | 1 => some (8, .f64)
    | 2 => some (16, .f32)
    | 3 | 4 => some (32, .f32)
    | 7 => some (128, .f32)
    | _ => none

/-- The bytes of an unscaled element, 0 for the packed E2M1. -/
def elemBytes (fs : DWord) : Nat :=
  match slotElem fs with
  | 1 => 8
  | 2 => 4
  | 3 | 4 => 2
  | 7 => 0
  | _ => 1

/-- The element bytes of a scaled block, and the bytes of the block (R86). -/
def blockBody (fs : DWord) : Nat := if slotElem fs == 7 then 16 else 32

def blockSize (fs : DWord) : Nat := blockBody fs + 1 + (if slotSpecial fs then 1 else 0)

/-- The bytes of `k` elements in memory (R86, R250, R263). -/
def rowBytes (fs : DWord) (k : Nat) : Nat :=
  if slotScaled fs then k / 32 * blockSize fs else if slotElem fs == 7 then k / 2 else k * elemBytes fs

/-- The alignment of rows (R251, R143). -/
def rowAlign (fs : DWord) : Nat := if slotScaled fs || slotElem fs == 7 then 1 else elemBytes fs

/-- The values of a row of `k` elements (R84, R86, R251). -/
def slotRow (fs : DWord) (k : Nat) (bs : List Byte) : List Val :=
  let b (i : Nat) : Nat := (bs.getD i 0).toNat
  let nibble (i : Nat) (at_ : Nat) : Nat := b (at_ + i / 2) / (if i % 2 == 0 then 1 else 16) % 16
  (List.range k).map fun i =>
    if slotScaled fs then
      let at_ := i / 32 * blockSize fs
      let c := if slotElem fs == 7 then nibble (i % 32) at_ else b (at_ + i % 32)
      blockRead fs c (b (at_ + blockBody fs)) (b (at_ + blockBody fs + 1))
    else if slotElem fs == 7 then slotRead fs (nibble i 0)
    else slotRead fs (leNat ((bs.drop (i * elemBytes fs)).take (elemBytes fs)))

/-- The value of a row's integers. -/
def intRow (fs : DWord) (k : Nat) (bs : List Byte) : List Int :=
  (List.range k).map fun i => intOf 8 (slotElem fs == 8) (bs.getD i 0).toNat

/-- One element accumulated: its new code and its flags (R254). -/
def accFloat (fm : Fmt) (a b : List Val) (old : Nat) : Nat × Word :=
  (fmaRaw (a.zip b) [fm.decode old] .rne).write fm .rne false

def accInt (a b : List Int) (old : Nat) : Nat :=
  (((a.zip b).map fun (p : Int × Int) => p.1 * p.2).sum + (old : Int)).emod (2 ^ 32) |>.toNat

/-- A quarter that takes part: its lanes, its tile and its operands (R249). -/
structure Quarter where
  q : Nat
  lanes : Word
  tile : Nat
  a : DWord
  aStride : Nat
  b : DWord
  bStride : Nat
  /-- The first row to compute. -/
  r0 : Nat
  deriving DecidableEq, Repr

/-- How a quarter ends: every row done, or stopped at an address of a side, with the next row to compute (R258,
R260). -/
inductive QEnd where
  | all
  | absent (va : DWord) (bSide : Bool) (row : Nat)
  | refused (va : DWord) (bSide : Bool) (row : Nat)
  | bad (va : DWord) (bSide : Bool) (row : Nat)
  deriving DecidableEq, Repr

/-- The progress record of a stop (R258). -/
def mqpRec (va : DWord) (bSide : Bool) (row : Nat) : DWord :=
  (va &&& ~~~(0x1FF#64)) ||| (if bSide then 0x100 else 0) ||| BitVec.ofNat 64 (row % 128 * 2 + 1)

/-- The shape of an `mma`: columns, rows, and the fields of its IMM (R249). -/
def mmaN (f : Fields) : Nat := let n := f.imm.toNat / 2 ^ 16 % 256; if n == 0 then 64 else n

def mmaM (f : Fields) : Nat := let n := f.imm.toNat / 2 ^ 8 % 256; if n == 0 then 64 else n

def rowAt (base : DWord) (stride i : Nat) : DWord := base + BitVec.ofNat 64 (i * stride)

/-- The quarters that take part. -/
def Issue.quarters (x : Issue) (f : Fields) : List Quarter :=
  (List.range 4).filterMap fun q =>
    let lanes := x.tp &&& (0xFF#32 <<< (8 * q))
    match lowLane lanes with
    | none => none
    | some l =>
      let a := x.get f l 4 f.a
      let b := x.get f l 4 f.b
      let p := x.w.mqpAt q
      some
        { q := q, lanes := lanes
          tile := tileNo f.d + (if f.imm.getLsbD 6 then a / 2 ^ 96 % 16 else 0)
          a := BitVec.ofNat 64 a, aStride := a / 2 ^ 64 % 2 ^ 32
          b := BitVec.ofNat 64 b, bStride := b / 2 ^ 64 % 2 ^ 32
          r0 := if p.getLsbD 0 then p.toNat / 2 % 128 else 0 }

/-- Whether a quarter's tile will not do (R245, R250). -/
def Issue.badTile (x : Issue) (kind : TKind) (q : Quarter) : Bool :=
  let c := x.s.crew x.w.crew
  let k := (c.tile q.tile).kind
  c.nT ≤ q.tile || k != kind || (k == .f64 && (q.tile % 2 == 1 || c.nT ≤ q.tile + 1))

/-- The rows of A that a quarter reads, with their numbers, and its rows of B. -/
def Quarter.aRows (q : Quarter) (m n : Nat) : List (Nat × Acc) :=
  ((List.range m).filter fun i => q.r0 ≤ i).map fun i =>
    (i, { va := rowAt q.a q.aStride i, n := n, align := 1, need := { r := true } })

def Quarter.bRows (q : Quarter) (cols n : Nat) : List Acc :=
  (List.range cols).map fun j => { va := rowAt q.b q.bStride j, n := n, align := 1, need := { r := true } }

/-- The address by which a base or a stride fails an alignment (R251). -/
def misaligned (base : DWord) (stride align : Nat) : Option DWord :=
  if base.toNat % align != 0 then some base
  else if stride % align != 0 then some (rowAt base stride 1)
  else none

/-- Where a quarter stops: the rows are translated ahead of the arithmetic, those of B first (R257, R258, R260). Quarters
that one pass fuses name the same rows of B, so that what stops one by its B side stops every one of them so. -/
def Issue.qEnd (x : Issue) (f : Fields) (fa fb : DWord) (k : Nat) (q : Quarter) : QEnd :=
  let pasid := x.s.pasidOf x.w
  let denied := (x.w.slot x.side).denied
  let fail (a : Acc) (bSide : Bool) (row : Nat) : Option QEnd :=
    match deniedAt denied a.va a.n, x.s.run pasid a.va a.n a.need with
    | some va, _ => some (.refused va bSide row)
    | none, .ok _ | none, .bad _ .bad => none
    | none, .bad va .absent => some (.absent va bSide row)
    | none, .bad va _ => some (.refused va bSide row)
  let rotten (a : Acc) (bSide : Bool) (row : Nat) : Option QEnd :=
    match x.s.run pasid a.va a.n a.need with
    | .ok ps => (x.s.badAt false a.va ps).map fun va => .bad va bSide row
    | .bad va .bad => some (.bad va bSide row)
    | .bad _ _ => none
  let bs := q.bRows (mmaN f) (rowBytes fb k)
  match bs.findSome? fun a => fail a true q.r0 with
  | some e => e
  | none =>
    match bs.findSome? fun a => rotten a true q.r0 with
    | some e => e
    | none =>
      ((q.aRows (mmaM f) (rowBytes fa k)).findSome? fun (r : Nat × Acc) =>
        (fail r.2 false r.1).or (rotten r.2 false r.1)).getD .all

/-- The row before which a quarter stops. -/
def QEnd.row (e : QEnd) (m : Nat) : Nat :=
  match e with
  | .all => m
  | .absent _ _ r | .refused _ _ r | .bad _ _ r => r

def QEnd.isAbsent : QEnd → Bool
  | .absent _ _ _ => true
  | _ => false

def QEnd.isRefused : QEnd → Bool
  | .refused _ _ _ => true
  | _ => false

def QEnd.isBad : QEnd → Bool
  | .bad _ _ _ => true
  | _ => false

def QEnd.va : QEnd → DWord
  | .all => 0
  | .absent va _ _ | .refused va _ _ | .bad va _ _ => va

/-- The progress record that a stop writes, or would have written. -/
def QEnd.record : QEnd → DWord
  | .all => 0
  | .absent va b r | .refused va b r | .bad va b r => mqpRec va b r

/-- The lanes of the quarters that end in some way. -/
def lanesWith (qs : List (Quarter × QEnd)) (p : QEnd → Bool) : Word :=
  qs.foldl (fun m (q : Quarter × QEnd) => if p q.2 then m ||| q.1.lanes else m) 0

/-- A run at which every byte is mapped, read. -/
def State.readMapped (s : State) (pasid : Nat) (a : Acc) : State × List Byte :=
  match s.run pasid a.va a.n a.need with
  | .ok ps => readPieces (s.cacheRun pasid a.va a.n) ps
  | .bad _ _ => (s, [])

/-- Rows read one after another. -/
def State.readRows (s : State) (pasid : Nat) (as : List Acc) : State × List (List Byte) :=
  as.foldl (fun (r : State × List (List Byte)) a =>
    let (s, bs) := r.1.readMapped pasid a
    (s, r.2 ++ [bs])) (s, [])

/-- A tile made wide, its elements widened exactly (R92). -/
def widenCode (f g : Fmt) (x : Nat) : Nat :=
  match f.decode x with
  | .nan _ => x / 2 ^ (f.eb + f.fb) % 2 * 2 ^ (g.eb + g.fb) + (2 ^ g.eb - 1) * 2 ^ g.fb + x % 2 ^ f.fb
  | v => (v.write g .rne false).1

def Crew.widenTile (c : Crew) (t : Nat) : Crew :=
  let x := c.tile t
  if x.wide || x.kind == .i32 then c
  else
    let c := c.mapTile t fun _ _ e => widenCode (tileFmt x.kind false) (tileFmt x.kind true) e
    let c := c.setTile t { c.tile t with wide := true }
    if x.kind == .f64 then c.setTile (t + 1) { c.tile (t + 1) with wide := true } else c

/-- The rows that an error leaves accumulated, of those that came before it: the tile is undefined among them (R260). -/
def State.someRows (s : State) (e : QEnd) (rows : List Nat) : State × List Nat :=
  if e.isBad then
    rows.foldl (fun (r : State × List Nat) i =>
      let (s, k) := r.1.pick 2
      (s, if k == 0 then r.2 ++ [i] else r.2)) (s, [])
  else (s, rows)

/-- One quarter's rows accumulated, its progress record written, the flags of its elements (R253, R254, R258). -/
def Issue.runQuarter (x : Issue) (f : Fields) (fa fb : DWord) (k : Nat) (s : State) (q : Quarter) (e : QEnd) : State :=
  let pasid := s.pasidOf x.w
  let rows := (List.range (e.row (mmaM f))).filter fun i => q.r0 ≤ i
  let (s, rows) := s.someRows e rows
  let as := (q.aRows (mmaM f) (rowBytes fa k)).filter fun (r : Nat × Acc) => rows.contains r.1
  let (s, bbs) := if rows.isEmpty then (s, []) else s.readRows pasid (q.bRows (mmaN f) (rowBytes fb k))
  let (s, abs) := s.readRows pasid (as.map Prod.snd)
  let c := s.crew x.w.crew
  let c := if slotWide fa || slotWide fb then c.widenTile q.tile else c
  let kind := (c.tile q.tile).kind
  let fm := tileFmt kind (c.tile q.tile).wide
  let aVals := (as.map Prod.fst).zip (abs.map (slotRow fa k))
  let bVals := bbs.map (slotRow fb k)
  let aInts := (as.map Prod.fst).zip (abs.map (intRow fa k))
  let bInts := bbs.map (intRow fb k)
  let elem (i j old : Nat) : Nat × Word :=
    match kind with
    | .i32 =>
      match aInts.find? fun (r : Nat × List Int) => r.1 == i, bInts[j]? with
      | some a, some b => (accInt a.2 b old, 0)
      | _, _ => (old, 0)
    | _ =>
      match aVals.find? fun (r : Nat × List Val) => r.1 == i, bVals[j]? with
      | some a, some b => accFloat fm a.2 b old
      | _, _ => (old, 0)
  let flags := rows.foldl (fun fl i =>
    (List.range (mmaN f)).foldl (fun fl j => fl ||| (elem i j (c.code q.tile i j)).2) fl) 0
  let c := c.mapTile q.tile fun i j old => (elem i j old).1
  let s := s.setCrew c
  match s.warp? x.w.uid with
  | none => s
  | some w =>
    let p := if e.isAbsent || e.isRefused then e.record else 0
    s.setWarp { w.orFlags flags with mqp := tset 0 w.mqp q.q p }

/-- The class of the lines of a quarter's operands (R248). -/
def Issue.hintQuarter (x : Issue) (f : Fields) (fa fb : DWord) (k : Nat) (s : State) (q : Quarter) : State :=
  let as := q.bRows (mmaN f) (rowBytes fb k) ++ (q.aRows (mmaM f) (rowBytes fa k)).map Prod.snd
  s.hintRuns f (as.map fun a => match s.run (s.pasidOf x.w) a.va a.n a.need with | .ok ps => ps | .bad _ _ => [])

/-- A quarter killed by an error of an operand fetch: the interrupt, its record with the progress record that a stop
would have written, the deaths (R260, R379, R391). -/
def Issue.killQuarter (x : Issue) (s : State) (q : Quarter) (e : QEnd) (all : Bool) : State :=
  match s.warp? x.w.uid with
  | none => s
  | some w =>
    let s := (s.send (.msix 0)).countDeaths w.core q.lanes
    let tid := if countOf q.lanes == 1 then (w.lane (lowOf q.lanes)).tid else 0xFFFFFFFF
    s.log (s.pasidOf w)
      { FaultRec.of s 0x40 1 (if all then 1 else 2) (s.queueOf w) with
        tid := tid, lanes := q.lanes, pc := x.pc, addr := e.va, prog0 := e.record, prog1 := BitVec.ofNat 64 q.q,
        place := placeOf w.core }

/-- The page requests of the quarters that meet a page that is not present. -/
def Issue.askQuarters (x : Issue) (s : State) (qs : List (Quarter × QEnd)) : State × List Nat :=
  let vas := qs.filterMap fun (q : Quarter × QEnd) => if q.2.isAbsent then some q.2.va else none
  s.askPages (s.pasidOf x.w) (s.queueOf x.w) { r := true } vas

/-- The pages at which translations refused quarters: the path that they make traps when it issues (R258). -/
def refusedPages (qs : List (Quarter × QEnd)) : List DWord :=
  qs.filterMap fun (q : Quarter × QEnd) => if q.2.isRefused then some (q.2.va &&& ~~~(0xFFF#64)) else none

/-- Whether the splits that an `mma` needs have no room (R130, R21). -/
def Issue.noSplits (x : Issue) (n : Nat) : Bool := n != 0 && (255 < (x.w.nc x.side).toNat + n || 512 < x.w.depth + n)

/-- The quarters run, each up to its stop, in ascending order; then those that an error reached die, and those that a
translation stopped are parked (R253, R258, R260). -/
def Issue.mmaRun (x : Issue) (f : Fields) (fa fb : DWord) (k : Nat) (qs : List (Quarter × QEnd)) : State :=
  let absent := lanesWith qs QEnd.isAbsent
  let refused := lanesWith qs QEnd.isRefused
  let dead := lanesWith qs QEnd.isBad
  let run (s : State) : State :=
    qs.foldl (fun s (q : Quarter × QEnd) => x.hintQuarter f fa fb k (x.runQuarter f fa fb k s q.1 q.2) q.1) s
  if x.tp &&& ~~~(absent ||| refused) == 0 then
    let s := run x.s
    match s.warp? x.w.uid with
    | none => s
    | some w =>
      if absent != 0 then
        -- A page that the host has refused stays refused until the instruction traps or completes (R346).
        let (s, gs) := x.askQuarters s qs
        let w' := w.await x.side (.page gs) s.now
        s.setWarp (w'.setSlot x.side { w'.slot x.side with denied := (x.w.slot x.side).denied })
      else
        let va := (qs.head?.map fun (q : Quarter × QEnd) => q.2.va).getD 0
        s.trapAddr w x.side 8 0 true va refused
  else if x.noSplits ((if absent != 0 then 1 else 0) + (if refused != 0 then 1 else 0)) then x.overflow
  else
    let s := x.doneIn (run x.s)
    let s := qs.foldl (fun s (q : Quarter × QEnd) =>
      if q.2.isBad then x.killQuarter s q.1 q.2 (x.tp &&& ~~~dead == 0) else s) s
    let s := if dead != 0 then s.kill x.w.uid dead x.pc else s
    let s := if absent != 0 then let (s, gs) := x.askQuarters s qs; x.parkLanes absent gs [] s else s
    if refused != 0 then x.parkLanes refused [] (refusedPages qs) s else s

/-- The checks of R252 in their order, and then the quarters. -/
def Issue.mma (x : Issue) (f : Fields) : State :=
  let sa := f.imm.toNat % 8
  let sb := f.imm.toNat / 8 % 8
  let fa := x.fslot sa
  let fb := x.fslot sb
  if x.tp == 0 then x.skip
  else
    match slotFault fa, slotFault fb, mmaShape fa fb with
    | some r, _, _ => x.trap 0x0E (slotInfo sa false r) x.tp
    | none, some r, _ => x.trap 0x0E (slotInfo sb true r) x.tp
    | none, none, none => x.trap 0x0E (slotInfo sb true 4) x.tp
    | none, none, some (k, kind) =>
      let qs := x.quarters f
      let wrong := qs.foldl (fun m q => if x.badTile kind q then m ||| q.lanes else m) 0
      let out (q : Quarter) : Option DWord :=
        ((q.aRows (mmaM f) (rowBytes fa k)).map Prod.snd ++ q.bRows (mmaN f) (rowBytes fb k)).findSome? Acc.outside
      let odd (q : Quarter) : Option DWord :=
        (misaligned q.a q.aStride (rowAlign fa)).or (misaligned q.b q.bStride (rowAlign fb))
      let lanesOut := qs.foldl (fun m q => if (out q).isSome then m ||| q.lanes else m) 0
      let lanesOdd := qs.foldl (fun m q => if (odd q).isSome then m ||| q.lanes else m) 0
      let broken := qs.any fun q => (x.s.crew x.w.crew).badTile q.tile
      if wrong != 0 then x.trapField .d wrong
      else if lanesOut != 0 then x.s.trapAddr x.w x.side 8 0 false ((qs.findSome? out).getD 0) lanesOut
      else if lanesOdd != 0 then x.s.trapAddr x.w x.side 7 0 false ((qs.findSome? odd).getD 0) lanesOdd
      else
        let rows := qs.flatMap fun q =>
          q.bRows (mmaN f) (rowBytes fb k) ++ (q.aRows (mmaM f) (rowBytes fa k)).map Prod.snd
        let runs := rows.map fun a => x.s.run (x.s.pasidOf x.w) a.va a.n a.need
        let held := runs.findSome? fun (r : Run) => match r with | .bad _ (.stalled p) => some p | _ => none
        let wanted := runs.filterMap fun (r : Run) => match r with | .bad va .pending => some va | _ => none
        match held with
        | some p => x.await (.stall p)
        | none =>
          if !wanted.isEmpty then x.askAts wanted
          else x.unlessBad broken (x.mmaRun f fa fb k (qs.map fun q => (q, x.qEnd f fa fb k q)))

def execMma (f : Fields) (s : State) : Res := issue (.mma f) s fun x => x.mma f

/-! ### Loading and storing (R262 to R264) -/

def execMzero (f : Fields) (s : State) : Res :=
  issue (.mzero f) s fun x =>
    let t := tileNo f.d
    x.onTile t .d
      (let s := (x.s.setKind x.w.crew t (kindOf f.ty)).cleanTile x.w.crew t
       let c := s.crew x.w.crew
       let c := c.mapTile t fun _ _ _ => 0
       let c := c.setTile t { c.tile t with mask := none }
       x.doneIn (s.setCrew (if f.ty == .f64 then c.setTile (t + 1) { c.tile (t + 1) with mask := none } else c)))

/-- The rows of a memory operand of the unit: base and stride from the lowest lane that takes part (R262). -/
def Issue.unitRows (x : Issue) (f : Fields) (rows n align : Nat) (w : Bool) : List Acc :=
  let l := lowOf x.tp
  let base : DWord := BitVec.ofNat 64 (x.get f l 2 f.a)
  -- A stride in IMM is a u32 as it stands, whatever TYPE (R247).
  let stride := if f.b == .imm then f.imm.toNat else x.get f l 1 f.b
  (List.range rows).map fun i =>
    { va := rowAt base stride i, n := n, align := align, need := if w then { w := true } else { r := true } }

def execMld (f : Fields) (s : State) : Res :=
  issue (.mld f) s fun x =>
    let t := tileNo f.d
    let z := if f.ty == .f64 then 8 else 4
    x.onTile t .d
      (x.unit (x.unitRows f 64 (64 * z) z false) 
        (fun _ s => (s.setKind x.w.crew t (kindOf f.ty)).undefTile x.w.crew t) fun ps =>
        let (s, rows) := readRuns x.s ps
        let s := (s.setKind x.w.crew t (kindOf f.ty)).cleanTile x.w.crew t
        let c := (s.crew x.w.crew).mapTile t fun i j _ => leNat (((rows.getD i []).drop (j * z)).take z)
        x.doneIn ((s.setCrew c).hintRuns f ps))

/-- The slot with which `mst` writes, none with `.raw`. -/
def mstRaw (f : Fields) : Bool := f.sub.getLsbD 0

/-- Whether `mst` accepts a valid slot for a tile and a width (R263). -/
def mstTakes (fs : DWord) (k : TKind) (n : Nat) : Bool :=
  !((slotElem fs == 7 && !slotScaled fs && n % 2 != 0) || (slotScaled fs && n % 32 != 0) ||
    (slotElem fs == 1 && k != .f64))

/-- One element converted through a slot: an element of an I32 tile that is out of an integer's range sets SAT only
(R94, R263). -/
def mstCode (fs : DWord) (k : TKind) (v : Val) (code : Nat) : Nat × Word :=
  if k == .i32 && (slotElem fs == 8 || slotElem fs == 9) then
    let (y, clipped) := clampInt 8 (slotElem fs == 8) (intOf 32 true code)
    (intBits 8 y, flagIf clipped SAT)
  else slotWrite fs v

/-- Codes of E2M1 two to a byte. -/
def packNibbles : List Nat → List Byte
  | [] => []
  | [a] => [BitVec.ofNat 8 (a % 16)]
  | a :: b :: rest => BitVec.ofNat 8 (a % 16 + b % 16 * 16) :: packNibbles rest

/-- The image of one scaled block (R86, R263). -/
def blockImage (fs : DWord) (b : Block) : List Byte :=
  let codes := b.codes.map Prod.snd
  (if slotElem fs == 7 then packNibbles codes else codes.map (BitVec.ofNat 8)) ++ [BitVec.ofNat 8 b.scale] ++
    (if slotSpecial fs then [BitVec.ofNat 8 b.special] else [])

/-- The image of a row that `mst` writes, with its flags. -/
def Crew.mstRow (c : Crew) (t i n : Nat) (fs : Option DWord) (masked : Nat → Nat → Bool) : List Byte × Word :=
  let k := (c.tile t).kind
  match fs with
  | none =>
    let z := if k == .f64 then 8 else 4
    let es := (List.range n).map fun j => c.readout t i j (masked i j)
    (es.flatMap fun (e : Nat × Word) => leBytes z e.1, es.foldl (fun fl (e : Nat × Word) => fl ||| e.2) 0)
  | some fs =>
    let val (j : Nat) : Val := c.readVal t i j (masked i j)
    if slotScaled fs then
      let blocks := (List.range (n / 32)).map fun b =>
        quantise fs ((List.range 32).map fun j => (j, val (32 * b + j)))
      (blocks.flatMap (blockImage fs), blocks.foldl (fun fl (b : Block) => fl ||| b.flags) 0)
    else
      let es := (List.range n).map fun j => mstCode fs k (val j) (c.readout t i j (masked i j)).1
      (if slotElem fs == 7 then packNibbles (es.map Prod.fst)
        else es.flatMap fun (e : Nat × Word) => leBytes (elemBytes fs) e.1,
        es.foldl (fun fl (e : Nat × Word) => fl ||| e.2) 0)

def mField (f : Fields) : Nat := let m := f.imm.toNat / 2 ^ 8 % 256; if m == 0 then 64 else m

def nField (f : Fields) : Nat := let n := f.imm.toNat / 2 ^ 16 % 256; if n == 0 then 64 else n

/-- Elements of rows and columns. -/
def cellsOf (m n : Nat) : List (Nat × Nat) := (List.range m).flatMap fun i => (List.range n).map fun j => (i, j)

/-- The rows written, each converted and put at its home (R270). -/
def Issue.mstRows (x : Issue) (f : Fields) (t : Nat) (fs : Option DWord) : State :=
  let c := x.s.crew x.w.crew
  let k := (c.tile t).kind
  let n := nField f
  let raw := if k == .f64 then 8 else 4
  let len := match fs with | none => n * raw | some fs => rowBytes fs n
  let align := match fs with | none => raw | some fs => rowAlign fs
  let as := x.unitRows f (mField f) len align true
  x.unitOut f (c.tile t).mask (cellsOf (mField f) n) as fun s ps masked =>
    let rows := (List.range (mField f)).map fun i => c.mstRow t i n fs masked
    let s := (ps.zip rows).foldl (fun s (r : List (Loc × Nat) × (List Byte × Word)) => writePieces s r.1 r.2.1) s
    let s := s.soil (s.pasidOf x.w) (as.map fun a => (a.va, a.n))
    let flags := rows.foldl (fun fl (r : List Byte × Word) => fl ||| r.2) 0
    x.doneIn ((s.setWarp (x.w.orFlags flags)).hintRuns f ps)

def execMst (f : Fields) (s : State) : Res :=
  issue (.mst f) s fun x =>
    let t := tileNo f.c
    let k := ((x.s.crew x.w.crew).tile t).kind
    x.withTile t .c
      (if mstRaw f then x.mstRows f t none
       else x.withSlot (f.imm.toNat % 8) (fun fs => mstTakes fs k (nField f)) fun fs => x.mstRows f t (some fs))

/-! ### Moving (R265) -/

/-- Whether a vector operand may stand for a group (R41, R247). -/
def groupOk (al : Allot) (o : Opnd) : Bool := OSpec.ok (oV 4) al o

/-- The cells that lanes move: of lane l, rows l and l + 32 at its column. -/
def Issue.moveCells (x : Issue) (f : Fields) : List (Nat × Nat) :=
  (lanesOf x.tp).flatMap fun l =>
    let j := x.get f l 1 f.b % 64
    [(l, j), (l + 32, j)]

def execMmov (f : Fields) (s : State) : Res :=
  issue (.mmov f) s fun x =>
    let t := tileNo f.a
    let c := x.s.crew x.w.crew
    let wide := (c.tile t).kind == .f64
    let k := if wide then 2 else 1
    x.withTile t .a
      (if wide && !groupOk (x.s.allotOf x.w) f.d then x.trapField .d x.am
       else
        x.unitOut f (c.tile t).mask (x.moveCells f) [] fun s _ masked =>
          let cell (l h : Nat) : Nat × Word :=
            let j := x.get f l 1 f.b % 64
            c.readout t (l + 32 * h) j (masked (l + 32 * h) j)
          let w := x.w.write x.tp f.d (2 * k) fun l => (cell l 0).1 + (cell l 1).1 * 2 ^ (32 * k)
          x.doneIn (s.setWarp (w.orFlags (orAll x.tp fun l => (cell l 0).2 ||| (cell l 1).2))))

def execMmovW (f : Fields) (s : State) : Res :=
  issue (.mmovW f) s fun x =>
    let t := tileNo f.d
    let c := x.s.crew x.w.crew
    let tile := c.tile t
    let wide := tile.kind == .f64
    let k := if wide then 2 else 1
    x.withTile t .d
      (if wide && !groupOk (x.s.allotOf x.w) f.a then x.trapField .a x.am
       else
        let v (l h : Nat) : Nat := x.get f l (2 * k) f.a / 2 ^ (32 * k * h) % 2 ^ (32 * k)
        let code (l h : Nat) : Nat :=
          if tile.wide && tile.kind != .i32 then widenCode (tileFmt tile.kind false) (tileFmt tile.kind true) (v l h)
          else v l h
        let c := c.mapTile t fun i j old =>
          let l := i % 32
          if x.tp.getLsbD l && x.get f l 1 f.b % 64 == j then code l (i / 32) else old
        x.doneIn (x.s.setCrew c))

/-! ### mmask (R268) -/

def execMmask (f : Fields) (s : State) : Res :=
  issue (.mmask f) s fun x =>
    let t := tileNo f.d
    x.onTile t .d
      (let a : Acc :=
         { va := BitVec.ofNat 64 (x.get f (lowOf x.tp) 2 f.a), n := 64, align := 8, need := { r := true } }
       x.unit [a] (fun _ s => s) fun ps =>
         let (s, bs) := readRuns x.s ps
         let b := bs.flatten
         if maskOk b then
           let c := s.crew x.w.crew
           x.doneIn ((s.setCrew (c.setTile t { c.tile t with mask := some b })).hintRuns f ps)
         else { x with s := s }.trapField .op x.am)

def execMmaskClear (f : Fields) (s : State) : Res :=
  issue (.mmaskClear f) s fun x =>
    let t := tileNo f.d
    x.onTile t .d
      (let c := x.s.crew x.w.crew
       x.doneIn (x.s.setCrew (c.setTile t { c.tile t with mask := none })))

/-! ### mrow (R267) -/

/-- The reduction of the readouts of a row: its code and its flags. -/
def Crew.reduceRow (c : Crew) (t i n : Nat) (sum : Bool) (masked : Nat → Nat → Bool) : Nat × Word :=
  let k := (c.tile t).kind
  let es := (List.range n).map fun j => c.readout t i j (masked i j)
  let fl := es.foldl (fun fl (e : Nat × Word) => fl ||| e.2) 0
  let codes := es.map Prod.fst
  match k with
  | .i32 =>
    if sum then (codes.sum % 2 ^ 32, fl)
    else (codes.foldl (combine .max .i32) (codes.headD 0), fl)
  | _ =>
    let fm := tileFmt k false
    let r :=
      if sum then (Val.sum (codes.map fm.decode) .rne).write fm .rne false
      else codes.foldl (fun (r : Nat × Word) e => let (v, g) := fm.pick true r.1 e; (v, r.2 ||| g)) (codes.headD 0, 0)
    (r.1, fl ||| r.2)

def execMrow (f : Fields) (s : State) : Res :=
  issue (.mrow f) s fun x =>
    let t := tileNo f.c
    let c := x.s.crew x.w.crew
    let wide := (c.tile t).kind == .f64
    let k := if wide then 2 else 1
    let rows := (List.range (mField f)).filter fun i => x.tp.getLsbD (i % 32)
    x.withTile t .c
      (if wide && !groupOk (x.s.allotOf x.w) f.d then x.trapField .d x.am
       else
        x.unitOut f (c.tile t).mask (rows.flatMap fun i => (List.range (nField f)).map fun j => (i, j)) [] fun s _ masked =>
          let rs := rows.map fun i => (i, c.reduceRow t i (nField f) (f.sub.getLsbD 0) masked)
          let old (l h : Nat) : Nat := x.w.opnd l (2 * k) 0 f.d / 2 ^ (32 * k * h) % 2 ^ (32 * k)
          let val (l h : Nat) : Nat :=
            match rs.find? fun (r : Nat × (Nat × Word)) => r.1 == l + 32 * h with
            | some r => r.2.1
            | none => old l h
          let w := x.w.write x.tp f.d (2 * k) fun l => val l 0 + val l 1 * 2 ^ (32 * k)
          x.doneIn (s.setWarp (w.orFlags (rs.foldl (fun fl (r : Nat × (Nat × Word)) => fl ||| r.2.2) 0))))

def execMrowM (f : Fields) (s : State) : Res :=
  issue (.mrowM f) s fun x =>
    let t := tileNo f.c
    let c := x.s.crew x.w.crew
    let z := if (c.tile t).kind == .f64 then 8 else 4
    let base : DWord := BitVec.ofNat 64 (x.get f (lowOf x.tp) 2 f.a)
    let a : Acc := { va := base, n := z * mField f, align := z, need := { w := true } }
    x.withTile t .c
      (x.unitOut f (c.tile t).mask (cellsOf (mField f) (nField f)) [a] fun s ps masked =>
        let rs := (List.range (mField f)).map fun i => c.reduceRow t i (nField f) (f.sub.getLsbD 0) masked
        let s := writePieces s ps.flatten (rs.flatMap fun (r : Nat × Word) => leBytes z r.1)
        let s := s.soil (s.pasidOf x.w) [(a.va, a.n)]
        x.doneIn ((s.setWarp (x.w.orFlags (rs.foldl (fun fl (r : Nat × Word) => fl ||| r.2) 0))).hintRuns f ps))

/-! ### mprog (R261) -/

def execMprog (f : Fields) (s : State) : Res :=
  issue (.mprog f) s fun x =>
    x.done (x.w.write x.tp f.d 2 fun _ => (x.w.mqpAt (f.subBits 0 2)).toNat)

def execMprogSet (f : Fields) (s : State) : Res :=
  issue (.mprogSet f) s fun x =>
    match lowLane x.tp with
    | none => x.skip
    | some l =>
      let q := f.subBits 0 2
      let v : DWord := BitVec.ofNat 64 (x.get f l 2 f.a)
      if mqpOk v then x.done { x.w with mqp := tset 0 x.w.mqp q v }
      else x.trap 3 (srTrapInfo (0x12 + q) true) (if isScalar f.a then x.tp else bitOf l)

end Sys2Proof.Machine
end

