-- ==== Sys2Proof/Machine/Mapper.lean ====
section
/-! DEFINITION. Machine/Mapper.lean: the queue mapper: hardware slots, eviction, pre-emption requests (R351 to R354,
R373), and queues that fault (R360). -/

namespace Sys2Proof.Machine

/-! ### Queues and their partitions -/

/-- The partition of a queue's PASID, and the bits of its assist word as it stands (R29, R394): it changes only while the
partition's queues hold no slot, so that its next enable and mapping are the first to see it (R396). -/
def State.queuePart (s : State) (q : Nat) : Part := s.ctxPart (s.queue q).pasid.toNat

def State.queueAssist (s : State) (q bit : Nat) : Bool := (s.assist (s.queuePart q)).getLsbD bit

/-- Whether the host maps the partition's queues, and performs their packets. -/
def State.slotMap (s : State) (q : Nat) : Bool := s.queueAssist q 1

def State.packetMode (s : State) (q : Nat) : Bool := s.queueAssist q 2

def State.queueIdx (s : State) : List Nat := List.range s.queues.length

/-- Whether a hardware slot runs no queue. -/
def State.slotFree (s : State) (slot : Nat) : Bool := !s.queues.any fun x => x.slot == some slot

def State.freeSlot (s : State) : Option Nat := (List.range 128).find? s.slotFree

/-- The slots in use (R353, R354). -/
def State.slotsInUse (s : State) : Nat := (List.range 128).countP fun k => !s.slotFree k

/-- A context's translations and holdings go by its partition's assist word from now on (R396, log entry 66). -/
def State.takeModes (s : State) (pasid : Nat) : State := s.setCtx { s.ctx pasid with assist := s.assist (s.ctxPart pasid) }

/-- Whether a queue has a `WAIT` under way: its watch stands at the home (R359). -/
def State.inWait (s : State) (q : Nat) : Bool := s.monitors.any fun m => m.who == .queue q

/-- A queue gets a slot: state 3, or 4 when it resumes a saved `WAIT` (R351, R354). -/
def State.mapTo (s : State) (q slot : Nat) (byHost : Bool) : State :=
  let x := s.queue q
  (s.setQueue q
    { x with st := if s.inWait q then .waiting else .mapped, slot := some slot, mappedAt := s.now, byHost := byHost,
             sliced := false, pend := none, told := false, counted := false }).takeModes x.pasid.toNat

/-- The first of a list that no other ranks before. -/
def bestOf (before : Nat → Nat → Bool) : List Nat → Option Nat
  | [] => none
  | q :: rest =>
    match bestOf before rest with
    | none => some q
    | some p => if before p q then some p else some q

/-- Whether a queue's context is suspended, or is being suspended (R404). -/
def State.held (s : State) (q : Nat) : Bool :=
  let c := s.ctx (s.queue q).pasid.toNat
  c.suspended || c.suspending

/-- The pending queue of a partition that the mapper maps next: highest priority, then oldest (R351, R383). -/
def State.nextPending (s : State) (part : Nat) : Option Nat :=
  let older (p q : Nat) : Bool :=
    let a := s.queue p
    let b := s.queue q
    b.prio < a.prio || (a.prio == b.prio && a.pend.getD 0 < b.pend.getD 0)
  bestOf older (s.queueIdx.filter fun q =>
    (s.queue q).st == .pending && (s.queuePart q).base == part && !(s.queue q).loading &&
      !s.slotMap q && !s.packetMode q && !s.held q)

/-- The same of every partition that has one. -/
def State.nextPendings (s : State) : List Nat := s.parts.filterMap fun p => s.nextPending p.base

/-- One of a list, where the spec names no order among them. -/
def State.pickOf (s : State) (l : List Nat) : State × Option Nat :=
  match l with
  | [] => (s, none)
  | [q] => (s, some q)
  | _ => let (s, k) := s.pick l.length; (s, l[k]?)

/-- The launches of a queue. -/
def State.launchesOf (s : State) (q : Nat) : List Launch := s.launches.filter fun l => l.queue == q

/-- A pre-emption request reaches every crew of a queue's running launches that has none yet (R373). -/
def State.request (s : State) (q : Nat) : State :=
  let uids := (s.launchesOf q).map Launch.uid
  { s with crews := s.crews.map fun c =>
      if uids.contains c.launch && c.pre.isNone && s.warps.any (fun w => w.crew == c.uid && w.place == .resident || w.crew == c.uid && w.place == .parked) then
        { c with pre := some (.deferred s.now) }
      else c }

/-- A queue enters state 2: its pending bit is set, and with SLOTMAP its vector is raised (R351, R354). -/
def State.enterPending (s : State) (q : Nat) : State :=
  let s := s.setQueue q
    { s.queue q with st := .pending, slot := none, pend := some s.now, told := false, counted := false }
  if s.slotMap q then s.raiseQueue q else s

/-- An eviction (R352): the interpreter's place stays with the queue, its launches are pre-empted, and it is
pending. -/
def State.evictQueue (s : State) (q : Nat) : State := (s.enterPending q).request q

/-- Whether a mapped queue may be evicted by the mapper. -/
def State.evictable (s : State) (part : Nat) (q : Nat) : Bool :=
  let x := s.queue q
  x.slot.isSome && x.preemptible && !x.byHost && !s.slotMap q && (s.queuePart q).base == part

/-- The victim of a pending queue: lowest priority first, then longest held (R352). -/
def State.victim (s : State) (p : Nat) : Option Nat :=
  let prio := (s.queue p).prio
  let rank (a b : Nat) : Bool :=
    let x := s.queue a
    let y := s.queue b
    x.prio < y.prio || (x.prio == y.prio && x.mappedAt < y.mappedAt)
  bestOf rank (s.queueIdx.filter fun v =>
    s.evictable (s.queuePart p).base v &&
      ((s.queue v).prio < prio ||
        ((s.queue v).prio == prio && 2000000 ≤ s.now - (s.queue v).mappedAt)))

/-- The mapper at work: free slots are filled, and queues of lower priority evicted, each partition's queues among
themselves (R351, R352, R383). -/
def State.mapStep (s : State) : Option State :=
  match s.freeSlot with
  | some k =>
    match s.pickOf s.nextPendings with
    | (s, some q) => some (s.mapTo q k false)
    | (_, none) => none
  | none =>
    match s.nextPendings.findSome? fun q => (s.victim q).map fun v => (q, v) with
    | none => none
    | some (q, v) =>
      let s := s.evictQueue v
      s.freeSlot.map fun k => s.mapTo q k false

def State.mapAll : Nat → State → State
  | 0, s => s
  | n + 1, s =>
    match s.mapStep with
    | some s => State.mapAll n s
    | none => s

/-- Whether every slot holds a queue that may not be pre-empted (R353). -/
def State.slotsStuck (s : State) : Bool :=
  s.freeSlot.isNone && s.queues.all fun x => x.slot.isNone || !x.preemptible

/-- Every wait for a slot that such queues cause is counted once (R353). -/
def State.press (s : State) : State :=
  if !s.slotsStuck then s
  else
    (s.queueIdx.filter fun q => (s.queue q).st == .pending && !s.packetMode q && !(s.queue q).counted).foldl (fun s q =>
      let s := s.setQueue q { s.queue q with counted := true }
      { s with mapper := { s.mapper with pressure := s.mapper.pressure + 1 } }) s

/-- The mapper at work until nothing is left for it, and what then waits. -/
def State.runMapper (s : State) : State := (s.mapAll 128).press

/-- A queue with a new packet (R349, R351). -/
def State.makePending (s : State) (q : Nat) : State := (s.enterPending q).runMapper

/-- A queue faults (R360): it leaves its slot, and a record is written (R378, R379). -/
def State.faultQueue (s : State) (q : Nat) (reason : Byte) (detail : DWord) : State :=
  let x := s.queue q
  let s := { s with monitors := s.monitors.filter fun (m : Monitor) => m.who != Watcher.queue q }
  let s := s.setQueue q
    { x with st := .faulted, reason := reason, detail := detail, faultTime := s.time, slot := none, pend := none,
             effects := false, loading := false, page := [], denied := false, hosts := [] }
  -- The detail of reasons 3, 5 and 7 is an address.
  let addr := if reason == 3 || reason == 5 || reason == 7 then detail else 0
  let s := s.log x.pasid.toNat
    { FaultRec.of s 0x46 7 (if x.effects then 2 else 1) q with
      aux := reason, addr := addr, prog0 := x.rdx, prog1 := x.wrx }
  s.runMapper

/-- A queue with no packet left returns to state 1 and frees its slot (R351). -/
def State.idleQueue (s : State) (q : Nat) : State :=
  let x := s.queue q
  (s.setQueue q { x with st := .ready, slot := none, pend := none }).runMapper

/-! ### The commands of the status page (R354) -/

def State.mapResult (s : State) (r : Nat) : State :=
  { s with mapper := { s.mapper with mapResult := BitVec.ofNat 4 r } }

/-- MAP (R354): a pending queue of a partition with SLOTMAP takes the named slot. One whose packets the host performs never
has a slot (R395), and one whose code is not checked yet has none yet (R358); what the command then results in is left open
(log entry 64). -/
def execMap (cmd : Word) (s : State) : Res :=
  let q := cmd.toNat % 4096
  let slot := cmd.toNat / 2 ^ 12 % 128
  .next
    (if cmd.extractLsb' 19 12 != 0 then s.mapResult 5
     else if (s.queue q).st != .pending || s.held q then s.mapResult 2
     else if !s.slotMap q then s.mapResult 4
     else if !s.slotFree slot then s.mapResult 1
     else if s.packetMode q || (s.queue q).loading then let (s, r) := s.pick 16; s.mapResult r
     else ((s.mapTo q slot true).mapResult 0).press)

/-- The queue in a slot. -/
def State.queueIn (s : State) (slot : Nat) : Option Nat := s.queueIdx.find? fun q => (s.queue q).slot == some slot

/-- EVICT (R354). -/
def execEvict (cmd : Word) (s : State) : Res :=
  let slot := cmd.toNat / 2 ^ 12 % 128
  .next
    (if cmd.extractLsb' 19 12 != 0 then s.mapResult 5
     else
      match s.queueIn slot with
      | none => s.mapResult 1
      | some q =>
        if !s.slotMap q then s.mapResult 4
        else if !(s.queue q).preemptible then s.mapResult 3
        else ((s.evictQueue q).mapResult 0).runMapper)

/-- Whether a queue has held its slot for 2 ms while another of equal priority is pending, and has not been asked to give
way yet. -/
def State.sliceOver (s : State) (queue : Nat) : Bool :=
  let x := s.queue queue
  x.slot.isSome && x.preemptible && !x.sliced && 2000000 ≤ s.now - x.mappedAt &&
    s.queueIdx.any fun p =>
      (s.queue p).st == .pending && (s.queue p).prio == x.prio && (s.queuePart p).base == (s.queuePart queue).base

/-- SLICE_EXPIRY (R373): such a queue receives a pre-emption request, and the mapper evicts it when no slot is free
(R352). -/
def execSliceExpiry (queue : Nat) (s : State) : Res :=
  .next
    (if s.sliceOver queue then ((s.setQueue queue { s.queue queue with sliced := true }).request queue).runMapper
     else s)

/-- Whether a pending queue has waited 1 ms, untold. -/
def State.waitedLong (s : State) (queue : Nat) : Bool :=
  let x := s.queue queue
  x.st == .pending && !x.told && !s.packetMode queue && 1000000 ≤ s.now - x.pend.getD s.now

/-- PENDING_WAIT_TIMEOUT (R353): it raises one interrupt. -/
def execPendingWaitTimeout (queue : Nat) (s : State) : Res :=
  .next
    (if s.waitedLong queue then (s.setQueue queue { s.queue queue with told := true }).raiseDev 0 else s)

end Sys2Proof.Machine
end

