-- ==== Sys2Proof/Machine/Teams.lean ====
section
/-! DEFINITION. Machine/Teams.lean: team records and their points (R184 to R192), and the team instructions (R186 to
R196). -/

namespace Sys2Proof.Machine

/-! ### Points (R191, R192) -/

def Point.state (p : Point) (tid : Word) : MSt :=
  match p.st.find? fun (m : Word × MSt) => m.1 == tid with
  | some m => m.2
  | none => .due

def Point.setState (p : Point) (tid : Word) (m : MSt) : Point :=
  { p with st := putBy (fun (q : Word × MSt) => q.1 == tid) (tid, m) p.st }

def Point.idle (p : Point) : Bool := p.a == 0 && p.y == 0

/-- A member's state after a turn. -/
def MSt.turned : MSt → MSt
  | .early => .arrived
  | _ => .due

/-- Phase turns, while there is one to make: after a second the arrived count is 0. -/
def Point.turn : Nat → Point → Point
  | 0, p => p
  | n + 1, p =>
    if 0 < p.x && (p.a : Int) == p.x then
      Point.turn n
        { p with
          bw := (p.bw <<< 1) ||| (if p.b then 1 else 0), p := p.p + 1, b := false, x := p.x + p.j, j := 0, a := p.y,
          y := 0, st := p.st.map fun (m : Word × MSt) => (m.1, m.2.turned) }
    else p

def Point.settle (p : Point) : Point := Point.turn 3 p

def Point.join (p : Point) (tid : Word) : Point :=
  if !p.init then p
  else if p.x == 0 && p.a == 0 then ({ p with x := p.x + 1 }.setState tid .due).settle
  else ({ p with j := p.j + 1 }.setState tid .new).settle

/-- An arrival, and the phase that it returns: none for a second arrival in one phase. -/
def Point.arrive (p : Point) (tid : Word) : Option (Point × Word) :=
  match p.state tid with
  | .due => some (({ p with a := p.a + 1 }.setState tid .arrived).settle, p.p)
  | .new => some (({ p with y := p.y + 1 }.setState tid .early).settle, p.p + 1)
  | _ => none

def Point.leave (p : Point) (tid : Word) (death : Bool) : Point :=
  if !p.init then p
  else
    let q := match p.state tid with
      | .due => { p with x := p.x - 1, b := p.b || death }
      | .arrived | .new => { p with j := p.j - 1 }
      | .early => { p with j := p.j - 1, y := p.y - 1 }
    { q with st := p.st.filter fun (m : Word × MSt) => m.1 != tid }.settle

/-- An idle point started with an expected count: every member is due. -/
def Point.start (p : Point) (n : Nat) : Point := { p with init := true, x := n, j := 0, b := false, st := [] }

/-- Whether a phase has completed (R193). -/
def Point.completed (p : Point) (ph : Word) : Bool :=
  let d := (p.p - ph).toNat
  1 ≤ d && d ≤ 2 ^ 31

/-- The bereaved bit of a completed phase (R193). -/
def Point.bereaved (p : Point) (ph : Word) : Bool :=
  let d := (p.p - ph).toNat
  d ≤ 32 && p.bw.getLsbD (d - 1)

/-! ### Teams (R184, R185, R188, R189) -/

def handleIdx (h : Word) : Nat := (h.extractLsb' 0 16).toNat

def State.team (s : State) (pasid idx : Nat) : Team := tget {} (s.ctx pasid).teams idx

def State.setTeam (s : State) (pasid idx : Nat) (t : Team) : State :=
  let c := s.ctx pasid
  s.setCtx { c with teams := tset {} c.teams idx t }

def Team.handle (t : Team) (idx : Nat) : Word := BitVec.ofNat 32 (idx + t.gen.toNat * 2 ^ 16)

/-- A handle names a record when that is in use and the generations agree (R185). -/
def State.validHandle (s : State) (pasid : Nat) (h : Word) : Bool :=
  let t := s.team pasid (handleIdx h)
  t.used && t.handle (handleIdx h) == h

def Team.point (t : Team) (n : Nat) : Point := tget {} t.points n

def Team.setPoint (t : Team) (n : Nat) (p : Point) : Team := { t with points := tset {} t.points n p }

def Team.join (t : Team) (tid : Word) : Team :=
  { t with members := t.members ++ [tid], points := t.points.map fun p => p.join tid }

def Team.leave (t : Team) (tid : Word) (death : Bool) : Team :=
  if t.members.contains tid then
    { t with members := t.members.filter (fun m => m != tid), points := t.points.map fun p => p.leave tid death }
  else t

/-- A thread leaves the teams that handles name. -/
def State.leaveTeams (s : State) (pasid : Nat) (tid : Word) (death : Bool) (teams : List Word) : State :=
  teams.foldl (fun s h =>
    if s.validHandle pasid h then s.setTeam pasid (handleIdx h) ((s.team pasid (handleIdx h)).leave tid death) else s) s

/-- Whether a thread of a context is live. -/
def State.threadLive (s : State) (pasid : Nat) (tid : Word) : Bool :=
  s.warps.any fun w => s.pasidOf w == pasid && (List.range 32).any fun l =>
    (w.lane l).st == .live && (w.lane l).tid == tid

/-- The oldest live member (R185). -/
def State.oldest (s : State) (pasid idx : Nat) : Option Word :=
  (s.team pasid idx).members.find? fun tid => s.threadLive pasid tid

/-! ### The checks of R187 -/

/-- The lowest reason that some lane fails for traps the lanes that fail for it. -/
def Issue.teamCheck (x : Issue) (reason : Nat → Option Nat) (act : State) : State :=
  let bad (r : Nat) : Word := maskOf fun l => x.tp.getLsbD l && reason l == some r
  match (List.range 11).find? fun r => bad r != 0 with
  | some r => x.trap 0x0F (BitVec.ofNat 64 r) (bad r)
  | none => act

def Issue.pasid (x : Issue) : Nat := x.s.pasidOf x.w

/-- TEAMk of a lane, with k from SUB. -/
def Issue.teamOf (x : Issue) (f : Fields) (l : Nat) : Word := (x.w.lane l).team (f.subBits 0 2)

def Issue.tid (x : Issue) (l : Nat) : Word := (x.w.lane l).tid

/-- The point that a lane names. -/
def Issue.ptOf (x : Issue) (f : Fields) (l : Nat) : Nat := x.get f l 1 f.a

def State.pointOf (s : State) (pasid : Nat) (h : Word) (n : Nat) : Point := (s.team pasid (handleIdx h)).point n

def State.setPointOf (s : State) (pasid : Nat) (h : Word) (n : Nat) (p : Point) : State :=
  s.setTeam pasid (handleIdx h) ((s.team pasid (handleIdx h)).setPoint n p)

/-! ### The instructions -/

/-- One record allocated: its handle, or all ones when the table is full (R188). -/
def State.newTeam (s : State) (pasid : Nat) : State × Word :=
  let free := (List.range 65536).filter fun i => !(s.team pasid i).used
  if free.isEmpty then (s, 0xFFFFFFFF)
  else
    let (s, k) := s.pick free.length
    let i := free.getD k 0
    let t := s.team pasid i
    (s.setTeam pasid i { gen := t.gen, used := true }, t.handle i)

def State.newTeams (s : State) (pasid : Nat) : List Nat → State × List (Nat × Nat)
  | [] => (s, [])
  | l :: rest =>
    let (s, h) := s.newTeam pasid
    let (s, hs) := s.newTeams pasid rest
    (s, (l, h.toNat) :: hs)

def execTnew (f : Fields) (s : State) : Res :=
  issue (.tnew f) s fun x =>
    let lanes := if isScalar f.d then (lanesOf x.tp).take 1 else lanesOf x.tp
    let (s, hs) := x.s.newTeams x.pasid lanes
    let w := x.w.write x.tp f.d 1 fun l => laneVal hs (if isScalar f.d then lowOf x.tp else l)
    x.doneIn (s.setWarp w)

def execTjoin (f : Fields) (s : State) : Res :=
  issue (.tjoin f) s fun x =>
    let h (l : Nat) : Word := BitVec.ofNat 32 (x.get f l 1 f.a)
    let team (l : Nat) : Team := x.s.team x.pasid (handleIdx (h l))
    let before (l : Nat) : Nat := ((lanesOf x.tp).filter fun m => m < l && h m == h l).length
    x.teamCheck (fun l =>
      if !x.s.validHandle x.pasid (h l) then some 3
      else if x.teamOf f l != 0xFFFFFFFF || (team l).members.contains (x.tid l) then some 9
      else if 2 ^ 20 ≤ (team l).members.length + before l then some 10
      else none)
      (let s := (lanesOf x.tp).foldl (fun s l =>
        s.setTeam x.pasid (handleIdx (h l)) ((s.team x.pasid (handleIdx (h l))).join (x.tid l))) x.s
       x.doneIn (s.setWarp (x.w.mapLanes x.tp fun l y => y.setTeam (f.subBits 0 2) (h l))))

def execTleave (f : Fields) (s : State) : Res :=
  issue (.tleave f) s fun x =>
    x.teamCheck (fun l => if x.teamOf f l == 0xFFFFFFFF then some 4 else none)
      (let s := if x.tp == 0 then x.s else x.release .dev x.s
       let s := (lanesOf x.tp).foldl (fun s l => s.leaveTeams x.pasid (x.tid l) false [x.teamOf f l]) s
       x.doneIn (s.setWarp (x.w.mapLanes x.tp fun _ y => y.setTeam (f.subBits 0 2) 0xFFFFFFFF)))

def execTfree (f : Fields) (s : State) : Res :=
  issue (.tfree f) s fun x =>
    let h (l : Nat) : Word := BitVec.ofNat 32 (x.get f l 1 f.a)
    x.teamCheck (fun l =>
      if !x.s.validHandle x.pasid (h l) then some 3
      else if !(x.s.team x.pasid (handleIdx (h l))).members.isEmpty then some 2
      else none)
      (x.doneIn ((lanesOf x.tp).foldl (fun s l =>
        if s.validHandle x.pasid (h l) then
          s.setTeam x.pasid (handleIdx (h l)) { gen := (s.team x.pasid (handleIdx (h l))).gen + 1 }
        else s) x.s))

/-- R194: the selected word of a lane's team or point. -/
def Issue.teamInfo (x : Issue) (f : Fields) (l : Nat) : Nat :=
  let h := x.teamOf f l
  let p := x.s.pointOf x.pasid h (x.ptOf f l)
  match f.subBits 2 2 with
  | 0 =>
    let n := (x.s.team x.pasid (handleIdx h)).members.length
    match x.s.oldest x.pasid (handleIdx h) with
    | some tid => n + (tid.toNat % 2 ^ 31) * 2 ^ 32 + 2 ^ 63
    | none => n
  | 1 => (p.x % 2 ^ 21).toNat + p.a * 2 ^ 32 + if p.init then 2 ^ 53 else 0
  | _ => p.p.toNat + p.bw.toNat * 2 ^ 32

def execTinfo (f : Fields) (s : State) : Res :=
  issue (.tinfo f) s fun x =>
    x.teamCheck (fun l =>
      if x.teamOf f l == 0xFFFFFFFF then some 4
      else if f.subBits 2 2 != 0 && 23 < x.ptOf f l then some 7
      else none)
      (x.done (x.w.write x.tp f.d 2 fun l => x.teamInfo f l))

def execRzinit (f : Fields) (s : State) : Res :=
  issue (.rzinit f) s fun x =>
    let n (l : Nat) : Nat := x.get f l 1 f.b
    let p (l : Nat) : Point := x.s.pointOf x.pasid (x.teamOf f l) (x.ptOf f l)
    x.teamCheck (fun l =>
      if x.teamOf f l == 0xFFFFFFFF then some 4
      else if 23 < x.ptOf f l then some 7
      else if !(p l).idle then some 1
      else if n l == 0 || 2 ^ 20 < n l then some 8
      else none)
      (x.doneIn ((lanesOf x.tp).foldl (fun s l =>
        let h := x.teamOf f l
        s.setPointOf x.pasid h (x.ptOf f l) ((s.pointOf x.pasid h (x.ptOf f l)).start (n l))) x.s))

/-- Why a lane may not arrive, or wait, at its point. -/
def Issue.arriveBad (x : Issue) (f : Fields) (arrives : Bool) (l : Nat) : Option Nat :=
  let h := x.teamOf f l
  let p := x.s.pointOf x.pasid h (x.ptOf f l)
  if h == 0xFFFFFFFF then some 4
  else if 23 < x.ptOf f l then some 7
  else if !p.init then some 6
  else if arrives && (p.arrive (x.tid l)).isNone then some 5
  else none

/-- Every taking-part lane arrives, in ascending order, as a release at device scope (R196): the phases returned. -/
def Issue.arriveAll (x : Issue) (f : Fields) : State × List (Nat × Word) :=
  let s := if x.tp == 0 then x.s else x.release .dev x.s
  (lanesOf x.tp).foldl (fun (a : State × List (Nat × Word)) l =>
    let h := x.teamOf f l
    match (a.1.pointOf x.pasid h (x.ptOf f l)).arrive (x.tid l) with
    | some (p, ph) => (a.1.setPointOf x.pasid h (x.ptOf f l) p, a.2 ++ [(l, ph)])
    | none => a) (s, [])

def execRzarr (f : Fields) (s : State) : Res :=
  issue (.rzarr f) s fun x =>
    x.teamCheck (x.arriveBad f true)
      (let (s, phs) := x.arriveAll f
       x.doneIn (s.setWarp (x.w.write x.tp f.d 1 fun l => laneVal (phs.map fun (q : Nat × Word) => (q.1, q.2.toNat)) l)))

/-- Whether a lane's phase has completed. -/
def State.rzDone (s : State) (pasid : Nat) (q : RzWait) : Bool := (s.pointOf pasid q.team q.pt).completed q.phase

/-- Lanes wait for their phases; the instruction completes when every one has finished (R193). -/
def Issue.rzPoll (x : Issue) (f : Fields) (waits : List RzWait) (bits : List (Nat × Bool)) : State :=
  let left := waits.filter fun q => x.tp.getLsbD q.lane
  let now := left.filter fun q => x.s.rzDone x.pasid q
  let bits := bits ++ now.map fun q => (q.lane, (x.s.pointOf x.pasid q.team q.pt).bereaved q.phase)
  let rest := left.filter fun q => !x.s.rzDone x.pasid q
  if rest.isEmpty then
    x.doneIn (x.s.setWarp (x.w.write x.tp f.d 1 fun l => if bits.any fun (b : Nat × Bool) => b.1 == l && b.2 then 1 else 0))
  else x.await (.rendezvous rest bits)

/-- What a lane waits for when it waits for a phase. -/
def Issue.rzFor (x : Issue) (f : Fields) (l : Nat) (ph : Word) : RzWait := ⟨l, x.teamOf f l, x.ptOf f l, ph⟩

def Issue.rzwait (x : Issue) (f : Fields) : State :=
  match x.w.why x.side with
  | some (.rendezvous waits bits) => x.rzPoll f waits bits
  | _ =>
    x.teamCheck (x.arriveBad f false)
      (x.rzPoll f ((lanesOf x.tp).map fun l => x.rzFor f l (BitVec.ofNat 32 (x.get f l 1 f.b))) [])

def execRzwait (f : Fields) (s : State) : Res :=
  issue (.rzwait f) s fun x => x.converge fun x => x.rzwait f

def Issue.rzaw (x : Issue) (f : Fields) : State :=
  match x.w.why x.side with
  | some (.rendezvous waits bits) => x.rzPoll f waits bits
  | _ =>
    x.teamCheck (x.arriveBad f true)
      (let (s, phs) := x.arriveAll f
       { x with s := s }.rzPoll f (phs.map fun (q : Nat × Word) => x.rzFor f q.1 q.2) [])

def execRzaw (f : Fields) (s : State) : Res :=
  issue (.rzaw f) s fun x => x.converge fun x => x.rzaw f

end Sys2Proof.Machine
end

