-- ==== Sys2Proof/Machine/Estate.lean ====
section
/-! DEFINITION. Machine/Estate.lean: flows (R200 to R204, R209), estate entries (R219 to R223), conveyance (R233 to
R239), and the instructions on holdings (R224 to R232). -/

namespace Sys2Proof.Machine

def noThread : Word := 0xFFFFFFFF

/-- The owner of a flow granted to an item that is not placed yet (R200). -/
def grantedItem : Word := 0x7FFFFFFE

/-- The holder of what is in custody (R220). -/
def custody : Word := 0x7FFFFFFF

def voidHeir : Word := 0xFFFFFFFF

/-! ### Entries (R220, R230, R234) -/

def State.entry (s : State) (pasid idx : Nat) : Entry := tget {} (s.ctx pasid).estate idx

/-- The lowest index of an entry that passes a test. -/
def State.findEntry (s : State) (pasid : Nat) (p : Entry → Bool) : Option Nat :=
  (List.range (s.ctx pasid).estate.length).find? fun i => let e := s.entry pasid i; e.kind != 0 && p e

/-- FORWARD entries that no entry names as heir any more are freed (R234). -/
def State.sweep (pasid : Nat) : Nat → State → State
  | 0, s => s
  | n + 1, s =>
    match s.findEntry pasid fun e => e.kind == 5 && !(s.ctx pasid).namesHeir e.holder with
    | some i => State.sweep pasid n (s.setEntry pasid i {})
    | none => s

def State.putEntry (s : State) (pasid idx : Nat) (e : Entry) : State :=
  State.sweep pasid (s.ctx pasid).estate.length (s.setEntry pasid idx e)

/-- A new entry at some free index; none when the table is full. -/
def State.newEntry (s : State) (pasid : Nat) (e : Entry) : State × Bool :=
  match s.freeEntry pasid with
  | (s, some i) => (s.putEntry pasid i e, true)
  | (s, none) => (s, false)

/-- A discharged entry: freed, or a record until it is acknowledged (R230). -/
def State.discharge (s : State) (pasid idx : Nat) : State :=
  let e := s.entry pasid idx
  s.putEntry pasid idx (if e.unack then { e with state := 2 } else {})

/-- Whether an entry is a holding of a thread: held, of kind 1 to 4. -/
def Entry.heldBy (e : Entry) (tid : Word) : Bool :=
  1 ≤ e.kind.toNat && e.kind.toNat ≤ 4 && e.state == 0 && e.holder == tid

def State.holding (s : State) (pasid : Nat) (tid : Word) (kind : BitVec 4) (object : DWord) : Option Nat :=
  s.findEntry pasid fun e => e.heldBy tid && e.kind == kind && e.object == object

/-- The OBJECT of a FLOWEX and of an ORDSLOT entry. -/
def flowObj (flow : Word) : DWord := flow.setWidth 64

def slotObj (flow seq : Word) : DWord := flow.setWidth 64 ||| (seq.setWidth 64 <<< 32)

/-! ### Threads -/

/-- The lanes of a thread of a context, changed. -/
def State.mapThread (s : State) (pasid : Nat) (tid : Word) (g : Lane → Lane) : State :=
  { s with warps := s.warps.map fun w =>
      if s.pasidOf w == pasid then
        { w with lanes := w.lanes.map fun y => if y.st == .live && y.tid == tid then g y else y }
      else w }

/-- The lane of a live thread. -/
def State.threadLane (s : State) (pasid : Nat) (tid : Word) : Option Lane :=
  s.warps.findSome? fun w =>
    if s.pasidOf w == pasid then w.lanes.find? fun (y : Lane) => y.st == .live && y.tid == tid else none

/-! ### Flows (R200, R203, R209) -/

def State.flow (s : State) (pasid : Nat) (id : Word) : Flow :=
  ((s.ctx pasid).flows.find? fun f => f.id == id).getD { id := id }

def State.hasFlow (s : State) (pasid : Nat) (id : Word) : Bool := (s.ctx pasid).flows.any fun f => f.id == id

def Flow.idle (f : Flow) : Bool :=
  f.owner == noThread && f.waiters.isEmpty && f.release == f.assign && f.recs.isEmpty && !f.fb

/-- A flow's entry replaced; an idle one is freed. -/
def State.setFlow (s : State) (pasid : Nat) (f : Flow) : State :=
  let c := s.ctx pasid
  s.setCtx { c with flows :=
    if f.idle then c.flows.filter fun g => g.id != f.id else putBy (fun (g : Flow) => g.id == f.id) f c.flows }

/-- Whether a take of a flow finds its entries: the flow's own, or room for one, and one of the estate (R201, R220). -/
def State.flowRoom (s : State) (pasid : Nat) (id : Word) : Bool :=
  let c := s.ctx pasid
  (s.hasFlow pasid id || c.flows.length < 2 ^ c.crec.flowLog) && c.reserved < c.freeEntries.length

/-- The slice that homes a flow (R200). -/
def State.flowHome (s : State) (pasid : Nat) (id : Word) : Nat :=
  let p := s.ctxPart pasid
  p.base + Config.flowHash id % p.size

/-- FLOWEX and ORDSLOT entries of a new take. -/
def State.labelEntry (s : State) (pasid : Nat) (kind : BitVec 4) (object : DWord) (holder : Word) : State :=
  (s.newEntry pasid
    { object := object, holder := holder, heir := voidHeir, from_ := noThread, kind := kind, time := s.time }).1

/-- An ordered take: the sequence number, and the FB that it reads and clears (R202, R204). -/
def State.takeOrdered (s : State) (pasid : Nat) (id tid : Word) : State × Word × Bool :=
  let f := s.flow pasid id
  let s := s.setFlow pasid { f with assign := f.assign + 1, fb := false }
  (s.labelEntry pasid 4 (slotObj id f.assign) tid, f.assign, f.fb)

/-- Exclusivity taken: the FB that the take reads and clears (R203, R204). -/
def State.takeFlow (s : State) (pasid : Nat) (id owner : Word) : State × Bool :=
  let f := s.flow pasid id
  let s := s.setFlow pasid { f with owner := owner, fb := false }
  (s.labelEntry pasid 3 (flowObj id) owner, f.fb)

/-- ICLASS with a class and an FB; IB is kept (R28). -/
def iclassOf (old : Word) (cls : Nat) (fb : Bool) : Word :=
  (old &&& 4) ||| BitVec.ofNat 32 cls ||| (if fb then 8 else 0)

/-- The head of a flow's waiters is granted it: a thread owns it at once, a held item when a fill places it (R203).
Threads that have died and items of launches that have gone are passed over. -/
def State.grant (s : State) (pasid : Nat) (id : Word) : List Waiter → State
  | [] => s.setFlow pasid { s.flow pasid id with owner := noThread, waiters := [] }
  | .thread tid :: rest =>
    if s.threadLive pasid tid then
      let s := s.setFlow pasid { s.flow pasid id with owner := tid, waiters := rest }
      let (s, fb) := s.takeFlow pasid id tid
      s.mapThread pasid tid fun y => { y with iflow := id, iclass := iclassOf y.iclass 2 fb }
    else s.grant pasid id rest
  | .held launch iid :: rest =>
    match s.launch? launch with
    | none => s.grant pasid id rest
    | some l =>
      if l.held.any fun h => h.iid == iid then
        let s := s.setFlow pasid { s.flow pasid id with owner := grantedItem, waiters := rest }
        let (s, fb) := s.takeFlow pasid id grantedItem
        let n := s.serial
        { s.setLaunch { l with held := l.held.map fun h => if h.iid == iid then { h with st := .granted fb n } else h } with
          serial := n + 1 }
      else s.grant pasid id rest

/-- Exclusivity given up (R203). -/
def State.giveUp (s : State) (pasid : Nat) (id : Word) : State := s.grant pasid id (s.flow pasid id).waiters

/-- A record written at its targets, or dropped at an uncorrectable error (R209, R210). -/
def State.writeRec (s : State) (pasid : Nat) (id seq : Word) (r : Rec) : State :=
  if r.parts.any fun (q : Nat × List Byte) => s.isBad q.1 q.2.length then
    (s.send (.msix 0)).log pasid
      { FaultRec.of s 0x42 5 1 r.queue with
        tid := r.tid, addr := r.addr, prog0 := slotObj id seq, prog1 := flowObj (seq + 1),
        place := placeAt (s.flowHome pasid id) }
  else r.parts.foldl (fun s (q : Nat × List Byte) => s.homeWrite q.1 q.2) s

/-- The head advances over the records and voids that the home holds. -/
def State.drain (pasid : Nat) (id : Word) : Nat → State → State
  | 0, s => s
  | n + 1, s =>
    let f := s.flow pasid id
    match f.recs.find? fun (q : Word × Option Rec) => q.1 == f.release with
    | none => s
    | some (seq, r) =>
      let s := match r with
        | some r => s.writeRec pasid id seq r
        | none => s
      let f := s.flow pasid id
      State.drain pasid id n
        (s.setFlow pasid
          { f with release := f.release + 1, recs := f.recs.filter fun (q : Word × Option Rec) => q.1 != seq })

/-- A record or a void held at the flow's home, and the head's advance. -/
def State.holdSlot (s : State) (pasid : Nat) (id seq : Word) (r : Option Rec) : State :=
  let f := s.flow pasid id
  let s := s.setFlow pasid { f with recs := f.recs ++ [(seq, r)] }
  State.drain pasid id (f.recs.length + 1) s

/-- A slot voided (R209). -/
def State.voidSlot (s : State) (pasid : Nat) (id seq : Word) : State := s.holdSlot pasid id seq none

/-! ### The end of threads (R207, R230, R233) -/

/-- A warp's weak stores performed. -/
def State.drainWarp (s : State) (uid : Nat) : State := s.performIf fun p => p.uid == uid

/-- A thread's own label discharged, in an orderly way (R207). -/
def State.endLabel (s : State) (pasid : Nat) (x : Lane) : State :=
  match (x.iclass.extractLsb' 0 2).toNat with
  | 1 =>
    match s.holding pasid x.tid 4 (slotObj x.iflow x.iseq) with
    | some i => (s.discharge pasid i).voidSlot pasid x.iflow x.iseq
    | none => s
  | 2 =>
    match s.holding pasid x.tid 3 (flowObj x.iflow) with
    | some i => (s.discharge pasid i).giveUp pasid x.iflow
    | none => s
  | _ => s

/-- The records of a thread freed (R230). -/
def State.freeRecords (s : State) (pasid : Nat) (tid : Word) : State :=
  (List.range (s.ctx pasid).estate.length).foldl (fun s i =>
    let e := s.entry pasid i
    if e.kind != 0 && e.state == 2 && e.holder == tid then s.putEntry pasid i {} else s) s

/-- One thread ends: its label, its teams, its records; what it still holds makes an event (R207, R233). -/
def State.endThread (s : State) (w : Warp) (pc : DWord) (l : Nat) : State :=
  let pasid := s.pasidOf w
  let x := w.lane l
  let s := s.endLabel pasid x
  let s := s.leaveTeams pasid x.tid false x.teams
  let s := s.freeRecords pasid x.tid
  if (s.findEntry pasid fun e => e.heldBy x.tid).isSome then s.addDeath pasid (s.deadOf w (bitOf l) pc false) none else s

/-- Threads of lanes end, one after another; the lanes are still to become vacant. -/
def State.endThreads (s : State) (w : Warp) (pc : DWord) (m : Word) : State :=
  (lanesOf m).foldl (fun s l => s.endThread w pc l) (if m == 0 then s else s.drainWarp w.uid)

/-! ### Heirs (R223, R235) -/

inductive Heir where
  | live (tid : Word)
  | void
  | custody
  deriving DecidableEq, Repr

/-- The heir that a value stands for, with so many FORWARD entries still to follow. -/
def State.resolve (s : State) (pasid : Nat) (gone : List Word) : Nat → Word → Heir
  | hops, h =>
    if h == voidHeir then .void
    else if h == 0 then .custody
    else if gone.contains h then .void
    else
      let tid : Option Word :=
        if h.getLsbD 31 then (if h.toNat < 0x80010000 then s.oldest pasid (handleIdx h) else none) else some h
      match tid with
      | none => .custody
      | some t =>
        if s.threadLive pasid t then .live t
        else
          match hops, s.findEntry pasid fun e => e.kind == 5 && e.holder == t with
          | n + 1, some i => s.resolve pasid gone n (s.entry pasid i).heir
          | _, _ => .custody

/-! ### One conveyance (R229, R236 to R239) -/

/-- What the object word becomes: none when it does not match its entry (R237, R239). -/
def newWord (kind : BitVec 4) (holder : Word) (death : Bool) (h : Heir) (old : Nat) : Option Nat :=
  if kind == 1 then
    let expect := if holder == custody then 0x7FFFFFFF else (holder.toNat + 1) % 2 ^ 31
    let brv := if death then 2 ^ 31 else old / 2 ^ 31 % 2 * 2 ^ 31
    if old % 2 ^ 31 != expect then none
    else match h with
      | .live t => some (brv + (t.toNat + 1) % 2 ^ 31)
      | .void => some brv
      | .custody => some (brv + 0x7FFFFFFF)
  else
    let brv := if death then 2 ^ 63 else old / 2 ^ 63 % 2 * 2 ^ 63
    if old / 2 ^ 62 % 2 == 1 then none
    else match h with
      | .void => some (brv + 2 ^ 62)
      | _ => some (brv + old % 2 ^ 62)

/-- A word read and written in one step where R147 performs it. -/
def State.update (s : State) (p : Loc) (k : Nat) (new : Nat → Option Nat) : State × Option Nat :=
  let s := s.collect p.key k
  let s := if p.sysatom then s.holdRun p.key k else s
  let (s, bs) := if p.hbm || p.sysatom then s.homeRead p.key k else s.sysRead p.unit p.key k
  match new (leNat bs) with
  | some v => (s.homePut p.key k v, some v)
  | none => (s, none)

/-- The bytes of an object word. -/
def objBytes (kind : BitVec 4) : Nat := if kind == 1 then 4 else 8

/-- Who conveys: the thread whose holding it is and what the record of it says. -/
structure Giver where
  tid : Word
  /-- FROM as the conveyance writes it. -/
  from_ : Word
  death : Bool
  queue : Nat
  core : Nat
  pc : DWord
  deriving DecidableEq, Repr

/-- The record of an event of an entry (R379). -/
def State.entryRec (s : State) (pasid idx : Nat) (e : Entry) (g : Giver) (code outcome : Byte) : State :=
  s.log pasid
    { FaultRec.of s code 6 outcome g.queue with
      tid := g.tid, pc := g.pc, addr := e.object, prog0 := BitVec.ofNat 64 idx, place := placeOf g.core }

/-- Custody raises the heirless-holding fault (R238). -/
def State.heirless (s : State) (pasid idx : Nat) (e : Entry) (g : Giver) : State :=
  let s := s.entryRec pasid idx e g 0x0B 3
  if (s.ctx pasid).assist.getLsbD 3 then s.raiseCtx pasid
  else
    let c := s.ctx pasid
    s.setCtx { c with heirless := c.heirless ++ [idx] }

/-- What the flow of a FLOWEX or ORDSLOT entry does (R237). -/
def State.passFlow (s : State) (pasid : Nat) (e : Entry) (death : Bool) (h : Heir) : State :=
  let id : Word := e.object.extractLsb' 0 32
  if e.kind == 3 then
    let f := s.flow pasid id
    let f := { f with fb := f.fb || death }
    match h with
    | .live t => s.setFlow pasid { f with owner := t }
    | .custody => s.setFlow pasid { f with owner := custody }
    | .void => (s.setFlow pasid f).giveUp pasid id
  else match h with
    | .void => s.voidSlot pasid id (e.object.extractLsb' 32 32)
    | _ => s

/-- The entry of a conveyance, and the heir's INHER and IB (R223, R230, R237). -/
def State.passEntry (s : State) (pasid idx : Nat) (e : Entry) (g : Giver) (h : Heir) : State :=
  let e := { e with from_ := g.from_, brv := e.brv || g.death, time := s.time }
  match h with
  | .live t =>
    let heir := if e.kind.toNat ≤ 2 then ((s.threadLane pasid t).map Lane.heir).getD 0 else voidHeir
    let s := s.putEntry pasid idx { e with holder := t, heir := heir, unack := true, state := 0 }
    s.mapThread pasid t fun y => { y with inher := y.inher + 1, iclass := y.iclass ||| 4 }
  | .custody =>
    let s := s.putEntry pasid idx { e with holder := custody, unack := true, state := 1 }
    s.heirless pasid idx e g
  | .void =>
    -- A record of a deceased holder goes with it (R230).
    s.putEntry pasid idx (if e.unack && !g.death then { e with state := 2 } else {})

/-- An entry conveyed to a resolved heir, its object at a place; without one the object no longer matches (R239). Whether
it matched. -/
def State.conveyTo (s : State) (pasid idx : Nat) (g : Giver) (h : Heir) (loc : Option Loc) : State × Bool :=
  let e := s.entry pasid idx
  if 3 ≤ e.kind.toNat then ((s.passFlow pasid e g.death h).passEntry pasid idx e g h, true)
  else
    let r : State × Option Nat := match loc with
      | some p => s.update p (objBytes e.kind) (newWord e.kind e.holder g.death h)
      | none => (s, none)
    match r with
    | (s, some _) => (s.passEntry pasid idx e g h, true)
    | (s, none) => ((s.entryRec pasid idx e g 0x41 1).discharge pasid idx, false)

/-- Where the object word of an entry lies; a flow's entry has none. -/
def State.objectAt (s : State) (pasid : Nat) (e : Entry) : Option Tr :=
  if 3 ≤ e.kind.toNat then none else some (s.translate pasid e.object { r := true, w := true })

/-! ### CONVEYANCE (R236) -/

/-- Whether an entry comes before another in an event: thread by thread in ascending TID, newest first. -/
def sooner (a b : Nat × Entry) : Bool :=
  a.2.holder.toNat < b.2.holder.toNat ||
  (a.2.holder == b.2.holder && (b.2.time.toNat < a.2.time.toNat || (a.2.time == b.2.time && b.1 < a.1)))

/-- The next holding of an event. -/
def State.nextHolding (s : State) (pasid : Nat) (tids : List Word) : Option (Nat × Entry) :=
  ((List.range (s.ctx pasid).estate.length).filterMap fun i =>
    let e := s.entry pasid i
    if tids.contains e.holder && e.heldBy e.holder then some (i, e) else none).foldl
    (fun best x => match best with | some y => if sooner x y then some x else best | none => some x) none

/-- The deceased give their teams up, by death, after their accesses (R189). -/
def State.deathLeaves (s : State) (pasid : Nat) (dead : List Dead) : State :=
  dead.foldl (fun s d => if d.died then s.leaveTeams pasid d.tid true d.teams else s) s

/-- One action of a death event: the deceased's accesses and the release on their behalf; or one holding conveyed; or
the end of the event. -/
def State.conveyance (s : State) (pasid : Nat) : State :=
  let c := s.ctx pasid
  match c.deaths with
  | [] => s
  | d :: rest =>
    let tids := d.dead.map Dead.tid
    let wait (s : State) (gs : List Nat) : State :=
      let c := s.ctx pasid
      s.setCtx { c with deaths := { d with groups := gs } :: rest }
    let go (s : State) : State :=
      let c := s.ctx pasid
      s.setCtx { c with deaths := { d with denied := false } :: rest }
    if !d.groups.isEmpty then s
    else if !d.fenced then
      let s := s.performIf fun p => d.dead.any fun x => x.uid == p.uid
      let s := s.deathLeaves pasid d.dead
      let c := s.ctx pasid
      s.setCtx { c with deaths := { d with fenced := true } :: rest }
    else
      match s.nextHolding pasid tids with
      | none =>
        let s := tids.foldl (fun s t => s.freeRecords pasid t) s
        let c := s.ctx pasid
        s.setCtx { c with deaths := rest }
      | some (i, e) =>
        let x := (d.dead.find? fun x => x.tid == e.holder).getD
          { tid := e.holder, heir := 0, teams := [], core := 0, uid := 0, queue := 0, pc := 0, died := true }
        let g : Giver := { tid := x.tid, from_ := x.tid, death := true, queue := x.queue, core := x.core, pc := x.pc }
        let h := s.resolve pasid (if d.reset.isSome then tids else []) 8 e.heir
        let convey (loc : Option Loc) (s : State) : State := ((go s).conveyTo pasid i g h loc).1
        -- An object that cannot be read is one that no longer matches (log entry 58).
        match s.objectAt pasid e with
        | none => convey none s
        | some (.ok p) =>
          if d.denied then convey none s
          else if s.isBad p.key (objBytes e.kind) then convey none (s.send (.msix 0))
          else convey (some p) s
        | some .absent =>
          if d.denied then convey none s
          else
            let (s, gs) := s.askPage pasid x.queue e.object { r := true, w := true }
            wait s gs
        | some .pending => if d.denied then convey none s else wait (s.askAts pasid e.object) [grpAts]
        | some (.stalled _) => wait s [grpHold]
        | some .refused => convey none s
        | some .bad => convey none (s.send (.msix 0))

def execConveyance (pasid : Nat) (s : State) : Res := .next (s.conveyance pasid)

/-! ### The instructions (R224 to R231) -/

/-- Lanes that fail an estate check trap, and no lane has any effect (R225). -/
def Issue.estateTrap (x : Issue) (ok : Nat → Bool) : Option State :=
  let bad := maskOf fun l => x.tp.getLsbD l && !ok l
  if bad == 0 then none else some (x.trapField .op bad)

/-- The object address of a lane. -/
def Issue.objOf (x : Issue) (f : Fields) (l : Nat) : DWord := BitVec.ofNat 64 (x.get f l 2 f.a)

/-- The heir that a lane names, its HEIR when B is none (R223). -/
def Issue.heirOf (x : Issue) (f : Fields) (l : Nat) : Word :=
  if f.b == .none then (x.w.lane l).heir else BitVec.ofNat 32 (x.get f l 1 f.b)

/-- Whether a heir value is accepted (R223). -/
def heirValid (h : Word) : Bool := h.toNat < 0x80010000 || h == voidHeir

/-- The conveying or acting thread of a lane. -/
def Issue.giver (x : Issue) (l : Nat) (from_ : Word) : Giver :=
  { tid := x.tid l, from_ := from_, death := false, queue := x.s.queueOf x.w, core := x.w.core, pc := x.pc }

/-- What lanes have done so far, one after another: pd or a result by lane, and the lanes that die. -/
def Issue.finish (x : Issue) (f : Fields) (k : Nat) (addr : Nat → DWord) (r : Reads) : State :=
  match r.s.warp? x.w.uid with
  | none => r.s
  | some w =>
    let w := w.write (x.tp &&& ~~~r.dead) f.d k fun l => laneVal r.vals l
    x.abort r.dead (addr (lowOf r.dead)) (x.doneIn (r.s.setWarp w))

/-- A line that the core's L1 holds given up before an action at its home, as an atomic does (R140). -/
def Issue.letGo (x : Issue) (p : Loc) (s : State) : State := (s.collectLine (lineOf p.key)).dropL1 (x.l1Core p) (lineOf p.key)

/-- Lanes act one after another on the objects that they name. -/
def Issue.onObjects (x : Issue) (f : Fields) (k : Nat) (loc : Nat → Option Loc) (act : Reads → Nat → Loc → Reads) : State :=
  x.finish f 1 (x.objOf f) ((lanesOf x.tp).foldl (fun (r : Reads) l =>
    match loc l with
    | none => r
    | some p =>
      if r.s.isBad p.key k then { r with dead := r.dead ||| bitOf l } else act { r with s := x.letGo p r.s } l p)
    ⟨x.s, [], 0⟩)

def execHlock (f : Fields) (s : State) : Res :=
  issue (.hlock f) s fun x =>
    x.global { r := true, w := true } false 4 (x.objOf f) (x.estateTrap fun l => heirValid (x.heirOf f l)) fun y loc =>
      y.onObjects f 4 loc fun r l p =>
        let tid := y.tid l
        match r.s.freeEntry y.pasid with
        | (s, none) => { r with s := s, vals := r.vals ++ [(l, 0)] }
        | (s, some i) =>
          match s.update p 4 fun old => if old % 2 ^ 31 == 0 then some (old + tid.toNat + 1) else none with
          | (s, none) => { r with s := s, vals := r.vals ++ [(l, 0)] }
          | (s, some _) =>
            let e : Entry := { object := y.objOf f l, holder := tid, heir := y.heirOf f l, from_ := noThread, kind := 1,
                               sys := !p.hbm, time := s.time }
            { r with s := s.putEntry y.pasid i e, vals := r.vals ++ [(l, 1)] }

/-- R226: the word freed, or the entry discharged on a mismatch (R239). -/
def execHunlock (f : Fields) (s : State) : Res :=
  issue (.hunlock f) s fun x =>
    let idx (s : State) (l : Nat) : Option Nat := s.holding x.pasid (x.tid l) 1 (x.objOf f l)
    x.global { r := true, w := true } false 4 (x.objOf f) (x.estateTrap fun l => (idx x.s l).isSome) fun y loc =>
      { y with s := if y.tp == 0 then y.s else y.s.drainWarp y.w.uid }.onObjects f 4 loc fun r l p =>
        match idx r.s l with
        | none => r
        | some i =>
          match r.s.update p 4 fun old => if old % 2 ^ 31 == (y.tid l).toNat + 1 then some 0 else none with
          | (s, some _) => { r with s := s.discharge y.pasid i }
          | (s, none) =>
            { r with s := (s.entryRec y.pasid i (s.entry y.pasid i) (y.giver l noThread) 0x41 1).discharge y.pasid i }

def execPromise (f : Fields) (s : State) : Res :=
  issue (.promise f) s fun x =>
    x.global { r := true, w := true } false 8 (x.objOf f) (x.estateTrap fun l => heirValid (x.heirOf f l)) fun y loc =>
      y.onObjects f 8 loc fun r l p =>
        let named := (r.s.findEntry y.pasid fun e =>
          e.kind == 2 && e.object == y.objOf f l && (e.state == 0 || e.state == 1)).isSome
        match r.s.update p 8 fun old => if named || old.testBit 62 then none else some old with
        | (s, none) => { r with s := s, vals := r.vals ++ [(l, 0)] }
        | (s, some _) =>
          let e : Entry := { object := y.objOf f l, holder := y.tid l, heir := y.heirOf f l, from_ := noThread, kind := 2,
                             sys := !p.hbm, time := s.time }
          let (s, made) := s.newEntry y.pasid e
          { r with s := s, vals := r.vals ++ [(l, if made then 1 else 0)] }

/-- R227. -/
def execFulfil (f : Fields) (s : State) : Res :=
  issue (.fulfil f) s fun x =>
    let idx (s : State) (l : Nat) : Option Nat := s.holding x.pasid (x.tid l) 2 (x.objOf f l)
    x.global { r := true, w := true } false 8 (x.objOf f) (x.estateTrap fun l => (idx x.s l).isSome) fun y loc =>
      { y with s := if y.tp == 0 then y.s else y.s.drainWarp y.w.uid }.onObjects f 8 loc fun r l p =>
        match idx r.s l with
        | none => r
        | some i =>
          let c := y.get f l 2 f.c % 2 ^ 62
          match r.s.update p 8 fun old =>
            if old.testBit 62 then none else some (old / 2 ^ 63 * 2 ^ 63 + 2 ^ 62 + c) with
          | (s, some _) => { r with s := s.discharge y.pasid i }
          | (s, none) =>
            { r with s := (s.entryRec y.pasid i (s.entry y.pasid i) (y.giver l noThread) 0x41 1).discharge y.pasid i }

/-- The entry that a lane names. -/
def Issue.entryIdx (x : Issue) (f : Fields) (l : Nat) : Nat := x.get f l 1 f.a

def Issue.inTable (x : Issue) (i : Nat) : Bool := i < 2 ^ (x.s.ctx x.pasid).crec.estateLog

/-- An instruction of the estate group acts, after its checks. -/
def Issue.estate (x : Issue) (ok : Nat → Bool) (act : State) : State :=
  match x.estateTrap ok with
  | some s => s
  | none => act

def execHeir (f : Fields) (s : State) : Res :=
  issue (.heir f) s fun x =>
    let i (l : Nat) : Nat := x.entryIdx f l
    x.estate (fun l => x.inTable (i l) && (x.s.entry x.pasid (i l)).heldBy (x.tid l) && heirValid (x.heirOf f l))
      (x.doneIn ((lanesOf x.tp).foldl (fun s l =>
        s.putEntry x.pasid (i l) { s.entry x.pasid (i l) with heir := x.heirOf f l }) x.s))

def Issue.custodian (x : Issue) : Bool := (x.s.launch x.w.launch).lrec.custodian

/-- Whether an entry is in custody. -/
def Entry.inCustody (e : Entry) : Bool := 1 ≤ e.kind.toNat && e.kind.toNat ≤ 4 && e.state == 1

/-- One lane's `convey` (R229), with the object of its entry at a place. -/
def Issue.conveyLane (x : Issue) (f : Fields) (s : State) (l : Nat) (loc : Option Loc) : State :=
  let i := x.entryIdx f l
  let e := s.entry x.pasid i
  let own := e.heldBy (x.tid l)
  if !own && !(x.custodian && e.inCustody) then s
  else
    let h := s.resolve x.pasid [] 8 (x.heirOf f l)
    let g := x.giver l (if own then x.tid l else e.from_)
    let s := match loc with | some p => x.letGo p s | none => s
    let (s, matched) := s.conveyTo x.pasid i g h loc
    -- The unacknowledged record has left the conveying thread with the entry, unless it stays as one (R229).
    if matched && own && e.unack && h != .void then
      s.mapThread x.pasid (x.tid l) fun y => { y with inher := y.inher - 1 }
    else s

/-- The lanes convey, one after another. -/
def Issue.conveyAll (x : Issue) (f : Fields) (loc : Nat → Option Loc) : State :=
  let obj (l : Nat) : Entry := x.s.entry x.pasid (x.entryIdx f l)
  x.finish f 1 (fun l => (obj l).object) ((lanesOf x.tp).foldl (fun (r : Reads) l =>
    match loc l with
    | some p =>
      if r.s.isBad p.key (objBytes (obj l).kind) then { r with dead := r.dead ||| bitOf l }
      else { r with s := x.conveyLane f r.s l (some p) }
    | none => { r with s := x.conveyLane f r.s l none })
    ⟨if x.tp == 0 then x.s else x.s.drainWarp x.w.uid, [], 0⟩)

def execConvey (f : Fields) (s : State) : Res :=
  issue (.convey f) s fun x =>
    let i (l : Nat) : Nat := x.entryIdx f l
    let e (l : Nat) : Entry := x.s.entry x.pasid (i l)
    let k (l : Nat) : Nat := if 3 ≤ (e l).kind.toNat then 0 else objBytes (e l).kind
    let need : Need := { r := true, w := true }
    x.estate (fun l => x.inTable (i l) && ((e l).heldBy (x.tid l) || (x.custodian && (e l).inCustody)) &&
        heirValid (x.heirOf f l) && x.heirOf f l != 0)
      (x.settleRuns need false (fun l => x.s.run x.pasid (e l).object (k l) need) (fun l => (e l).object)
        (fun l => if k l == 0 then [] else [((e l).object, k l)]) none fun y parts => y.conveyAll f fun l => (parts l).head?.map Prod.fst)

/-- The oldest unacknowledged entry of a holder (R230). -/
def State.oldestRecord (s : State) (pasid : Nat) (holder : Word) : Option Nat :=
  ((List.range (s.ctx pasid).estate.length).filter fun i =>
    let e := s.entry pasid i
    e.kind != 0 && e.holder == holder && e.unack).foldl
    (fun best i => match best with
      | some j => if (s.entry pasid i).time.toNat < (s.entry pasid j).time.toNat then some i else best
      | none => some i) none

/-- The four registers of `bereft`. -/
def recordNum (i : Nat) (e : Entry) : Nat :=
  let d := 2 ^ 31 + (if e.state == 1 then 2 ^ 26 else 0) + (if e.state == 2 then 2 ^ 25 else 0) +
    (if e.brv then 2 ^ 24 else 0) + e.kind.toNat * 2 ^ 20 + i % 2 ^ 20
  d + e.from_.toNat * 2 ^ 32 + e.time.toNat * 2 ^ 64

/-- Each lane reads and acknowledges one record. -/
def Issue.bereft (x : Issue) (f : Fields) (cust : Bool) : State :=
  let r := (lanesOf x.tp).foldl (fun (r : Reads) l =>
    match r.s.oldestRecord x.pasid (if cust then custody else x.tid l) with
    | none => { r with vals := r.vals ++ [(l, 0)] }
    | some i =>
      let e := r.s.entry x.pasid i
      let s := r.s.putEntry x.pasid i (if e.state == 2 then {} else { e with unack := false })
      let s := if cust then s else s.mapThread x.pasid (x.tid l) fun y => { y with inher := y.inher - 1 }
      { r with s := s, vals := r.vals ++ [(l, recordNum i e)] }) ⟨x.s, [], 0⟩
  x.finish f 4 (fun _ => 0) r

def execBereft (f : Fields) (s : State) : Res := issue (.bereft f) s fun x => x.bereft f false

def execBereftCust (f : Fields) (s : State) : Res :=
  issue (.bereftCust f) s fun x => x.estate (fun _ => x.custodian) (x.bereft f true)

/-- Bytes 0 to 15, or 16 to 31, of the entry that each lane names (R231). -/
def Issue.estqHalf (x : Issue) (f : Fields) (hi : Bool) : State :=
  x.estate (fun l => x.inTable (x.entryIdx f l))
    (x.done (x.w.write x.tp f.d 4 fun l =>
      let bs := (x.s.entry x.pasid (x.entryIdx f l)).bytes
      leNat (if hi then bs.drop 16 else bs.take 16)))

def execEstqLo (f : Fields) (s : State) : Res := issue (.estqLo f) s fun x => x.estqHalf f false

def execEstqHi (f : Fields) (s : State) : Res := issue (.estqHi f) s fun x => x.estqHalf f true

def execEstqFind (f : Fields) (s : State) : Res :=
  issue (.estqFind f) s fun x =>
    let k (l : Nat) : Nat := x.get f l 1 f.b
    x.estate (fun l => 1 ≤ k l && k l ≤ 4)
      (x.done (x.w.write x.tp f.d 1 fun l =>
        (x.s.findEntry x.pasid fun e => e.kind.toNat == k l && e.object == x.objOf f l && e.state != 2).getD 0xFFFFFFFF))

/-- R232: the lanes die as one event. -/
def execDie (f : Fields) (s : State) : Res :=
  issue (.die f) s fun x => if x.tp == 0 then x.skip else x.skip.kill x.w.uid x.tp x.pc

end Sys2Proof.Machine
end

