-- ==== Sys2Proof/Machine/Items.lean ====
section
/-! DEFINITION. Machine/Items.lean: the ingress ring and the packer (R198 to R205), TIDs (R363), the items and flows
group (R206 to R212), `exit` (R129, R207), and the restart of a warp at the packer (R205). -/

namespace Sys2Proof.Machine

/-! ### TIDs (R221, R363) -/

/-- The threads of a launch that no crew has taken up yet: their first TID and how many they are. -/
def Launch.unstarted (l : Launch) : Nat × Nat :=
  match l.tidBase with
  | some b =>
    let from_ := min l.lrec.count (l.nextCrew * l.lrec.crewSize * 32)
    (b + from_, l.lrec.count - from_)
  | none => (0, 0)

/-- The TIDs that live threads and records of a context name. -/
def State.namedTids (s : State) (pasid : Nat) : List Nat :=
  let c := s.ctx pasid
  (s.warps.filter fun w => s.pasidOf w == pasid).flatMap (fun w =>
    w.lanes.filterMap fun (y : Lane) => if y.st == .live then some y.tid.toNat else none) ++
  c.estate.flatMap (fun e => if e.kind == 0 then [] else [e.holder.toNat, e.from_.toNat] ++ if e.heir == 0 then [] else [e.heir.toNat]) ++
  c.flows.flatMap (fun f => f.owner.toNat :: f.waiters.filterMap fun w =>
    match w with | .thread t => some t.toNat | .held _ _ => none) ++
  c.teams.flatMap (fun t => t.members.map BitVec.toNat) ++
  c.deaths.flatMap (fun d => d.dead.map fun x => x.tid.toNat)

/-- The blocks of TIDs that launches of a context still have to start. -/
def State.tidBlocks (s : State) (pasid : Nat) : List (Nat × Nat) :=
  (s.launches.filter fun l => l.pasid == pasid).map Launch.unstarted

def tidFree (named : List Nat) (blocks : List (Nat × Nat)) (t : Nat) : Bool :=
  !named.contains t && blocks.all fun (b : Nat × Nat) => t < b.1 || b.1 + b.2 ≤ t

/-- The TIDs from which a search for a free block need look: after something that is in use, and 0. -/
def State.tidStarts (s : State) (pasid : Nat) : List Nat :=
  0 :: (s.namedTids pasid).map (fun t => t + 1) ++ (s.tidBlocks pasid).map fun (b : Nat × Nat) => b.1 + b.2

/-- The lowest base of a block of `n` TIDs of which none is in use (R363). -/
def State.tidBlock (s : State) (pasid n : Nat) : Option Nat :=
  let named := s.namedTids pasid
  let blocks := s.tidBlocks pasid
  let fits (b : Nat) : Bool :=
    b + n ≤ 0x7FFFFFFE && named.all (fun t => t < b || b + n ≤ t) &&
    blocks.all fun (q : Nat × Nat) => q.2 == 0 || b + n ≤ q.1 || q.1 + q.2 ≤ b
  (s.tidStarts pasid).foldl (fun best b =>
    if fits b then (match best with | some y => some (min y b) | none => some b) else best) none

/-! ### The ring (R198, R199) -/

structure Ring where
  w : Nat
  t : Nat
  n : Nat
  closed : Bool
  devfed : Bool
  deriving DecidableEq, Repr

/-- A ring header. One that breaks R198's rules leaves the launch's item stream undefined; it is read all the same, with n
modulo 32 and its reserved bits ignored (DESIGN CHOICE, log entry 57). -/
def ringOf (bs : List Byte) : Ring :=
  let num (o k : Nat) : Nat := leNat ((bs.drop o).take k)
  { w := num 0 8, t := num 8 8, n := num 16 4 % 32, closed := (num 20 4).testBit 0, devfed := (num 20 4).testBit 1 }

def State.ringAt (s : State) (pasid : Nat) (hdr : DWord) : Option Ring :=
  (s.ctxRead pasid hdr 64).map fun r => ringOf r.2

def slotAddr (hdr : DWord) (r : Ring) (k : Nat) : DWord := hdr + 64 + BitVec.ofNat 64 (32 * (k % 2 ^ r.n))

/-- A count of the header raised by one. -/
def State.bump (s : State) (pasid : Nat) (hdr : DWord) (ofs : Nat) : State :=
  let a := hdr + BitVec.ofNat 64 ofs
  s.ctxWrite pasid a (leBytes 4 (s.ctxNum pasid a 4 + 1))

/-- Whether the ring is closed and empty and the held list is empty. -/
def State.itemsDone (s : State) (l : Launch) : Bool :=
  l.held.isEmpty &&
  match s.ringAt l.pasid l.lrec.ring with
  | some r => r.closed && r.t == r.w
  | none => false

/-! ### The packer (R201 to R204) -/

/-- An item as a lane receives it. -/
structure Taken where
  flow : Word
  cls : Nat
  replay : Bool
  pay : DWord
  iid : Word
  iseq : Word
  arrival : Nat
  fb : Bool
  /-- It is a replayed item, whose thread starts at the role entry (R214). -/
  again : Bool := false
  deriving DecidableEq, Repr

def Held.taken (h : Held) (iseq : Word) (fb : Bool) : Taken :=
  { again := match h.st with | .replayed _ _ => true | _ => false, flow := h.flow, cls := h.cls.toNat, replay := h.replay, pay := h.pay, iid := h.iid, iseq := iseq,
    arrival := h.arrival, fb := fb }

def State.dropHeld (s : State) (launch : Nat) (iid : Word) : State :=
  match s.launch? launch with
  | some l => s.setLaunch { l with held := l.held.filter fun h => h.iid != iid }
  | none => s

def State.setHeld (s : State) (launch : Nat) (iid : Word) (st : HeldSt) : State :=
  match s.launch? launch with
  | some l => s.setLaunch { l with held := l.held.map fun h => if h.iid == iid then { h with st := st } else h }
  | none => s

/-- The entries of a label that stand for an item which is placed now pass to its thread. -/
def State.claim (s : State) (pasid : Nat) (kind : BitVec 4) (object : DWord) (tid : Word) : State :=
  match s.holding pasid grantedItem kind object with
  | some i => s.putEntry pasid i { s.entry pasid i with holder := tid }
  | none => s

/-- A held item that is ready: replayed ones first, then granted ones in the order of their grants (R202, R203, R214). -/
def readyHeld (held : List Held) : Option Held :=
  match held.find? fun h => match h.st with | .replayed _ _ => true | _ => false with
  | some h => some h
  | none =>
    let granted := held.filterMap fun h => match h.st with | .granted _ n => some (n, h) | _ => none
    (granted.foldl (fun (best : Option (Nat × Held)) (x : Nat × Held) =>
      match best with | some y => if x.1 < y.1 then some x else best | none => some x) none).map Prod.snd

/-- A ready held item placed under its new thread. -/
def State.placeHeld (s : State) (l : Launch) (h : Held) (tid : Word) : State × Taken :=
  let fb := match h.st with | .granted fb _ => fb | .replayed fb _ => fb | _ => false
  let s := s.dropHeld l.uid h.iid
  let kept := match h.st with | .replayed _ kept => kept | _ => true
  let s :=
    if h.cls == 2 && kept then
      let s := s.setFlow l.pasid { s.flow l.pasid h.flow with owner := tid }
      s.claim l.pasid 3 (flowObj h.flow) tid
    else if h.cls == 1 then s.claim l.pasid 4 (slotObj h.flow h.iseq) tid
    else s
  (s, h.taken h.iseq fb)

/-- An O or A item for which there is room: it is taken, or joins its flow's waiters. -/
def State.takeItem (s : State) (l : Launch) (h : Held) (tid : Word) : State × Option Taken :=
  if h.cls == 1 then
    let (s, seq, fb) := s.takeOrdered l.pasid h.flow tid
    (s.dropHeld l.uid h.iid, some (h.taken seq fb))
  else
    let f := s.flow l.pasid h.flow
    if f.owner == noThread then
      let (s, fb) := s.takeFlow l.pasid h.flow tid
      (s.dropHeld l.uid h.iid, some (h.taken 0 fb))
    else
      let s := s.setFlow l.pasid { f with waiters := f.waiters ++ [.held l.uid h.iid] }
      (s.setHeld l.uid h.iid .waiting, none)

/-- A ring item taken off the ring: none when it is refused (R199). -/
def State.ringItem (s : State) (l : Launch) (r : Ring) : State × Option Held :=
  let hdr := l.lrec.ring
  match s.ctxRead l.pasid (slotAddr hdr r r.t) 32 with
  | none => (s, none)
  | some (s, bs) =>
    let num (o k : Nat) : Nat := leNat ((bs.drop o).take k)
    let b4 := num 4 1
    let s := s.ctxWrite l.pasid (hdr + 8) (leBytes 8 (r.t + 1))
    let h : Held :=
      { flow := BitVec.ofNat 32 (num 0 4), cls := BitVec.ofNat 2 b4, replay := l.lrec.replay || b4.testBit 2,
        pay := BitVec.ofNat 64 (num 8 8), iid := l.nextIid, iseq := 0, arrival := s.now, st := .table }
    let s := s.setLaunch { l with nextIid := l.nextIid + 1 }
    if b4 % 4 == 3 || 8 ≤ b4 || num 5 3 != 0 || num 16 16 != 0 then (s.bump l.pasid hdr 24, none) else (s, some h)

/-- The next item that a lane with a new TID receives, as the packer takes it (R202). -/
def State.nextItem (launch : Nat) (tid : Word) : Nat → State → State × Option Taken
  | 0, s => (s, none)
  | fuel + 1, s =>
    match s.launch? launch with
    | none => (s, none)
    | some l =>
      match readyHeld l.held with
      | some h => let (s, t) := s.placeHeld l h tid; (s, some t)
      | none =>
        match l.held.find? fun h => h.st == .table && s.flowRoom l.pasid h.flow with
        | some h =>
          match s.takeItem l h tid with
          | (s, some t) => (s, some t)
          | (s, none) => State.nextItem launch tid fuel s
        | none =>
          match s.ringAt l.pasid l.lrec.ring with
          | none => (s, none)
          | some r =>
            if r.t == r.w || 1024 ≤ l.held.length then (s, none)
            else
              match s.ringItem l r with
              | (s, none) => State.nextItem launch tid fuel s
              | (s, some h) =>
                if h.cls == 0 then (s, some (h.taken 0 false))
                else
                  let l := (s.launch? launch).getD l
                  let s := s.setLaunch { l with held := l.held ++ [h] }
                  if s.flowRoom l.pasid h.flow then
                    match s.takeItem { l with held := l.held ++ [h] } h tid with
                    | (s, some t) => (s, some t)
                    | (s, none) => State.nextItem launch tid fuel s
                  else State.nextItem launch tid fuel (s.bump l.pasid l.lrec.ring 28)

/-- A lane loaded with an item (R15, R204). -/
def Lane.load (x : Lane) (t : Taken) (tid : Word) (nc : Byte) : Lane :=
  { x with
    st := .live, tid := tid, nc := nc, iflow := t.flow, iclass := iclassOf 0 t.cls t.fb, iseq := t.iseq, iid := t.iid,
    ipay := t.pay, heir := 0, inher := 0, teams := [], posted := false, replay := t.replay, arrival := t.arrival }

/-- How many items a fill may have to look at. -/
def State.fillFuel (s : State) (launch : Nat) : Nat :=
  match s.launch? launch with
  | none => 0
  | some l => 2 * l.held.length + 2 + (match s.ringAt l.pasid l.lrec.ring with | some r => 2 * (r.w - r.t) | none => 0)

/-- What a fill has done: the lanes placed, and those of them whose items are replayed ones. -/
structure Filled where
  s : State
  placed : Word := 0
  again : Word := 0

/-- Items placed in lanes, in ascending order, while there are any (R202). A replayed item's thread starts a path of its
own (R214), with nesting 0. -/
def State.fillLanes (uid : Nat) (nc : Byte) : List Nat → State → Filled
  | [], s => { s := s }
  | l :: rest, s =>
    match s.warp? uid with
    | none => { s := s }
    | some w =>
      match s.tidBlock (s.pasidOf w) 1 with
      | none => { s := s }
      | some t =>
        let tid := BitVec.ofNat 32 t
        match State.nextItem w.launch tid (s.fillFuel w.launch) s with
        | (s, none) => { s := s }
        | (s, some item) =>
          let s : State := match s.warp? uid with
            | some w => s.setWarp (w.mapLanes (bitOf l) fun _ x => x.load item tid (if item.again then 0 else nc))
            | none => s
          let r := State.fillLanes uid nc rest s
          { r with placed := r.placed ||| bitOf l, again := if item.again then r.again ||| bitOf l else r.again }

/-- A page that the packer needs asked for, if it is not there (R345). -/
def State.askRun (s : State) (l : Launch) (va : DWord) (k : Nat) (n : Need) : State :=
  match s.run l.pasid va k n with
  | .bad a .absent => (s.askPage l.pasid l.queue a n).1
  | .bad a .pending => s.askAts l.pasid a
  | _ => s

/-- A fill of every vacant lane of a warp. A page of the ring's header, or of its next item, that is not present is asked
for. -/
def State.fill (s : State) (uid : Nat) (nc : Byte) : Filled :=
  match s.warp? uid with
  | none => { s := s }
  | some w =>
    let l := s.launch w.launch
    let s := s.askRun l l.lrec.ring 64 { r := true, w := true }
    let r := State.fillLanes uid nc (lanesOf w.vacant) s
    match r.s.ringAt l.pasid l.lrec.ring with
    | some h =>
      if r.placed != w.vacant && h.t != h.w then
        { r with s := r.s.askRun l (slotAddr l.lrec.ring h h.t) 32 { r := true } }
      else r
    | none => r

/-- A warp starts, or starts again, with the lanes that a fill has placed: what is the warp's own has its initial value
(R18, R204, R205). -/
def Warp.begin (w : Warp) (entry : DWord) (m : Word) : Warp :=
  { uid := w.uid, core := w.core, wid := w.wid, crew := w.crew, launch := w.launch, role := w.role, vN := w.vN, sN := w.sN,
    region := w.region, age := w.age, readySince := w.readySince, lanes := w.lanes, port := freshPath entry m }

/-- The role entry of an item launch. -/
def Launch.entry (l : Launch) : DWord := l.lrec.code + ((l.lrec.roles.head?.map Role.entry).getD 0).setWidth 64

/-- A warp at the packer: a fill starts it at the role entry; it retires when no item can come (R205). -/
def State.restart (s : State) (uid : Nat) : State :=
  match s.warp? uid with
  | none => s
  | some w =>
    if w.why .port != some .packer || w.live != 0 then s
    else
      let r := s.fill uid 0
      let s := r.s
      match s.warp? uid, s.launch? w.launch with
      | some w, some l =>
        if r.placed != 0 then s.setWarp (w.begin l.entry r.placed)
        else if s.itemsDone l then s.retire w
        else s
      | _, _ => s

def execWarpRestart (uid : Nat) (s : State) : Res := .next (s.restart uid)

/-! ### Ending items (R207, R208, R129) -/

def Issue.isItem (x : Issue) : Bool := (x.s.launch x.w.launch).lrec.item

/-- The threads of the taking-part lanes end, and the lanes become vacant; the slot has gone on already. -/
def Issue.endLanes (x : Issue) (s : State) : State :=
  match s.warp? x.w.uid with
  | none => s
  | some w => (s.endThreads w x.pc x.tp).lose x.w.uid x.tp .vacant

/-- `exit`: a reconvergence point; the other lanes go on in a new block. -/
def execExit (f : CFields) (s : State) : Res :=
  issue (.exit f) s fun x => x.checked f.sigx (x.converge fun x =>
    if x.tp == 0 then x.goto x.next else x.endLanes (x.goto x.next))

def execIend (f : Fields) (s : State) : Res :=
  issue (.iend f) s fun x =>
    if x.tp == 0 then x.skip
    else if !x.isItem then x.trapField .op x.tp
    else x.endLanes x.skip

/-- D of `inext`: the number of lanes placed. -/
def Issue.putCount (f : Fields) (w : Warp) (n : Nat) : Warp :=
  match f.d with
  | .s k => w.setSreg k.toNat (BitVec.ofNat 32 n)
  | _ => w

/-- Lanes that have ended leave the slots and entries of a warp, and lanes placed join the slot and every entry that
held a lane of it (R129). -/
def Warp.exchange (w : Warp) (side : Side) (old ended placed : Word) : Warp :=
  let held := w.stack.map fun e => e.mask &&& old != 0
  let w := w.drop ended
  let w := { w with stack := (w.stack.zip held).map fun (q : SEntry × Bool) =>
    if q.2 then { q.1 with mask := q.1.mask ||| placed } else q.1 }
  let x := w.slot side
  w.setSlot side { x with mask := x.mask ||| placed }

/-- The end of `inext`, with how many lanes it has placed, those of replayed items, and whether it has changed its slot's
mask. -/
def Issue.inextEnd (x : Issue) (f : Fields) (s : State) (w : Warp) (placed : Nat) (again : Word) (changed : Bool) : State :=
  let w := Issue.putCount f w placed
  let w := if changed then w.jump x.side x.next else w.advance x.side x.i
  let w := if again == 0 then w else w.addPath (otherSide x.side) (freshPath (s.launch w.launch).entry again) 0
  let s := s.setWarp w
  if w.live == 0 then s.checkRetire w.uid else s.setWarp w.settle

/-- The fill of `inext`, after the items of the lanes in `ended` have ended; `before` says that an earlier presentation
has changed the slot's mask. A slot that waits while the warp has no live lane has no NC: lanes placed in it later take 0
(DESIGN CHOICE, log entry 55). -/
def Issue.inextFill (x : Issue) (f : Fields) (s : State) (ended : Word) (nc : Byte) (before : Bool) : State :=
  let r := s.fill x.w.uid nc
  let s := r.s
  match s.warp? x.w.uid with
  | none => s
  | some w =>
    let old := (x.w.slot x.side).mask
    let joined := r.placed &&& ~~~r.again
    let w := w.exchange x.side old ended joined
    let left := (w.slot x.side).mask
    let changed := before || joined != 0 || left != old
    if r.placed == 0 && f.sub.getLsbD 0 && !s.itemsDone (s.launch w.launch) && (left != 0 || w.live == 0) then
      let w := if w.live == 0 then { w with stack := [], parked := [] } else w
      let w := w.await x.side (.fill (if w.live == 0 then 0 else nc) changed) s.now
      s.setWarp (if w.live == 0 then w else w.settle)
    else x.inextEnd f s w (countOf r.placed) r.again changed

def Issue.inext (x : Issue) (f : Fields) : State :=
  match x.w.why x.side with
  | some (.fill nc changed) => x.inextFill f x.s 0 nc changed
  | _ =>
    if x.tp == 0 then x.skip
    else if !x.isItem then x.trapField .op x.tp
    else
      let nc := x.w.nc x.side
      let s := x.s.endThreads x.w x.pc x.tp
      match s.warp? x.w.uid with
      | none => s
      | some w =>
        let s := (s.dropMonitors w.uid x.tp).setWarp (w.mapLanes x.tp fun _ y => { y with st := .vacant })
        x.inextFill f s x.tp nc false

def execInext (f : Fields) (s : State) : Res := issue (.inext f) s fun x => x.inext f

/-! ### Ordered release (R209, R210) -/

/-- Whether a lane's ordered slot is its own and undischarged. -/
def State.slotOpen (s : State) (pasid : Nat) (y : Lane) : Bool :=
  y.iclass.extractLsb' 0 2 == 1 && (s.holding pasid y.tid 4 (slotObj y.iflow y.iseq)).isSome

/-- How many records a home slice buffers. -/
def State.buffered (s : State) (home : Nat) : Nat :=
  (s.ctxs.map fun c => (c.flows.map fun f =>
    if s.flowHome c.pasid f.id == home then (f.recs.filter fun (q : Word × Option Rec) => q.2.isSome).length
    else 0).sum).sum

/-- The bytes of a record cut at where they lie. -/
def cutBytes : List (Loc × Nat) → List Byte → List (Nat × List Byte)
  | [], _ => []
  | (p, k) :: rest, bs => (p.key, bs.take k) :: cutBytes rest (bs.drop k)

/-- The records of lanes posted, one lane after another; those that find no buffer wait. -/
def Issue.post (x : Issue) (f : Fields) (addr : Nat → DWord) (parts : Nat → List (Loc × Nat)) : State :=
  let len := 16 * (f.sub.toNat % 4 + 1)
  let start : State := if x.tp == 0 then x.s else x.s.drainWarp x.w.uid
  let r := (lanesOf x.tp).foldl (fun (r : State × Word) l =>
    let y := x.w.lane l
    let fl := r.1.flow x.pasid y.iflow
    if fl.release != y.iseq && 8192 ≤ r.1.buffered (r.1.flowHome x.pasid y.iflow) then (r.1, r.2 ||| bitOf l)
    else
      let bs := leBytes len (x.get f l (len / 4) f.c)
      let rc : Rec := { parts := cutBytes (parts l) bs, addr := addr l, queue := r.1.queueOf x.w, tid := y.tid }
      let s := match r.1.holding x.pasid y.tid 4 (slotObj y.iflow y.iseq) with
        | some i => r.1.discharge x.pasid i
        | none => r.1
      let s := s.holdSlot x.pasid y.iflow y.iseq (some rc)
      (s.mapThread x.pasid y.tid fun z => { z with posted := true }, r.2)) (start, 0)
  if r.2 == 0 then x.doneIn r.1
  else
    match r.1.warp? x.w.uid with
    | some w => { x with s := r.1, w := w }.await (.release r.2)
    | none => r.1

def execIrel (f : Fields) (s : State) : Res :=
  issue (.irel f) s fun x =>
    -- A lane that waits for a buffer is presented again alone (R210).
    let x := match x.w.why x.side with
      | some (.release left) => { x with tp := x.tp &&& left }
      | _ => x
    let addr (l : Nat) : DWord := BitVec.ofNat 64 (x.get f l 2 f.a)
    x.estate (fun l => x.s.slotOpen x.pasid (x.w.lane l))
      (x.globalRun { r := true, w := true } false (16 * (f.sub.toNat % 4 + 1)) 16 addr none fun y parts =>
        y.post f addr parts)

/-! ### Relabelling (R211) -/

/-- The flow that a lane names. -/
def Issue.flowOf (x : Issue) (f : Fields) (l : Nat) : Word := BitVec.ofNat 32 (x.get f l 1 f.a)

def Lane.cls (y : Lane) : Nat := (y.iclass.extractLsb' 0 2).toNat

/-- Whether a sequence is lower than another. -/
def seqLower (s q : Word) : Bool := 1 ≤ (q - s).toNat && (q - s).toNat ≤ 2 ^ 31

/-- Whether a thread holds an undischarged slot of a lane's flow that is lower than the lane's, its own or one that it
has inherited (R237). -/
def State.holdsLower (s : State) (pasid : Nat) (tid : Word) (y : Lane) : Bool :=
  (s.findEntry pasid fun e =>
    e.heldBy tid && e.kind == 4 && e.object.extractLsb' 0 32 == y.iflow && seqLower (e.object.extractLsb' 32 32) y.iseq).isSome

/-- Whether a lane is refused. -/
def Issue.refuses (x : Issue) (f : Fields) (l : Nat) : Bool :=
  let y := x.w.lane l
  let cls := f.sub.toNat % 4
  let flow := x.flowOf f l
  let others := (lanesOf x.w.live).filter fun m => m != l
  let fl := x.s.flow x.pasid flow
  (cls == 2 && (others.any (fun m => fl.owner == x.tid m && x.s.hasFlow x.pasid flow) ||
    (lanesOf x.tp).any fun m => m < l && x.flowOf f m == flow)) ||
  (x.s.slotOpen x.pasid y && others.any fun m => x.s.holdsLower x.pasid (x.tid m) y) ||
  (cls != 0 && !(flow == y.iflow && cls == y.cls) && !x.s.flowRoom x.pasid flow)

/-- Where a lane stands on its way to its new label: it has it; it waits for the head, or in the flow's queue for a
grant; or the table has filled, and it is refused. -/
inductive Relabel where
  | done | head | queued | refused
  deriving DecidableEq, Repr

/-- One lane's way to its new label. -/
def Issue.relabelLane (x : Issue) (f : Fields) (s : State) (l : Nat) (queued : Bool) : State × Relabel :=
  let cls := f.sub.toNat % 4
  let flow := x.flowOf f l
  match s.threadLane x.pasid (x.tid l) with
  | none => (s, .done)
  | some y =>
    let label (s : State) (g : Lane → Lane) : State := s.mapThread x.pasid y.tid g
    if queued then
      if (s.flow x.pasid flow).owner == y.tid then (s, .done) else (s, .queued)
    else if flow == y.iflow && cls == y.cls then (s, .done)
    else if cls != 0 && !s.flowRoom x.pasid flow then (s, .refused)
    else if s.slotOpen x.pasid y && (s.flow x.pasid y.iflow).release != y.iseq then (s, .head)
    else
      let s := s.endLabel x.pasid y
      match cls with
      | 0 => (label s fun z => { z with iflow := flow, iclass := iclassOf z.iclass 0 false }, .done)
      | 1 =>
        let (s, seq, fb) := s.takeOrdered x.pasid flow y.tid
        (label s fun z => { z with iflow := flow, iseq := seq, iclass := iclassOf z.iclass 1 fb, posted := false },
          .done)
      | _ =>
        let fl := s.flow x.pasid flow
        if fl.owner == noThread then
          let (s, fb) := s.takeFlow x.pasid flow y.tid
          (label s fun z => { z with iflow := flow, iclass := iclassOf z.iclass 2 fb }, .done)
        else (s.setFlow x.pasid { fl with waiters := fl.waiters ++ [.thread y.tid] }, .queued)

/-- The lanes of a `relabel` that are refused, that have their new label, that wait for a grant. -/
structure Relabels where
  s : State
  refused : Word
  done : Word
  queued : Word

/-- The lanes that are still on their way go on; the instruction completes when every one has arrived. -/
def Issue.relabelGo (x : Issue) (f : Fields) (refused done queued : Word) : State :=
  let todo := x.tp &&& ~~~refused &&& ~~~done
  let start := if todo == 0 then x.s else x.s.drainWarp x.w.uid
  let r := (lanesOf todo).foldl (fun (r : Relabels) l =>
    match x.relabelLane f r.s l (r.queued.getLsbD l) with
    | (s, .done) => { r with s := s, done := r.done ||| bitOf l, queued := r.queued &&& ~~~bitOf l }
    | (s, .head) => { r with s := s }
    | (s, .queued) => { r with s := s, queued := r.queued ||| bitOf l }
    | (s, .refused) => { r with s := s, refused := r.refused ||| bitOf l }) ⟨start, refused, done, queued⟩
  match r.s.warp? x.w.uid with
  | none => r.s
  | some w =>
    if x.tp &&& ~~~r.refused &&& ~~~r.done == 0 then
      x.doneIn (r.s.setWarp (w.write x.tp f.d 1 fun l => if r.refused.getLsbD l then 0 else 1))
    else { x with s := r.s, w := w }.await (.relabel r.refused r.done r.queued)

def execRelabel (f : Fields) (s : State) : Res :=
  issue (.relabel f) s fun x =>
    match x.w.why x.side with
    | some (.relabel refused done queued) => x.relabelGo f refused done queued
    | _ => x.relabelGo f (maskOf fun l => x.tp.getLsbD l && x.refuses f l) 0 0

/-! ### Spawning and querying (R212) -/

/-- The item that a lane spawns. -/
def Issue.itemBytes (x : Issue) (f : Fields) (l : Nat) : List Byte :=
  leBytes 4 (x.get f l 1 f.b) ++ leBytes 4 (f.sub.toNat % 8) ++ leBytes 8 (x.get f l 2 f.c) ++ leBytes 16 0

/-- The header that a lane names. -/
def Issue.ringHdr (x : Issue) (f : Fields) (l : Nat) : DWord := BitVec.ofNat 64 (x.get f l 2 f.a)

/-- What `ispawn` finds for a lane: the address that decides its fate, how the translations of its header and of its item's
slot end, and the place of the header if its ring takes the item. -/
structure Spawn where
  lane : Nat
  at_ : DWord
  run : Run
  slot : Option DWord := none
  hdrKey : Option Nat := none

/-- The lanes' items, one after another: a lane whose header or slot is not there takes no place in its ring. -/
def Issue.spawnPlan (x : Issue) (f : Fields) : List Spawn :=
  let need : Need := { r := true, w := true }
  let bad (ps : List (Loc × Nat)) : Bool := ps.any fun (p : Loc × Nat) => x.s.isBad p.1.key p.2
  (lanesOf x.tp).foldl (fun (plan : List Spawn) l =>
    let hdr := x.ringHdr f l
    let one : Spawn :=
      match x.s.run x.pasid hdr 64 need with
      | .bad a t => ⟨l, hdr, .bad a t, none, none⟩
      | .ok ps =>
        if bad ps then ⟨l, hdr, .bad hdr .bad, none, none⟩
        else
          match x.s.ringAt x.pasid hdr with
          | none => ⟨l, hdr, .ok ps, none, none⟩
          | some r =>
            let key := ps.head?.map fun (p : Loc × Nat) => p.1.key
            let before := (plan.filter fun (p : Spawn) => p.hdrKey == key).length
            if !r.devfed || r.closed || 2 ^ r.n ≤ r.w + before - r.t then ⟨l, hdr, .ok ps, none, none⟩
            else
              let a := slotAddr hdr r (r.w + before)
              match x.s.run x.pasid a 32 need with
              | .bad b t => ⟨l, a, .bad b t, some a, none⟩
              | .ok qs => if bad qs then ⟨l, a, .bad a .bad, some a, none⟩ else ⟨l, hdr, .ok (ps ++ qs), some a, key⟩
    plan ++ [one]) []

/-- One lane's item enqueued: pd. -/
def Issue.spawn (x : Issue) (f : Fields) (s : State) (l : Nat) : State × Nat :=
  let hdr := x.ringHdr f l
  match s.ringAt x.pasid hdr with
  | none => (s, 0)
  | some r =>
    if !r.devfed || r.closed || 2 ^ r.n ≤ r.w - r.t then (s, 0)
    else
      let s := s.ctxWrite x.pasid (slotAddr hdr r r.w) (x.itemBytes f l)
      (s.ctxWrite x.pasid hdr (leBytes 8 (r.w + 1)), 1)

def execIspawn (f : Fields) (s : State) : Res :=
  issue (.ispawn f) s fun x =>
    let hdr := x.ringHdr f
    x.addressed 64 64 hdr
      (let plan := x.spawnPlan f
       let of (l : Nat) : Spawn := (plan.find? fun (p : Spawn) => p.lane == l).getD ⟨l, hdr l, .ok [], none, none⟩
       x.settleRuns { r := true, w := true } false (fun l => (of l).run) (fun l => (of l).at_)
         (fun l => (hdr l, 64) :: ((of l).slot.map fun a => (a, 32)).toList) none fun y _ =>
           let start : State := if y.tp == 0 then y.s else y.s.drainWarp y.w.uid
           y.finish f 1 hdr ((lanesOf y.tp).foldl (fun (r : Reads) l =>
             let (s, v) := y.spawn f r.s l
             { r with s := s, vals := r.vals ++ [(l, v)] }) ⟨start, [], 0⟩))

/-- The word that `iflowq` reads. -/
def flowWord (f : Flow) : Nat :=
  f.release.toNat + min f.waiters.length (2 ^ 24 - 1) * 2 ^ 32 + (if f.owner != noThread then 2 ^ 62 else 0) +
    (if f.fb then 2 ^ 63 else 0)

def execIflowq (f : Fields) (s : State) : Res :=
  issue (.iflowq f) s fun x =>
    let lanes := if isScalar f.d then (lanesOf x.tp).take 1 else lanesOf x.tp
    let r := lanes.foldl (fun (r : Reads) l =>
      let fl := r.s.flow x.pasid (x.flowOf f l)
      let s := if f.sub.getLsbD 0 && fl.fb then r.s.setFlow x.pasid { fl with fb := false } else r.s
      { r with s := s, vals := r.vals ++ [(l, flowWord fl)] }) ⟨x.s, [], 0⟩
    let w := x.w.write x.tp f.d 2 fun l => laneVal r.vals (if isScalar f.d then lowOf x.tp else l)
    x.doneIn (r.s.setWarp w)

end Sys2Proof.Machine
end

