-- ==== Sys2Proof/Machine/Horizon.lean ====
section
/-! DEFINITION. Machine/Horizon.lean: the horizon unit: envelope registers, their canonical form and simplification,
and the twelve horizon instructions (R277 to R300). Hull decisions are made on rational numbers. -/

namespace Sys2Proof.Machine

/-! ### Numbers -/

/-- (-1)^neg * m * 2^e. -/
def ratNum (neg : Bool) (m : Nat) (e : Int) : Rat :=
  let z : Int := if neg then -m else m
  if 0 ≤ e then ((z * 2 ^ e.toNat : Int) : Rat) else mkRat z (2 ^ (-e).toNat)

/-- The real value of an FP64 code, if it is finite. -/
def ratOf (d : DWord) : Option Rat :=
  match fp64.decode d.toNat with
  | .num n m e => some (ratNum n m e)
  | _ => none

/-- A number that may have an FP64 code already (R282, log entry 27). -/
structure PwlNum where
  q : Rat
  code : Option DWord := none
  deriving DecidableEq, Repr

def PwlNum.stored (d : DWord) : PwlNum := ⟨(ratOf d).getD 0, some d⟩

/-- A real number rounded to FP64, RNE, with the flags that a horizon instruction takes from it (R287). -/
def rneRat (q : Rat) : Nat × Word :=
  let m := q.num.natAbs
  let sh := bitLen q.den + 70
  let (c, fl) := fp64.round .rne false (q.num < 0) (m * 2 ^ sh / q.den) (-(sh : Int)) (m * 2 ^ sh % q.den != 0)
  (c, fl &&& (IX ||| UF))

/-- The code of a number, rounded where it has none yet, with its flags. -/
def PwlNum.round (x : PwlNum) : DWord × Word :=
  match x.code with
  | some d => (d, 0)
  | none => let (c, fl) := rneRat x.q; (BitVec.ofNat 64 c, fl)

/-- A line: slope and intercept. -/
structure Line where
  a : PwlNum
  b : PwlNum
  /-- The flags of the roundings that made it. -/
  fl : Word := 0
  deriving DecidableEq, Repr

def Line.at (l : Line) (x : Rat) : Rat := l.a.q * x + l.b.q

/-- Where two lines of different slopes meet. -/
def meet (l m : Line) : Rat := (l.b.q - m.b.q) / (m.a.q - l.a.q)

/-! ### Registers (R277) -/

def Crew.env (c : Crew) (e : Nat) : Env := tget {} c.envs e

def Crew.setEnv (c : Crew) (e : Nat) (x : Env) : Crew := { c with envs := tset {} c.envs e x }

def envNo : Opnd → Nat
  | .e n => n.toNat
  | _ => 0

/-- The lines of a register. -/
def Env.ls (e : Env) : List Line := e.lines.map fun (l : DWord × DWord) => ⟨.stored l.1, .stored l.2, 0⟩

/-- A domain: none stands for the infinite end. -/
structure Dom where
  lo : Option PwlNum
  hi : Option PwlNum
  deriving DecidableEq, Repr

def endOf (d : DWord) : Option PwlNum := (ratOf d).map fun q => ⟨q, some d⟩

def Env.dom (e : Env) : Dom := ⟨endOf e.lo, endOf e.hi⟩

def Env.isZero (e : Env) : Bool := e.lines.isEmpty

def Dom.loQ (d : Dom) : Option Rat := d.lo.map PwlNum.q

def Dom.hiQ (d : Dom) : Option Rat := d.hi.map PwlNum.q

/-- Whether a domain is empty, or one point. -/
def Dom.empty (d : Dom) : Bool := match d.loQ, d.hiQ with | some l, some h => h < l | _, _ => false

def Dom.point (d : Dom) : Option Rat := match d.loQ, d.hiQ with | some l, some h => if l == h then some l else none | _, _ => none

def Dom.has (d : Dom) (x : Rat) : Bool :=
  (match d.loQ with | some l => l ≤ x | none => true) && (match d.hiQ with | some h => x ≤ h | none => true)

/-- The greater of two lower ends, and the lesser of two upper ends. -/
def maxEnd (x y : Option PwlNum) : Option PwlNum :=
  match x, y with
  | some a, some b => if a.q < b.q then some b else some a
  | some a, none => some a
  | none, y => y

def minEnd (x y : Option PwlNum) : Option PwlNum :=
  match x, y with
  | some a, some b => if b.q < a.q then some b else some a
  | some a, none => some a
  | none, y => y

def Dom.meet (d e : Dom) : Dom := ⟨maxEnd d.lo e.lo, minEnd d.hi e.hi⟩

/-- The greatest value of lines at a point, and the first line that has it with its index. -/
def bestAt (x : Rat) (ls : List Line) : Option (Nat × Line) :=
  (ls.zipIdx.foldl (fun (r : Option (Nat × Line)) (p : Line × Nat) =>
    match r with
    | some b => if b.2.at x < p.1.at x then some (p.2, p.1) else some b
    | none => some (p.2, p.1)) none)

def valueAt (x : Rat) (ls : List Line) : Rat := match bestAt x ls with | some b => b.2.at x | none => 0

/-! ### Canonical form (R283) -/

/-- A line put among lines of rising slope: of two with one slope the one with the greater intercept stays, and equal
lines count once. -/
def putLine (l : Line) : List Line → List Line
  | [] => [l]
  | m :: rest =>
    if l.a.q < m.a.q then l :: m :: rest
    else if l.a.q == m.a.q then
      (if m.b.q < l.b.q then l :: rest
       else if m.b.q == l.b.q then { m with fl := m.fl ||| l.fl } :: rest
       else m :: rest)
    else m :: putLine l rest

/-- Lines dropped from the top of a hull, built downwards in slope, that a new line leaves without a piece. -/
def dropCovered (l : Line) : List Line → List Line
  | m :: k :: rest => if meet m l ≤ meet k m then dropCovered l (k :: rest) else m :: k :: rest
  | h => h

/-- The upper envelope of lines of rising slope over every real x: each kept line owns a piece. -/
def hull (ls : List Line) : List Line := (ls.foldl (fun h l => l :: dropCovered l h) []).reverse

/-- Whether left < right, where none is an infinite end. -/
def gap (left right : Option Rat) : Bool := match left, right with | some l, some r => l < r | _, _ => true

def qMax (x y : Option Rat) : Option Rat :=
  match x, y with
  | some a, some b => some (if a < b then b else a)
  | some a, none => some a
  | none, y => y

def qMin (x y : Option Rat) : Option Rat :=
  match x, y with
  | some a, some b => some (if b < a then b else a)
  | some a, none => some a
  | none, y => y

/-- The lines of a hull whose pieces have positive length within the domain. -/
def clip (d : Dom) : Option Line → List Line → List Line
  | _, [] => []
  | prev, l :: rest =>
    let left := qMax (prev.map fun p => meet p l) d.loQ
    let right := qMin (rest.head?.map fun n => meet l n) d.hiQ
    (if gap left right then [l] else []) ++ clip d (some l) rest

/-- Lines of a domain of positive length in canonical form. -/
def canonLines (d : Dom) (ls : List Line) : List Line := clip d none (hull (ls.foldl (fun acc l => putLine l acc) []))

/-! ### Simplification (R284) -/

/-- The change of removing a line between its neighbours, none where it is infinite. -/
def change (d : Dom) (prev : Option Line) (l : Line) (next : Option Line) : Option Rat :=
  match prev, next with
  | some p, some n => let x := meet p n; some (l.at x - p.at x)
  | none, some n => d.loQ.map fun x => l.at x - n.at x
  | some p, none => d.hiQ.map fun x => l.at x - p.at x
  | none, none => none

/-- The changes of every line with its index. -/
def changes (d : Dom) : Option Line → Nat → List Line → List (Nat × Rat)
  | _, _, [] => []
  | prev, k, l :: rest =>
    (match change d prev l rest.head? with | some c => [(k, c)] | none => []) ++ changes d (some l) (k + 1) rest

/-- Lines removed one at a time while the least change is within ETOL, none for +inf; whether one was. -/
def simplify (d : Dom) (etol : Option Rat) : Nat → List Line → List Line × Bool
  | 0, ls => (ls, false)
  | n + 1, ls =>
    if ls.length < 2 then (ls, false)
    else
      let best := (changes d none 0 ls).foldl (fun (r : Option (Nat × Rat)) c =>
        match r with
        | some b => if c.2 < b.2 then some c else some b
        | none => some c) none
      match best with
      | none => (ls, false)
      | some (k, c) =>
        if (match etol with | some t => decide (t < c) | none => false) then (ls, false)
        else ((simplify d etol n (ls.eraseIdx k)).1, true)

/-! ### Results (R282 to R287) -/

/-- Trap 0x0A on an operand (R286). -/
def Issue.envTrap (x : Issue) (reason : Nat) (f : Fld) (mask : Word) : State :=
  x.trap 0x0A (BitVec.ofNat 64 (reason + f.code * 16)) mask

/-- A zero-line operand refused (R278). -/
def Issue.needLines (x : Issue) (e : Env) (f : Fld) (act : State) : State := if e.isZero then x.envTrap 1 f x.tp else act

/-- Whether a code is an infinity. -/
def isInf64 (d : DWord) : Bool := match fp64.decode d.toNat with | .inf _ => true | _ => false

/-- A domain end rounded, with its flags; an infinite end stays. -/
def roundEnd (inf : DWord) (e : Option PwlNum) : DWord × Word := match e with | some n => n.round | none => (inf, 0)

def negInf : DWord := 0xFFF0000000000000

def posInf : DWord := 0x7FF0000000000000

/-- Stages 2 to 5 of R282 from the exact candidates and the exact domain. -/
def Issue.envResult (x : Issue) (f : Fields) (d : Dom) (cands : List Line) : State :=
  let c := x.s.crew x.w.crew
  let (lo, lf) := roundEnd negInf d.lo
  let (hi, hf) := roundEnd posInf d.hi
  let dom : Dom := ⟨endOf lo, endOf hi⟩
  let made : List Line :=
    match dom.point with
    | some q =>
      if cands.isEmpty then []
      -- Rounded in stage 3: it sets no flag (R287).
      else [⟨⟨0, some 0⟩, .stored (PwlNum.mk (valueAt q cands) none).round.1, 0⟩]
    | none => cands.map fun l =>
        let (a, fa) := l.a.round
        let (b, fb) := l.b.round
        ⟨.stored a, .stored b, fa ||| fb⟩
  let lost := (d.lo.isSome && isInf64 lo) || (d.hi.isSome && isInf64 hi) ||
    made.any fun l => isInf64 (l.a.code.getD 0) || isInf64 (l.b.code.getD 0)
  if lost then x.envTrap 6 .d x.tp
  else
    let ls := if dom.point.isSome then made else canonLines dom made
    let (ls, simple) :=
      if c.etol == 0 then (ls, false) else simplify dom (ratOf c.etol) ls.length ls
    if 512 < ls.length then x.trap 9 (BitVec.ofNat 64 (ls.length + Fld.d.code * 2 ^ 16)) x.tp
    else
      let fl := ls.foldl (fun fl l => fl ||| l.fl) (lf ||| hf ||| flagIf simple EVSIMP)
      let e : Env := { lo := lo, hi := hi, lines := ls.map fun l => (l.a.code.getD 0, l.b.code.getD 0) }
      x.doneIn ((x.s.setCrew (c.setEnv (envNo f.d) e)).setWarp (x.w.orFlags fl))

/-- An instruction that acts once acts when some lane takes part (R281). -/
def Issue.once (x : Issue) (act : State) : State := if x.tp == 0 then x.skip else act

/-- An instruction that reads registers; a bad one kills every lane that takes part (R390, R391). -/
def Issue.fromEnvs (x : Issue) (es : List Env) (act : State) : State := x.unlessBad (es.any Env.bad) act

def Issue.envOf (x : Issue) (o : Opnd) : Env := (x.s.crew x.w.crew).env (envNo o)

/-- An FP64 operand of a lane. -/
def Issue.d64 (x : Issue) (f : Fields) (l : Nat) (o : Opnd) : DWord := BitVec.ofNat 64 (x.get f l 2 o)

/-! ### Building and combining (R288 to R293) -/

/-- Ends that no domain has (R277). -/
def badLo (d : DWord) : Bool := match fp64.decode d.toNat with | .nan _ => true | .inf n => !n | _ => false

def badHi (d : DWord) : Bool := match fp64.decode d.toNat with | .nan _ => true | .inf n => n | _ => false

def execEinit (f : Fields) (s : State) : Res :=
  issue (.einit f) s fun x => x.once
    (let lo := x.d64 f (lowOf x.tp) f.a
     let hi := x.d64 f (lowOf x.tp) f.b
     let c := x.s.crew x.w.crew
     if badLo lo then x.envTrap 3 .a x.tp
     else if badHi hi then x.envTrap 3 .b x.tp
     else if (Dom.mk (endOf lo) (endOf hi)).empty then x.envTrap 2 .a x.tp
     else x.doneIn (x.s.setCrew (c.setEnv (envNo f.d) { lo := lo, hi := hi, lines := [] })))

def execEins (f : Fields) (s : State) : Res :=
  issue (.eins f) s fun x => x.once
    (let e := x.envOf f.d
     let badA := maskOf fun l => x.tp.getLsbD l && (ratOf (x.d64 f l f.a)).isNone
     let badB := maskOf fun l => x.tp.getLsbD l && (ratOf (x.d64 f l f.b)).isNone
     let bad := badA ||| badB
     x.fromEnvs [e] <|
     if bad != 0 then x.envTrap 5 (if badA.getLsbD (lowOf bad) then .a else .b) bad
     else
       let more : List Line := (lanesOf x.tp).map fun l => ⟨.stored (x.d64 f l f.a), .stored (x.d64 f l f.b), 0⟩
       x.envResult f e.dom (e.ls ++ more))

/-- The points at which the lines of a hull meet. -/
def breaks : List Line → List Rat
  | l :: m :: rest => meet l m :: breaks (m :: rest)
  | _ => []

/-- A number put among rising numbers once. -/
def putRat (x : Rat) : List Rat → List Rat
  | [] => [x]
  | y :: rest => if x < y then x :: y :: rest else if x == y then y :: rest else y :: putRat x rest

/-- The middles between neighbours. -/
def middles : List Rat → List Rat
  | x :: y :: rest => (x + y) / 2 :: middles (y :: rest)
  | _ => []

/-- The sum of two functions, piece by piece of their common refinement (R290): one point in each piece says which
lines are greatest there. -/
def sumLines (d : Dom) (f g : List Line) : List Line :=
  match d.point with
  | some x => [⟨⟨0, none⟩, ⟨valueAt x f + valueAt x g, none⟩, 0⟩]
  | none =>
    let inside := (breaks f ++ breaks g).filter fun x => gap d.loQ (some x) && gap (some x) d.hiQ
    let pts := (inside ++ d.loQ.toList ++ d.hiQ.toList).foldl (fun acc x => putRat x acc) []
    let first : List Rat := if d.lo.isNone then pts.head?.toList.map fun x => x - 1 else []
    let last : List Rat := if d.hi.isNone then pts.getLast?.toList.map fun x => x + 1 else []
    let at_ := if pts.isEmpty then [0] else first ++ middles pts ++ last
    at_.filterMap fun x =>
      match bestAt x f, bestAt x g with
      | some p, some q => some ⟨⟨p.2.a.q + q.2.a.q, none⟩, ⟨p.2.b.q + q.2.b.q, none⟩, 0⟩
      | _, _ => none

/-- The exact conjugate (R292): its domain and its lines. -/
def conjugate (d : Dom) (ls : List Line) : Dom × List Line :=
  let a0 := ls.head?.map fun l => l.a.q
  let an := ls.getLast?.map fun l => l.a.q
  let hi := match d.loQ, d.hiQ with | some l, some h => if l < h then [h] else [] | _, h => h.toList
  let ps := d.loQ.toList ++ breaks ls ++ hi
  let num (q : Option Rat) : Option PwlNum := q.map fun q => ⟨q, none⟩
  if ps.isEmpty then
    (⟨num a0, num a0⟩, ls.head?.toList.map fun l => ⟨⟨0, none⟩, ⟨-l.b.q, none⟩, 0⟩)
  else
    (⟨if d.lo.isNone then num a0 else none, if d.hi.isNone then num an else none⟩,
      ps.map fun p => ⟨⟨p, none⟩, ⟨-(valueAt p ls), none⟩, 0⟩)

/-- Exact lines in canonical form on an exact domain. -/
def exactCanon (d : Dom) (ls : List Line) : List Line :=
  match d.point with
  | some x => if ls.isEmpty then [] else [⟨⟨0, none⟩, ⟨valueAt x ls, none⟩, 0⟩]
  | none => canonLines d ls

/-- The sum of two ends; an infinite one stays. -/
def addEnd (x y : Option PwlNum) : Option PwlNum :=
  match x, y with
  | some a, some b => some ⟨a.q + b.q, none⟩
  | _, _ => none

def execEsum (f : Fields) (s : State) : Res :=
  issue (.esum f) s fun x => x.once
    (let a := x.envOf f.a
     let b := x.envOf f.b
     let d := a.dom.meet b.dom
     x.fromEnvs [a, b] <| x.needLines a .a (x.needLines b .b
       (if d.empty then x.envTrap 2 .a x.tp else x.envResult f d (sumLines d a.ls b.ls))))

def execEmax (f : Fields) (s : State) : Res :=
  issue (.emax f) s fun x => x.once
    (let a := x.envOf f.a
     let b := x.envOf f.b
     let d := a.dom.meet b.dom
     x.fromEnvs [a, b] (if d.empty then x.envTrap 2 .a x.tp else x.envResult f d (a.ls ++ b.ls)))

/-- R291: the conjugate of the sum of the conjugates. -/
def execEinf (f : Fields) (s : State) : Res :=
  issue (.einf f) s fun x => x.once
    (let a := x.envOf f.a
     let b := x.envOf f.b
     x.fromEnvs [a, b] <| x.needLines a .a (x.needLines b .b
       (let (da, ca) := conjugate a.dom a.ls
        let (db, cb) := conjugate b.dom b.ls
        let d := da.meet db
        if d.empty then x.envTrap 4 .a x.tp
        else
          let sum := exactCanon d (sumLines d (exactCanon da ca) (exactCanon db cb))
          let dom : Dom := ⟨addEnd a.dom.lo b.dom.lo, addEnd a.dom.hi b.dom.hi⟩
          x.envResult f dom (conjugate d sum).2)))

def execEconj (f : Fields) (s : State) : Res :=
  issue (.econj f) s fun x => x.once
    (let a := x.envOf f.a
     x.fromEnvs [a] <| x.needLines a .a (let (d, ls) := conjugate a.dom a.ls; x.envResult f d ls))

def execEshift (f : Fields) (s : State) : Res :=
  issue (.eshift f) s fun x => x.once
    (let a := x.envOf f.a
     let par (o : Opnd) : Option Rat := ratOf (x.d64 f (lowOf x.tp) o)
     x.fromEnvs [a] <| x.needLines a .a
       (match par f.b, par f.c, par f.e with
        | none, _, _ => x.envTrap 5 .b x.tp
        | some _, none, _ => x.envTrap 5 .c x.tp
        | some _, some _, none => x.envTrap 5 .e x.tp
        | some sh, some c, some m =>
          let move (e : Option PwlNum) : Option PwlNum := e.map fun (n : PwlNum) => ⟨n.q + sh, none⟩
          x.envResult f ⟨move a.dom.lo, move a.dom.hi⟩
            (a.ls.map fun l => ⟨⟨l.a.q + m, none⟩, ⟨l.b.q - l.a.q * sh + c, none⟩, 0⟩)))

/-! ### Reading (R294, R295) -/

/-- What `eeval` gives a lane: the value's code, the index, the flags, and whether the value is lost to an infinity. -/
structure EVal where
  v : Nat
  idx : Nat
  fl : Word := 0
  lost : Bool := false
  deriving DecidableEq, Repr

def Env.eval (e : Env) (d : DWord) : EVal :=
  match fp64.decode d.toNat with
  | .nan s => ⟨fp64.nan, 0xFFFFFFFF, flagIf s NV, false⟩
  | .inf _ => ⟨fp64.inf false, 0xFFFFFFFF, 0, false⟩
  | .num n m ex =>
    let x := ratNum n m ex
    if !e.dom.has x then ⟨fp64.inf false, 0xFFFFFFFF, 0, false⟩
    else
      match bestAt x e.ls with
      | none => ⟨fp64.inf false, 0xFFFFFFFF, 0, false⟩
      | some (k, l) => let (v, fl) := rneRat (l.at x); ⟨v, k, fl, isInf64 (BitVec.ofNat 64 v)⟩

def execEeval (f : Fields) (s : State) : Res :=
  issue (.eeval f) s fun x => x.once
    (let e := x.envOf f.a
     x.fromEnvs [e] <| x.needLines e .a
       (let r (l : Nat) : EVal := e.eval (x.d64 f l f.b)
        let lost := maskOf fun l => x.tp.getLsbD l && (r l).lost
        if lost != 0 then x.envTrap 6 .d lost
        else
          x.done (((x.w.write x.tp f.d 2 fun l => (r l).v).write x.tp f.e 1 fun l => (r l).idx).orFlags
            (orAll x.tp fun l => (r l).fl))))

def execEbrk (f : Fields) (s : State) : Res :=
  issue (.ebrk f) s fun x =>
    let e := x.envOf f.a
    x.fromEnvs [e] (x.done (x.w.write x.tp f.d 4 fun l =>
      match e.lines[x.get f l 1 f.b + l]? with
      | some (a, b) => a.toNat + b.toNat * 2 ^ 64
      | none => fp64.nan + fp64.nan * 2 ^ 64))

def execEcnt (f : Fields) (s : State) : Res :=
  issue (.ecnt f) s fun x =>
    let e := x.envOf f.a
    x.fromEnvs [e]
      (x.done ((x.w.write x.tp f.d 1 fun _ => e.lines.length).write x.tp f.e 4 fun _ => e.lo.toNat + e.hi.toNat * 2 ^ 64))

/-! ### Memory images (R296 to R299) -/

/-- The image of an envelope. -/
def Env.image (e : Env) : List Byte :=
  leBytes 4 e.lines.length ++ List.replicate 12 0 ++ leBytes 8 e.lo.toNat ++ leBytes 8 e.hi.toNat ++
    e.lines.flatMap fun (l : DWord × DWord) => leBytes 8 l.1.toNat ++ leBytes 8 l.2.toNat

/-- Whether a header is valid, and its count and domain (R297). -/
def headerOf (bs : List Byte) : Option (Nat × DWord × DWord) :=
  let n := maskNum bs 0 4
  let lo := maskBase bs 16
  let hi := maskBase bs 24
  if 512 < n || maskNum bs 4 12 != 0 || badLo lo || badHi hi || (Dom.mk (endOf lo) (endOf hi)).empty then none
  else some (n, lo, hi)

/-- Whether lines are finite and already canonical on a domain (R297). -/
def Env.valid (e : Env) : Bool :=
  let vals (ls : List Line) : List (Rat × Rat) := ls.map fun l => (l.a.q, l.b.q)
  e.lines.all (fun (l : DWord × DWord) => (ratOf l.1).isSome && (ratOf l.2).isSome) &&
    vals (exactCanon e.dom e.ls) == vals e.ls

/-- An undefined envelope (R8): any canonical one (R277). -/
def State.freeEnv (s : State) : State × Env :=
  let (s, n) := s.pick 513
  let word (i : Nat) : DWord := Config.freeWord (s.free + i)
  let x := word 0
  let y := word 1
  let swap := (Dom.mk (endOf x) (endOf y)).empty
  let lo := if swap then y else x
  let hi := if swap then x else y
  let lo := if badLo lo then negInf else lo
  let hi := if badHi hi then posInf else hi
  let d : Dom := ⟨endOf lo, endOf hi⟩
  let raw := (List.range n).map fun i => (word (2 + 2 * i), word (3 + 2 * i))
  let fin := raw.filter fun (l : DWord × DWord) => (ratOf l.1).isSome && (ratOf l.2).isSome
  let ls := exactCanon d (Env.ls { lo := lo, hi := hi, lines := fin })
  let code (m : PwlNum) : DWord := if isInf64 m.round.1 then 0 else m.round.1
  ({ s with free := s.free + 1026 }, { lo := lo, hi := hi, lines := ls.map fun l => (code l.a, code l.b) })

/-- The register of an `eld` that met an uncorrectable error (R298). -/
def State.undefEnv (s : State) (crew e : Nat) : State :=
  let (s, x) := s.freeEnv
  s.setCrew ((s.crew crew).setEnv e x)

/-- Undefined bytes over runs (R298). -/
def State.undefBytes (s : State) (ps : List (Loc × Nat)) : State :=
  let n := (ps.map Prod.snd).sum
  let bs : List Byte := (List.range n).map fun i => (Config.freeWord (s.free + i)).setWidth 8
  writePieces { s with free := s.free + n } ps bs

def Issue.imageAt (x : Issue) (f : Fields) : DWord := BitVec.ofNat 64 (x.get f (lowOf x.tp) 2 f.a)

def headerAcc (va : DWord) (w : Bool) : Acc := { va := va, n := 32, align := 16, need := if w then { w := true } else { r := true } }

def linesAcc (va : DWord) (n : Nat) (w : Bool) : Acc :=
  { va := va + 32, n := 16 * n, align := 16, need := if w then { w := true } else { r := true } }

def execEld (f : Fields) (s : State) : Res :=
  issue (.eld f) s fun x => x.once
    (let va := x.imageAt f
     let e := envNo f.d
     let undef (_ : List (List (Loc × Nat))) (s : State) : State := s.undefEnv x.w.crew e
     x.unit [headerAcc va false] undef fun ps =>
       let (s, bs) := readRuns x.s ps
       match headerOf bs.flatten with
       | none => x.envTrap 7 .a x.tp
       | some (n, lo, hi) =>
         let y := { x with s := s }
         let accs := if n == 0 then [] else [linesAcc va n false]
         y.unit accs undef fun qs =>
           let (s, rows) := readRuns s qs
           let b := rows.flatten
           let env : Env :=
             { lo := lo, hi := hi, lines := (List.range n).map fun k => (maskBase b (16 * k), maskBase b (16 * k + 8)) }
           if env.valid then x.doneIn ((s.setCrew ((s.crew x.w.crew).setEnv e env)).hintRuns f (ps ++ qs))
           else x.envTrap 7 .a x.tp)

def execEst (f : Fields) (s : State) : Res :=
  issue (.est f) s fun x => x.once
    (let va := x.imageAt f
     let e := x.envOf f.c
     let n := e.lines.length
     let accs := headerAcc va true :: (if n == 0 then [] else [linesAcc va n true])
     x.fromEnvs [e] <| x.unitChecks [headerAcc va true]
       (x.unit accs (fun ps s => s.undefBytes ps.flatten) fun ps =>
         let s := (writePieces x.s ps.flatten e.image).soil (x.s.pasidOf x.w) (accs.map fun a => (a.va, a.n))
         x.doneIn (s.hintRuns f ps)))

end Sys2Proof.Machine
end

