-- ==== Sys2Proof/Machine/Queues.lean ====
section
/-! DEFINITION. Machine/Queues.lean: the queue registers, the crew's pipes and tags (R305 to R316), and the copy,
gather and collective engines (R307 to R311). -/

namespace Sys2Proof.Machine

/-! ### Bindings (R305) -/

/-- The binding of a queue register: 0 none, 1 copy, 2 gather, 3 collective, 4 pipe. -/
def Issue.binding (x : Issue) (n : Nat) : Nat :=
  ((x.s.launch x.w.launch).lrec.binds.toNat / 2 ^ (4 * n)) % 16

def queueNo : Opnd → Nat
  | .q n => n.toNat
  | _ => 0

/-- Trap 0x0D (R305). -/
def Issue.queueTrap (x : Issue) (reason n : Nat) : State := x.trap 0x0D (BitVec.ofNat 64 (reason + n * 16)) x.tp

/-! ### Pipes (R315) -/

def Crew.pipe (c : Crew) (n : Nat) : List PipeEnt := tget [] c.pipes n

def Crew.setPipe (c : Crew) (n : Nat) (p : List PipeEnt) : Crew := { c with pipes := tset [] c.pipes n p }

/-- An entry appended, once the pipe has room. -/
def Issue.pipePush (x : Issue) (f : Fields) (n : Nat) : State :=
  let c := x.s.crew x.w.crew
  let p := c.pipe n
  if 16 ≤ p.length then x.await (.pipe n true)
  else
    let e : PipeEnt :=
      { mask := x.tp
        els := (List.range 32).map fun l => if x.tp.getLsbD l then BitVec.ofNat 32 (x.get f l 1 f.a) else 0 }
    x.doneIn (x.s.setCrew (c.setPipe n (p ++ [e])))

/-- An element of an entry; one that its pusher did not supply reads 0. -/
def PipeEnt.get (e : PipeEnt) (l : Nat) : Nat := if e.mask.getLsbD l then (e.els.getD l 0).toNat else 0

/-- The pipe that an instruction names, when its register is bound to one. -/
def Issue.onPipe (x : Issue) (n : Nat) (act : Crew → List PipeEnt → State) : State :=
  if x.tp == 0 then x.skip
  else if x.binding n == 0 then x.queueTrap 1 n
  else if x.binding n != 4 then x.queueTrap 2 n
  else act (x.s.crew x.w.crew) ((x.s.crew x.w.crew).pipe n)

def execQpop (f : Fields) (s : State) : Res :=
  issue (.qpop f) s fun x =>
    let n := queueNo f.a
    x.onPipe n fun c p =>
      match p with
      | [] => x.await (.pipe n false)
      | e :: rest => x.doneIn ((x.s.setCrew (c.setPipe n rest)).setWarp (x.w.write x.tp f.d 1 fun l => e.get l))

def execQtry (f : Fields) (s : State) : Res :=
  issue (.qtry f) s fun x =>
    let n := queueNo f.a
    x.onPipe n fun c p =>
      match p with
      | [] => x.done (x.w.write x.tp f.e 1 fun _ => 0)
      | e :: rest =>
        let w := (x.w.write x.tp f.d 1 fun l => e.get l).write x.tp f.e 1 fun _ => 1
        x.doneIn ((x.s.setCrew (c.setPipe n rest)).setWarp w)

/-! ### Tags (R311 to R314) -/

/-- The crews on a core. -/
def State.crewsOn (s : State) (core : Nat) : List Crew := s.crews.filter fun c => c.core == core

/-- Whether no crew on a core owns a tag and no retired crew's command still holds it. -/
def State.tagFree (s : State) (core t : Nat) : Bool :=
  !(s.core core).orphans.any (fun (o : Nat × Nat) => o.1 == t) && !(s.crewsOn core).any fun c => c.tags.any fun y => y.n == t

def Crew.tag? (c : Crew) (t : Nat) : Option Tag := c.tags.find? fun y => y.n == t

def Crew.tagDone (c : Crew) (t : Nat) : Bool := match c.tag? t with | some y => y.done | none => false

/-- The tags of a mask, ascending. -/
def tagsIn (m : DWord) : List Nat := (List.range 64).filter fun t => m.getLsbD t

/-- Trap 0x12 (R313). -/
def Issue.tagTrap (x : Issue) (reason t : Nat) : State := x.trap 0x12 (BitVec.ofNat 64 (reason + t * 256)) x.tp

/-- A tag instruction: the mask, with every tag of it owned by the crew. -/
def Issue.withTags (x : Issue) (f : Fields) (act : Crew → DWord → State) : State :=
  if x.tp == 0 then x.skip
  else
    let c := x.s.crew x.w.crew
    let m : DWord := BitVec.ofNat 64 (x.get f 0 2 f.a)
    let lost := match x.w.why x.side with | some (.tags _ _ lost) => lost | _ => none
    match (tagsIn m).find? fun t => (c.tag? t).isNone || lost == some t with
    | some t => x.tagTrap 3 t
    | none => act c m

def execTwaitany (f : Fields) (s : State) : Res :=
  issue (.twaitany f) s fun x => x.withTags f fun c m =>
    if m == 0 then x.tagTrap 4 0
    else
      match (tagsIn m).find? c.tagDone with
      | some t => x.done (x.w.write x.tp f.d 1 fun _ => t)
      | none => x.await (.tags m false none)

def execTwaitall (f : Fields) (s : State) : Res :=
  issue (.twaitall f) s fun x => x.withTags f fun c m =>
    if (tagsIn m).all c.tagDone then x.skip else x.await (.tags m true none)

/-- A slot that waits for one of some freed tags notes it: it no longer owns the tag, whoever names it next (R314). -/
def Slot.loseTags (freed : DWord) (x : Slot) : Slot :=
  match x.wait with
  | some ⟨.tags m all none, t⟩ => { x with wait := some ⟨.tags m all ((tagsIn (m &&& freed)).head?), t⟩ }
  | _ => x

/-- The same of every slot of a crew, those saved at a trap entry too. -/
def State.loseTags (s : State) (crew : Nat) (freed : DWord) : State :=
  { s with warps := s.warps.map fun w =>
      if w.crew == crew then
        { w with port := w.port.loseTags freed, star := w.star.loseTags freed,
                 handler := w.handler.map fun h =>
                   { h with port := h.port.loseTags freed, star := h.star.loseTags freed } }
      else w }

def execTffr (f : Fields) (s : State) : Res :=
  issue (.tffr f) s fun x => x.withTags f fun c m =>
    x.done (x.w.write x.tp f.d 1 fun _ => ((tagsIn m).find? c.tagDone).getD 0xFFFFFFFF)

def execTclr (f : Fields) (s : State) : Res :=
  issue (.tclr f) s fun x =>
    if x.tp == 0 then x.skip
    else
      let c := x.s.crew x.w.crew
      let m : DWord := BitVec.ofNat 64 (x.get f 0 2 f.a)
      match (tagsIn m).find? fun t => !x.s.tagFree c.core t && !c.tagDone t with
      | some t => x.tagTrap 2 t
      | none =>
        let freed := (c.tags.filter fun y => m.getLsbD y.n).foldl (fun (d : DWord) y => d ||| (1#64 <<< y.n)) 0
        x.doneIn ((x.s.setCrew { c with tags := c.tags.filter fun y => !(m.getLsbD y.n) }).loseTags c.uid freed)

/-! ### Engine commands (R307, R309) -/

def engineOf (binding : Nat) : Engine := match binding with | 1 => .copy | 2 => .gather | _ => .coll

def cmdWord (ws : List DWord) (k : Nat) : DWord := ws.getD k 0

/-- Bits of a command word. -/
def cmdBits (ws : List DWord) (k lo n : Nat) : Nat := (cmdWord ws k).toNat / 2 ^ lo % 2 ^ n

def cmdTag (e : Engine) (ws : List DWord) : Nat :=
  match e with
  | .copy => cmdBits ws 2 48 6
  | .gather => cmdBits ws 3 48 6
  | .coll => cmdBits ws 3 0 6

/-- The type of a collective's elements. -/
def collType (ws : List DWord) : DType := tyOf (cmdBits ws 2 28 4)

/-- The address words of a command, with the alignment of each. -/
def cmdAddrs (e : Engine) (ws : List DWord) : List (DWord × Nat) :=
  match e with
  | .copy => [(cmdWord ws 0, 1), (cmdWord ws 1, 1)]
  | .gather => [(cmdWord ws 0, 1), (cmdWord ws 1, 4), (cmdWord ws 2, 1)]
  | .coll => [(cmdWord ws 1, (collType ws).elem / 8)]

/-- The phase that an arrival of a thread at point 23 would return, if it may arrive. -/
def State.collPhase (s : State) (pasid : Nat) (h tid : Word) : Option Word :=
  let p := s.pointOf pasid h 23
  if p.init then (p.arrive tid).map Prod.snd else none

/-- Whether a command is malformed, apart from its addresses. -/
def Issue.malformed (x : Issue) (e : Engine) (l : Nat) (ws : List DWord) : Bool :=
  match e with
  | .copy => cmdBits ws 2 56 8 != 0 || cmdBits ws 2 32 16 == 0
  | .gather => cmdBits ws 3 54 10 != 0 || cmdBits ws 3 0 32 == 0 || 2 ^ 20 < cmdBits ws 3 0 32
  | .coll =>
    let h : Word := BitVec.ofNat 32 (cmdBits ws 0 0 32)
    let ty := cmdBits ws 2 28 4
    let op := cmdBits ws 2 24 4
    cmdBits ws 0 32 32 != 0 || cmdBits ws 3 6 58 != 0 || cmdBits ws 2 0 24 == 0 || 4 ≤ op || 6 ≤ ty ||
      (op == 3 && ty != 0 && ty != 2) ||
      !((List.range 4).any fun k => (x.w.lane l).team k == h) || h == 0xFFFFFFFF ||
      x.s.collPhase x.pasid h (x.tid l) != some (BitVec.ofNat 32 (cmdBits ws 2 32 32))

/-- The commands of a `qpush`: one for a scalar 8-block, one for each lane of a vector one. -/
def Issue.commands (x : Issue) (f : Fields) : List (Nat × List DWord) :=
  let lanes := if isScalar f.a then (lanesOf x.tp).take 1 else lanesOf x.tp
  lanes.map fun l =>
    let v := x.get f l 8 f.a
    (l, (List.range 4).map fun k => BitVec.ofNat 64 (v / 2 ^ (64 * k)))

/-- A command submitted: its tag is in flight, and a collective arrives, as a release at device scope (R196, R308,
R311). -/
def Issue.submit (x : Issue) (n : Nat) (e : Engine) (s : State) (c : Nat × List DWord) : State :=
  let tid := x.tid c.1
  let t := cmdTag e c.2
  let h : Word := BitVec.ofNat 32 (cmdBits c.2 0 0 32)
  let cmd : Cmd :=
    { id := s.serial, eng := e, words := c.2, tag := t, crew := x.w.crew, core := x.w.core, uid := x.w.uid, qreg := n,
      tid := tid, queue := s.queueOf x.w, gen := (s.queue (s.queueOf x.w)).gen, pasid := x.pasid, pc := x.pc,
      phase := BitVec.ofNat 32 (cmdBits c.2 2 32 32) }
  let crew := s.crew x.w.crew
  let s := s.setCrew { crew with tags := crew.tags ++ [{ n := t }] }
  let s := { s with cmds := s.cmds ++ [cmd], serial := s.serial + 1 }
  if e == .coll then
    let s := x.release .dev s
    match (s.pointOf x.pasid h 23).arrive tid with
    | some (p, _) => s.setPointOf x.pasid h 23 p
    | none => s
  else s

/-- The commands of a queue register that no engine has accepted. -/
def State.heldCmds (s : State) (uid n : Nat) : Nat :=
  (s.cmds.filter fun c => c.uid == uid && c.qreg == n && c.at_.isNone).length

/-- The lanes whose commands the instruction has submitted already (R310). -/
def Issue.sent (x : Issue) (n : Nat) : Word :=
  match x.w.why x.side with
  | some (.push q k) => if q == n then k else 0
  | _ => 0

/-- Commands submitted while the queue register has room. A tag that another warp has taken since the checks is waited
for, since no trap could be precise any more (DEDUCED, log entry 59). -/
def Issue.pushAll (x : Issue) (n : Nat) (e : Engine) : Word → List (Nat × List DWord) → State → State
  | _, [], s => x.doneIn s
  | m, c :: rest, s =>
    if 8 ≤ s.heldCmds x.w.uid n || !s.tagFree x.w.core (cmdTag e c.2) then { x with s := s }.await (.push n m)
    else x.pushAll n e (m ||| bitOf c.1) rest (x.submit n e s c)

/-- The first tag that is not free, or that two of the commands name, if any. -/
def Issue.badTag (x : Issue) (e : Engine) (cs : List (Nat × List DWord)) : Option Nat :=
  let ts := cs.map fun (c : Nat × List DWord) => cmdTag e c.2
  (List.range 64).find? fun t => ts.contains t && (!x.s.tagFree x.w.core t || 1 < (ts.filter fun u => u == t).length)

/-- The checks of R309 on every command before any is submitted, and then the commands; a push that has submitted some
resumes where it stopped. -/
def Issue.enginePush (x : Issue) (f : Fields) (n : Nat) : State :=
  let e := engineOf (x.binding n)
  let sent := x.sent n
  let cs := if sent == 0 then x.commands f
    else if isScalar f.a then [] else (x.commands f).filter fun c => !sent.getLsbD c.1
  let mask (p : DWord × Nat → Bool) : Word :=
    let lanes := cs.foldl (fun m (c : Nat × List DWord) => if (cmdAddrs e c.2).any p then m ||| bitOf c.1 else m) 0
    if isScalar f.a && lanes != 0 then x.tp else lanes
  let first (p : DWord × Nat → Bool) : DWord :=
    (cs.findSome? fun (c : Nat × List DWord) => ((cmdAddrs e c.2).find? p).map Prod.fst).getD 0
  let out (a : DWord × Nat) : Bool := !inSpace a.1
  let odd (a : DWord × Nat) : Bool := a.1.toNat % a.2 != 0
  if sent != 0 then x.pushAll n e sent cs x.s
  else if mask out != 0 then x.s.trapAddr x.w x.side 8 0 false (first out) (mask out)
  else if mask odd != 0 then x.s.trapAddr x.w x.side 7 0 false (first odd) (mask odd)
  else if cs.any fun (c : Nat × List DWord) => x.malformed e c.1 c.2 then x.queueTrap 3 n
  else
    match x.badTag e cs with
    | some t => x.tagTrap 1 t
    | none => x.pushAll n e 0 cs x.s

/-- R307, R315: a `qpush` acts by the binding of its register. -/
def Issue.push (x : Issue) (f : Fields) : State :=
  let n := queueNo f.d
  let b := x.binding n
  if x.tp == 0 then x.skip
  else if b == 0 || 5 ≤ b then x.queueTrap 1 n
  else if b == 4 then x.pipePush f n
  else x.enginePush f n

def execQpush (f : Fields) (s : State) : Res := issue (.qpush f) s fun x => x.push f

def execQpushPipe (f : Fields) (s : State) : Res := issue (.qpushPipe f) s fun x => x.push f

/-! ### Acceptance (R310) -/

/-- Whether an engine may run a command: a copy engine of a group of the command's partition, the gather engine of its
cluster, the collective engine of its slice. -/
def State.engineFits (s : State) (c : Cmd) (engine : Nat) : Bool :=
  match c.eng with
  | .copy =>
    let part := s.ctxPart c.pasid
    engine < 48 && tget none s.copyGroups (engine / 4) == some part.base && (part.entry (0x340 + engine / 4)).st != 3
  | .gather => engine == clusterOf c.core
  | .coll => engine == sliceOf c.core

def State.cmd? (s : State) (id : Nat) : Option Cmd := s.cmds.find? fun c => c.id == id

def State.setCmd (s : State) (c : Cmd) : State :=
  { s with cmds := s.cmds.map fun x => if x.id == c.id then c else x }

/-- Whether a command is the first of its queue register that no engine has accepted. -/
def State.heads (s : State) (c : Cmd) : Bool :=
  c.at_.isNone && !s.cmds.any fun x => x.at_.isNone && x.uid == c.uid && x.qreg == c.qreg && x.id < c.id

/-- How lately an engine has served a command's queue register: 0 for never. -/
def State.servedAt (s : State) (engine : Nat) (c : Cmd) : Nat :=
  match s.served.findIdx? fun v => v.eng == c.eng && v.at_ == engine && v.uid == c.uid && v.qreg == c.qreg with
  | some i => i + 1
  | none => 0

/-- Whether an engine takes a command before another: queue registers in turn, and of several the oldest push first. -/
def State.inTurn (s : State) (engine : Nat) (c x : Cmd) : Bool :=
  s.servedAt engine c < s.servedAt engine x || (s.servedAt engine c == s.servedAt engine x && c.id ≤ x.id)

/-- Whether an engine accepts a command now: it has room, and it is the command's turn. -/
def State.accepts (s : State) (c : Cmd) (engine : Nat) : Bool :=
  s.heads c && s.engineFits c engine &&
    (s.cmds.filter fun x => x.eng == c.eng && x.at_ == some engine).length < 32 &&
    s.cmds.all fun x => !(x.eng == c.eng && s.heads x && s.engineFits x engine) || s.inTurn engine c x

/-- The engine has served the queue register of a command. -/
def State.serve (s : State) (engine : Nat) (c : Cmd) : State :=
  let v : Served := ⟨c.eng, engine, c.uid, c.qreg⟩
  { s with served := (s.served.filter fun y => y != v && s.warps.any fun w => w.uid == y.uid) ++ [v] }

/-- ENGINE_ACCEPT (R310). -/
def execEngineAccept (cmd engine : Nat) (s : State) : Res :=
  match s.cmd? cmd with
  | none => .next s
  | some c => .next (if s.accepts c engine then (s.serve engine c).setCmd { c with at_ := some engine } else s)

/-! ### The engines at work (R308, R309) -/

/-- Why an engine stops before its command is done. -/
inductive EStop where
  | page (va : DWord) (n : Need)
  | ask (va : DWord)
  | hold
  | refused (va : DWord)
  | bad (va : DWord)
  deriving DecidableEq, Repr

/-- Where an engine's byte lies, or why it stops there: at once where the host has refused what it waited for (R346). -/
def State.engineAt (s : State) (c : Cmd) (va : DWord) (n : Need) : Except EStop Loc :=
  if !inSpace va || c.denied then .error (.refused va)
  else
    match s.translate c.pasid va n with
    | .ok l => .ok l
    | .absent => .error (.page va n)
    | .bad => .error (.bad va)
    | .pending => .error (.ask va)
    | .refused => .error (.refused va)
    | .stalled _ => .error .hold

/-- Bytes of one line read, or written, by an engine. -/
def State.engineRead (s : State) (c : Cmd) (va : DWord) (k : Nat) : Except EStop (State × List Byte) :=
  match s.engineAt c va { r := true } with
  | .error e => .error e
  | .ok l => if s.isBad l.key k then .error (.bad va) else .ok (s.homeRead l.key k)

def State.engineWrite (s : State) (c : Cmd) (va : DWord) (bs : List Byte) : Except EStop State :=
  match s.engineAt c va { w := true } with
  | .error e => .error e
  | .ok l => if s.meetsBad true (l, bs.length) then .error (.bad va) else .ok ((s.homeWrite l.key bs).soil c.pasid [(va, bs.length)])

/-- A run cut where either address meets a line. -/
def moveSegs : Nat → DWord → DWord → Nat → List (DWord × DWord × Nat)
  | 0, _, _, _ => []
  | fuel + 1, a, b, n =>
    if n == 0 then []
    else
      let k := min n (min (128 - a.toNat % 128) (128 - b.toNat % 128))
      (a, b, k) :: moveSegs fuel (a + BitVec.ofNat 64 k) (b + BitVec.ofNat 64 k) (n - k)

/-- What an engine has done in a run. -/
structure ERun where
  s : State
  done : Nat
  stop : Option EStop
  deriving DecidableEq, Repr

/-- A run moved in ascending order, from its byte `from_` on, as far as it goes; `vague` leaves the destination
undefined. -/
def State.move (s : State) (c : Cmd) (vague : Bool) (src dst : DWord) (from_ n : Nat) : ERun :=
  let a := src + BitVec.ofNat 64 from_
  let b := dst + BitVec.ofNat 64 from_
  (moveSegs (2 * ((n - from_) / 128) + 4) a b (n - from_)).foldl (fun (r : ERun) g =>
    if r.stop.isSome then r
    else
      match r.s.engineRead c g.1 g.2.2 with
      | .error e => { r with stop := some e }
      | .ok (s, bs) =>
        let (s, bs) :=
          if vague then ({ s with free := s.free + bs.length },
            (List.range bs.length).map fun i => (Config.freeWord (s.free + i)).setWidth 8)
          else (s, bs)
        match s.engineWrite c g.2.1 bs with
        | .error e => { r with s := s, stop := some e }
        | .ok s => { r with s := s, done := r.done + g.2.2 }) ⟨s, from_, none⟩

/-- A source read as one run. -/
def State.engineRun (s : State) (c : Cmd) (va : DWord) (n : Nat) : Except EStop (State × List Byte) :=
  (moveSegs (n / 64 + 4) va va n).foldl (fun r g =>
    match r with
    | .error e => .error e
    | .ok (s, bs) =>
      match s.engineRead c g.1 g.2.2 with
      | .error e => .error e
      | .ok (s, more) => .ok (s, bs ++ more)) (.ok (s, []))

/-- The tag of a retired crew free, wherever the crew left it. -/
def State.freeOrphan (s : State) (cmd : Nat) : State :=
  { s with cores := s.cores.map fun k => { k with orphans := k.orphans.filter fun (o : Nat × Nat) => o.2 != cmd } }

/-- A command's tag completes: done, with or without error, or free when its crew has gone (R311). -/
def State.finishCmd (s : State) (c : Cmd) (err : Bool) : State :=
  let s := { s with cmds := s.cmds.filter fun x => x.id != c.id }
  match s.crew? c.crew with
  | some crew =>
    s.setCrew { crew with tags := crew.tags.map fun t => if t.n == c.tag then { t with done := true, err := err } else t }
  | none => s.freeOrphan c.id

/-- The progress of a command as a fault record holds it (R379). -/
def Cmd.progress (c : Cmd) : DWord :=
  match c.eng with
  | .coll => BitVec.ofNat 64 (cmdBits c.words 0 0 32 + c.phase.toNat * 2 ^ 32)
  | _ => BitVec.ofNat 64 c.done

def Engine.source : Engine → Byte
  | .copy => 2
  | .gather => 3
  | .coll => 4

/-- A command ended by an error (R309, R391). -/
def State.failCmd (s : State) (c : Cmd) (va : DWord) (bad : Bool) : State :=
  let s := if bad then s.send (.msix 0) else s
  let s := s.log c.pasid
    { FaultRec.of s 0x45 c.eng.source (if c.eng != .coll && c.done != 0 then 2 else 1) c.queue with
      tid := c.tid, gen := c.gen, pc := c.pc, addr := va, prog0 := c.progress, prog1 := BitVec.ofNat 64 c.tag,
      place := placeOf c.core }
  s.finishCmd c true

/-- A command that stops: it waits for a page, or for the host, or it has failed. -/
def State.stopCmd (s : State) (c : Cmd) (e : EStop) : State :=
  match e with
  | .page va n => let (s, gs) := s.askPage c.pasid c.queue va n; s.setCmd { c with groups := gs }
  | .ask va => (s.askAts c.pasid va).setCmd { c with groups := [grpAts] }
  | .hold => s.setCmd { c with groups := [grpHold] }
  | .refused va => s.failCmd c va false
  | .bad va => s.failCmd c va true

/-- The class of a copy's destination lines (R307). -/
def State.copyHint (s : State) (c : Cmd) (va : DWord) (n : Nat) : State :=
  match evpClass (Evp.ofNat (cmdBits c.words 2 54 2)) with
  | none => s
  | some k =>
    match s.run c.pasid va n { w := true } with
    | .ok ps =>
      ps.foldl (fun s (p : Loc × Nat) => (linesOf p.1.key p.2).foldl (fun s line => s.setL2Class p.1.unit line k) s) s
    | .bad _ _ => s

/-- Whether some row of a copy's source meets some row of its destination. -/
def copyOverlaps (c : Cmd) : Bool :=
  let n := cmdBits c.words 2 0 32
  let rows := List.range (cmdBits c.words 2 32 16)
  let at_ (k : Nat) (stride r : Nat) : Nat := (rowAt (cmdWord c.words k) stride r).toNat
  rows.any fun r => rows.any fun q =>
    overlaps (at_ 0 (cmdBits c.words 3 0 32) r) n (at_ 1 (cmdBits c.words 3 32 32) q) n

/-- The rows of a copy from the point reached. -/
def State.copyRows (s : State) (c : Cmd) (vague : Bool) : List Nat → ERun
  | [] => ⟨s, c.done, none⟩
  | r :: rest =>
    let n := cmdBits c.words 2 0 32
    let src := rowAt (cmdWord c.words 0) (cmdBits c.words 3 0 32) r
    let dst := rowAt (cmdWord c.words 1) (cmdBits c.words 3 32 32) r
    let m := s.move c vague src dst (c.done - r * n) n
    match m.stop with
    | some e => ⟨m.s, r * n + m.done, some e⟩
    | none => (m.s.copyHint c dst n).copyRows { c with done := (r + 1) * n } vague rest

def State.runCopy (s : State) (c : Cmd) : State :=
  let n := cmdBits c.words 2 0 32
  let rows := if n == 0 then [] else (List.range (cmdBits c.words 2 32 16)).filter fun r => c.done < (r + 1) * n
  let e := s.copyRows c (copyOverlaps c) rows
  match e.stop with
  | some k => e.s.stopCmd { c with done := e.done } k
  | none => e.s.finishCmd c false

/-- The rows of a gather from the point reached. -/
def State.gatherRows (s : State) (c : Cmd) : List Nat → ERun
  | [] => ⟨s, c.done, none⟩
  | k :: rest =>
    let n := cmdBits c.words 3 0 32
    match s.engineRun c (cmdWord c.words 1 + BitVec.ofNat 64 (4 * k)) 4 with
    | .error e => ⟨s, c.done, some e⟩
    | .ok (s, ix) =>
      let m := s.move c false (rowAt (cmdWord c.words 0) n (leNat ix)) (rowAt (cmdWord c.words 2) n k) 0 n
      match m.stop with
      | some e => ⟨m.s, c.done, some e⟩
      | none => m.s.gatherRows { c with done := k + 1 } rest

def State.runGather (s : State) (c : Cmd) : State :=
  let e := s.gatherRows c ((List.range (cmdBits c.words 3 32 16)).filter fun k => c.done ≤ k)
  match e.stop with
  | some k => e.s.stopCmd { c with done := e.done } k
  | none => e.s.finishCmd c false

/-! ### Collectives (R308) -/

/-- The combination of the members' elements: a sum of floats is exact and rounded once. -/
def collCombine (op : Nat) (ty : DType) (vs : List Nat) : Nat :=
  match vs with
  | [] => 0
  | v :: rest =>
    match op with
    | 0 =>
      if isFloat ty then ((Val.sum ((v :: rest).map (fmtOf ty).decode) .rne).write (fmtOf ty) .rne false).1
      else (v :: rest).sum % 2 ^ ty.elem
    | 1 => rest.foldl (combine .min ty) (combine .min ty v v)
    | 2 => rest.foldl (combine .max ty) (combine .max ty v v)
    | _ => rest.foldl (combine .or ty) v

/-- The commands that arrived for one phase of one team. -/
def State.collGroup (s : State) (c : Cmd) : List Cmd :=
  s.cmds.filter fun x => x.eng == .coll && x.pasid == c.pasid && cmdBits x.words 0 0 32 == cmdBits c.words 0 0 32 &&
    x.phase == c.phase

/-- A member's buffer cut into its elements. -/
def elemsOf (c : Cmd) (bs : List Byte) : List Nat :=
  let z := (collType c.words).elem / 8
  (List.range (cmdBits c.words 2 0 24)).map fun i => leNat ((bs.drop (z * i)).take z)

/-- The members' buffers read, as far as none stops. -/
def State.readGroup (s : State) : List Cmd → Except (Cmd × EStop) (State × List (List Nat))
  | [] => .ok (s, [])
  | c :: rest =>
    match s.engineRun c (cmdWord c.words 1) (cmdBits c.words 2 0 24 * ((collType c.words).elem / 8)) with
    | .error e => .error (c, e)
    | .ok (s, bs) =>
      match s.readGroup rest with
      | .error e => .error e
      | .ok (s, more) => .ok (s, elemsOf c bs :: more)

/-- A run written, as far as it goes. -/
def State.engineFill (s : State) (c : Cmd) (va : DWord) (bs : List Byte) : ERun :=
  (moveSegs (bs.length / 64 + 4) va va bs.length).foldl (fun (r : ERun) g =>
    if r.stop.isSome then r
    else
      match r.s.engineWrite c g.1 ((bs.drop r.done).take g.2.2) with
      | .error e => { r with stop := some e }
      | .ok s => { r with s := s, done := r.done + g.2.2 }) ⟨s, 0, none⟩

/-- A collective: once its phase has completed, the buffers of every member whose command arrived are combined, and
each receives the combination. -/
def State.runColl (s : State) (c : Cmd) : State :=
  let h : Word := BitVec.ofNat 32 (cmdBits c.words 0 0 32)
  if !s.validHandle c.pasid h then s.failCmd c 0 false
  else if !(s.pointOf c.pasid h 23).completed c.phase then s
  else
    match c.result with
    | some es =>
      let z := (collType c.words).elem / 8
      let e := s.engineFill c (cmdWord c.words 1) (es.flatMap (leBytes z))
      (match e.stop with
        | some k => e.s.stopCmd c k
        | none => e.s.finishCmd c false)
    | none =>
      let group := s.collGroup c
      if group.any fun x => x.at_.isNone then s
      else
        match s.readGroup group with
        | .error (m, k) => s.stopCmd m k
        | .ok (s, vals) =>
          group.foldl (fun s m =>
            let es := (List.range (cmdBits m.words 2 0 24)).map fun i =>
              collCombine (cmdBits m.words 2 24 4) (collType m.words) (vals.filterMap fun (v : List Nat) => v[i]?)
            s.setCmd { m with result := some es }) s

/-- Whether an accepted command has something to do. -/
def State.cmdReady (s : State) (c : Cmd) : Bool :=
  let h : Word := BitVec.ofNat 32 (cmdBits c.words 0 0 32)
  c.at_.isSome && c.groups.isEmpty &&
    (c.eng != .coll || !s.validHandle c.pasid h ||
      ((s.pointOf c.pasid h 23).completed c.phase && (c.result.isSome || (s.collGroup c).all fun x => x.at_.isSome && x.groups.isEmpty)))

/-- COMMAND_COMPLETE (R311): an accepted command runs to its end, or as far as it gets. A collective's first turn
gathers the combination, and its second writes it. -/
def execCommandComplete (cmd : Nat) (s : State) : Res :=
  match s.cmd? cmd with
  | none => .next s
  | some c =>
    .next
      (if !s.cmdReady c then s
       else
        match c.eng with
        | .copy => s.runCopy c
        | .gather => s.runGather c
        | .coll => s.runColl c)

end Sys2Proof.Machine
end

