-- ==== Sys2Proof/Machine/Ready.lean ====
section
/-! DEFINITION. Machine/Ready.lean: which slots are eligible to issue (R120, R369): whether what a slot waits for has
come about. -/

namespace Sys2Proof.Machine

/-- Waits that hold back both slots of the warp (R152, R193, R179, R205, R210, R211, R327; a request held by a chart
entry, R387). -/
def Why.warpWide : Why → Bool
  | .packer | .relabel _ _ _ | .release _ | .monitor _ _ _ | .rendezvous _ _ | .regroup _ | .svcCall _ | .stall _ =>
    true
  | .fill _ _ | .pipe _ _ | .tags _ _ _ | .push _ _ | .svcRoom _ | .sleep _ | .page _ | .split => false

/-- Whether a lane of a waiting `relabel` can go on: its grant has come, or its slot is at the head, or there is room
for its flow. -/
def State.relabelReady (s : State) (w : Warp) (m queued : Word) : Bool :=
  let pasid := s.pasidOf w
  (lanesOf m).any fun l =>
    let y := w.lane l
    if queued.getLsbD l then (s.ctx pasid).flows.any fun f => f.owner == y.tid
    else !s.slotOpen pasid y || (s.flow pasid y.iflow).release == y.iseq

/-- Whether a lane of a waiting `irel` can post. -/
def State.releaseReady (s : State) (w : Warp) (m : Word) : Bool :=
  let pasid := s.pasidOf w
  (lanesOf (m &&& w.live)).any fun l =>
    let y := w.lane l
    (s.flow pasid y.iflow).release == y.iseq || s.buffered (s.flowHome pasid y.iflow) < 8192

/-- Whether a lane of a rendezvous wait is through, or gone. -/
def State.meetReady (s : State) (w : Warp) (left : List RzWait) : Bool :=
  let pasid := s.pasidOf w
  left.isEmpty || left.any fun r =>
    !w.live.getLsbD r.lane || !s.validHandle pasid r.team || (s.pointOf pasid r.team r.pt).completed r.phase

/-- Whether a tag wait is over: the tags are done, or one of them is no longer the crew's. -/
def State.tagsReady (s : State) (w : Warp) (m : DWord) (all : Bool) (lost : Option Nat) : Bool :=
  let c := s.crew w.crew
  lost.isSome || (tagsIn m).any (fun t => (c.tag? t).isNone) || (if all then (tagsIn m).all c.tagDone else (tagsIn m).any c.tagDone)

/-- The header of a context's service ring: the two indices and the size (R326). -/
def State.svcRing (s : State) (pasid : Nat) : Nat × Nat × Nat :=
  let a := (s.ctx pasid).crec.service
  (s.ctxNum pasid a 8, s.ctxNum pasid (a + 8) 8, 2 ^ (s.ctxNum pasid (a + 16) 8 % 32))

/-- Whether a request that waits in a port may not be sent yet: the entry stalls, or an older request waits there too. One
to a line that is still outstanding at the entry's old place finds that out when it is presented again (R387). -/
def State.peerHolds (s : State) (w : Warp) (side : Side) (p : Nat) : Bool :=
  let part := s.ctxPart (s.pasidOf w)
  (part.entry p).st == 2 || s.behind part p w.uid side

/-- Whether a fill would place a lane, or would ask for the ring's page. -/
def State.fillDue (s : State) (uid : Nat) (nc : Byte) : Bool :=
  let r := s.fill uid nc
  r.placed != 0 || r.s.sent.length != s.sent.length

/-- Whether what a slot waits for has come about. Monitor waits and sleeps end by events of their own. -/
def State.whyReady (s : State) (w : Warp) (side : Side) : Why → Bool
  | .packer => false
  | .fill nc _ => s.fillDue w.uid nc || s.itemsDone (s.launch w.launch)
  | .relabel refused done queued => s.relabelReady w (w.live &&& ~~~refused &&& ~~~done) queued
  | .release left => s.releaseReady w left
  | .monitor _ _ _ => false
  | .rendezvous left _ => s.meetReady w left
  | .regroup _ => (s.groupOf w).all fun y => y.arrived.isSome
  | .pipe n full => if full then ((s.crew w.crew).pipe n).length < 16 else !((s.crew w.crew).pipe n).isEmpty
  | .tags m all lost => s.tagsReady w m all lost
  | .push q _ => s.heldCmds w.uid q < 8
  | .svcRoom n => let (a, b, size) := s.svcRing (s.pasidOf w); n + (a - b) ≤ size
  | .svcCall id => (s.ctx (s.pasidOf w)).calls.any fun c => c.id == id && c.ready
  | .sleep _ => false
  | .page gs => gs.isEmpty
  | .split => false
  | .stall p => !s.peerHolds w side p

/-- Whether a slot holds the warp's other slot back. -/
def Slot.blocks (x : Slot) : Bool :=
  (match x.wait with | some v => v.why.warpWide | none => false) ||
    match x.fetch with | some v => v.why.warpWide | none => false

/-- Whether a slot is ready, wherever its warp is. -/
def State.slotReady (s : State) (w : Warp) (side : Side) : Bool :=
  let x := w.slot side
  !(w.slot (otherSide side)).blocks && (match x.fetch with | some v => s.whyReady w side v.why | none => true) &&
    match x.wait with
    | none => x.mask != 0
    | some v => s.whyReady w side v.why

def State.warpReady (s : State) (w : Warp) : Bool := s.slotReady w .port || s.slotReady w .star

/-- Whether a core issues at all (R388, R404). -/
def State.coreRuns (s : State) (core : Nat) : Bool := !s.failed.contains (clusterOf core)

/-- Whether a slot is eligible to issue. -/
def State.eligible (s : State) (w : Warp) (side : Side) : Bool :=
  w.place == .resident && s.coreRuns w.core && s.slotReady w side

/-- Whether a warp has a slot that may issue. -/
def State.runnable (s : State) (w : Warp) : Bool := s.eligible w .port || s.eligible w .star

/-! ### The issue ports (R367) -/

/-- The port that an instruction issues on: the vector port for one of the integer and logic, move and status, floating-point,
conversion and cross-lane groups (R49) with a vector or predicate destination, the second port for any other. -/
def portOf (i : Instr) : Port :=
  match i.op, i.fields with
  | some o, some f =>
    if o.toNat < 0x0C0 || (0x100 ≤ o.toNat && o.toNat < 0x110) then
      match f.d with
      | .v _ | .p _ => .vector
      | _ => .second
    else .second
  | _, _ => .second

/-- The port of the instruction that a slot issues next. -/
def State.portAt (s : State) (w : Warp) (side : Side) : Port :=
  match s.fetch w.core (s.pasidOf w) (w.slot side).pc with
  | .word v => portOf (decodeWord v)
  | _ => .second

/-- Whether a slot, and a port of its core, have not issued in this cycle. -/
def State.portFree (s : State) (w : Warp) (side : Side) (p : Port) : Bool :=
  s.cycle.all fun c => !(c.core == w.core && c.port == p) && !(c.uid == w.uid && c.side == side)

/-- Whether a slot may issue an instruction on a port now: of a warp's two slots that may, the one that did not issue last
does (R120). -/
def State.mayIssue (s : State) (w : Warp) (side : Side) (p : Port) : Bool :=
  let o := otherSide side
  s.eligible w side && s.portFree w side p &&
    (side != w.last || !(s.eligible w o && s.portAt w o == p && s.portFree w o p))

end Sys2Proof.Machine
end

