-- ==== Sys2Proof/Machine/Saves.lean ====
section
/-! DEFINITION. Machine/Saves.lean: which crews fit on a core (R365), saving and resuming crews: parking (R369),
control and full saves (R329, R372 to R376), and pre-emption (R373). -/

namespace Sys2Proof.Machine

/-! ### Fitting (R17, R22, R334, R365) -/

/-- What a crew needs of a core. -/
structure Needs where
  launch : Nat
  fused : Bool
  /-- Its warp slots, and the vector allotment of each of its warps. -/
  slots : Nat
  vs : List Nat
  tiles : Nat
  envs : Nat
  loc : Nat
  tags : List Nat
  deriving DecidableEq, Repr

/-- What a crew takes up on the core that it stands on. -/
def State.crewNeeds (s : State) (c : Crew) : Needs :=
  let l := s.launch c.launch
  let vs := (s.warps.filter fun w => w.crew == c.uid).map Warp.vN
  { launch := c.launch, fused := l.lrec.fused, slots := vs.length, vs := vs,
    tiles := c.nT, envs := c.nE, loc := c.nL, tags := c.tags.map Tag.n }

def Needs.sum (f : Needs → Nat) (ns : List Needs) : Nat := (ns.map f).sum

/-- Whether what stands on a core leaves room for a crew: 64 warp slots, 512 KiB of vector registers, 16 tiles, 16
envelope registers, 256 KiB of local memory, and its tag numbers. -/
def State.hasRoom (s : State) (core : Nat) (n : Needs) : Bool :=
  let here := (s.crewsOn core).map s.crewNeeds
  let all := n :: here
  Needs.sum Needs.slots all ≤ 64 && Needs.sum (fun m => m.vs.sum * 128) all ≤ 524288 &&
    Needs.sum Needs.tiles all ≤ 16 && Needs.sum Needs.envs all ≤ 16 && Needs.sum Needs.loc all ≤ 256 &&
    n.tags.all fun t => s.tagFree core t

/-- The cores of a cluster. -/
def clusterCores (core : Nat) : List Nat := (List.range 16).map fun i => core / 16 * 16 + i

/-- Whether a cluster admits a launch's crew: a fused launch waits for a cluster with no other launch's crew, and has it to
itself while it runs (R334). -/
def State.clusterOk (s : State) (core : Nat) (n : Needs) : Bool :=
  let here := (clusterCores core).flatMap fun c => (s.crewsOn c).map Crew.launch
  (s.launches.all fun l => l.uid == n.launch || !l.clusters.contains (clusterOf core)) &&
    (!n.fused || here.all fun l => l == n.launch)

/-- A fused launch takes the cluster of a core. -/
def State.takeCluster (s : State) (launch core : Nat) : State :=
  match s.launch? launch with
  | none => s
  | some l =>
    if l.lrec.fused && !l.clusters.contains (clusterOf core) then
      s.setLaunch { l with clusters := l.clusters ++ [clusterOf core] }
    else s

/-- Whether the dispatcher gives a core work (R385, R386, R388). -/
def State.coreUsable (s : State) (part : Part) (core : Nat) : Bool :=
  part.has (sliceOf core) && core < 768 && s.coreRuns core && (part.entry core).st != 3 &&
    (part.entry (0x300 + clusterOf core)).st != 3 && (part.entry (0x330 + sliceOf core)).st != 3

def State.fits (s : State) (part : Part) (core : Nat) (n : Needs) : Bool :=
  s.coreUsable part core && s.hasRoom core n && s.clusterOk core n

/-! ### The park area (R372) -/

def pagesFor (bytes : Nat) : Nat := (bytes + 4095) / 4096

/-- The pages that a warp's save takes. -/
def Warp.savePages (w : Warp) (full : Bool) : Nat := pagesFor (4096 + if full then w.vN * 128 else 0)

/-- The pages that a crew's state takes. -/
def State.crewPages (s : State) (c : Crew) : Nat :=
  let binds := (s.launch c.launch).lrec.binds.toNat
  let pipes := ((List.range 8).filter fun n => binds / 2 ^ (4 * n) % 16 == 4).length
  pagesFor (c.nT * 16384 + c.nE * 8224 + c.nL * 1024 + pipes * 2112 + 4096)

/-- The pages in use: the stack region of every warp, and what is saved. -/
def State.parkUsed (s : State) (pasid : Nat) : Nat :=
  let ws := s.warps.filter fun w => s.pasidOf w == pasid
  let cs := s.crews.filter fun c => (s.launch c.launch).pasid == pasid &&
    ws.any fun w => w.crew == c.uid && (w.place == .parked || w.place == .savedFull)
  (ws.map fun w => 2 + match w.place with
    | .resident => 0
    | .savedControl => w.savePages false
    | _ => w.savePages true).sum + (cs.map s.crewPages).sum

/-- Whether a save of a warp finds its pages. -/
def State.parkRoom (s : State) (w : Warp) (full : Bool) : Bool :=
  let pasid := s.pasidOf w
  let c := s.crew w.crew
  let first := !s.warps.any fun y => y.crew == c.uid && (y.place == .parked || y.place == .savedFull)
  let more := w.savePages full + (if full && first then s.crewPages c else 0)
  s.parkUsed pasid + more ≤ (s.ctx pasid).crec.parkSize.toNat / 4096

/-! ### Saves (R374) -/

/-- The cores whose L1s serve a launch's crew on a core. -/
def State.l1sFor (s : State) (launch core : Nat) : List Nat := l1sOf (s.launch launch).lrec.fused core

/-- Every access that a warp has issued performed, and the context's partials on the core sent home. -/
def State.settleWarp (s : State) (w : Warp) : State :=
  (s.l1sFor w.launch w.core).foldl (fun s c => s.sendPartials c (s.pasidOf w)) (s.performIf fun p => p.uid == w.uid)

/-- A warp leaves its core for the park area. One that finds no page there loses its lanes, and its queue faults with
reason 9 (R372). -/
def State.putAway (s : State) (w : Warp) (place : Place) : State :=
  let s := s.settleWarp w
  if s.parkRoom w (place != .savedControl) then
    (s.setWarp { w with place := place, due := none, custDue := none }).crewOut w.crew
  else
    let size := (s.ctx (s.pasidOf w)).crec.parkSize
    let q := s.queueOf w
    let s := s.kill w.uid w.live (w.slot (otherSide w.last)).pc
    (s.faultQueue q 9 size).crewOut w.crew

/-- A wait that starts again when its warp resumes: `wcmp` from the beginning (R154). -/
def Slot.restart (x : Slot) : Slot :=
  match x.wait with
  | some ⟨.monitor _ _ _, _⟩ => { x with wait := none }
  | _ => x

def Warp.restartWaits (w : Warp) : Warp :=
  { w with port := w.port.restart, star := w.star.restart,
           handler := w.handler.map fun h => { h with port := h.port.restart, star := h.star.restart } }

/-- A full save of a warp of a crew: its monitors are given up. -/
def State.fullSave (s : State) (uid : Nat) : State :=
  match s.warp? uid with
  | none => s
  | some w => (s.dropMonitors w.uid 0xFFFFFFFF).putAway w.restartWaits .savedFull

/-- A warp that is not saved yet saved in full. -/
def State.saveNow (s : State) (uid : Nat) : State :=
  match s.warp? uid with
  | some w =>
    if w.place == .resident then s.fullSave uid
    else if w.place == .parked then (s.dropMonitors uid 0xFFFFFFFF).setWarp { w.restartWaits with place := .savedFull }
    else s
  | none => s

/-! ### Resuming (R329, R375) -/

/-- The registers that a control save does not keep are undefined: vector registers, predicates, s0 to s119, FLAGS and
RMODE. -/
def State.loseRegs (s : State) (w : Warp) : State × Warp :=
  let (s, vs) := s.freeWords (32 * 256)
  let (s, ps) := s.freeWords 32
  let (s, ss) := s.freeWords 120
  let (s, fl) := s.freeWords 2
  let lanes := (List.range 32).map fun l =>
    { w.lane l with v := (vs.drop (256 * l)).take 255, p := (ps.getD l 0).setWidth 16 }
  (s, { w with
    lanes := lanes, sregs := ss ++ (List.range 8).map fun i => w.sreg (120 + i),
    flags := (fl.getD 0 0) &&& 0xFF, rmode := (fl.getD 1 0) &&& 3 })

/-- Undefined contents of a pipe: any number of entries. -/
def State.freePipe (s : State) : State × List PipeEnt :=
  let (s, k) := s.pick 17
  let (s, ws) := s.freeWords (33 * k)
  (s, (List.range k).map fun i =>
    let d := ws.drop (33 * i)
    { mask := d.getD 0 0, els := (d.drop 1).take 32 })

/-- The crew state that only control saves leave undefined: tiles, envelope registers, ETOL, local memory, and the pipes
that the handlers have not drained (R315, R329). -/
def State.loseCrew (s : State) (uid : Nat) : State :=
  let s := (List.range (s.crew uid).nT).foldl (fun s t => s.undefTile uid t) s
  let s := (List.range (s.crew uid).nE).foldl (fun s e => s.undefEnv uid e) s
  let c := s.crew uid
  let (s, m) := s.freeWords (256 * c.nL)
  let loc := (m.zipIdx).foldl (fun (loc : Memory) (p : Word × Nat) => Memory.putNum loc (4 * p.2) 4 p.1.toNat) []
  let (s, e) := s.freeWords 2
  -- ETOL is a non-negative FP64 number or +inf (R26).
  let etol : DWord := BitVec.ofNat 64 (min ((e.getD 0 0).toNat + (e.getD 1 0).toNat % 2 ^ 31 * 2 ^ 32) posInf.toNat)
  let (s, pipes) := c.pipes.foldl (fun (r : State × List (List PipeEnt)) p =>
    if p.isEmpty then (r.1, r.2 ++ [p])
    else let (s, p) := r.1.freePipe; (s, r.2 ++ [p])) (s, [])
  s.setCrew { c with loc := loc, etol := etol, pipes := pipes }

/-- The free core-local warp ids of a core, ascending. -/
def State.freeWids (s : State) (core : Nat) : List Nat :=
  (List.range 64).filter fun i => !s.warps.any fun w => w.place == .resident && w.core == core && w.wid == i

/-- The cores of a crew that starts or resumes send home the context's partials and discard its lines and its code
(R335, R375). -/
def State.clearCaches (s : State) (launch core : Nat) : State :=
  let pasid := (s.launch launch).pasid
  (s.l1sFor launch core).foldl (fun s c => (s.discardL1 c pasid).discardCode c pasid) s

/-- A crew put on a core: the core drops the context's L1 lines, and the warps run on (R335, R375). -/
def State.putCrew (s : State) (uid core : Nat) : State :=
  let c := s.crew uid
  let s := (s.clearCaches c.launch core).takeCluster c.launch core
  let ws := s.warps.filter fun w => w.crew == uid
  let lost := !ws.isEmpty && ws.all fun w => w.place == .savedControl
  let s := (ws.zip (s.freeWids core)).foldl (fun s (p : Warp × Nat) =>
    let (s, w) := if p.1.place == .savedControl then s.loseRegs p.1 else (s, p.1)
    (s.dropMonitors w.uid 0xFFFFFFFF).setWarp
      { w.restartWaits with core := core, wid := p.2, place := .resident, readySince := s.now }) s
  let s := s.setCrew { s.crew uid with core := core }
  if lost then s.loseCrew uid else s

/-- Whether the crews of a queue may run: the queue holds a slot, or the host performs its packets, it is not being reset,
and its context is not suspended (R351, R380, R395, R404). -/
def State.mayRun (s : State) (q : Nat) : Bool :=
  let x := s.queue q
  !s.held q && x.st != .resetting &&
    (x.slot.isSome || s.packetMode q || x.st == .ready || x.st == .faulted)

/-- Whether a crew fits on a core: it asks for as many warp slots as its launch gives a crew (R375). -/
def State.crewFits (s : State) (c : Crew) (core : Nat) : Bool :=
  let l := s.launch c.launch
  (!l.lrec.item || s.crews.countP (fun y => y.launch == l.uid && y.core == core) < l.lrec.count) &&
  s.fits (s.ctxPart l.pasid) core { s.crewNeeds c with slots := l.lrec.crewSize }

/-- Whether a crew is saved whole, and its queue may run. -/
def State.resumable (s : State) (c : Crew) : Bool :=
  let ws := s.warps.filter fun w => w.crew == c.uid
  !ws.isEmpty && ws.all (fun w => w.place.saved) && s.mayRun (s.launch c.launch).queue

/-- SAVED_CREW_RESUME (R375). -/
def execSavedCrewResume (crew core : Nat) (s : State) : Res :=
  .next
    (match s.crew? crew with
      | none => s
      | some c => if s.resumable c && s.crewFits c core then s.putCrew crew core else s)

/-! ### Parking (R369) -/

/-- Whether a wait is one that may be parked (R345, R369). -/
def Why.parks : Why → Bool
  | .relabel _ _ _ | .release _ | .monitor _ _ _ | .rendezvous _ _ | .regroup _ | .pipe _ _ | .tags _ _ _ | .push _ _
  | .svcRoom _ | .svcCall _ | .sleep _ | .packer | .fill _ _ | .page _ => true
  | .split | .stall _ => false

/-- Since when a slot waits in a way that may be parked. -/
def Slot.parkSince (x : Slot) : Option Nat :=
  match x.fetch, x.wait with
  | some v, _ => if v.why.parks then some v.since else none
  | none, some v => if v.why.parks then some v.since else none
  | none, none => none

def Slot.waits (x : Slot) : Bool := x.wait.isSome || x.fetch.isSome

/-- Whether a warp has waited long enough to be parked. -/
def State.parkable (s : State) (w : Warp) (time : Nat) : Bool :=
  let ok (x : Slot) : Bool := match x.parkSince with | some t => time ≤ s.now - t | none => x.mask == 0 && !x.waits
  w.place == .resident && !s.warpReady w && ok w.port && ok w.star && (w.port.waits || w.star.waits)

/-- The warps of a crew spilled. -/
def State.parkCrew (s : State) (crew : Nat) : State :=
  (s.warps.filter fun w => w.crew == crew).foldl (fun s w =>
    match s.warp? w.uid with
    | some w => s.putAway w .parked
    | none => s) s

/-- Whether a crew's every warp has waited for 4 µs. -/
def State.crewParkable (s : State) (crew : Nat) : Bool :=
  let ws := s.warps.filter fun w => w.crew == crew
  !ws.isEmpty && ws.all fun w => s.parkable w 4000

/-- PARK (R369). -/
def execPark (crew : Nat) (s : State) : Res := .next (if s.crewParkable crew then s.parkCrew crew else s)

/-- Whether a `wcmp` of a slot goes on: a write has woken a lane of it, or no lane of it is left waiting (R152, R154). -/
def State.wakes (s : State) (w : Warp) (side : Side) : Bool :=
  match w.why side with
  | some (.monitor f done _) =>
    let left := w.takesPart side f.g1 f.g2 &&& ~~~(maskOf fun l => done.any fun (d : Nat × DWord) => d.1 == l)
    left == 0 || s.hits w.uid side &&& left != 0
  | _ => false

/-- Whether the wait of a parked warp has ended: it is ready, its `wcmp` goes on or polls, its sleep is over, or the packer
can start it. -/
def State.parkOver (s : State) (w : Warp) : Bool :=
  let ended (side : Side) : Bool :=
    match w.why side with
    | some (.monitor _ _ polls) => polls != 0 || s.wakes w side
    | some (.sleep t) => t ≤ s.now
    | some .packer => s.fillDue w.uid 0 || s.itemsDone (s.launch w.launch)
    | _ => false
  s.warpReady w || ended .port || ended .star

/-- Whether a wait of a parked crew has ended, and its queue may run. -/
def State.unparks (s : State) (c : Crew) : Bool :=
  let ws := s.warps.filter fun w => w.crew == c.uid
  ws.any s.parkOver && ws.all (fun w => w.place == .parked) && s.mayRun (s.launch c.launch).queue

/-- PARKED_RESUME (R369): the crew resumes together. -/
def execParkedResume (crew core : Nat) (s : State) : Res :=
  .next
    (match s.crew? crew with
      | none => s
      | some c => if s.unparks c && s.crewFits c core then s.putCrew crew core else s)

/-! ### Pre-emption (R373) -/

/-- A partly arrived point of a crew's teams: its handle, index and values. -/
def State.partlyArrived (s : State) (crew : Nat) : Option (Word × Nat × Point) :=
  let ws := s.warps.filter fun w => w.crew == crew
  let teams := ws.flatMap fun w => (lanesOf w.live).flatMap fun l =>
    (List.range 4).map fun k => (s.pasidOf w, (w.lane l).team k)
  teams.findSome? fun (t : Nat × Word) =>
    if s.validHandle t.1 t.2 then
      (List.range 32).findSome? fun n =>
        let p := s.pointOf t.1 t.2 n
        if p.init && !p.idle then some (t.2, n, p) else none
    else none

/-- Whether a warp waits. -/
def State.stuck (s : State) (uid : Nat) : Bool :=
  match s.warp? uid with
  | some w => !s.runnable w
  | none => false

/-- A request reaches one warp: a warp that waits or is parked is saved in full at once; the vector is due to one that
may issue, at its next boundary outside its handler (R322). -/
def State.preemptWarp (s : State) (deadline : Nat) (stuck : Nat → Bool) (uid : Nat) : State :=
  match s.warp? uid with
  | none => s
  | some w =>
    if w.place == .resident && !stuck uid then s.setWarp { w with due := some deadline } else s.saveNow uid

/-- The warps of a crew. -/
def State.crewWarps (s : State) (crew : Nat) : List Nat := (s.warps.filter fun w => w.crew == crew).map Warp.uid

/-- PREEMPTION_DELIVERY (R373, steps 1 to 3). -/
def execPreemptionDelivery (crew : Nat) (s : State) : Res :=
  .next
    (match s.crew? crew with
      | none => s
      | some c =>
        match c.pre with
        | some (.deferred _) =>
          if (s.partlyArrived crew).isSome then s
          else
            let deadline := s.now + 1000 * (s.ctx (s.launch c.launch).pasid).crec.grace
            let t := s.setCrew { c with pre := some (.grace deadline) }
            ((s.crewWarps crew).foldl (State.preemptWarp · deadline s.stuck ·) t).crewOut crew
        | _ => s)

/-- The record of a forced save (R378, R379). -/
def State.saveRec (s : State) (w : Warp) : State :=
  s.log (s.pasidOf w)
    { FaultRec.of s 0x47 0 3 (s.queueOf w) with
      tid := if countOf w.live == 1 then (w.lane (lowOf w.live)).tid else 0xFFFFFFFF
      lanes := w.live, place := placeOf (if w.place == .resident then w.core else noCore) }

/-- The warps of a crew that have not yielded saved in full, each with its record (R378). -/
def State.forceSave (s : State) (crew : Nat) : State :=
  ((s.crewWarps crew).foldl (fun s uid =>
    match s.warp? uid with
    | some w => if w.place.saved then s else (s.saveRec w).saveNow uid
    | none => s) s).crewOut crew

/-- FORCED_SAVE (R373, step 5). -/
def execForcedSave (crew : Nat) (s : State) : Res :=
  .next
    (match s.crew? crew with
      | none => s
      | some c =>
        match c.pre with
        | some (.grace deadline) =>
          if s.now < deadline then s else s.forceSave crew
        | _ => s)

/-- Every warp of a crew saved in full at once. -/
def State.saveAll (s : State) (crew : Nat) : State := ((s.crewWarps crew).foldl State.saveNow s).crewOut crew

/-- Whether a crew's deferral has reached its limit with a point still partly arrived. -/
def State.deferralOver (s : State) (c : Crew) : Bool :=
  match c.pre with
  | some (.deferred asked) =>
    (s.partlyArrived c.uid).isSome && asked + 1000 * (s.ctx (s.launch c.launch).pasid).crec.deferral ≤ s.now
  | _ => false

/-- DEFERRAL_LIMIT (R373, step 6). -/
def execDeferralLimit (crew : Nat) (s : State) : Res :=
  .next
    (match s.crew? crew with
      | none => s
      | some c =>
        match s.partlyArrived crew with
        | some (h, n, p) =>
          let pasid := (s.launch c.launch).pasid
          if !s.deferralOver c then s
          else
            let r : FaultRec :=
              { FaultRec.of s 0x47 10 3 (s.launch c.launch).queue with
                prog0 := BitVec.ofNat 64 (h.toNat + p.p.toNat * 2 ^ 32)
                prog1 := BitVec.ofNat 64 (n + p.a % 2 ^ 24 * 2 ^ 8), place := placeOf c.core }
            (s.log pasid r).saveAll crew
        | none => s)

end Sys2Proof.Machine
end

