-- ==== Sys2Proof/Machine/Stack.lean ====
section
/-! DEFINITION. Machine/Stack.lean: the reconvergence stacks as they lie in the park areas (R21). What a step has pushed
or changed is written there, and what it has left alone is what stands there after it, so that a pop returns what software
has written over an entry. -/

namespace Sys2Proof.Machine

/-- An entry in memory. -/
def SEntry.bytes (e : SEntry) : List Byte :=
  leBytes 8 e.pc.toNat ++ leBytes 4 e.mask.toNat ++ [e.kind, e.depth] ++ leBytes 2 0

/-- An entry as its bytes give it, for the live lanes of its mask. -/
def SEntry.reread (e : SEntry) (live : Word) (bs : List Byte) : SEntry :=
  { pc := BitVec.ofNat 64 (leNat (bs.take 8)), mask := BitVec.ofNat 32 (leNat ((bs.drop 8).take 4)) &&& live,
    kind := bs.getD 12 0, depth := bs.getD 13 0, late := e.late }

/-- The region of a new warp: the lowest one that no warp of the context has. -/
def State.freeRegion (s : State) (pasid : Nat) : Nat :=
  let used := (s.warps.filter fun w => s.pasidOf w == pasid).map Warp.region
  ((List.range (used.length + 1)).find? fun r => !used.contains r).getD 0

/-- Where entry `i` of a warp's stack lies, counted from the bottom, if the park area reaches that far. -/
def State.entryVa (s : State) (w : Warp) (i : Nat) : Option DWord :=
  let c := (s.ctx (s.pasidOf w)).crec
  if 8192 * (w.region + 1) ≤ c.parkSize.toNat then some (c.park + BitVec.ofNat 64 (8192 * w.region + 16 * i)) else none

/-- The bytes of an entry as they stand in memory, where they are mapped and not still to be written. -/
def State.entryBytes (s : State) (pasid : Nat) (va : DWord) : Option (List Byte) :=
  if (s.ctx pasid).late.any (Late.meets va 16) then none
  else
    match s.run pasid va 16 { r := true, w := true } with
    | .ok ps => some (ps.flatMap fun (p : Loc × Nat) => Memory.read s.mem p.1.key p.2)
    | .bad _ _ => none

/-- Every entry of a warp, the lowest first, those below a handler's mark too. -/
def Warp.entries (w : Warp) : List SEntry :=
  (match w.handler with | some h => h.stack.reverse | none => []) ++ w.stack.reverse

/-- The entries put back in their places. -/
def Warp.withEntries (w : Warp) (l : List SEntry) : Warp :=
  match w.handler with
  | some h => { w with handler := some { h with stack := (l.take h.stack.length).reverse },
                       stack := (l.drop h.stack.length).reverse }
  | none => { w with stack := l.reverse }

/-- The entries from number `i` on, where `old` are those before the step: a new one is written, any other is as memory
has it. -/
def State.syncFrom (s : State) (w : Warp) (i : Nat) (old : List SEntry) : List SEntry → State × List SEntry
  | [] => (s, [])
  | e :: rest =>
    let (s, e) : State × SEntry :=
      match s.entryVa w i with
      | none => (s, e)
      | some va =>
        if old.head? == some e then
          (s, match s.entryBytes (s.pasidOf w) va with | some bs => e.reread w.live bs | none => e)
        else (s.ctxWrite (s.pasidOf w) va e.bytes, e)
    let (s, l) := s.syncFrom w (i + 1) old.tail rest
    (s, e :: l)

/-- A warp's stack after a step from `s`. -/
def State.syncStack (s t : State) (w : Warp) : State :=
  let old := match s.warp? w.uid with | some y => y.entries | none => []
  if w.entries.isEmpty then t
  else
    let (t, l) := t.syncFrom w 0 old w.entries
    if l == w.entries then t else t.setWarp (w.withEntries l)

/-- Whether a step from `s` has taken or changed an entry of a warp that lay in a bad line (R390, R391). -/
def State.stackBad (s : State) (w : Warp) : Bool :=
  match s.warp? w.uid with
  | none => false
  | some y => y.entries.zipIdx.any fun (e : SEntry × Nat) =>
      w.entries[e.2]? != some e.1 &&
        match s.entryVa y e.2 with
        | none => false
        | some va =>
          match s.run (s.pasidOf y) va 16 { r := true, w := true } with
          | .ok ps => ps.any fun (p : Loc × Nat) => s.isBad p.1.key p.2
          | .bad _ _ => false

/-- Every warp's stack after a step from `s`. -/
def State.syncStacks (s t : State) : State := t.warps.foldl (fun t w => s.syncStack t w) t

end Sys2Proof.Machine
end

