-- ==== Sys2Proof/Machine/Launch.lean ====
section
/-! DEFINITION. Machine/Launch.lean: launch records (R31, R364, R382), the dispatcher (R363 to R366), the end of a launch
(R362), and promotion in the issue choice (R368). -/

namespace Sys2Proof.Machine

/-! ### The launch record (R31) -/

/-- `k` bytes of a record at an offset, as a number. -/
def field (bs : List Byte) (o k : Nat) : Nat := leNat ((bs.drop o).take k)

def roleOf (bs : List Byte) (r : Nat) : Role :=
  let o := 0x10 + 16 * r
  { entry := BitVec.ofNat 32 (field bs o 4), lanes := field bs (o + 4) 2, v8 := field bs (o + 6) 1,
    s8 := field bs (o + 7) 1, tiles := field bs (o + 8) 1, envs := field bs (o + 9) 1, kib := field bs (o + 10) 2 }

/-- The record read: its roles that are in use. -/
def LRec.of (bs : List Byte) : LRec :=
  let w := field bs 0 4
  { item := w.testBit 0, fused := w.testBit 2, chain := w.testBit 3, replay := w.testBit 4, prio := w / 32 % 8,
    custodian := w.testBit 8, count := field bs 4 4, code := BitVec.ofNat 64 (field bs 8 8),
    roles := ((List.range 4).map (roleOf bs)).filter fun r => r.lanes != 0,
    trapEntry := BitVec.ofNat 64 (field bs 0x50 8), ring := BitVec.ofNat 64 (field bs 0x58 8),
    args := BitVec.ofNat 64 (field bs 0x60 8), signal := BitVec.ofNat 64 (field bs 0x68 8),
    crewSize := field bs 0x70 2, binds := BitVec.ofNat 32 (field bs 0x74 4),
    fslots := (List.range 8).map fun n => BitVec.ofNat 64 (field bs (0x80 + 8 * n) 8) }

/-- Whether an entry of the role table keeps its limits; an unused role has none but its reserved field (log entry
28). -/
def roleOk (bs : List Byte) (item : Bool) (r : Nat) : Bool :=
  let o := 0x10 + 16 * r
  let x := roleOf bs r
  field bs (o + 12) 4 == 0 &&
    if x.lanes == 0 then r != 0 && (!item || field bs o 16 == 0)
    else
      (!item || r == 0) && x.lanes % 32 == 0 && x.entry.toNat % 16 == 0 && 1 ≤ x.v8 && x.v8 ≤ 32 && 1 ≤ x.s8 &&
        x.s8 ≤ 15 && x.tiles ≤ 16 && x.envs ≤ 8 && x.kib ≤ 256

/-- The warps of a crew, by role. -/
def LRec.warps (r : LRec) : List Role := r.roles.flatMap fun x => List.replicate (x.lanes / 32) x

/-- The role of a crew's warp, by its place in the crew. -/
def LRec.roleAt (r : LRec) (j : Nat) : Nat :=
  (r.roles.zipIdx.flatMap fun (p : Role × Nat) => List.replicate (p.1.lanes / 32) p.2).getD j 0

def LRec.sum (r : LRec) (f : Role → Nat) : Nat := (r.roles.map f).sum

/-- Whether some core could hold a crew of the record (R22, R365). -/
def LRec.canFit (r : LRec) : Bool :=
  r.sum Role.tiles ≤ 16 && r.sum Role.envs ≤ 8 && r.sum Role.kib ≤ 256 && r.warps.length ≤ 64 &&
    (r.warps.map fun x => x.v8 * 8 * 128).sum ≤ 524288

/-- Whether bytes are an acceptable record (R31, R364), in a partition that has copy groups or has none (R382). -/
def recordOk (bs : List Byte) (copy : Bool) : Bool :=
  let r := LRec.of bs
  let w := field bs 0 4
  w % 4 ≤ 1 && w < 512 &&
    (if r.item then 1 ≤ r.count && r.count ≤ 64 && r.crewSize == 1
     else !r.replay && 1 ≤ r.count && r.count ≤ 2 ^ 31 - 2 && r.ring == 0 && r.crewSize == r.warps.length) &&
    r.code.toNat % 16 == 0 && ((List.range 4).all fun i => roleOk bs r.item i) && 1 ≤ r.crewSize && r.crewSize ≤ 64 &&
    field bs 0x72 2 == 0 && field bs 0x78 8 == 0 && field bs 0xC0 64 == 0 &&
    ((List.range 8).all fun n => r.binds.toNat / 16 ^ n % 16 ≤ 4) &&
    (copy || (List.range 8).all fun n => r.binds.toNat / 16 ^ n % 16 != 1) && r.canFit

/-- Whether a partition holds a copy group (R382). -/
def State.hasCopy (s : State) (p : Part) : Bool := s.copyGroups.any fun g => g == some p.base

/-- A record that a queue has read is refused, or its launch is accepted (R362). -/
def State.addLaunch (s : State) (q : Nat) (addr : DWord) (bs : List Byte) : Option State :=
  if addr.toNat % 256 == 0 && recordOk bs (s.hasCopy (s.queuePart q)) then
    let x := s.queue q
    let l : Launch :=
      { uid := s.serial, queue := q, gen := x.gen, pasid := x.pasid.toNat, recAddr := addr, lrec := .of bs,
        assist := s.assist (s.queuePart q) }
    some ({ s with launches := s.launches ++ [l], serial := s.serial + 1 }.takeModes x.pasid.toNat)
  else none

/-! ### The dispatcher (R363 to R366) -/

/-- How many crews a count launch has. -/
def Launch.crews (l : Launch) : Nat := (l.lrec.count + 32 * l.lrec.crewSize - 1) / (32 * l.lrec.crewSize)

/-- Whether a chained launch waits for an earlier one of its queue. -/
def State.chained (s : State) (l : Launch) : Bool :=
  l.lrec.chain && s.launches.any fun m => m.queue == l.queue && m.uid < l.uid

/-- The warps of an item launch that count for a core: those that stand on it, and those parked or saved, which may come
back to it (R366, log entry 67). -/
def State.placedOn (s : State) (l : Launch) (core : Nat) : Nat :=
  s.crews.countP fun c => c.launch == l.uid && (c.core == core || c.core == noCore)

/-- The roles of the warps of a launch's next crew, with the index of each one's first thread: a warp with no thread is
not created. -/
def Launch.plan (l : Launch) : List (Role × Nat) :=
  let start := l.nextCrew * 32 * l.lrec.crewSize
  if l.lrec.item then (l.lrec.warps.take 1).map fun r => (r, 0)
  else (l.lrec.warps.zipIdx.map fun (p : Role × Nat) => (p.1, start + 32 * p.2)).filter fun p => p.2 < l.lrec.count

/-- What every crew of a launch needs (R365). -/
def Launch.needs (l : Launch) : Needs :=
  { launch := l.uid, fused := l.lrec.fused, slots := l.lrec.crewSize,
    vs := (if l.lrec.item then l.lrec.warps.take 1 else l.lrec.warps).map fun r => r.v8 * 8,
    tiles := l.lrec.sum Role.tiles, envs := l.lrec.sum Role.envs, loc := l.lrec.sum Role.kib, tags := [] }

/-- The TID base of a count launch: the one it has, or the lowest free block. -/
def State.tidBaseOf (s : State) (l : Launch) : Option Nat :=
  match l.tidBase with
  | some b => some b
  | none => s.tidBlock l.pasid l.lrec.count

/-- Whether a launch's next crew may be placed on a core. -/
def State.dispatchable (s : State) (l : Launch) (core : Nat) : Bool :=
  !s.chained l && !l.ending && s.mayRun l.queue && s.fits (s.ctxPart l.pasid) core l.needs &&
    if l.lrec.item then s.placedOn l core < l.lrec.count && !s.itemsDone l
    else l.nextCrew < l.crews && (s.tidBaseOf l).isSome

/-- Vector registers that a lane of a new warp of an item launch starts with: undefined (R15). -/
def State.freeLanes (s : State) (vN : Nat) : State × List Lane :=
  let n := min vN 255
  let (s, ws) := s.freeWords (32 * n)
  (s, (List.range 32).map fun l => { v := (ws.drop (n * l)).take n })

/-- A new warp of a crew. -/
def State.newWarp (s : State) (l : Launch) (crew core wid : Nat) (base : Nat) (p : Role × Nat) : State :=
  let r := p.1
  let m := if l.lrec.item then 0 else maskOf fun i => p.2 + i < l.lrec.count
  let (s, lanes) :=
    if l.lrec.item then s.freeLanes (r.v8 * 8)
    else (s, (List.range 32).map fun i =>
      if m.getLsbD i then { st := .live, tid := BitVec.ofNat 32 (base + p.2 + i) } else {})
  let port : Slot :=
    if l.lrec.item then { wait := some ⟨.packer, s.now⟩ } else freshPath (l.lrec.code + r.entry.setWidth 64) m
  let w : Warp :=
    { uid := s.serial, core := core, wid := wid, crew := crew, launch := l.uid,
      role := l.lrec.roleAt ((p.2 - l.nextCrew * 32 * l.lrec.crewSize) / 32), vN := r.v8 * 8, sN := r.s8 * 8, lanes := lanes,
      port := port, age := s.now, readySince := s.now, region := s.freeRegion l.pasid }
  { s with warps := s.warps ++ [w], serial := s.serial + 1 }

/-- The next crew of a launch placed on a core (R335, R364). -/
def State.placeCrew (s : State) (l : Launch) (core : Nat) : State :=
  let base := (s.tidBaseOf l).getD 0
  let s := (s.clearCaches l.uid core).takeCluster l.uid core
  let n := l.needs
  let c : Crew := { uid := s.serial, launch := l.uid, core := core, nT := n.tiles, nE := n.envs, nL := n.loc }
  let s := { s with crews := s.crews ++ [c], serial := s.serial + 1 }
  let s := (l.plan.zip (s.freeWids core)).foldl (fun s (p : (Role × Nat) × Nat) =>
    s.newWarp l c.uid core p.2 base p.1) s
  let l := s.launch l.uid
  s.setLaunch { l with nextCrew := l.nextCrew + 1, tidBase := if l.lrec.item then none else some base }

/-- Whether it is placed there: no launch of a higher record priority could use the core first. -/
def State.dispatches (s : State) (l : Launch) (core : Nat) : Bool :=
  s.dispatchable l core && !s.launches.any (fun m => l.lrec.prio < m.lrec.prio && s.dispatchable m core)

/-- CREW_DISPATCH (R365, R366). -/
def execCrewDispatch (launch core : Nat) (s : State) : Res :=
  .next
    (match s.launch? launch with
      | none => s
      | some l => if s.dispatches l core then s.placeCrew l core else s)

/-! ### The end of a launch (R362) -/

/-- Whether a launch has no thread left and none to come. -/
def State.launchOver (s : State) (l : Launch) : Bool :=
  !s.chained l && (s.warps.all fun w => w.launch != l.uid) &&
    if l.lrec.item then s.itemsDone l else l.tidBase.isSome && l.crews ≤ l.nextCrew

def State.dropLaunch (s : State) (uid : Nat) : State :=
  { s with launches := s.launches.filter fun l => l.uid != uid }.dropReps fun x =>
    match x.st with | .replica n _ => n == uid | _ => false

/-- A decrement that cannot be made (R362, R378). -/
def State.skipSignal (s : State) (l : Launch) : State :=
  let x := s.queue l.queue
  (s.log l.pasid
    { FaultRec.of s 0x4A 7 1 l.queue with addr := l.lrec.signal, prog0 := x.rdx, prog1 := x.wrx }).dropLaunch l.uid

/-- The completion signal less 1. -/
def State.signalEnd (s : State) (l : Launch) : State :=
  let a := l.lrec.signal
  let wait (s : State) (gs : List Nat) : State := s.setLaunch { l with ending := true, groups := gs, denied := false }
  if a == 0 then s.dropLaunch l.uid
  else if a.toNat % 8 != 0 || !inSpace a || l.denied then s.skipSignal l
  else
    match s.translate l.pasid a { r := true, w := true } with
    | .refused => s.skipSignal l
    | .bad => (s.send (.msix 0)).skipSignal l
    | .absent =>
      let (s, gs) := s.askPage l.pasid l.queue a { r := true, w := true }
      wait s gs
    | .pending => wait (s.askAts l.pasid a) [grpAts]
    | .stalled _ => wait s [grpHold]
    | .ok p =>
      if s.isBad p.key 8 then (s.send (.msix 0)).skipSignal l
      else
        let (s, v) := s.homeNum p.key 8
        (s.homePut p.key 8 ((v + 2 ^ 64 - 1) % 2 ^ 64)).dropLaunch l.uid

/-- Every access of a queue's launches performed, and the partials of its context sent home. -/
def State.settleLaunch (s : State) (l : Launch) : State :=
  let s := s.performIf fun p => p.queue == l.queue && p.pasid == l.pasid
  (List.range s.cores.length).foldl (fun s c => s.sendPartials c l.pasid) s

/-- Whether a launch ends now, or its signal is tried again. One that ends with a queue reset writes no signal: the reset
takes it away. -/
def State.endDue (s : State) (l : Launch) : Bool :=
  (s.queue l.queue).st != .resetting && if l.ending then l.groups.isEmpty else s.launchOver l

/-- LAUNCH_END (R362). -/
def execLaunchEnd (launch : Nat) (s : State) : Res :=
  .next
    (match s.launch? launch with
      | none => s
      | some l =>
        if !s.endDue l then s
        else if l.ending then s.signalEnd l
        else (s.settleLaunch l).signalEnd l)

/-! ### Promotion (R368) -/

/-- Nanoseconds of a number of cycles at the arithmetic clock. -/
def State.cycles (s : State) (n : Nat) : Nat := (n * 1000 + s.power.clock - 1) / s.power.clock

/-- Whether a warp has been ready and not issued for 64 cycles. -/
def State.promotes (s : State) (w : Warp) : Bool := s.runnable w && s.cycles 64 ≤ s.now - w.readySince

/-- ISSUE_PROMOTION. -/
def execIssuePromotion (uid : Nat) (s : State) : Res :=
  .next
    (match s.warp? uid with
      | none => s
      | some w =>
        if s.promotes w then s.setWarp { w with promoted := true } else s)

end Sys2Proof.Machine
end

