-- ==== Sys2Proof/Machine/Pilot.lean ====
section
/-! DEFINITION. Machine/Pilot.lean: queues from notify to packet: the load-time checks (R348, R358, R371), notify pages
(R349, R395), the pilot-code interpreter and its operations (R355 to R361). -/

namespace Sys2Proof.Machine

/-! ### The load-time check of pilot code (R358) -/

def opOf (w : Word) : Nat := (w.extractLsb' 27 5).toNat

/-- Where the body of a `LOOP` at a word ends: the first word past it. -/
def loopEnd (i : Nat) (w : Word) : Nat := i + 2 + (w.extractLsb' 7 5).toNat

/-- The words that are loops, with the ends of their bodies. -/
def loopsOf (ws : List Word) : List (Nat × Nat) :=
  (ws.zipIdx.filter fun (p : Word × Nat) => opOf p.1 == 11).map fun p => (p.2, loopEnd p.2 p.1)

/-- The lowest rule of R358 that a word breaks. -/
def brokenRule (ws : List Word) (i : Nat) (w : Word) : Option Nat :=
  match decodePilot w with
  | .error _ => some 1
  | .ok (.cmpj _ _ _ t) => if i + 1 + t.toNat < ws.length then none else some 2
  | .ok (.loop _ _) =>
    let past := loopEnd i w
    let around := (loopsOf ws).filter fun (p : Nat × Nat) => p.1 < i && i < p.2
    if ws.length < past || around.any (fun (p : Nat × Nat) => p.2 < past) || 4 ≤ around.length then some 3
    else if opOf (ws.getD (past - 1) 0) == 11 then some 4
    else none
  | .ok _ => none

/-- The first failure of the check: the word and the rule. -/
def codeFault (ws : List Word) : Option (Nat × Nat) :=
  ws.zipIdx.findSome? fun (p : Word × Nat) => (brokenRule ws p.2 p.1).map fun r => (p.2, r)

/-! ### Context records (R371) -/

def CRec.of (bs : List Byte) : CRec :=
  let d (o : Nat) : DWord := BitVec.ofNat 64 (field bs o 8)
  { root := d 0, estate := d 8, estateLog := field bs 0x10 1, flowLog := field bs 0x11 1, flow := d 0x18, team := d 0x20,
    service := d 0x28, park := d 0x30, parkSize := d 0x38, log := d 0x40, logLog := field bs 0x48 1,
    grace := if field bs 0x4C 2 == 0 then 50 else field bs 0x4C 2,
    deferral := if field bs 0x4E 2 == 0 then 500 else field bs 0x4E 2 }

/-- Whether a record keeps its limits, and its reserved fields are zero. -/
def ctxOk (bs : List Byte) : Bool :=
  let r := CRec.of bs
  r.root.toNat % 4096 == 0 && r.estate.toNat % 32 == 0 && r.estateLog ≤ 20 && 10 ≤ r.flowLog && r.flowLog ≤ 24 &&
    r.flow.toNat % 64 == 0 && r.team.toNat % 4096 == 0 && r.service.toNat % 64 == 0 && r.park.toNat % 4096 == 0 &&
    r.parkSize.toNat % 4096 == 0 && r.log.toNat % 64 == 0 && 4 ≤ r.logLog && r.logLog ≤ 16 && field bs 0x12 6 == 0 &&
    field bs 0x49 3 == 0 && field bs 0x50 176 == 0

/-- A context set up from its record: one that an enabled queue names already stays as it is (log entry 29). -/
def State.openCtx (s : State) (pasid : Nat) (addr : DWord) (r : CRec) : State :=
  let c := s.ctx pasid
  if (s.ctxQueue pasid).isSome && c.addr == addr then s
  else
    let s := s.setCtx (if c.addr == addr then { c with crec := r } else
      { pasid := pasid, addr := addr, crec := r, part := c.part } : Ctx)
    let c := s.ctx pasid
    s.setCtx { c with logW := s.ctxNum pasid r.log 8, dropped := s.ctxNum pasid (r.log + 16) 4 }

/-! ### Enabling (R348, R397, R405) -/

def Tdi.code : Tdi → Nat
  | .unlocked => 0
  | .locked => 1
  | .run => 2
  | .error => 3

/-- Measurement block 6 extended (R406). -/
def State.measure (s : State) (bs : List Byte) : State :=
  let old := tget 0 s.sec.meas 5
  let new := Config.digest (leBytes 48 old ++ leBytes 48 (Config.digest bs))
  { s with sec := { s.sec with meas := tset 0 s.sec.meas 5 new } }

/-- A queue with its code checked: its interpreter starts with registers of zero. -/
def Queue.ready (x : Queue) (code : List Word) : Queue :=
  { x with code := code, k := [], pc := 0, loops := [], budget := 512, busy := false, effects := false, loading := false,
           page := [], denied := false, hosts := [] }

/-- The same, measured; one that a notify has made pending meanwhile may be mapped. -/
def State.readyQueue (s : State) (q : Nat) (code : List Word) : State :=
  let x := s.queue q
  let s := (s.setQueue q (x.ready code)).measure
    (leBytes 2 q ++ leBytes 2 x.gen.toNat ++ code.flatMap fun w => leBytes 4 w.toNat)
  if x.st == .pending then s.runMapper else s

/-- The words of an array of bytes. -/
def wordsOf (n : Nat) (bs : List Byte) : List Word := (List.range n).map fun i => BitVec.ofNat 32 (field bs (4 * i) 4)

/-- Pieces of a run read at `.sys` (R361). -/
def readAll (s : State) (ps : List (Loc × Nat)) : State × List Byte :=
  ps.foldl (fun (r : State × List Byte) (p : Loc × Nat) =>
    let (s, b) := (r.1.holdRun p.1.key p.2).homeRead p.1.key p.2
    (s, r.2 ++ b)) (s, [])

/-- How a run that the device reads for a queue ends: its bytes, a failure, or a wait for pages. -/
inductive Fetched where
  | bytes (s : State) (bs : List Byte)
  | fail (s : State)
  | wait (s : State) (groups : List Nat)

def State.get (s : State) (q : Nat) (va : DWord) (n : Nat) (denied : Bool) : Fetched :=
  let pasid := (s.queue q).pasid.toNat
  if denied then .fail s
  else match s.run pasid va n { r := true } with
  | .ok ps =>
    if ps.any fun p => s.isBad p.1.key p.2 then .fail (s.send (.msix 0))
    else let (s, bs) := readAll s ps; .bytes s bs
  | .bad a .absent => let (s, gs) := s.askPage pasid q a { r := true }; .wait s gs
  | .bad a .pending => .wait (s.askAts pasid a) [grpAts]
  | .bad _ (.stalled _) => .wait s [grpHold]
  | .bad _ .bad => .fail (s.send (.msix 0))
  | .bad _ _ => .fail s

/-- The pilot code of a queue read and checked. -/
def State.loadCode (s : State) (q : Nat) : State :=
  let x := s.queue q
  let n := x.pilotLen.toNat
  match s.get q x.pilot (4 * n) x.denied with
  | .fail s => s.faultQueue q 5 x.pilot
  | .wait s gs => s.setQueue q { s.queue q with page := gs }
  | .bytes s bs =>
    let ws := wordsOf n bs
    match codeFault ws with
    | some (i, r) => s.faultQueue q 1 (BitVec.ofNat 64 (i + r * 2 ^ 16))
    | none => s.readyQueue q ws

/-- The context record that a queue names, where it is read: in its partition's memory (log entry 5). -/
def State.ctxBytes (s : State) (q : Nat) : List Byte :=
  Memory.read s.mem ((s.queuePart q).hbm (s.queue q).ctx.toNat) 256

/-- An enable that fails on its context record (R371). -/
def State.failEnable (s : State) (q : Nat) : State :=
  s.setQueue q { s.queue q with st := .faulted, reason := 1, detail := 0xFFFFFFFF, faultTime := s.time }

/-- A queue enabled: it is in state 1 while its code is read and checked. A context record in a bad line is no acceptable one
(log entry 68). -/
def State.enable (s : State) (q : Nat) : State :=
  let x := s.queue q
  let bs := s.ctxBytes q
  if x.st != .disabled || !s.sec.booted || s.sec.recovery || !Config.tdiEnables (s.queuePart q).tdi.code then s
  else if s.isBad ((s.queuePart q).hbm x.ctx.toNat) 256 then (s.send (.msix 0)).failEnable q
  else if x.ctx.toNat % 256 != 0 || !ctxOk bs then s.failEnable q
  else
    let s := (s.openCtx x.pasid.toNat x.ctx (.of bs)).takeModes x.pasid.toNat
    let s := s.setQueue q { x with st := .ready, slot := none, pend := none, loading := true, page := [], denied := false }
    if s.packetMode q then s.readyQueue q [] else s.loadCode q

/-- QUEUE_ENABLE (R348): state 1 written to the entry of a disabled queue. -/
def execQueueEnable (queue : Nat) (s : State) : Res := .next (s.enable queue)

/-! ### Notify pages (R349, R395) -/

/-- NOTIFY. -/
def execNotify (queue : Nat) (w : DWord) (s : State) : Res :=
  let x := s.queue queue
  let record (s : State) : State :=
    let s := s.setQueue queue { s.queue queue with wrx := w }
    if s.packetMode queue then s.raiseQueue queue else s
  .next
    (match x.st with
      | .disabled | .resetting => s
      | .faulted => s.setQueue queue { x with wrx := w }
      | st =>
        if w.toNat ≤ x.wrx.toNat then s
        else if 2 ^ x.logSize.toNat < w.toNat - x.rdx.toNat then s.faultQueue queue 8 w
        else if st == .ready then (record s).makePending queue
        else record s)

/-- The launch record at an address read and checked, as `LAUNCH` reads it: the queue goes on when it is accepted. -/
def State.issueLaunch (s : State) (q : Nat) (addr : DWord) (bs : List Byte) (go : State → State) : State :=
  match s.addLaunch q addr bs with
  | some s => go s
  | none => s.faultQueue q 7 addr

def State.hostLaunch (s : State) (q : Nat) (addr : DWord) (denied : Bool) : State :=
  let x := s.queue q
  let base := x.launchBase.toNat
  if addr.toNat < base || base + x.launchLen.toNat ≤ addr.toNat || addr.toNat % 256 != 0 then s.faultQueue q 3 addr
  else
    match s.get q addr 256 denied with
    | .fail s => s.faultQueue q 5 addr
    | .wait s gs => let x := s.queue q; s.setQueue q { x with hosts := x.hosts ++ [(addr, gs)] }
    | .bytes s bs => s.issueLaunch q addr bs id

/-- Whether a host-assisted register of a queue acts. -/
def State.hostActs (s : State) (q : Nat) : Bool :=
  let st := (s.queue q).st
  s.packetMode q && st != .disabled && st != .faulted && st != .resetting

/-- HOST_LAUNCH (R349, R395). -/
def execHostLaunch (queue : Nat) (addr : DWord) (s : State) : Res :=
  .next (if s.hostActs queue then s.hostLaunch queue addr false else s)

/-- HOST_READ_INDEX (R395). -/
def execHostReadIndex (queue : Nat) (idx : DWord) (s : State) : Res :=
  let x := s.queue queue
  .next
    (if !s.hostActs queue || idx.toNat ≤ x.rdx.toNat || x.wrx.toNat < idx.toNat then s
     else
       let s := s.setQueue queue { x with rdx := idx }
       if idx == x.wrx && x.st == .pending then s.idleQueue queue else s)

/-! ### The interpreter (R355 to R359) -/

def Queue.kreg (x : Queue) (i : BitVec 4) : DWord := tget 0 x.k i.toNat

def Queue.setK (x : Queue) (i : BitVec 4) (v : DWord) : Queue := { x with k := tset 0 x.k i.toNat v }

/-- The word after one that ends at a place: a body that is done starts again while passes are left. -/
def fallTo (pc : Nat) : List Loop → Nat × List Loop
  | [] => (pc, [])
  | l :: rest =>
    if pc == l.past then
      (if 1 < l.left then (l.first, { l with left := l.left - 1 } :: rest) else fallTo pc rest)
    else (pc, l :: rest)

/-- The next word in order. -/
def Queue.fall (x : Queue) : Queue :=
  let (pc, loops) := fallTo (x.pc + 1) x.loops
  { x with pc := pc, loops := loops, budget := x.budget - 1, denied := false }

/-- A jump forward, which ends every loop whose end it passes. -/
def Queue.leap (x : Queue) (t : Nat) : Queue :=
  { x with pc := t, loops := x.loops.dropWhile fun l => l.past ≤ t, budget := x.budget - 1, denied := false }

/-- A packet begun at the read index (R355, R359). -/
def Queue.begin (x : Queue) : Queue :=
  { x with pc := 0, loops := [], budget := 512, busy := true, effects := false, k := tset 0 x.k 15 x.rdx }

/-- A pilot operation as the interpreter of the queue whose turn it is runs it. -/
def pilot (s : State) (act : Nat → Queue → State) : Res :=
  match s.turn with
  | some (.pilot q) => .next (act q (s.queue q))
  | _ => .fault .noQueue

/-- An operation on registers alone. -/
def pilotReg (s : State) (g : Queue → Queue) : Res := pilot s fun q x => s.setQueue q (g x).fall

/-! ### Windows (R355, R356) -/

/-- A window: its base and its length. -/
def Queue.window (x : Queue) : Nat → DWord × Nat
  | 0 => (x.ring, 64 * 2 ^ x.logSize.toNat)
  | 1 => (x.sigBase, x.sigLen.toNat)
  | _ => (x.launchBase, x.launchLen.toNat)

/-- The address that an address immediate names. -/
def Queue.addr (x : Queue) (w : Nat) (b : BitVec 4) (o : BitVec 12) : DWord :=
  (x.window w).1 + x.kreg b + BitVec.ofNat 64 (8 * o.toNat)

def Queue.inWindow (x : Queue) (w : Nat) (a : DWord) : Bool :=
  let (base, len) := x.window w
  a.toNat % 8 == 0 && base.toNat ≤ a.toNat && a.toNat + 8 ≤ base.toNat + len

/-- A pilot access to a u64 (R360, R361): where it lies, or the queue faults, or its word is executed again when a page
has come. -/
def State.pilotAt (s : State) (q : Nat) (a : DWord) (n : Need) (act : Loc → State → State) : State :=
  let x := s.queue q
  let pasid := x.pasid.toNat
  let wait (s : State) (gs : List Nat) : State := s.setQueue q { x with st := .mapped, page := gs, denied := false }
  if !inSpace a || x.denied then s.faultQueue q 5 a
  else
    match s.translate pasid a n with
    | .refused => s.faultQueue q 5 a
    | .bad => (s.send (.msix 0)).faultQueue q 5 a
    | .absent => let (t, gs) := s.askPage pasid q a n; wait t gs
    | .pending => wait (s.askAts pasid a) [grpAts]
    | .stalled _ => wait s [grpHold]
    | .ok p => if s.isBad p.key 8 then (s.send (.msix 0)).faultQueue q 5 a else act p (s.holdRun p.key 8)

/-- The same, inside a window. -/
def State.inPilotWindow (s : State) (q w : Nat) (a : DWord) (n : Need) (act : Loc → State → State) :
    State :=
  if (s.queue q).inWindow w a then s.pilotAt q a n act else s.faultQueue q 3 a

/-- A word that has had an effect completes. -/
def State.acted (s : State) (q : Nat) : State := s.setQueue q { (s.queue q).fall with effects := true }

/-! ### The operations (R357) -/

def State.loadK (s : State) (q : Nat) (a : BitVec 4) (p : Loc) : State :=
  let (s, v) := s.homeNum p.key 8
  s.setQueue q ((s.queue q).setK a (BitVec.ofNat 64 v)).fall

def execLdp (a : BitVec 4) (o : BitVec 3) (s : State) : Res :=
  pilot s fun q x =>
    let at_ := x.ring + BitVec.ofNat 64 (64 * (x.rdx.toNat % 2 ^ x.logSize.toNat) + 8 * o.toNat)
    s.inPilotWindow q 0 at_ { r := true } fun p s => s.loadK q a p

def execLdq (a b : BitVec 4) (w : BitVec 2) (o : BitVec 12) (s : State) : Res :=
  pilot s fun q x => s.inPilotWindow q w.toNat (x.addr w.toNat b o) { r := true } fun p s => s.loadK q a p

def execStq (a b : BitVec 4) (w : BitVec 2) (o : BitVec 12) (s : State) : Res :=
  pilot s fun q x =>
    s.inPilotWindow q w.toNat (x.addr w.toNat b o) { w := true } fun p s =>
      (s.homePut p.key 8 (x.kreg a).toNat).acted q

def execLdi (a : BitVec 4) (i : BitVec 17) (s : State) : Res := pilotReg s fun x => x.setK a (i.signExtend 64)

def execLdiSh (a : BitVec 4) (i : BitVec 17) (s : State) : Res :=
  pilotReg s fun x => x.setK a ((x.kreg a <<< 17) ||| i.setWidth 64)

/-- kA := kA op Y. -/
def pilotAlu (s : State) (a : BitVec 4) (g : DWord → DWord → DWord) (y : Queue → DWord) : Res :=
  pilotReg s fun x => x.setK a (g (x.kreg a) (y x))

def shlBy (x y : DWord) : DWord := x <<< (y.toNat % 64)

def shrBy (x y : DWord) : DWord := x >>> (y.toNat % 64)

def execPilotAddReg (a b : BitVec 4) (s : State) : Res := pilotAlu s a (· + ·) fun x => x.kreg b
def execPilotAddImm (a : BitVec 4) (i : BitVec 17) (s : State) : Res := pilotAlu s a (· + ·) fun _ => i.signExtend 64
def execPilotSubReg (a b : BitVec 4) (s : State) : Res := pilotAlu s a (· - ·) fun x => x.kreg b
def execPilotSubImm (a : BitVec 4) (i : BitVec 17) (s : State) : Res := pilotAlu s a (· - ·) fun _ => i.signExtend 64
def execPilotAndReg (a b : BitVec 4) (s : State) : Res := pilotAlu s a (· &&& ·) fun x => x.kreg b
def execPilotAndImm (a : BitVec 4) (i : BitVec 17) (s : State) : Res := pilotAlu s a (· &&& ·) fun _ => i.signExtend 64
def execPilotOrReg (a b : BitVec 4) (s : State) : Res := pilotAlu s a (· ||| ·) fun x => x.kreg b
def execPilotOrImm (a : BitVec 4) (i : BitVec 17) (s : State) : Res := pilotAlu s a (· ||| ·) fun _ => i.signExtend 64
def execPilotShlReg (a b : BitVec 4) (s : State) : Res := pilotAlu s a shlBy fun x => x.kreg b
def execPilotShlImm (a : BitVec 4) (i : BitVec 17) (s : State) : Res := pilotAlu s a shlBy fun _ => i.signExtend 64
def execPilotShrReg (a b : BitVec 4) (s : State) : Res := pilotAlu s a shrBy fun x => x.kreg b
def execPilotShrImm (a : BitVec 4) (i : BitVec 17) (s : State) : Res := pilotAlu s a shrBy fun _ => i.signExtend 64

/-- A condition of `CMPJ`. -/
def pilotCond (c : Nat) (x y : DWord) : Bool :=
  match c with
  | 0 => x == y
  | 1 => x != y
  | 2 => x.ult y
  | 3 => !x.ult y
  | 4 => x.slt y
  | 5 => !x.slt y
  | 6 => true
  | _ => false

def execCmpj (a b : BitVec 4) (c : BitVec 3) (t : BitVec 14) (s : State) : Res :=
  pilot s fun q x =>
    s.setQueue q (if pilotCond c.toNat (x.kreg a) (x.kreg b) then x.leap (x.pc + 1 + t.toNat) else x.fall)

def execLoop (l : BitVec 5) (n : BitVec 7) (s : State) : Res :=
  pilot s fun q x =>
    let body : Loop := { first := x.pc + 1, past := x.pc + 2 + l.toNat, left := n.toNat }
    s.setQueue q { x with pc := x.pc + 1, loops := body :: x.loops, budget := x.budget - 1, denied := false }

/-- `LAUNCH` (R362): the record is read once every earlier pilot access has been performed. -/
def execLaunch (b : BitVec 4) (o : BitVec 12) (s : State) : Res :=
  pilot s fun q x =>
    let a := x.addr 2 b o
    s.inPilotWindow q 2 a { r := true } fun _ s =>
      if a.toNat % 256 != 0 then s.faultQueue q 7 a
      else
        match s.get q a 256 x.denied with
        | .fail s => s.faultQueue q 5 a
        | .wait s gs => s.setQueue q { s.queue q with page := gs, denied := false }
        | .bytes s bs => s.issueLaunch q a bs fun s => s.acted q

def execSignalStore (a b : BitVec 4) (o : BitVec 12) (s : State) : Res :=
  pilot s fun q x =>
    s.inPilotWindow q 1 (x.addr 1 b o) { w := true } fun p s => (s.homePut p.key 8 (x.kreg a).toNat).acted q

def execSignalAdd (a b : BitVec 4) (o : BitVec 12) (s : State) : Res :=
  pilot s fun q x =>
    s.inPilotWindow q 1 (x.addr 1 b o) { r := true, w := true } fun p s =>
      let (s, v) := s.homeNum p.key 8
      (s.homePut p.key 8 ((v + (x.kreg a).toNat) % 2 ^ 64)).acted q

/-- A monitor entry armed for a `WAIT`; when the home has none free, the word is looked at again from time to time. -/
def State.armQueue (s : State) (q line home : Nat) : State :=
  let (s, armed) := s.arm (.queue q) line home
  if armed then s else { s with monitors := s.monitors ++ [{ who := .queue q, line := line, home := home, hit := true }] }

/-- `WAIT` looks at its word (R359): it completes, or its monitor is armed and the queue waits. -/
def State.waitLook (s : State) (q : Nat) (a b : BitVec 4) (o : BitVec 12) (c : BitVec 3) : State :=
  let x := s.queue q
  let s := s.disarm (.queue q)
  s.inPilotWindow q 1 (x.addr 1 b o) { r := true } fun p s =>
    let (s, v) := s.homeNum p.key 8
    let x := s.queue q
    if pilotCond c.toNat (BitVec.ofNat 64 v) (x.kreg a) then s.setQueue q { x.fall with st := .mapped }
    else (s.armQueue q (lineOf p.key) p.home).setQueue q { x with st := .waiting, denied := false }

def execWait (a b : BitVec 4) (o : BitVec 12) (c : BitVec 3) (s : State) : Res :=
  pilot s fun q _ => s.waitLook q a b o c

/-- PILOT_WAIT_WAKE (R359): the monitor of a waiting queue has seen a write. -/
def execPilotWaitWake (queue : Nat) (s : State) : Res :=
  let x := s.queue queue
  .next
    (if x.st == .waiting && s.monitors.any fun m => m.who == .queue queue && m.hit then
      (match decodePilot (x.code.getD x.pc 0) with
        | .ok (.wait a b o c) => s.waitLook queue a b o c
        | _ => s)
    else s)

/-- `FENCE` (R361): the pilot accesses of a queue are performed in their order already. -/
def execPilotFence (_r _q : Bool) (s : State) : Res := pilotReg s fun x => x

/-- `DONE`: the packet completes; a queue with none left gives up its slot (R351). -/
def execDone (s : State) : Res :=
  pilot s fun q x =>
    let x := { x with rdx := x.rdx + 1, busy := false, pc := 0, loops := [], effects := false, denied := false }
    let s := s.setQueue q x
    if x.wrx.toNat ≤ x.rdx.toNat then s.idleQueue q else s

def execErr (a : BitVec 4) (s : State) : Res := pilot s fun q x => s.faultQueue q 6 (x.kreg a)

/-- BUDGET_EXCEEDED (R359, R360). -/
def execBudgetExceeded (queue : Nat) (s : State) : Res :=
  let x := s.queue queue
  .next
    (if x.st == .mapped && x.busy && x.page.isEmpty && x.budget == 0 && x.pc < x.code.length then
      s.faultQueue queue 2 (BitVec.ofNat 64 x.pc)
    else s)

end Sys2Proof.Machine
end

