-- ==== Sys2Proof/Machine/Pages.lean ====
section
/-! DEFINITION. Machine/Pages.lean: what wakes those that wait for a translation: page responses (R345, R346), ATS
completions (R342), and translation invalidations (R344, R370). -/

namespace Sys2Proof.Machine

/-! ### Every wait for request groups -/

/-- A change of a list of awaited groups, with the pages that were refused among them. -/
abbrev Awaited := List Nat → List Nat × List DWord

/-- Whether a page among the awaited ones was refused. -/
def refusedIn (u : Awaited) (gs : List Nat) : Bool := !(u gs).2.isEmpty

/-- A wait, and the pages that were refused to it. -/
def onWait (u : Awaited) (v : Option Waiting) : Option Waiting × List DWord :=
  match v with
  | some ⟨.page gs, t⟩ => (some ⟨.page (u gs).1, t⟩, (u gs).2)
  | _ => (v, [])

def Slot.onGroups (u : Awaited) (x : Slot) : Slot :=
  { x with wait := (onWait u x.wait).1, fetch := (onWait u x.fetch).1,
           denied := x.denied ++ (onWait u x.wait).2 ++ (onWait u x.fetch).2 }

def Parked.onGroups (u : Awaited) (p : Parked) : Parked :=
  { p with groups := (u p.groups).1, denied := p.denied ++ (u p.groups).2 }

/-- Every path of a warp, those saved at a trap entry too; a free slot then takes a path that may go on (R132). -/
def Warp.onGroups (u : Awaited) (w : Warp) : Warp :=
  ({ w with
    port := w.port.onGroups u
    star := w.star.onGroups u
    parked := w.parked.map (Parked.onGroups u)
    handler := w.handler.map fun h =>
      { h with port := h.port.onGroups u, star := h.star.onGroups u, parked := h.parked.map (Parked.onGroups u) } }
    : Warp).settle

def Death.onGroups (u : Awaited) (d : Death) : Death :=
  { d with groups := (u d.groups).1, denied := d.denied || refusedIn u d.groups }

/-- What the device has still to write: not into a page that was refused (log entry 5). -/
def Late.onGroups (u : Awaited) (x : Late) : Option Late :=
  if refusedIn u x.groups then none else some { x with groups := (u x.groups).1 }

def Ctx.onGroups (u : Awaited) (c : Ctx) : Ctx :=
  { c with deaths := c.deaths.map (Death.onGroups u), late := c.late.filterMap (Late.onGroups u) }

/-- Every wait under a PASID. -/
def State.onGroups (s : State) (pasid : Nat) (u : Awaited) : State :=
  { s with
    ctxs := s.ctxs.map fun c => if c.pasid == pasid then c.onGroups u else c
    warps := s.warps.map fun w => if s.pasidOf w == pasid then w.onGroups u else w
    cmds := s.cmds.map fun c =>
      if c.pasid == pasid then { c with groups := (u c.groups).1, denied := c.denied || refusedIn u c.groups } else c
    queues := s.queues.map fun x =>
      if x.pasid.toNat == pasid then
        { x with page := (u x.page).1, denied := x.denied || refusedIn u x.page,
                 hosts := x.hosts.map fun (h : DWord × List Nat) => (h.1, (u h.2).1) }
      else x
    launches := s.launches.map fun l =>
      if l.pasid == pasid then { l with groups := (u l.groups).1, denied := l.denied || refusedIn u l.groups } else l }

/-- One group answered, with the page of it that was refused, if any. -/
def answered (g : Nat) (denied : Option DWord) : Awaited := fun gs =>
  if gs.contains g then (gs.filter (· != g), denied.toList) else (gs, [])

/-- The host launches of a queue whose pages have all been answered, made again (R395). -/
def State.hostAgain (s : State) (q : Nat) (denied : Bool) : State :=
  let x := s.queue q
  let due := x.hosts.filter fun h => h.2.isEmpty
  let s := s.setQueue q { x with hosts := x.hosts.filter fun h => !h.2.isEmpty }
  due.foldl (fun s h => if s.hostActs q then s.hostLaunch q h.1 denied else s) s

/-- What the device has to write in a context, written where nothing is waited for any more. -/
def State.runLate (s : State) (pasid : Nat) : State :=
  let c := s.ctx pasid
  let due := c.late.filter fun x => x.groups.isEmpty
  if due.isEmpty then s
  else
    due.foldl (fun s x => match x.what with
      | .bytes va bs => s.ctxWrite pasid va bs
      | .record r => s.log pasid r) (s.setCtx { c with late := c.late.filter fun x => !x.groups.isEmpty })

/-- A group answered: those that waited on it go on, the device's own writes first, an enable and host launches among
them. -/
def State.answer (s : State) (pasid g : Nat) (denied : Option DWord) : State :=
  let mine := s.queueIdx.filter fun q => (s.queue q).pasid.toNat == pasid
  let enabling := mine.filter fun q => (s.queue q).loading && (s.queue q).page.contains g
  let s := (s.onGroups pasid (answered g denied)).runLate pasid
  let s := enabling.foldl (fun s q => if (s.queue q).page.isEmpty then s.loadCode q else s) s
  mine.foldl (fun s q => s.hostAgain q denied.isSome) s

/-! ### Page responses (R346) -/

def State.reqOf (s : State) (pasid group : Nat) : Option PageReq :=
  s.pageReqs.find? fun r => r.pasid == pasid && r.group == group

def State.dropReq (s : State) (pasid group : Nat) : State :=
  { s with pageReqs := s.pageReqs.filter fun r => !(r.pasid == pasid && r.group == group) }

/-- A response of no current request is dropped and counted; its record frees. -/
def State.staleResponse (s : State) (pasid group : Nat) : State :=
  let s := s.dropReq pasid group
  { s with mapper := { s.mapper with stale := s.mapper.stale + 1 } }.answer pasid grpRoom none

/-- A response matched to its record and to its queue's generation. -/
def State.respond (s : State) (pasid group : Nat) (act : PageReq → State → State) : State :=
  match s.reqOf pasid group with
  | none => s.staleResponse pasid group
  | some r => if s.current r then (act r (s.dropReq pasid group)).answer pasid grpRoom none else s.staleResponse pasid group

/-- Cached ATS translations of a page dropped, so that the access asks again. -/
def State.dropTlb (s : State) (pasid : Nat) (page : DWord) : State :=
  { s with tlb := s.tlb.filter fun t => !(t.pasid == pasid && t.va.toNat / 2 ^ t.log == page.toNat / 2 ^ t.log) }

/-- PAGE_RESPONSE_SUCCESS. -/
def execPageResponseSuccess (pasid group : Nat) (s : State) : Res :=
  .next (s.respond pasid group fun r s => (s.dropTlb pasid r.page).answer pasid group none)

/-- INVALID_REQUEST. -/
def execInvalidRequest (pasid group : Nat) (s : State) : Res :=
  .next (s.respond pasid group fun r s => s.answer pasid group (some r.page))

/-- RESPONSE_FAILURE: every outstanding record of the PASID fails, and one record is logged. -/
def execResponseFailure (pasid group : Nat) (s : State) : Res :=
  .next
    (s.respond pasid group fun r s =>
      let s := s.log pasid { FaultRec.of s 0x44 0 1 r.queue with addr := r.page }
      let all := s.pageReqs.filter fun q => q.pasid == pasid && s.current q
      (r :: all).foldl (fun s q => (s.dropReq pasid q.group).answer pasid q.group (some q.page)) s)

/-! ### ATS (R342) -/

/-- ATS_COMPLETION: the translation is cached, and those that asked for it go on. -/
def execAtsCompletion (pasid : Nat) (tr : AtsReply) (s : State) : Res :=
  let covers (va : DWord) (log : Nat) : Bool := va.toNat / 2 ^ log == tr.va.toNat / 2 ^ log
  let t : Tlb :=
    { pasid := pasid, va := tr.va, log := tr.log, pa := tr.pa, mem := tr.mem, sysatom := tr.sysatom, r := tr.r, w := tr.w,
      x := tr.x }
  .next
    (let mine (q : AtsReq) : Bool := q.pasid == pasid && covers q.page tr.log
     let asked : List AtsReq := s.atsReqs.filter mine
     if asked.isEmpty then s
     else
       let old : List Tlb := s.tlb.filter fun (y : Tlb) => !(y.pasid == pasid && (covers y.va y.log || covers y.va tr.log))
       { s with
         tlb := asked.foldl (fun l (q : AtsReq) => putTlbs q.core t q.page l) old
         atsReqs := s.atsReqs.filter fun q => !mine q }.answer pasid grpAts none)

/-! ### Invalidation (R344, R370) -/

/-- INVALIDATION_DOORBELL: a posted invalidation, with the mailbox's fields as they stand. -/
def execInvalidationDoorbell (part : Nat) (seq : DWord) (s : State) : Res :=
  .next
    { s with parts := s.parts.map fun p =>
        if p.base == part && p.mbBell.toNat < seq.toNat then
          { p with mbBell := seq, invals := p.invals ++ [⟨seq, p.mbBase, p.mbLen, p.mbWho⟩] }
        else p }

/-- Whether an invalidation concerns a context of its partition. -/
def State.invalidates (s : State) (p : Part) (v : Inval) (pasid : Nat) : Bool :=
  (s.ctxPart pasid).base == p.base && (v.who.getLsbD 31 || (v.who.extractLsb' 0 20).toNat == pasid)

/-- Cached translations and the accesses made under them, of the contexts that a test picks: the translations are
gone, the accesses performed. -/
def State.invalidate (s : State) (who : Nat → Bool) (hit : Tlb → Bool) : State :=
  let s := s.performIf fun q => who q.pasid
  { s with tlb := s.tlb.filter fun t => !(who t.pasid && hit t) }

/-- INVALIDATION_COMPLETE: the oldest posted invalidation holds, and its number is written. -/
def execInvalidationComplete (part : Nat) (s : State) : Res :=
  .next
    (match s.parts.find? fun p => p.base == part with
      | none => s
      | some p =>
        match p.invals with
        | [] => s
        | v :: rest =>
          let hit (t : Tlb) : Bool :=
            v.len == 0 || (v.base.toNat < t.va.toNat / 2 ^ t.log * 2 ^ t.log + 2 ^ t.log &&
              t.va.toNat / 2 ^ t.log * 2 ^ t.log < v.base.toNat + v.len.toNat)
          (s.invalidate (s.invalidates p v) hit).setPart { p with mbDone := v.seq, invals := rest })

end Sys2Proof.Machine
end

