-- ==== Sys2Proof/Machine/Reset.lean ====
section
/-! DEFINITION. Machine/Reset.lean: queue reset (R380), and asynchronous vectors (R238, R322, R373). -/

namespace Sys2Proof.Machine

/-! ### Asynchronous vectors (R322) -/

/-- A vector delivered at a boundary of a warp outside its handler: TRAPPC is the PC of the slot that would have issued
next. -/
def State.deliver (s : State) (w : Warp) (side : Side) (vec : Nat) (info : Nat) : State :=
  let l := (s.launch w.launch).lrec
  let (s, w) := s.spoil w
  s.setWarp (w.enterTrap side vec (BitVec.ofNat 32 vec) (w.slot side).pc (BitVec.ofNat 64 info) w.live
    (l.code + l.trapEntry))

/-- What is due to a warp outside its handler: 0x10 first, then 0x0B. -/
def State.deliverDue (s : State) (w : Warp) (side : Side) : Option State :=
  match w.handler, w.due, w.custDue with
  | some _, _, _ => none
  | none, some t, _ => some (s.deliver { w with due := none } side 0x10 t)
  | none, none, some i =>
    let c := s.ctx (s.pasidOf w)
    let s := s.setCtx { c with heirless := c.heirless.erase i }
    some (s.deliver { w with custDue := none } side 0x0B i)
  | none, none, none => none

/-- Whether a warp may be given 0x0B. -/
def State.takesCust (s : State) (w : Warp) : Bool := w.handler.isNone && s.runnable w

/-- The warp of a launch with the lowest core, and then the lowest WID, that may be given 0x0B. -/
def State.custWarp (s : State) (launch : Nat) : Option Warp :=
  (s.warps.filter fun w => w.launch == launch && s.takesCust w).foldl (fun best w =>
    match best with
    | some b => if w.core < b.core || (w.core == b.core && w.wid < b.wid) then some w else best
    | none => some w) none

/-- The custodian launches of a context that may be told of a holding now: none while a delivery is due already. -/
def State.custLaunches (s : State) (pasid : Nat) : List Launch :=
  if s.warps.any fun w => s.pasidOf w == pasid && w.custDue.isSome then []
  else s.launches.filter fun l => l.pasid == pasid && l.lrec.custodian && (s.custWarp l.uid).isSome

/-- HEIRLESS_DELIVERY (R238): the oldest undelivered holding becomes due to a warp of a running custodian launch. -/
def execHeirlessDelivery (pasid : Nat) (s : State) : Res :=
  let ls := s.custLaunches pasid
  .next
    (match (s.ctx pasid).heirless with
      | [] => s
      | i :: _ =>
        if ls.isEmpty then s
        else
          let (t, k) := s.pick ls.length
          match ls[k]? with
          | none => t
          | some l =>
            match s.custWarp l.uid with
            | some w => t.setWarp { w with custDue := some i }
            | none => t)

/-! ### Requests of a queue that is reset (R346) -/

/-- Whether a group is waited on under a PASID, and by which queue first. -/
def State.waitsOn (s : State) (pasid g : Nat) : Option Nat :=
  let on (v : Option Waiting) : Bool := match v with | some ⟨.page gs, _⟩ => gs.contains g | _ => false
  let slot (x : Slot) : Bool := on x.wait || on x.fetch
  let parked (ps : List Parked) : Bool := ps.any fun p => p.groups.contains g
  let warp (w : Warp) : Bool := s.pasidOf w == pasid &&
    (slot w.port || slot w.star || parked w.parked ||
      match w.handler with | some h => slot h.port || slot h.star || parked h.parked | none => false)
  match s.warps.find? warp with
  | some w => some (s.queueOf w)
  | none =>
    match s.cmds.find? fun c => c.pasid == pasid && c.groups.contains g with
    | some c => some c.queue
    | none =>
      match s.queueIdx.find? fun q => let x := s.queue q
          x.pasid.toNat == pasid && (x.page.contains g || x.hosts.any fun h => h.2.contains g) with
      | some q => some q
      | none =>
        match s.launches.find? fun l => l.pasid == pasid && l.groups.contains g with
        | some l => some l.queue
        | none =>
          match (s.ctx pasid).deaths.find? fun d => d.groups.contains g with
          | some d => some ((d.dead.head?.map Dead.queue).getD 0)
          | none => if (s.ctx pasid).late.any fun x => x.groups.contains g then s.ctxQueue pasid else none

/-- A new request for the requesters of other queues that waited on a freed record. -/
def State.askAgain (s : State) (r : PageReq) : State :=
  match s.waitsOn r.pasid r.group with
  | none => s
  | some q =>
    let (s, gs) := s.askPage r.pasid q r.page { r := r.r, w := r.w, x := r.x }
    s.onGroups r.pasid fun old => (if old.contains r.group then old.filter (· != r.group) ++ gs else old, [])

/-! ### QUEUE_RESET (R380) -/

/-- The warps of a queue's launches. -/
def State.queueWarps (s : State) (q : Nat) : List Warp := s.warps.filter fun w => s.queueOf w == q

/-- Step 1: every live thread of the queue dies, in one event. -/
def State.killQueue (s : State) (q : Nat) : State :=
  let ws := s.queueWarps q
  let dead := ws.flatMap fun w => s.deadOf w w.live w.port.pc true
  let s := s.addDeath (s.queue q).pasid.toNat dead (some q)
  let s := ws.foldl State.retire s
  { s with ctxs := s.ctxs.map fun (c : Ctx) =>
      { c with calls := c.calls.filter fun k => !ws.any fun (w : Warp) => w.uid == k.uid } }

/-- Step 2: the queue's commands are stopped, and their tags free. -/
def State.abortCmd (s : State) (c : Cmd) : State :=
  let s := s.freeOrphan c.id
  match s.crew? c.crew with
  | some y => s.setCrew { y with tags := y.tags.filter fun t => t.n != c.tag }
  | none => s

def State.abortCmds (s : State) (q : Nat) : State :=
  let todo := s.cmds.filter fun c => c.queue == q
  todo.foldl State.abortCmd { s with cmds := s.cmds.filter fun c => c.queue != q }

/-- Step 3: the buffered records of the queue's items are discarded, their slots void. -/
def State.discardRecs (s : State) (pasid : Nat) (p : Rec → Bool) : State :=
  let hit (f : Flow) : Bool := f.recs.any fun (r : Word × Option Rec) => match r.2 with | some x => p x | none => false
  let todo := ((s.ctx pasid).flows.filter hit).map Flow.id
  todo.foldl (fun s id =>
    let f := s.flow pasid id
    let recs := f.recs.map fun (r : Word × Option Rec) => match r.2 with | some x => if p x then (r.1, none) else r | none => r
    let s := s.setFlow pasid { f with recs := recs }
    State.drain pasid id (recs.length + 1) s) s

/-- A held item that never started a thread, or is to be replayed, discarded. -/
def State.discardHeld (s : State) (pasid launch : Nat) (h : Held) : State :=
  let f := s.flow pasid h.flow
  let s := if s.hasFlow pasid h.flow then
      s.setFlow pasid { f with waiters := f.waiters.filter fun w => w != .held launch h.iid } else s
  let release (s : State) (fb : Bool) : State :=
    match s.holding pasid grantedItem 3 (flowObj h.flow) with
    | some i =>
      let s := s.discharge pasid i
      let f := s.flow pasid h.flow
      (s.setFlow pasid { f with fb := f.fb || fb }).giveUp pasid h.flow
    | none => s
  match h.st with
  | .granted _ _ => release s false
  | .replayed _ kept =>
    if h.cls == 2 then (if kept then release s true else s)
    else if h.cls == 1 then
      (match s.holding pasid grantedItem 4 (slotObj h.flow h.iseq) with
        | some i => (s.discharge pasid i).voidSlot pasid h.flow h.iseq
        | none => s)
    else s
  | _ => s

def State.discardItems (s : State) (q : Nat) : State :=
  let ls := s.launchesOf q
  -- No item of the queue is left to be granted a flow that another of them gives up.
  let s := ls.foldl (fun s l => s.setLaunch { l with held := [] }) s
  ls.foldl (fun s l => l.held.foldl (fun s h => s.discardHeld l.pasid l.uid h) s) s

/-- A queue reset, up to the sweep. -/
def State.resetQueue (s : State) (q : Nat) : State :=
  let x := s.queue q
  let pasid := x.pasid.toNat
  let reqs := s.pageReqs.filter fun r => r.queue == q && s.current r
  let s := s.setQueue q
    { x with st := .resetting, gen := x.gen + 1, slot := none, pend := none, told := false, busy := false, loops := [],
             effects := false, loading := false, page := [], denied := false, hosts := [] }
  let s := s.disarm (.queue q)
  let s := { s with watches := s.watches.filter fun w => w.queue != q }
  let s := (s.abortCmds q).killQueue q
  let s := (s.discardRecs pasid fun r => r.queue == q).discardItems q
  reqs.foldl State.askAgain s

/-- QUEUE_RESET: a write of the reset doorbell. -/
def execQueueReset (doorbell : Word) (s : State) : Res :=
  let q := doorbell.toNat % 4096
  let st := (s.queue q).st
  .next
    (if doorbell.toNat / 4096 != 0 || st == .disabled || st == .resetting then s else (s.resetQueue q).runMapper)

/-- Step 4: each write in flight of the queue is performed or dropped. -/
def State.sweepPends (s : State) (q : Nat) : State :=
  let todo := s.pends.filter fun p => p.queue == q
  todo.foldl (fun s p => let (s, k) := s.pick 2; if k == 0 then s.perform p else s)
    { s with pends := s.pends.filter fun p => p.queue != q }

/-- Whether a reset may close: its conveyances are through. -/
def State.sweeps (s : State) (queue : Nat) : Bool :=
  let x := s.queue queue
  x.st == .resetting && !(s.ctx x.pasid.toNat).deaths.any fun d => d.reset == some queue

/-- RESET_SWEEP_COMPLETE: steps 4 and 5. -/
def execResetSweepComplete (queue : Nat) (s : State) : Res :=
  let x := s.queue queue
  let pasid := x.pasid.toNat
  .next
    (if !s.sweeps queue then s
     else
       let s := s.sweepPends queue
       let s := (List.range s.cores.length).foldl (fun s c => s.sendPartials c pasid) s
       let s := (s.launchesOf queue).foldl (fun s l => s.dropLaunch l.uid) s
       let s := s.setQueue queue { x with st := .disabled }
       s.log pasid { FaultRec.of s 0x49 7 0 queue with prog0 := x.rdx, prog1 := x.wrx })

end Sys2Proof.Machine
end

