-- ==== Sys2Proof/Machine/Regs.lean ====
section
/-! DEFINITION. Machine/Regs.lean: what the hypervisor and the host write: device registers (R347, R354, R370), assist
words (R396), place charts and fabric peers (R385 to R387), the partition layout (R384), suspend and resume (R404). -/

namespace Sys2Proof.Machine

/-! ### Registers -/

/-- Eight bytes of a disabled queue's entry written (R347): what the device itself writes is left as it is. -/
def Queue.writeEntry (x : Queue) (off : Nat) (v : DWord) : Queue :=
  match off with
  | 0x00 => { x with ring := v }
  | 0x08 => { x with logSize := v.extractLsb' 0 8, prio := v.extractLsb' 8 3, preemptible := v.getLsbD 11,
                     pasid := v.extractLsb' 32 20 }
  | 0x10 => { x with ctx := v }
  | 0x18 => { x with pilot := v }
  | 0x20 => { x with pilotLen := v.extractLsb' 0 16 }
  | 0x40 => { x with sigBase := v }
  | 0x48 => { x with sigLen := v.extractLsb' 0 32, launchLen := v.extractLsb' 32 32 }
  | 0x50 => { x with launchBase := v }
  | _ => x

/-- Whether a PASID has a queue that is not disabled. -/
def State.inUse (s : State) (pasid : Nat) : Bool := s.queues.any fun x => x.pasid.toNat == pasid && x.st != .disabled

def State.onPart (s : State) (base : Nat) (g : Part → Part) : State :=
  { s with parts := s.parts.map fun p => if p.base == base then g p else p }

/-- REGISTER_WRITE. -/
def execRegisterWrite (reg : DevReg) (v : DWord) (s : State) : Res :=
  .next
    (match reg with
      | .queueEntry q off =>
        let x := s.queue q
        if q < 4096 && x.st == .disabled then s.setQueue q (x.writeEntry off v) else s
      | .deviceVector src =>
        if src < 4 && v.toNat % 65536 ≤ 2047 then
          { s with mapper := { s.mapper with devVec := tset 0 s.mapper.devVec src (v.setWidth 16) } }
        else s
      | .queueVector q =>
        if q < 4096 && v.toNat % 65536 ≤ 2047 then
          { s with mapper := { s.mapper with qVec := tset 0 s.mapper.qVec q (v.setWidth 16) } }
        else s
      | .mailbox part off =>
        s.onPart part fun p =>
          match off with
          | 0x00 => { p with mbBase := v }
          | 0x08 => { p with mbLen := v }
          | 0x10 => { p with mbWho := v.setWidth 32 }
          | _ => p
      | .outLimit port => if port < 12 then { s with outLimits := tset 0 s.outLimits port v } else s
      | .copyGroup g =>
        let owner := if s.parts.any fun p => p.base == v.toNat then some v.toNat else none
        if g < 12 then { s with copyGroups := tset none s.copyGroups g owner } else s
      | .pasidHome pasid =>
        if s.inUse pasid then s
        else s.setCtx { s.ctx pasid with part := v.toNat % 12 }
      | .guardThreshold => { s with power := { s.power with threshold := v.toNat } }
      | .ignored => s)

/-- DEVICE_SOURCE_PENDING_CLEAR (R354). -/
def execDeviceSourcePendingClear (bits : Word) (s : State) : Res :=
  .next { s with mapper := { s.mapper with devPend := s.mapper.devPend &&& ~~~(bits.extractLsb' 0 4) } }

/-- QUEUE_VECTOR_PENDING_CLEAR (R354). -/
def execQueueVectorPendingClear (queue : Nat) (s : State) : Res :=
  .next { s with mapper := { s.mapper with qPend := tset false s.mapper.qPend queue false } }

/-! ### Assist words (R396) -/

/-- A write that the chart rules or R396 do not allow: ignored, counted and raised (R387, R400). -/
def State.chartError (s : State) (base : Nat) : State :=
  (s.onPart base fun p => { p with chartErr := p.chartErr + 1 }).raiseDev 3

/-- The queues of a partition. -/
def State.partQueues (s : State) (base : Nat) : List Nat := s.queueIdx.filter fun q => (s.queuePart q).base == base

/-- The cached translations of partitions whose WALK bit changes, discarded. -/
def State.walkChanged (s : State) (bases : List Nat) : State :=
  s.invalidate (fun pasid => bases.contains (s.ctxPart pasid).base) fun _ => true

/-- ASSIST_WORD_WRITE: allowed while every queue of the partition is idle or suspended. The new modes hold from the
partition's next enable, mapping and launch on (log entry 66). -/
def execAssistWordWrite (base : Nat) (w : Word) (s : State) : Res :=
  let calm (q : Nat) : Bool :=
    let x := s.queue q
    x.st == .disabled || x.st == .ready || x.st == .faulted || (s.ctx x.pasid.toNat).suspended
  .next
    (if !s.parts.any fun p => p.base == base then s
     else if (s.partQueues base).all calm then
       let old : Word := tget 0 s.mapper.assist base
       let new := w &&& 0x3F
       let s := { s with mapper := { s.mapper with assist := tset 0 s.mapper.assist base new } }
       if old.getLsbD 0 != new.getLsbD 0 then s.walkChanged [base] else s
     else s.chartError base)

/-! ### Place charts (R385, R386) -/

/-- The kinds of logical units that a chart lists. -/
def chartSlice (i : Nat) : Option Nat :=
  if i < 0x300 then some (sliceOf i)
  else if i < 0x330 then some ((i - 0x300) / 4)
  else if 0x330 ≤ i && i < 0x33C then some (i - 0x330)
  else if 0x350 ≤ i && i < 0x3B0 then some ((i - 0x350) / 8)
  else none

/-- Whether an entry is of a unit of the partition: a copy group is its by R382. -/
def State.ownsUnit (s : State) (p : Part) (i : Nat) : Bool :=
  match chartSlice i with
  | some sl => p.has sl
  | none => 0x340 ≤ i && i < 0x34C && tget none s.copyGroups (i - 0x340) == some p.base

/-- Measurement block 5: the layout and the non-peer chart entries (R406). -/
def State.measureLayout (s : State) : State :=
  let bytes := s.parts.flatMap fun p =>
    leBytes 1 p.base ++ leBytes 1 p.size ++
      (p.chart.filter fun (c : Nat × Chart) => c.1 < 0x400).flatMap fun (c : Nat × Chart) =>
        leBytes 2 c.1 ++ leBytes 8 (c.2.phys.toNat + c.2.new.toNat * 2 ^ 24 + c.2.st.toNat * 2 ^ 62)
  { s with sec := { s.sec with meas := tset 0 s.sec.meas 4 (Config.digest bytes) } }

/-- Whether every queue of a partition is evicted or disabled. -/
def State.evicted (s : State) (base : Nat) : Bool :=
  ((s.partQueues base).all fun q => (s.queue q).slot.isNone) &&
    s.warps.all fun w => w.place != .resident || (s.ctxPart (s.pasidOf w)).base != base

/-- A chart entry written. The replicas of the partition's launches are dropped at every change of its chart (R337), and a
change of an entry that is no peer's is measured (R406). -/
def State.writeChart (s : State) (p : Part) (i : Nat) (c : Chart) : State :=
  let s := s.dropReps fun x => match x.st with
    | .replica n _ => (s.ctxPart (s.launch n).pasid).base == p.base
    | _ => false
  let s := s.setPart (p.setEntry i c)
  if i < 0x400 then s.measureLayout else s

/-- A core with empty caches and TLBs. -/
def State.emptyCore (s : State) (core : Nat) : State :=
  { s.setCore core { s.core core with l1 := [], code := [] } with tlb := s.tlb.filter fun t => t.at_ != .core core }

/-- A cluster with empty caches and TLBs (R389). -/
def State.emptyCluster (s : State) (cluster : Nat) : State :=
  let s := ((List.range 16).map (16 * cluster + ·)).foldl State.emptyCore s
  { s with tlb := s.tlb.filter fun t => t.at_ != .cluster cluster }

/-- The compute die of a physical cluster: 12 clusters each, and then a spare each (R2, R3). -/
def dieOf (phys : Nat) : Nat := if phys < 48 then phys / 12 else phys - 48

/-- Whether a place is a unit that an entry's kind has (log entry 69). A cluster's entry may name a spare only while its
cluster has failed: the unused one of its own die (R3). -/
def State.unitOk (s : State) (p : Part) (idx phys : Nat) : Bool :=
  if idx < 0x300 then phys < 768
  else if idx < 0x330 then
    let die := dieOf (p.entry idx).phys.toNat
    phys < 48 || phys == (p.entry idx).phys.toNat ||
      (s.failed.contains (idx - 0x300) && phys == 48 + die && !s.sparesUsed.contains die)
  else if isChannel idx then phys < 96
  else phys < 12

/-- A cluster's entry names another unit: it runs again, with empty caches (R389). -/
def State.reuseCluster (s : State) (cluster phys : Nat) : State :=
  let s := s.emptyCluster cluster
  { s with
    failed := s.failed.erase cluster
    sparesUsed := if 48 ≤ phys then s.sparesUsed ++ [dieOf phys] else s.sparesUsed
    laneDeaths := s.laneDeaths.filter fun (d : Nat × Nat) => d.1 != cluster }

/-- CHART_ENTRY_WRITE (R385): a core, cluster, slice, copy group or channel group remapped. -/
def execChartEntryWrite (part idx : Nat) (v : DWord) (s : State) : Res :=
  .next
    (match s.parts.find? fun p => p.base == part with
      | none => s
      | some p =>
        let st := v.extractLsb' 62 2
        let phys := v.extractLsb' 0 24
        if 0x400 ≤ idx || !s.ownsUnit p idx || !s.evicted part || st == 1 || st == 2 || !s.unitOk p idx phys.toNat then s
        else
          let moved := phys != (p.entry idx).phys
          let s : State :=
            if idx < 0x300 then (if moved then s.emptyCore idx else s)
            else if idx < 0x330 && st == 0 && moved then s.reuseCluster (idx - 0x300) phys.toNat
            else s
          s.writeChart p idx { st := st, new := v.extractLsb' 24 24, phys := phys })

/-! ### Fabric peers (R387) -/

/-- The DRAINED bit of an entry (R386): in FORWARD, whether no request is outstanding at PHYS. -/
def State.drained (s : State) (p : Part) (i : Nat) : Bool :=
  let e := p.entry i
  e.st == 1 && !s.pends.any fun q =>
    q.peer == some i && (s.ctxPart q.pasid).base == p.base && q.key / 2 ^ 43 == fabricKey e.phys 0 / 2 ^ 43

/-- The requests that a port has held flow on. -/
def State.unhold (s : State) (base : Nat) : State :=
  (s.ctxs.filter fun c => (s.ctxPart c.pasid).base == base).foldl (fun s (c : Ctx) => s.answer c.pasid grpHold none) s

/-- A write of a peer's entry, with NEW and PHYS as written: allowed from some states, else ignored and counted. -/
def State.peerWrite (s : State) (part peer : Nat) (st : BitVec 2) (v : DWord) (ok : Part → Chart → Bool) : State :=
  match s.parts.find? fun p => p.base == part with
  | none => s
  | some p =>
    let i := 0x400 + peer % 256
    if ok p (p.entry i) then
      (s.writeChart p i { st := st, new := v.extractLsb' 24 24, phys := v.extractLsb' 0 24 }).unhold part
    else s.chartError part

/-- PEER_FORWARD: VALID to FORWARD, with NEW. -/
def execPeerForward (part peer : Nat) (v : DWord) (s : State) : Res :=
  .next (s.peerWrite part peer 1 v fun _ e => e.st == 0)

/-- PEER_STALL: VALID to STALL. -/
def execPeerStall (part peer : Nat) (v : DWord) (s : State) : Res :=
  .next (s.peerWrite part peer 2 v fun _ e => e.st == 0)

/-- PEER_INVALID, from any state. -/
def execPeerInvalid (part peer : Nat) (v : DWord) (s : State) : Res :=
  .next (s.peerWrite part peer 3 v fun _ _ => true)

/-- PEER_VALID: from STALL and INVALID, and from FORWARD once DRAINED is set, with PHYS := NEW. -/
def execPeerValid (part peer : Nat) (v : DWord) (s : State) : Res :=
  .next (s.peerWrite part peer 0 v fun p e =>
    e.st == 2 || e.st == 3 || (e.st == 1 && s.drained p (0x400 + peer % 256) && v.extractLsb' 0 24 == e.new))

/-! ### The partition layout (R381, R384) -/

/-- Whether runs of slices are legal and do not overlap. -/
def layoutOk : List (Nat × Nat) → Bool
  | [] => true
  | (b, n) :: rest =>
    [1, 2, 3, 4, 6, 12].contains n && b % n == 0 && b + n ≤ 12 &&
      rest.all (fun (r : Nat × Nat) => b + n ≤ r.1 || r.1 + r.2 ≤ b) && layoutOk rest

/-- The slices whose run changes. -/
def State.affected (s : State) (runs : List (Nat × Nat)) : List Nat :=
  (List.range 12).filter fun sl =>
    let old := s.parts.find? fun p => p.has sl
    let new := runs.find? fun (r : Nat × Nat) => r.1 ≤ sl && sl < r.1 + r.2
    (old.map fun p => (p.base, p.size)) != new

/-- Whether a TLB is one of a slice's own. -/
def TlbAt.in (on : Nat → Bool) : TlbAt → Bool
  | .core n => on (sliceOf n)
  | .cluster n => on (n / 4)
  | .die _ => false

/-- What the caches, homes and translations of slices hold, discarded: the L2s of their units, and what the last-level TLB
of a die, which serves several slices, holds for their contexts. -/
def State.discardSlices (s : State) (on : Nat → Bool) : State :=
  let units := ((List.range 12).filter on).map fun sl => (s.partOf sl).unit sl
  { s with
    cores := s.cores.zipIdx.map fun (c : Core × Nat) => if on (sliceOf c.2) then { c.1 with l1 := [], code := [] } else c.1
    l2 := s.l2.filter fun x => !units.contains x.unit
    monitors := s.monitors.filter fun m => !on m.home
    tlb := s.tlb.filter fun t => !(on (s.ctx t.pasid).part || t.at_.in on)
    ctxs := s.ctxs.map fun (c : Ctx) =>
      if on c.part then { c with flows := c.flows.map fun f => { f with recs := [] } } else c }

/-- PARTITION_LAYOUT_CHANGE. -/
def execPartitionLayoutChange (runs : List (Nat × Nat)) (s : State) : Res :=
  let hit := s.affected runs
  let busy := s.queueIdx.any fun q => (s.queue q).st != .disabled && hit.any fun sl => (s.queuePart q).has sl
  .next
    (if !layoutOk runs || busy then s
     else
       let s := s.discardSlices fun sl => hit.contains sl
       -- Every assist word resets when the layout changes (R396).
       let walks := (s.parts.filter fun (p : Part) => (s.assist p).getLsbD 0).map Part.base
       let s := if hit.isEmpty then s else s.walkChanged walks
       let parts := runs.map fun (r : Nat × Nat) =>
         (s.parts.find? fun (p : Part) => p.base == r.1 && p.size == r.2).getD { base := r.1, size := r.2 }
       { s with parts := parts, mapper := { s.mapper with assist := if hit.isEmpty then s.mapper.assist else [] },
                copyGroups := s.copyGroups.map fun g =>
                  match g with
                  | some b => if runs.any fun (r : Nat × Nat) => r.1 == b then g else none
                  | none => none }.measureLayout)

/-! ### Suspend and resume (R404) -/

/-- The watch of a queue stopped in `WAIT`. -/
def State.watchOf (s : State) (q : Nat) : Option Watch :=
  let x := s.queue q
  match decodePilot (x.code.getD x.pc 0) with
  | .ok (.wait a b o c) =>
    if x.busy && s.inWait q then
      some { ofs := x.addr 1 b o - x.sigBase, val := x.kreg a, cmp := c, queue := q }
    else none
  | _ => none

/-- A queue evicted for a suspend, its `WAIT` saved as a watch. -/
def State.suspendQueue (s : State) (q : Nat) : State :=
  let x := s.queue q
  let s := match s.watchOf q with
    | some w => { s with watches := s.watches ++ [w] }
    | none => s
  let s := s.disarm (.queue q)
  if x.slot.isSome then s.enterPending q else s

/-- PARTITION_SUSPEND: the suspend doorbell with bit 31 set. -/
def execPartitionSuspend (pasid : Nat) (s : State) : Res :=
  let c := s.ctx pasid
  .next
    (if c.suspended || c.suspending then s
     else
       let s := s.setCtx { c with suspending := true }
       let s := (s.queueIdx.filter fun q => (s.queue q).pasid.toNat == pasid).foldl State.suspendQueue s
       let s := (s.crews.filter fun (y : Crew) => (s.launch y.launch).pasid == pasid).foldl (fun (s : State) (c : Crew) => s.forceSave c.uid) s
       s.runMapper)

/-- The peers that a partition's chart names behind a port (log entry 31). -/
def Part.peersAt (p : Part) (port : Nat) : List Nat :=
  ((p.chart.filter fun (c : Nat × Chart) => 0x400 ≤ c.1 && c.2.st != 3 && c.2.phys.toNat / 2 ^ 20 == port).map
    fun (c : Nat × Chart) => c.2.phys.toNat / 2 ^ 4 % 2 ^ 16).eraseDups

/-- Whether every port of a partition has been acknowledged by each peer. -/
def State.quiesced (s : State) (p : Part) : Bool :=
  (List.range p.size).all fun i => (p.peersAt (p.base + i)).all fun peer => s.acks.contains (p.base + i, peer)

/-- Whether a suspend is through: every warp of the context is saved, and every port is quiet. -/
def State.suspendDone (s : State) (pasid : Nat) : Bool :=
  (s.ctx pasid).suspending && s.quiesced (s.ctxPart pasid) &&
    s.warps.all fun w => s.pasidOf w != pasid || w.place != .resident

/-- SUSPEND_COMPLETE. -/
def execSuspendComplete (pasid : Nat) (s : State) : Res :=
  let c := s.ctx pasid
  .next
    (if s.suspendDone pasid then
      { s.setCtx { c with suspending := false, suspended := true } with
        mapper := { s.mapper with suspendDone := BitVec.ofNat 32 (pasid + 2 ^ 31) } }
    else s)

/-- QUIESCE_ACK: a beat from a peer at a port. -/
def execQuiesceAck (port peer : Nat) (s : State) : Res :=
  .next (if s.acks.contains (port, peer) then s else { s with acks := s.acks ++ [(port, peer)] })

/-- A watch armed again by reading its word afresh; where it holds already, its queue goes on when it is mapped. -/
def State.rearm (s : State) (w : Watch) : State :=
  let x := s.queue w.queue
  match s.translate x.pasid.toNat (x.sigBase + w.ofs) { r := true } with
  | .ok p =>
    let (s, v) := (s.holdRun p.key 8).homeNum p.key 8
    if pilotCond w.cmp.toNat (BitVec.ofNat 64 v) w.val then s else s.armQueue w.queue (lineOf p.key) p.home
  | _ => s

/-- PARTITION_RESUME: the suspend doorbell with bit 31 clear. -/
def execPartitionResume (pasid : Nat) (s : State) : Res :=
  let c := s.ctx pasid
  let mine (w : Watch) : Bool := (s.queue w.queue).pasid.toNat == pasid
  let p := s.ctxPart pasid
  .next
    (if !c.suspended then s
     else
       let s := s.setCtx { c with suspended := false }
       let s := (s.watches.filter mine).foldl State.rearm s
       { s with watches := s.watches.filter fun w => !mine w,
                acks := s.acks.filter fun (a : Nat × Nat) => !p.has a.1 }.runMapper)

end Sys2Proof.Machine
end

