-- ==== Sys2Proof/Machine/Errors.lean ====
section
/-! DEFINITION. Machine/Errors.lean: uncorrectable errors (R339, R390, R391), clusters that fail and their spares (R214,
R388, R389), corrected errors and the guard-band (R393), and what the memory system does on its own (R160, R338). -/

namespace Sys2Proof.Machine

/-! ### The memory system on its own -/

/-- ACCESS_PERFORMED (R160, R387): the oldest outstanding access of those that meet the named one is performed. -/
def execAccessPerformed (n : Nat) (s : State) : Res :=
  .next
    (match s.pends[n]? with
      | none => s
      | some p =>
        let first := s.pends.findIdx? fun q => q.core == p.core && overlaps q.key q.bytes.length p.key p.bytes.length
        let k := first.getD n
        let s : State := ({ s with pends := s.pends.eraseIdx k }.perform (s.pends.getD k p))
        match p.peer with
        | some _ => s.unhold (s.ctxPart p.pasid).base
        | none => s)

/-- L1_EVICTION (R338). -/
def execL1Eviction (core line : Nat) (s : State) : Res := .next ((s.sendPartial core line).dropL1 core line)

/-- Whether an L2 line is the copy of a line of system memory. -/
def L2Line.copies (line : Nat) (x : L2Line) : Bool := x.line == line && match x.st with | .copy _ => true | _ => false

/-- A line of host or CXL memory that the device holds no more, in its CXL.cache or as an L2's copy: what waits for a write
of it looks again (R152, R398). -/
def State.snoop (s : State) (line : Nat) : State :=
  let s := s.wake (line * 128) 128
  { s with cxlLines := s.cxlLines.erase line, l2 := s.l2.filter fun x => !x.copies line }

/-- SNOOP_INVALIDATE: a host takes a line that the device holds over CXL.cache. -/
def execSnoopInvalidate (line : Nat) (s : State) : Res := .next (s.snoop line)

/-! ### Uncorrectable errors (R390, R391) -/

/-- Lanes die by an error of their own storage. -/
def State.errorKill (s : State) (w : Warp) (m : Word) (pc : DWord) : State :=
  let m := m &&& w.live
  if m == 0 then s
  else (((s.countDeaths w.core m).killRec w m 0x40 0 1 0 pc 0).kill w.uid m pc)

/-- Where a lane is. -/
def Warp.pcOf (w : Warp) (l : Nat) : DWord := if w.star.mask.getLsbD l then w.star.pc else w.port.pc

/-- A lane's own storage fails: its thread dies, or a vacant lane is dead from now on, without a thread to convey for
(R13). -/
def State.laneError (s : State) (w : Warp) (l : Nat) : State :=
  if (w.lane l).st == .vacant then
    let s := s.countDeaths w.core (bitOf l)
    let s := s.log (s.pasidOf w)
      { FaultRec.of s 0x40 0 1 (s.queueOf w) with lanes := bitOf l, place := placeOf w.core }
    s.setWarp (w.mapLanes (bitOf l) fun _ x => { x with st := .dead })
  else s.errorKill w (bitOf l) (w.pcOf l)

/-- The context that an error without a requester is recorded for: the first of its partition that an enabled queue
names (log entry 32). -/
def State.ctxNear (s : State) (line : Nat) : Option Nat :=
  let part := s.partOf (line * 128 / 2 ^ 36)
  (s.ctxs.find? fun c => (s.ctxPart c.pasid).base == part.base && (s.ctxQueue c.pasid).isSome).map Ctx.pasid

/-- A record of a line that no queue's work can be named for. -/
def State.lineRec (s : State) (pasid : Nat) (code outcome : Byte) (line : Nat) (place : Word) : State :=
  let q := s.ctxQueue pasid
  let r := FaultRec.of s code 8 outcome (q.getD 0)
  s.log pasid { r with gen := if q.isSome then r.gen else 0, addr := BitVec.ofNat 64 (line * 128), place := place }

/-- The slice of a partition that homes a line of some memory (R336). -/
def Part.homeOf (p : Part) (line : Nat) : Nat :=
  let k := line * 128
  if hostBase ≤ k then p.base + (if cxlBase ≤ k then k - cxlBase else k - hostBase) / 4096 % p.size
  else ((List.range 12).find? fun sl => p.has sl && p.unit sl == k / 2 ^ 36).getD (k / 2 ^ 36)

def State.markBad (s : State) (line : Nat) : State := if s.bad.contains line then s else { s with bad := s.bad ++ [line] }

/-- A partial lost (R339). -/
def State.losePartial (s : State) (core line : Nat) : State :=
  match s.l1At core line with
  | some { st := .upd _ _ _, pasid := pasid, .. } => (s.dropL1 core line).lineRec pasid 0x43 2 line (placeOf core)
  | _ => s

/-- A clean copy that stays bad until it is written whole or leaves the L1 (R390). -/
def State.spoilL1 (s : State) (core line : Nat) : State :=
  let c := s.core core
  s.setCore core { c with l1 := c.l1.map fun x =>
    if x.line == line then (match x.st with | .clean _ => { x with bad := true } | _ => x) else x }

/-- UNCORRECTABLE_ERROR: the error interrupt at once, and the fate of what held the data. -/
def execUncorrectableError (loc : ErrLoc) (s : State) : Res :=
  let s := s.send (.msix 0)
  .next
    (match loc with
      | .line l => s.markBad l
      | .writeBack l =>
        let s := s.markBad l
        match s.ctxNear l with
        | some pasid => s.lineRec pasid 0x40 1 l (placeAt ((s.ctxPart pasid).homeOf l))
        | none => s
      | .lane uid l =>
        (match s.warp? uid with
          | some w => if l < 32 then s.laneError w l else s
          | none => s)
      | .warp uid =>
        (match s.warp? uid with
          | some w => s.errorKill w w.live w.port.pc
          | none => s)
      | .tile c t =>
        let x := s.crew c
        if t < x.nT then s.setCrew (x.setTile t { x.tile t with bad := true }) else s
      | .env c e =>
        let x := s.crew c
        if e < x.nE then s.setCrew (x.setEnv e { x.env e with bad := true }) else s
      | .localLine c l =>
        let x := s.crew c
        if l < 8 * x.nL && !x.locBad.contains l then s.setCrew { x with locBad := x.locBad ++ [l] } else s
      | .l1Line core l => s.spoilL1 core l
      | .partialLine core l => s.losePartial core l)

/-! ### Clusters that fail (R214, R388) -/

/-- Whether a lane's is an ordered item whose slot is released: its record has been written (R214). -/
def State.released (s : State) (pasid : Nat) (y : Lane) : Bool :=
  y.cls == 1 && !s.slotOpen pasid y &&
    !(s.flow pasid y.iflow).recs.any fun (r : Word × Option Rec) => r.1 == y.iseq && r.2.isSome

/-- Whether a lane's item has its flow's exclusivity. -/
def State.exclusive (s : State) (pasid : Nat) (y : Lane) : Bool :=
  y.cls == 2 && (s.holding pasid y.tid 3 (flowObj y.iflow)).isSome

/-- Whether a lane's item is relaunched when its cluster is lost. -/
def State.replays (s : State) (w : Warp) (l : Nat) : Bool :=
  let y := w.lane l
  (s.launch w.launch).lrec.item && y.st == .live && y.replay && !s.released (s.pasidOf w) y

/-- A label's entry stands for a held item from now on. -/
def State.keepEntry (s : State) (pasid : Nat) (tid : Word) (kind : BitVec 4) (object : DWord) : State :=
  match s.holding pasid tid kind object with
  | some i => s.putEntry pasid i { s.entry pasid i with holder := grantedItem }
  | none => s

/-- What a relaunched item keeps: its slot undischarged, or its exclusivity. A record that it has posted and that is
still buffered is discarded, and its slot is open again. -/
def State.keepLabel (s : State) (pasid : Nat) (y : Lane) : State :=
  match y.cls with
  | 1 =>
    if s.slotOpen pasid y then s.keepEntry pasid y.tid 4 (slotObj y.iflow y.iseq)
    else
      let f := s.flow pasid y.iflow
      let s := s.setFlow pasid { f with recs := f.recs.filter fun (r : Word × Option Rec) => r.1 != y.iseq }
      s.labelEntry pasid 4 (slotObj y.iflow y.iseq) grantedItem
  | _ =>
    if s.exclusive pasid y then
      (s.setFlow pasid { s.flow pasid y.iflow with owner := grantedItem }).keepEntry pasid y.tid 3 (flowObj y.iflow)
    else s

/-- The record of an item killed or relaunched. -/
def State.itemRec (s : State) (w : Warp) (l : Nat) (outcome : Byte) : State :=
  let y := w.lane l
  s.log (s.pasidOf w)
    { FaultRec.of s 0x48 9 outcome (s.queueOf w) with
      tid := y.tid, lanes := bitOf l, pc := w.pcOf l, prog0 := BitVec.ofNat 64 (y.iid.toNat + y.iseq.toNat * 2 ^ 32),
      prog1 := BitVec.ofNat 64 y.arrival, place := placeOf w.core }

/-- A lane's item back on its launch's held list; its thread is over. -/
def State.relaunch (s : State) (w : Warp) (l : Nat) : State :=
  let pasid := s.pasidOf w
  let y := w.lane l
  let kept := s.exclusive pasid y
  let s := s.keepLabel pasid y
  let h : Held :=
    { flow := y.iflow, cls := BitVec.ofNat 2 y.cls, replay := y.replay, pay := y.ipay, iid := y.iid, iseq := y.iseq,
      arrival := y.arrival, st := .replayed (y.iclass.getLsbD 3) kept }
  let m := s.launch w.launch
  let (old, rest) := m.held.span fun (k : Held) => match k.st with
    | .replayed _ _ => k.arrival < h.arrival || (k.arrival == h.arrival && k.iid.toNat ≤ h.iid.toNat)
    | _ => false
  let s := s.setLaunch { m with held := old ++ h :: rest }
  let s := s.leaveTeams pasid y.tid false y.teams
  let s := s.freeRecords pasid y.tid
  let s := if (s.findEntry pasid fun e => e.heldBy y.tid).isSome then
      s.addDeath pasid (s.deadOf w (bitOf l) (w.pcOf l) false) none else s
  s.itemRec w l 2

/-- The warps on a cluster. -/
def State.clusterWarps (s : State) (cluster : Nat) : List Warp :=
  s.warps.filter fun w => w.place == .resident && clusterOf w.core == cluster

/-- The threads of a context on a cluster that is lost, in one event. -/
def State.loseThreads (s : State) (lost : List (Warp × Word)) (pasid : Nat) : State :=
  let mine := lost.filter fun (p : Warp × Word) => s.pasidOf p.1 == pasid
  let dead := mine.flatMap fun (p : Warp × Word) =>
    (lanesOf p.2).flatMap fun l => s.deadOf p.1 (bitOf l) (p.1.pcOf l) true
  s.addDeath pasid dead none

/-- A cluster fails: its cores stop, its items are relaunched or die with every other thread there, its partials are
lost. -/
def State.failCluster (s : State) (cluster : Nat) : State :=
  if s.failed.contains cluster then s
  else
    let ws := s.clusterWarps cluster
    let parts (w : Warp) : Word := maskOf (s.replays w)
    let again := ws.flatMap fun w => (lanesOf (parts w)).map fun l => (w, l)
    let lost := ws.map fun w => (w, w.live &&& ~~~parts w)
    let items := lost.flatMap fun (p : Warp × Word) =>
      if (s.launch p.1.launch).lrec.item then (lanesOf p.2).map fun l => (p.1, l) else []
    let cores := (List.range 16).map fun i => 16 * cluster + i
    let s : State := { s with failed := s.failed ++ [cluster],
                              laneDeaths := s.laneDeaths.filter fun (d : Nat × Nat) => d.1 != cluster }
    let s := cores.foldl (fun s c => (s.core c).l1.foldl (fun s (x : L1Line) => s.losePartial c x.line) s) s
    let s := s.emptyCluster cluster
    let s := again.foldl (fun s (p : Warp × Nat) => s.relaunch p.1 p.2) s
    let s := (s.ctxs.map Ctx.pasid).foldl (fun s pasid => s.loseThreads lost pasid) s
    let s := items.foldl (fun s (p : Warp × Nat) => s.itemRec p.1 p.2 1) s
    let s := ws.foldl State.retire s
    let p := s.partOf (cluster / 4)
    if (s.assist p).getLsbD 4 then
      (s.writeChart p (0x300 + cluster) { p.entry (0x300 + cluster) with st := 3 }).raiseDev 1
    else s

/-- CLUSTER_FAILURE (R388): an uncorrectable error in a cluster's shared logic. -/
def execClusterFailure (cluster : Nat) (s : State) : Res :=
  .next (if cluster < 48 then (s.send (.msix 0)).failCluster cluster else s)

/-- A cluster with three lane deaths by uncorrectable error in one second (R388). -/
def State.failing (s : State) : Option Nat :=
  (s.laneDeaths.map Prod.fst).find? fun c =>
    !s.failed.contains c &&
      3 ≤ (s.laneDeaths.filter fun (d : Nat × Nat) => d.1 == c && s.now - d.2 < 1000000000).length

/-- A cluster that such deaths mark failing fails at once. -/
def State.checkClusters (s : State) : State :=
  match s.failing with
  | some c => s.failCluster c
  | none => s

/-- Whether a failed cluster is to be replaced, and not by the host. -/
def State.spareDue (s : State) (cluster : Nat) : Bool :=
  let p := s.partOf (cluster / 4)
  s.failed.contains cluster && (p.entry (0x300 + cluster)).st != 3 && !(s.assist p).getLsbD 4

/-- SPARE_SUBSTITUTION (R389): the spare of the die that the failed unit lies on takes its identifier, or its entry becomes
INVALID. -/
def execSpareSubstitution (cluster : Nat) (s : State) : Res :=
  let p := s.partOf (cluster / 4)
  let e := p.entry (0x300 + cluster)
  let die := dieOf e.phys.toNat
  .next
    (if !s.spareDue cluster then s
     else if s.sparesUsed.contains die then s.writeChart p (0x300 + cluster) { e with st := 3 }
     else (s.reuseCluster cluster (48 + die)).writeChart p (0x300 + cluster) { e with phys := BitVec.ofNat 24 (48 + die) })

/-! ### Corrected errors and the guard-band (R393) -/

/-- CORRECTED_ERROR: counted for the window and in all. -/
def execCorrectedError (array : Nat) (s : State) : Res :=
  .next { s with power := { s.power with
    window := tset 0 s.power.window array (tget 0 s.power.window array + 1)
    total := tset 0 s.power.total array (tget 0 s.power.total array + 1) } }

/-- The windows at or below the threshold that a rail must have had before it is lowered. -/
def quietEnough : Nat := 600

/-- The end of a window for one array and its rail (log entry 33). -/
def State.guardArray (s : State) (hands : Bool) (array : Nat) : State :=
  let w := s.power
  let n := tget 0 w.window array
  let fixed := hands || (tget none w.pinned array).isSome
  let below := tget 0 w.below array
  if w.threshold < n then
    let s : State := { s with power := { w with
      below := if fixed then w.below else tset 0 w.below array (below - 1)
      quiet := tset quietEnough w.quiet array 0
      errLog := w.errLog ++ [(array, n)] } }
    s.raiseDev 2
  else
    let quiet := tget quietEnough w.quiet array + 1
    let (s, k) := s.pick 2
    { s with power := { s.power with
      below := if !fixed && quietEnough ≤ quiet && k == 1 then tset 0 w.below array (below + 1) else w.below
      quiet := tset quietEnough w.quiet array quiet } }

/-- The end of a window for the first `n` arrays. -/
def State.windowEnd (s : State) (n : Nat) : State :=
  let hands := s.parts.any fun p => (s.assist p).getLsbD 5
  let s := (List.range n).foldl (fun s a => s.guardArray hands a) s
  { s with power := { s.power with window := [], nextWindow := s.power.nextWindow + 1000000000 } }

/-- GUARD_BAND_WINDOW: the end of a 1 s window, for every array. -/
def execGuardBandWindow (s : State) : Res :=
  .next
    (if s.now < s.power.nextWindow then s
     else s.windowEnd (max Config.arrays (max s.power.window.length s.power.below.length)))

end Sys2Proof.Machine
end

