-- ==== Sys2Proof/Machine/Host.lean ====
section
/-! DEFINITION. Machine/Host.lean: the host link and its accesses (R397 to R399), rhumb-link requests of peers (R402), boot
and attestation (R405, R406), management (R407), power (R408). -/

namespace Sys2Proof.Machine

/-! ### Host and peer accesses to device memory (R336, R397, R399, R402) -/

/-- A partition-relative run cut where its homes change. -/
def Part.pieces (p : Part) (addr n : Nat) : List (Nat × Nat) :=
  (chunks (BitVec.ofNat 64 addr) n).map fun (c : DWord × Nat) => (p.hbm c.1.toNat, c.2)

/-- Whether a run lies in a partition's memory. -/
def Part.covers (p : Part) (addr n : Nat) : Bool := addr + n ≤ p.size * 2 ^ 36

/-- A read performed at the homes and completed, or aborted. -/
def State.serveRead (s : State) (ps : List (Nat × Nat)) : State :=
  let (s, bs) := ps.foldl (fun (r : State × List Byte) (p : Nat × Nat) =>
    let (s, b) := r.1.homeRead p.1 p.2
    (s, r.2 ++ b)) (s, [])
  if ps.any fun (p : Nat × Nat) => s.isBad p.1 p.2 then (s.send (.msix 0)).send .aborted else s.send (.completion bs)

/-- A write performed at the homes. -/
def State.serveWrite (s : State) (ps : List (Nat × Nat)) (bs : List Byte) : State :=
  (ps.foldl (fun (r : State × List Byte) (p : Nat × Nat) =>
    (r.1.homeWrite p.1 (r.2.take p.2), r.2.drop p.2)) (s, bs)).1

def State.partAt (s : State) (base : Nat) : Option Part := s.parts.find? fun p => p.base == base

/-- The key of host or CXL memory: bits [51:0] of its physical address (R336). -/
def sysKey (mem : BitVec 2) (addr : Nat) : Nat := (if mem == 2 then cxlBase else hostBase) + addr % 2 ^ 52

/-- The host's own write of its memory: the device gives up what it holds of the lines (R152, R398). -/
def State.hostWrite (s : State) (key : Nat) (bs : List Byte) : State :=
  (if bs.isEmpty then [] else linesOf key bs.length).foldl State.snoop (s.putMem key bs)

/-! ### Pages of registers (R347, R349, R354, R370, R385, R398) -/

/-- Byte `i` of a number. -/
def byteOf (v i : Nat) : Byte := BitVec.ofNat 8 (v / 2 ^ (8 * i))

/-- Bits of a table as a number. -/
def bitsNum (n : Nat) (p : Nat → Bool) : Nat := (List.range n).foldl (fun v i => if p i then v + 2 ^ i else v) 0

def QSt.code : QSt → Nat
  | .disabled => 0
  | .ready => 1
  | .pending => 2
  | .mapped => 3
  | .waiting => 4
  | .faulted => 5
  | .resetting => 6

/-- The 128 bytes of a queue's entry (R347). -/
def Queue.entryBytes (x : Queue) : List Byte :=
  leBytes 8 x.ring.toNat ++ [x.logSize, byteOf (x.prio.toNat + if x.preemptible then 8 else 0) 0] ++ leBytes 2 x.gen.toNat ++
    leBytes 4 x.pasid.toNat ++ leBytes 8 x.ctx.toNat ++ leBytes 8 x.pilot.toNat ++ leBytes 2 x.pilotLen.toNat ++
    [byteOf x.st.code 0, x.reason] ++ leBytes 4 0 ++ leBytes 8 x.detail.toNat ++ leBytes 8 x.rdx.toNat ++
    leBytes 8 x.wrx.toNat ++ leBytes 8 x.sigBase.toNat ++ leBytes 4 x.sigLen.toNat ++ leBytes 4 x.launchLen.toNat ++
    leBytes 8 x.launchBase.toNat ++ leBytes 8 x.faultTime.toNat ++ leBytes 32 0

/-- The bytes of a mailbox (R370). -/
def Part.mailboxBytes (p : Part) : List Byte :=
  leBytes 8 p.mbBase.toNat ++ leBytes 8 p.mbLen.toNat ++ leBytes 4 p.mbWho.toNat ++ leBytes 4 0 ++ leBytes 8 p.mbBell.toNat ++
    leBytes 8 p.mbDone.toNat

/-- An entry of a chart window as it reads (R386): 0 for what is no unit of the partition, and no peer (R385). -/
def State.chartWord (s : State) (p : Part) (i : Nat) : Nat :=
  if (0x400 ≤ i && i < 0x500) || (i < 0x400 && s.ownsUnit p i) then
    let e := p.entry i
    e.phys.toNat + e.new.toNat * 2 ^ 24 + (if s.drained p i then 2 ^ 61 else 0) + e.st.toNat * 2 ^ 62
  else 0

/-- The registers of the status page that can be read: where each begins, its size, its value (R354). BUSY reads 0: a command
is done in the step that writes it. -/
def State.statusRegs (s : State) : List (Nat × Nat × Nat) :=
  let m := s.mapper
  [(0x0000, 4, s.slotsInUse), (0x0004, 4, m.pressure.toNat), (0x0008, 4, m.stale.toNat), (0x000C, 4, m.droppedResume.toNat),
    (0x001C, 4, m.suspendDone.toNat), (0x0024, 4, m.mapResult.toNat),
    (0x0408, 4, m.devPend.toNat),
    (0x0600, 512, bitsNum s.queues.length fun q => (s.queue q).st == .pending),
    (0x0800, 512, bitsNum m.qPend.length fun q => tget false m.qPend q)] ++
  (List.range 12).map (fun b => (0x0040 + 4 * b, 4, (tget 0 m.assist b).toNat)) ++
  (List.range 4).map (fun k => (0x0400 + 2 * k, 2, (tget 0 m.devVec k).toNat)) ++
  (m.qVec.zipIdx.map fun (v : Half × Nat) => (0x1000 + 2 * v.2, 2, v.1.toNat))

def State.statusByte (s : State) (off : Nat) : Byte :=
  match s.statusRegs.find? fun (r : Nat × Nat × Nat) => r.1 ≤ off && off < r.1 + r.2.1 with
  | some (a, _, v) => byteOf v (off - a)
  | none => 0

/-- A byte of a page of registers; reserved ones read 0. -/
def State.ioByte (s : State) (off : Nat) : IoPage → Byte
  | .notify q => if off < 8 then byteOf (s.queue q).wrx.toNat off else 0
  | .queueEntry q => (s.queue q).entryBytes.getD off 0
  | .mailbox part => (match s.partAt part with | some p => p.mailboxBytes.getD off 0 | none => 0)
  | .chart part => (match s.partAt part with | some p => byteOf (s.chartWord p (off / 8)) (off % 8) | none => 0)
  | .status => s.statusByte off

/-- Whether a byte is one of a register that is only written: what it reads as, the spec does not say (log entry 70). -/
def writeOnly (off : Nat) : IoPage → Bool
  | .notify _ => 8 ≤ off && off < 16
  | .status => (0x10 ≤ off && off < 0x14) || (0x18 ≤ off && off < 0x1C) || (0x20 ≤ off && off < 0x24)
  | _ => false

/-- A read of a page of registers. -/
def State.readIo (s : State) (page : IoPage) (off n : Nat) : State :=
  let (s, ws) := if (List.range n).any fun i => writeOnly (off + i) page then s.freeWords n else (s, [])
  s.send (.completion ((List.range n).map fun i =>
    if writeOnly (off + i) page then (ws.getD i 0).setWidth 8 else s.ioByte (off + i) page))

/-- HOST_MEMORY_ACCESS (R398, R399). -/
def execHostMemoryAccess (acc : HostAccess) (s : State) : Res :=
  .next
    (match acc with
      | .readHbm part addr n =>
        (match s.partAt part with
          | some p => if p.covers addr.toNat n then s.serveRead (p.pieces addr.toNat n) else s.send .unsupported
          | none => s.send .unsupported)
      | .writeHbm part addr bs =>
        (match s.partAt part with
          | some p =>
            if p.covers addr.toNat bs.length then s.serveWrite (p.pieces addr.toNat bs.length) bs else s.send .unsupported
          | none => s.send .unsupported)
      | .readSys mem addr n => s.serveRead [(sysKey mem addr.toNat, n)]
      | .writeSys mem addr bs => s.hostWrite (sysKey mem addr.toNat) bs
      | .readIo page off n => s.readIo page off n)

/-- An AtomicOp of the host on device memory (R397): 32 or 64 bits, naturally aligned; its completion holds the old
value. -/
def State.hostAtomic (s : State) (part : Nat) (addr : DWord) (bits : Nat) (g : Nat → Nat) : State :=
  let n := bits / 8
  match s.partAt part with
  | none => s.send .unsupported
  | some p =>
    if (bits != 32 && bits != 64) || addr.toNat % n != 0 || !p.covers addr.toNat n then s.send .unsupported
    else
      let key := p.hbm addr.toNat
      if s.isBad key n then (s.send (.msix 0)).send .aborted
      else
        let (s, old) := s.homeNum key n
        (s.homePut key n (g old % 2 ^ bits)).send (.completion (leBytes n old))

def execAtomicopFetchadd (part : Nat) (addr : DWord) (bits : Nat) (v : QWord) (s : State) : Res :=
  .next (s.hostAtomic part addr bits fun old => old + v.toNat)

def execAtomicopSwap (part : Nat) (addr : DWord) (bits : Nat) (v : QWord) (s : State) : Res :=
  .next (s.hostAtomic part addr bits fun _ => v.toNat)

def execAtomicopCas (part : Nat) (addr : DWord) (bits : Nat) (cmp v : QWord) (s : State) : Res :=
  .next (s.hostAtomic part addr bits fun old => if old == cmp.toNat % 2 ^ bits then v.toNat else old)

/-- Whether a peer's run is inside the export limit of the port that it comes through, and inside the partition. -/
def State.exports (s : State) (port ofs n : Nat) : Bool :=
  ofs + n ≤ (tget 0 s.outLimits port).toNat && (s.partOf port).covers ofs n

/-- FABRIC_REQUEST (R402): served at the home slice, or refused. -/
def execFabricRequest (req : FabricReq) (s : State) : Res :=
  .next
    (match req with
      | .read port ofs n =>
        if s.exports port ofs.toNat n then s.serveRead ((s.partOf port).pieces ofs.toNat n) else s.send .refusedExport
      | .write port ofs bs =>
        if s.exports port ofs.toNat bs.length then s.serveWrite ((s.partOf port).pieces ofs.toNat bs.length) bs
        else s.send .refusedExport)

/-- LINK_DEGRADE (R397): to ×8 or ×4. -/
def execLinkDegrade (lanes : Nat) (s : State) : Res :=
  .next (if (lanes == 8 || lanes == 4) && lanes < s.linkLanes then { s with linkLanes := lanes } else s)

/-- Host time, as PTM correlates it with device time (R12, R397); nothing of the module depends on it. -/
def State.hostTime (s : State) : DWord := Config.hostTime s.now

/-- The next state of a TDI (log entry 34). -/
def Tdi.next (t : Tdi) (r : TdispReq) : Tdi :=
  match t, r with
  | .unlocked, .lock => .locked
  | .locked, .start => .run
  | _, .stop => .unlocked
  | _, .error => .error
  | t, _ => t

/-- TDISP_REQUEST (R397). -/
def execTdispRequest (part : Nat) (req : TdispReq) (s : State) : Res :=
  .next (s.onPart part fun p => { p with tdi := p.tdi.next req })

/-! ### Boot (R405) -/

def bootOk (fuse : Nat) (i : BootImage) : Bool := i.ed25519 && i.mldsa && fuse ≤ i.version

/-- BOOT: the images checked in order; the link, or recovery. -/
def execBoot (images : List BootImage) (s : State) : Res :=
  .next
    (if s.sec.booted && !s.power.down then s
     else
       -- Device time counts from the last device reset: a module that comes up again starts at 0 (R12).
       let up : State := { s with now := if s.power.down then 0 else s.now, power := { s.power with down := false } }
       if images.length == 2 && images.all (bootOk s.sec.fuse) then
         let digests := images.map BootImage.digest
         { up with sec := { s.sec with
             booted := true, recovery := false, spdm := .start, sessions := [],
             meas := [Config.reading 0] ++ digests ++ [Config.digest (leBytes 8 s.sec.fuse), 0, 0] } }.measureLayout
       else { up with sec := { s.sec with booted := false, recovery := true, spdm := .start, sessions := [] } })

/-! ### Attestation (R406) -/

/-- An SPDM request answered where the responder runs and its turn has come, and else with an error. -/
def State.spdm (s : State) (ok : Bool) (act : State → State) : Res :=
  .next
    (if !s.sec.booted && !s.sec.recovery then s
     else if ok then act s else s.send .errorAnswer)

def State.setSpdm (s : State) (x : Spdm) : State := { s with sec := { s.sec with spdm := x } }

/-- GET_VERSION: version 1.3; a new connection. -/
def execGetVersion (s : State) : Res := s.spdm true fun s => (s.setSpdm .version).send (.answer "VERSION" [0x13] [])

/-- GET_CAPABILITIES: certificates, challenge, measurements and key exchange (log entry 35). -/
def execGetCapabilities (s : State) : Res :=
  s.spdm (s.sec.spdm == .version) fun s => (s.setSpdm .caps).send (.answer "CAPABILITIES" [] [])

/-- NEGOTIATE_ALGORITHMS: of those offered, the responder's. -/
def execNegotiateAlgorithms (offered : Nat) (s : State) : Res :=
  s.spdm (s.sec.spdm == .caps) fun s => (s.setSpdm .algs).send (.answer "ALGORITHMS" [offered] [])

def State.agreed (s : State) : Bool := s.sec.spdm == .algs

/-- A signed answer: both signatures over the digest of what it covers. -/
def State.signed (s : State) (what : String) (nums : List Nat) (bytes : List Byte) : State :=
  let h := Config.digest (bytes ++ nums.flatMap fun n => leBytes 48 n)
  s.send (.answer what (nums ++ [Config.signature 0 h, Config.signature 1 h]) bytes)

def execGetDigests (s : State) : Res :=
  s.spdm s.agreed fun s => s.send (.answer "DIGESTS" [Config.digest (Config.certificate 0)] [])

def execGetCertificate (slot offset length : Nat) (s : State) : Res :=
  s.spdm s.agreed fun s => s.send (.answer "CERTIFICATE" [slot] (((Config.certificate slot).drop offset).take length))

/-- The six measurement blocks. -/
def State.blocks (s : State) : List Nat := (List.range 6).map fun i => tget 0 s.sec.meas i

def execChallenge (slot nonce : Nat) (s : State) : Res :=
  s.spdm s.agreed fun s => s.signed "CHALLENGE_AUTH" (slot :: nonce :: s.blocks) (Config.certificate slot)

/-- GET_MEASUREMENTS: how many blocks there are, one of them, or all. -/
def execGetMeasurements (index nonce : Nat) (s : State) : Res :=
  s.spdm (s.agreed && (index ≤ 6 || index == 255)) fun s =>
    s.signed "MEASUREMENTS"
      (nonce :: (if index == 0 then [6] else if index == 255 then s.blocks else [tget 0 s.sec.meas (index - 1)])) []

def execKeyExchange (session share : Nat) (s : State) : Res :=
  s.spdm (s.agreed && !s.sec.sessions.any fun (x : Nat × Bool) => x.1 == session) fun s =>
    { s with sec := { s.sec with sessions := s.sec.sessions ++ [(session, false)] } }.signed "KEY_EXCHANGE_RSP"
      [session, share] []

def execFinish (session : Nat) (s : State) : Res :=
  s.spdm (s.sec.sessions.contains (session, false)) fun s =>
    { s with sec := { s.sec with sessions := s.sec.sessions.map fun (x : Nat × Bool) =>
      if x.1 == session then (session, true) else x } }.send (.answer "FINISH_RSP" [session] [])

def execEndSession (session : Nat) (s : State) : Res :=
  s.spdm (s.sec.sessions.contains (session, true)) fun s =>
    { s with sec := { s.sec with sessions := s.sec.sessions.filter fun (x : Nat × Bool) => x.1 != session } }.send
      (.answer "END_SESSION_ACK" [session] [])

/-! ### Management (R407, R408) -/

/-- MCTP_CONTROL. -/
def execMctpControl (command : Nat) (s : State) : Res := .next (s.send (.answer "MCTP" [command] []))

/-- TELEMETRY_REPORT. -/
def execTelemetryReport (what : Telemetry) (s : State) : Res :=
  .next (s.send
    (match what with
      | .temperatures => .answer "TEMPERATURES" [Config.reading 1] []
      | .rails => .answer "RAILS" (Config.reading 2 :: s.power.below) []
      | .corrected a => .answer "CORRECTED" [tget 0 s.power.total a] []
      | .sigKills c => .answer "SIGKILLS" [(s.core c).sigKills] []
      | .errorLog => .answer "ERRORLOG" (s.power.errLog.flatMap fun (e : Nat × Nat) => [e.1, e.2]) []
      | .powerLimit => .answer "POWERLIMIT" [s.power.cap] []))

/-- SET_POWER_LIMIT: 800 W to 3,200 W. -/
def execSetPowerLimit (watts : Nat) (s : State) : Res :=
  .next (if 800 ≤ watts && watts ≤ 3200 then { s with power := { s.power with cap := watts } } else s)

/-- RAIL_PINNING: a rail held so many steps below nominal, or released. -/
def execRailPinning (rail : Nat) (pin : Option Nat) (s : State) : Res :=
  .next
    { s with power := { s.power with
      pinned := tset none s.power.pinned rail pin
      below := (match pin with | some n => tset 0 s.power.below rail n | none => s.power.below) } }

/-! ### Power (R408) -/

/-- The arithmetic clock without throttling, in MHz. -/
def fullClock : Nat := 1000

/-- POWER_THROTTLE: a step of 50 MHz down above the cap or an inlet of 45 °C, and up again otherwise. -/
def execPowerThrottle (drawn inlet : Nat) (s : State) : Res :=
  let c := s.power.clock
  let new := if s.power.cap < drawn || 45 < inlet then max 500 (c - 50) else min fullClock (c + 50)
  .next { s with power := { s.power with clock := new } }

/-- The module without power: only what lies outside it is left, and what is fused. -/
def State.powerDown (s : State) : State :=
  { State.reset with
    mem := s.mem.filter fun c => hostBase ≤ c.1
    power := { down := true }
    sec := { fuse := s.sec.fuse }
    sent := s.sent
    serial := s.serial
    free := s.free
    agenda := s.agenda
    turn := s.turn }

/-- MAIN_RAILS_DOWN. -/
def execMainRailsDown (s : State) : Res := .next s.powerDown

/-- The conveyances of a context carried out. -/
def State.settleDeaths (pasid : Nat) : Nat → State → State
  | 0, s => s
  | n + 1, s => if (s.ctx pasid).deaths.isEmpty then s else State.settleDeaths pasid n (s.conveyance pasid)

/-- A queue killed as a reset kills it. -/
def State.endQueue (s : State) (q : Nat) : State :=
  let pasid := (s.queue q).pasid.toNat
  let s := s.resetQueue q
  let c := s.ctx pasid
  let s := State.settleDeaths pasid (c.estate.length + 2 * c.deaths.length + 1) s
  match execResetSweepComplete q s with
  | .next s => s
  | _ => s

/-- THERMAL_SHUTDOWN: a junction above its limit. -/
def execThermalShutdown (junction : Nat) (s : State) : Res :=
  .next
    (if junction ≤ Config.junctionLimit then s
     else
       let live := s.queueIdx.filter fun q => (s.queue q).st != .disabled && (s.queue q).st != .resetting
       (live.foldl State.endQueue (s.send (.msix 0))).powerDown)

end Sys2Proof.Machine
end

