-- ==== Sys2Proof/Machine/System.lean ====
section
/-! DEFINITION. Machine/System.lean: the system instructions (R325 to R331), the events that end their waits, and the
traps of a word that decodes to nothing and of a fetch that fails (R47, R50). -/

namespace Sys2Proof.Machine

/-! ### Software traps (R325) -/

/-- `trap n` and `bkpt`: the instruction completes and its vector is raised at the next one; inside a handler it is a
double trap (R323). -/
def Issue.software (x : Issue) (vec : Nat) (info : DWord) : State :=
  match x.w.handler with
  | some _ => x.s.killWarp x.w x.pc (BitVec.ofNat 8 vec)
  | none => x.s.takeTrap (x.w.advance x.side x.i) x.side vec (BitVec.ofNat 32 vec) (x.pc + 16) info x.tp

def execTrap (f : Fields) (s : State) : Res :=
  issue (.trap f) s fun x =>
    if x.tp == 0 then x.skip
    else x.software (f.imm.toNat % 256) (BitVec.ofNat 64 (x.get f (lowOf x.tp) 1 f.a % 2 ^ 32))

def execBkpt (f : Fields) (s : State) : Res :=
  issue (.bkpt f) s fun x => if x.tp == 0 then x.skip else x.software 0x11 (BitVec.ofNat 64 (f.imm.toNat % 65536))

/-! ### Return from a trap (R324) -/

/-- Whether the handler has left the stack at its entry mark and every NC at 0. -/
def Warp.canReturn (w : Warp) : Bool := w.stack.isEmpty && (lanesOf w.live).all fun l => (w.lane l).nc == 0

def execRte (f : Fields) (s : State) : Res :=
  issue (.rte f) s fun x =>
    match x.w.handler with
    | none => x.trapField .op (x.w.active x.side)
    | some h =>
      if x.w.canReturn then
        x.s.setWarp (x.w.leaveTrap h (if f.sub.getLsbD 0 then x.w.trappc + 16 else x.w.trappc))
      else x.s.killWarp x.w x.pc 4

/-! ### Yield (R329) -/

/-- Whether the warp is in a handler entered for 0x10, or a 0x10 is pending. -/
def Warp.yields (w : Warp) : Bool :=
  w.due.isSome || match w.handler with | some h => h.vec == 0x10 | none => false

/-- The warp becomes the youngest of its core. -/
def State.youngest (s : State) (w : Warp) : Nat :=
  max s.now (((s.warps.filter fun y => y.core == w.core).map Warp.age).foldl max 0 + 1)

def execYield (f : Fields) (s : State) : Res :=
  issue (.yield f) s fun x =>
    let w := x.w.advance x.side x.i
    if x.w.yields then (x.s.setWarp w).putAway w .savedControl
    else x.s.setWarp { w with age := x.s.youngest w }

/-! ### Time (R330, R331) -/

/-- Device time written; with `.f` every access of the slot is performed first. -/
def execRdts (f : Fields) (s : State) : Res :=
  issue (.rdts f) s fun x =>
    if x.tp == 0 then x.skip
    else
      let s := if f.sub.getLsbD 0 then x.s.performIf fun p => p.uid == x.w.uid && p.side == x.side else x.s
      x.doneIn (s.setWarp (x.w.write x.tp f.d 2 fun _ => s.time.toNat))

/-- The slot sleeps until a device time. -/
def execSleep (f : Fields) (s : State) : Res :=
  issue (.sleep f) s fun x =>
    let n := x.get f 0 1 f.a
    let w := x.w.advance x.side x.i
    if x.tp == 0 || n == 0 then x.skip
    else x.s.setWarp (w.setSlot x.side { w.slot x.side with wait := some ⟨.sleep (x.s.now + n), x.s.now⟩ })

/-- SLEEP_WAKE (R331). -/
def execSleepWake (uid : Nat) (side : Side) (s : State) : Res :=
  .next
    (match s.warp? uid with
      | none => s
      | some w =>
        match w.why side with
        | some (.sleep t) => if t ≤ s.now then s.setWarp (w.setSlot side { w.slot side with wait := none }) else s
        | _ => s)

/-! ### Service calls (R326, R327) -/

/-- The address of an entry of the ring. -/
def State.svcEntry (s : State) (pasid k size : Nat) : DWord :=
  (s.ctx pasid).crec.service + BitVec.ofNat 64 (64 + 128 * (k % size))

/-- The 128 bytes of an entry as the device posts it. -/
def Issue.svcBytes (x : Issue) (f : Fields) (id l : Nat) : List Byte :=
  let a := match f.a with | .v n => n.toNat | _ => 0
  leBytes 4 (f.imm.toNat % 65536) ++ leBytes 4 (x.w.lane l).tid.toNat ++ leBytes 8 id ++ leBytes 4 l ++ leBytes 4 0 ++
    leBytes 8 x.s.time.toNat ++ leBytes 32 0 ++ (List.range 16).flatMap fun i => leBytes 4 (arg a i l).toNat
where
  /-- An argument of a lane. -/
  arg (a i l : Nat) : Word := (x.w.lane l).reg (a + i)

/-- The call posted: one entry per lane, then the write index; the warp waits, and a crew of one is parked at once. -/
def Issue.postCall (x : Issue) (f : Fields) : State :=
  let pasid := x.s.pasidOf x.w
  let s := x.s.performIf fun p => p.uid == x.w.uid
  let (w, _, size) := s.svcRing pasid
  let id := (s.ctx pasid).nextCall
  let lanes := lanesOf x.tp
  let entries := lanes.zipIdx.map fun (p : Nat × Nat) => (p.1, s.svcEntry pasid (w + p.2) size)
  let s := entries.foldl (fun s (p : Nat × DWord) => s.ctxWrite pasid p.2 (x.svcBytes f id p.1)) s
  let s := s.ctxWrite pasid (s.ctx pasid).crec.service (leBytes 8 (w + lanes.length))
  let c := s.ctx pasid
  let call : Call := { id := id, uid := x.w.uid, side := x.side, entries := entries }
  let s := s.setCtx { c with calls := c.calls ++ [call], nextCall := id + 1 }
  let y := x.w.await x.side (.svcCall id) s.now
  let s := s.setWarp y
  if (s.crewWarps y.crew).length == 1 then s.putAway y .parked else s

/-- The predicate that an operand names. -/
def predOf : Opnd → BitVec 4
  | .p n => n
  | _ => 15

/-- Results taken: lanes whose entry is done get its values and a set predicate. -/
def Issue.returned (x : Issue) (f : Fields) (c : Call) : State :=
  let pasid := x.s.pasidOf x.w
  let a := match f.a with | .v n => n.toNat | _ => 0
  let m := maskOf fun l => c.entries.any fun (p : Nat × DWord) => p.1 == l
  let w := x.w.mapLanes m fun l y =>
    match c.results.find? fun (r : Nat × List Byte) => r.1 == l with
    | some r => (y.put a 16 (leNat r.2)).setPred (predOf f.d) true
    | none => y.setPred (predOf f.d) false
  let k := x.s.ctx pasid
  let s := x.s.setCtx { k with calls := k.calls.filter fun y => y.id != c.id }
  s.setWarp (w.advance x.side x.i)

def execSvc (f : Fields) (s : State) : Res :=
  issue (.svc f) s fun x =>
    let pasid := x.s.pasidOf x.w
    let (w, r, size) := x.s.svcRing pasid
    let n := countOf x.tp
    match x.w.why x.side with
    | some (.svcCall id) =>
      (match (x.s.ctx pasid).calls.find? fun c => c.id == id && c.ready with
        | some c => x.returned f c
        | none => x.await (.svcCall id))
    | _ =>
      if n == 0 then x.skip
      else if size < n then x.trapField .op x.tp
      else if size < n + (w - r) then x.await (.svcRoom n)
      else x.postCall f

/-- The entries of a call as the host has left them: none while one is not done, else the results of the lanes whose
status is 1. -/
def State.svcResults (s : State) (pasid : Nat) (c : Call) : Option (List (Nat × List Byte)) :=
  let status (p : Nat × DWord) : Nat := s.ctxNum pasid (p.2 + 20) 4
  if c.entries.any fun p => status p == 0 then none
  else
    some ((c.entries.filter fun p => status p == 1).map fun (p : Nat × DWord) =>
      (p.1, leBytes 64 (s.ctxNum pasid (p.2 + 64) 64)))

/-- Whether a call still waits: its warp does, and the host has not resumed it. -/
def State.callWaits (s : State) (c : Call) : Bool :=
  !c.ready && match s.warp? c.uid with | some w => w.why c.side == some (.svcCall c.id) | none => false

/-- RESUME (R327, R349): a write of a call id; one that names no waiting call is dropped and counted. -/
def execResume (queue : Nat) (callId : DWord) (s : State) : Res :=
  let pasid := (s.queue queue).pasid.toNat
  let k := s.ctx pasid
  .next
    (match k.calls.find? fun c => c.id == callId.toNat && s.callWaits c with
      | none => { s with mapper := { s.mapper with droppedResume := s.mapper.droppedResume + 1 } }
      | some c =>
        match s.svcResults pasid c with
        | none => s
        | some rs =>
          s.setCtx { k with calls := k.calls.map fun y => if y.id == c.id then { y with ready := true, results := rs } else y })

/-- HOST_SERVICE_RING_FREED (R327): the host advances the read index; a call that waits for entries is posted when its
slot issues next. -/
def execHostServiceRingFreed (pasid : Nat) (idx : DWord) (s : State) : Res :=
  .next (s.ctxWrite pasid ((s.ctx pasid).crec.service + 8) (leBytes 8 idx.toNat))

/-! ### Words that are not instructions, and fetches that fail -/

/-- ILLEGAL_OPCODE (R50): trap 0x01 with the OP of the word. -/
def execIllegalOpcode (word : QWord) (s : State) : Res :=
  issue (.illegalOpcode word) s fun x => x.trap 1 (BitVec.ofNat 64 (word.toNat % 1024)) (x.w.active x.side)

/-- INSTRUCTION_FETCH_FAULT (R33, R47): trap 0x08 at the slot's PC. -/
def execInstructionFetchFault (perm : Bool) (s : State) : Res :=
  issue (.instructionFetchFault perm) s fun x =>
    x.s.trapAddr x.w x.side 8 2 perm x.pc (x.w.active x.side)

end Sys2Proof.Machine
end

