-- ==== Sys2Proof/Machine/Dispatch.lean ====
section
/-! DEFINITION. Machine/Dispatch.lean: one arm per instruction, each one direct call of its meaning. -/

namespace Sys2Proof.Machine

def exec (i : Instr) (s : State) : Host.Outcome State Fault Refusal :=
  match i with
  | .add f => Sys2Proof.Machine.execAdd f s
  | .sub f => Sys2Proof.Machine.execSub f s
  | .addc f => Sys2Proof.Machine.execAddc f s
  | .subb f => Sys2Proof.Machine.execSubb f s
  | .mul f => Sys2Proof.Machine.execMul f s
  | .mulhi f => Sys2Proof.Machine.execMulhi f s
  | .mad f => Sys2Proof.Machine.execMad f s
  | .madw f => Sys2Proof.Machine.execMadw f s
  | .min f => Sys2Proof.Machine.execMin f s
  | .max f => Sys2Proof.Machine.execMax f s
  | .abs f => Sys2Proof.Machine.execAbs f s
  | .neg f => Sys2Proof.Machine.execNeg f s
  | .idp4 f => Sys2Proof.Machine.execIdp4 f s
  | .div f => Sys2Proof.Machine.execDiv f s
  | .rem f => Sys2Proof.Machine.execRem f s
  | .clamp f => Sys2Proof.Machine.execClamp f s
  | .and f => Sys2Proof.Machine.execAnd f s
  | .or f => Sys2Proof.Machine.execOr f s
  | .xor f => Sys2Proof.Machine.execXor f s
  | .andn f => Sys2Proof.Machine.execAndn f s
  | .not f => Sys2Proof.Machine.execNot f s
  | .lop3 f => Sys2Proof.Machine.execLop3 f s
  | .shl f => Sys2Proof.Machine.execShl f s
  | .shr f => Sys2Proof.Machine.execShr f s
  | .sra f => Sys2Proof.Machine.execSra f s
  | .rol f => Sys2Proof.Machine.execRol f s
  | .fsh f => Sys2Proof.Machine.execFsh f s
  | .bext f => Sys2Proof.Machine.execBext f s
  | .bins f => Sys2Proof.Machine.execBins f s
  | .popc f => Sys2Proof.Machine.execPopc f s
  | .clz f => Sys2Proof.Machine.execClz f s
  | .ctz f => Sys2Proof.Machine.execCtz f s
  | .brev f => Sys2Proof.Machine.execBrev f s
  | .bperm f => Sys2Proof.Machine.execBperm f s
  | .cmp f => Sys2Proof.Machine.execCmp f s
  | .sel f => Sys2Proof.Machine.execSel f s
  | .lea f => Sys2Proof.Machine.execLea f s
  | .mov f => Sys2Proof.Machine.execMov f s
  | .plop f => Sys2Proof.Machine.execPlop f s
  | .pmask f => Sys2Proof.Machine.execPmask f s
  | .pmaskSet f => Sys2Proof.Machine.execPmaskSet f s
  | .srd f => Sys2Proof.Machine.execSrd f s
  | .swr f => Sys2Proof.Machine.execSwr f s
  | .v2s f => Sys2Proof.Machine.execV2s f s
  | .fadd f => Sys2Proof.Machine.execFadd f s
  | .fsub f => Sys2Proof.Machine.execFsub f s
  | .fmul f => Sys2Proof.Machine.execFmul f s
  | .ffma f => Sys2Proof.Machine.execFfma f s
  | .fmin f => Sys2Proof.Machine.execFmin f s
  | .fmax f => Sys2Proof.Machine.execFmax f s
  | .fabs f => Sys2Proof.Machine.execFabs f s
  | .fcmp f => Sys2Proof.Machine.execFcmp f s
  | .fclass f => Sys2Proof.Machine.execFclass f s
  | .frcp f => Sys2Proof.Machine.execFrcp f s
  | .frsq f => Sys2Proof.Machine.execFrsq f s
  | .fsqrt f => Sys2Proof.Machine.execFsqrt f s
  | .fexp2 f => Sys2Proof.Machine.execFexp2 f s
  | .flog2 f => Sys2Proof.Machine.execFlog2 f s
  | .fsinpi f => Sys2Proof.Machine.execFsinpi f s
  | .fcospi f => Sys2Proof.Machine.execFcospi f s
  | .ftanh f => Sys2Proof.Machine.execFtanh f s
  | .fdiv f => Sys2Proof.Machine.execFdiv f s
  | .fscale f => Sys2Proof.Machine.execFscale f s
  | .frnd f => Sys2Proof.Machine.execFrnd f s
  | .fdp2 f => Sys2Proof.Machine.execFdp2 f s
  | .cvt f => Sys2Proof.Machine.execCvt f s
  | .cvtf f => Sys2Proof.Machine.execCvtf f s
  | .cvtfDec f => Sys2Proof.Machine.execCvtfDec f s
  | .cvtx2 f => Sys2Proof.Machine.execCvtx2 f s
  | .cvtx2Unp f => Sys2Proof.Machine.execCvtx2Unp f s
  | .cvt8x4 f => Sys2Proof.Machine.execCvt8x4 f s
  | .cvt8x4Unp f => Sys2Proof.Machine.execCvt8x4Unp f s
  | .bpack f => Sys2Proof.Machine.execBpack f s
  | .bunpack f => Sys2Proof.Machine.execBunpack f s
  | .bra f => Sys2Proof.Machine.execBra f s
  | .brx f => Sys2Proof.Machine.execBrx f s
  | .fork f => Sys2Proof.Machine.execFork f s
  | .join f => Sys2Proof.Machine.execJoin f s
  | .brk f => Sys2Proof.Machine.execBrk f s
  | .call f => Sys2Proof.Machine.execCall f s
  | .ret f => Sys2Proof.Machine.execRet f s
  | .exit f => Sys2Proof.Machine.execExit f s
  | .sigchk f => Sys2Proof.Machine.execSigchk f s
  | .nop f => Sys2Proof.Machine.execNop f s
  | .ld f => Sys2Proof.Machine.execLd f s
  | .st f => Sys2Proof.Machine.execSt f s
  | .ldl f => Sys2Proof.Machine.execLdl f s
  | .stl f => Sys2Proof.Machine.execStl f s
  | .atom f => Sys2Proof.Machine.execAtom f s
  | .atoml f => Sys2Proof.Machine.execAtoml f s
  | .red f => Sys2Proof.Machine.execRed f s
  | .fence f => Sys2Proof.Machine.execFence f s
  | .wcmp f => Sys2Proof.Machine.execWcmp f s
  | .prefetch f => Sys2Proof.Machine.execPrefetch f s
  | .cachectlInv f => Sys2Proof.Machine.execCachectlInv f s
  | .cachectlSetev f => Sys2Proof.Machine.execCachectlSetev f s
  | .cachectlInvall f => Sys2Proof.Machine.execCachectlInvall f s
  | .nbr f => Sys2Proof.Machine.execNbr f s
  | .xsh f => Sys2Proof.Machine.execXsh f s
  | .lred f => Sys2Proof.Machine.execLred f s
  | .lscan f => Sys2Proof.Machine.execLscan f s
  | .vote f => Sys2Proof.Machine.execVote f s
  | .regroup f => Sys2Proof.Machine.execRegroup f s
  | .tnew f => Sys2Proof.Machine.execTnew f s
  | .tjoin f => Sys2Proof.Machine.execTjoin f s
  | .tleave f => Sys2Proof.Machine.execTleave f s
  | .tfree f => Sys2Proof.Machine.execTfree f s
  | .tinfo f => Sys2Proof.Machine.execTinfo f s
  | .rzinit f => Sys2Proof.Machine.execRzinit f s
  | .rzarr f => Sys2Proof.Machine.execRzarr f s
  | .rzwait f => Sys2Proof.Machine.execRzwait f s
  | .rzaw f => Sys2Proof.Machine.execRzaw f s
  | .ispawn f => Sys2Proof.Machine.execIspawn f s
  | .inext f => Sys2Proof.Machine.execInext f s
  | .relabel f => Sys2Proof.Machine.execRelabel f s
  | .irel f => Sys2Proof.Machine.execIrel f s
  | .iend f => Sys2Proof.Machine.execIend f s
  | .iflowq f => Sys2Proof.Machine.execIflowq f s
  | .hlock f => Sys2Proof.Machine.execHlock f s
  | .hunlock f => Sys2Proof.Machine.execHunlock f s
  | .promise f => Sys2Proof.Machine.execPromise f s
  | .fulfil f => Sys2Proof.Machine.execFulfil f s
  | .heir f => Sys2Proof.Machine.execHeir f s
  | .convey f => Sys2Proof.Machine.execConvey f s
  | .bereft f => Sys2Proof.Machine.execBereft f s
  | .bereftCust f => Sys2Proof.Machine.execBereftCust f s
  | .estqLo f => Sys2Proof.Machine.execEstqLo f s
  | .estqHi f => Sys2Proof.Machine.execEstqHi f s
  | .estqFind f => Sys2Proof.Machine.execEstqFind f s
  | .die f => Sys2Proof.Machine.execDie f s
  | .mma f => Sys2Proof.Machine.execMma f s
  | .mzero f => Sys2Proof.Machine.execMzero f s
  | .mld f => Sys2Proof.Machine.execMld f s
  | .mst f => Sys2Proof.Machine.execMst f s
  | .mmov f => Sys2Proof.Machine.execMmov f s
  | .mmovW f => Sys2Proof.Machine.execMmovW f s
  | .mmask f => Sys2Proof.Machine.execMmask f s
  | .mmaskClear f => Sys2Proof.Machine.execMmaskClear f s
  | .mrow f => Sys2Proof.Machine.execMrow f s
  | .mrowM f => Sys2Proof.Machine.execMrowM f s
  | .mprog f => Sys2Proof.Machine.execMprog f s
  | .mprogSet f => Sys2Proof.Machine.execMprogSet f s
  | .einit f => Sys2Proof.Machine.execEinit f s
  | .eins f => Sys2Proof.Machine.execEins f s
  | .esum f => Sys2Proof.Machine.execEsum f s
  | .emax f => Sys2Proof.Machine.execEmax f s
  | .einf f => Sys2Proof.Machine.execEinf f s
  | .econj f => Sys2Proof.Machine.execEconj f s
  | .eshift f => Sys2Proof.Machine.execEshift f s
  | .eeval f => Sys2Proof.Machine.execEeval f s
  | .ebrk f => Sys2Proof.Machine.execEbrk f s
  | .ecnt f => Sys2Proof.Machine.execEcnt f s
  | .eld f => Sys2Proof.Machine.execEld f s
  | .est f => Sys2Proof.Machine.execEst f s
  | .qpush f => Sys2Proof.Machine.execQpush f s
  | .qpushPipe f => Sys2Proof.Machine.execQpushPipe f s
  | .qpop f => Sys2Proof.Machine.execQpop f s
  | .qtry f => Sys2Proof.Machine.execQtry f s
  | .twaitany f => Sys2Proof.Machine.execTwaitany f s
  | .twaitall f => Sys2Proof.Machine.execTwaitall f s
  | .tffr f => Sys2Proof.Machine.execTffr f s
  | .tclr f => Sys2Proof.Machine.execTclr f s
  | .trap f => Sys2Proof.Machine.execTrap f s
  | .svc f => Sys2Proof.Machine.execSvc f s
  | .rte f => Sys2Proof.Machine.execRte f s
  | .yield f => Sys2Proof.Machine.execYield f s
  | .rdts f => Sys2Proof.Machine.execRdts f s
  | .sleep f => Sys2Proof.Machine.execSleep f s
  | .bkpt f => Sys2Proof.Machine.execBkpt f s
  | .ldp a o => Sys2Proof.Machine.execLdp a o s
  | .ldq a b w o => Sys2Proof.Machine.execLdq a b w o s
  | .stq a b w o => Sys2Proof.Machine.execStq a b w o s
  | .ldi a v => Sys2Proof.Machine.execLdi a v s
  | .ldiSh a v => Sys2Proof.Machine.execLdiSh a v s
  | .pilotAddReg a b => Sys2Proof.Machine.execPilotAddReg a b s
  | .pilotAddImm a v => Sys2Proof.Machine.execPilotAddImm a v s
  | .pilotSubReg a b => Sys2Proof.Machine.execPilotSubReg a b s
  | .pilotSubImm a v => Sys2Proof.Machine.execPilotSubImm a v s
  | .pilotAndReg a b => Sys2Proof.Machine.execPilotAndReg a b s
  | .pilotAndImm a v => Sys2Proof.Machine.execPilotAndImm a v s
  | .pilotOrReg a b => Sys2Proof.Machine.execPilotOrReg a b s
  | .pilotOrImm a v => Sys2Proof.Machine.execPilotOrImm a v s
  | .pilotShlReg a b => Sys2Proof.Machine.execPilotShlReg a b s
  | .pilotShlImm a v => Sys2Proof.Machine.execPilotShlImm a v s
  | .pilotShrReg a b => Sys2Proof.Machine.execPilotShrReg a b s
  | .pilotShrImm a v => Sys2Proof.Machine.execPilotShrImm a v s
  | .cmpj a b c t => Sys2Proof.Machine.execCmpj a b c t s
  | .loop l n => Sys2Proof.Machine.execLoop l n s
  | .launch b o => Sys2Proof.Machine.execLaunch b o s
  | .signalStore a b o => Sys2Proof.Machine.execSignalStore a b o s
  | .signalAdd a b o => Sys2Proof.Machine.execSignalAdd a b o s
  | .wait a b o c => Sys2Proof.Machine.execWait a b o c s
  | .pilotFence r q => Sys2Proof.Machine.execPilotFence r q s
  | .done => Sys2Proof.Machine.execDone s
  | .err a => Sys2Proof.Machine.execErr a s
  | .conveyance pasid => Sys2Proof.Machine.execConveyance pasid s
  | .heirlessDelivery pasid => Sys2Proof.Machine.execHeirlessDelivery pasid s
  | .monitorWake uid side => Sys2Proof.Machine.execMonitorWake uid side s
  | .monitorPoll uid side => Sys2Proof.Machine.execMonitorPoll uid side s
  | .sleepWake uid side => Sys2Proof.Machine.execSleepWake uid side s
  | .engineAccept cmd engine => Sys2Proof.Machine.execEngineAccept cmd engine s
  | .commandComplete cmd => Sys2Proof.Machine.execCommandComplete cmd s
  | .warpRestart uid => Sys2Proof.Machine.execWarpRestart uid s
  | .crewDispatch launch core => Sys2Proof.Machine.execCrewDispatch launch core s
  | .launchEnd launch => Sys2Proof.Machine.execLaunchEnd launch s
  | .issuePromotion uid => Sys2Proof.Machine.execIssuePromotion uid s
  | .park crew => Sys2Proof.Machine.execPark crew s
  | .parkedResume crew core => Sys2Proof.Machine.execParkedResume crew core s
  | .sliceExpiry queue => Sys2Proof.Machine.execSliceExpiry queue s
  | .preemptionDelivery crew => Sys2Proof.Machine.execPreemptionDelivery crew s
  | .forcedSave crew => Sys2Proof.Machine.execForcedSave crew s
  | .deferralLimit crew => Sys2Proof.Machine.execDeferralLimit crew s
  | .savedCrewResume crew core => Sys2Proof.Machine.execSavedCrewResume crew core s
  | .pendingWaitTimeout queue => Sys2Proof.Machine.execPendingWaitTimeout queue s
  | .resetSweepComplete queue => Sys2Proof.Machine.execResetSweepComplete queue s
  | .suspendComplete pasid => Sys2Proof.Machine.execSuspendComplete pasid s
  | .invalidationComplete part => Sys2Proof.Machine.execInvalidationComplete part s
  | .guardBandWindow => Sys2Proof.Machine.execGuardBandWindow s
  | .spareSubstitution cluster => Sys2Proof.Machine.execSpareSubstitution cluster s
  | .pilotWaitWake queue => Sys2Proof.Machine.execPilotWaitWake queue s
  | .budgetExceeded queue => Sys2Proof.Machine.execBudgetExceeded queue s
  | .illegalOpcode word => Sys2Proof.Machine.execIllegalOpcode word s
  | .instructionFetchFault perm => Sys2Proof.Machine.execInstructionFetchFault perm s
  | .accessPerformed n => Sys2Proof.Machine.execAccessPerformed n s
  | .l1Eviction core line => Sys2Proof.Machine.execL1Eviction core line s
  | .pageResponseSuccess pasid group => Sys2Proof.Machine.execPageResponseSuccess pasid group s
  | .invalidRequest pasid group => Sys2Proof.Machine.execInvalidRequest pasid group s
  | .responseFailure pasid group => Sys2Proof.Machine.execResponseFailure pasid group s
  | .atsCompletion pasid tr => Sys2Proof.Machine.execAtsCompletion pasid tr s
  | .notify queue w => Sys2Proof.Machine.execNotify queue w s
  | .resume queue callId => Sys2Proof.Machine.execResume queue callId s
  | .hostLaunch queue addr => Sys2Proof.Machine.execHostLaunch queue addr s
  | .hostReadIndex queue idx => Sys2Proof.Machine.execHostReadIndex queue idx s
  | .queueEnable queue => Sys2Proof.Machine.execQueueEnable queue s
  | .queueReset doorbell => Sys2Proof.Machine.execQueueReset doorbell s
  | .partitionSuspend pasid => Sys2Proof.Machine.execPartitionSuspend pasid s
  | .partitionResume pasid => Sys2Proof.Machine.execPartitionResume pasid s
  | .quiesceAck port peer => Sys2Proof.Machine.execQuiesceAck port peer s
  | .map cmd => Sys2Proof.Machine.execMap cmd s
  | .evict cmd => Sys2Proof.Machine.execEvict cmd s
  | .assistWordWrite base w => Sys2Proof.Machine.execAssistWordWrite base w s
  | .deviceSourcePendingClear bits => Sys2Proof.Machine.execDeviceSourcePendingClear bits s
  | .queueVectorPendingClear queue => Sys2Proof.Machine.execQueueVectorPendingClear queue s
  | .registerWrite reg v => Sys2Proof.Machine.execRegisterWrite reg v s
  | .invalidationDoorbell part seq => Sys2Proof.Machine.execInvalidationDoorbell part seq s
  | .chartEntryWrite part idx v => Sys2Proof.Machine.execChartEntryWrite part idx v s
  | .peerForward part peer v => Sys2Proof.Machine.execPeerForward part peer v s
  | .peerStall part peer v => Sys2Proof.Machine.execPeerStall part peer v s
  | .peerInvalid part peer v => Sys2Proof.Machine.execPeerInvalid part peer v s
  | .peerValid part peer v => Sys2Proof.Machine.execPeerValid part peer v s
  | .partitionLayoutChange runs => Sys2Proof.Machine.execPartitionLayoutChange runs s
  | .uncorrectableError loc => Sys2Proof.Machine.execUncorrectableError loc s
  | .clusterFailure cluster => Sys2Proof.Machine.execClusterFailure cluster s
  | .powerThrottle drawn inlet => Sys2Proof.Machine.execPowerThrottle drawn inlet s
  | .thermalShutdown junction => Sys2Proof.Machine.execThermalShutdown junction s
  | .linkDegrade lanes => Sys2Proof.Machine.execLinkDegrade lanes s
  | .boot images => Sys2Proof.Machine.execBoot images s
  | .getVersion => Sys2Proof.Machine.execGetVersion s
  | .getCapabilities => Sys2Proof.Machine.execGetCapabilities s
  | .negotiateAlgorithms offered => Sys2Proof.Machine.execNegotiateAlgorithms offered s
  | .getDigests => Sys2Proof.Machine.execGetDigests s
  | .getCertificate slot offset length => Sys2Proof.Machine.execGetCertificate slot offset length s
  | .challenge slot nonce => Sys2Proof.Machine.execChallenge slot nonce s
  | .getMeasurements index nonce => Sys2Proof.Machine.execGetMeasurements index nonce s
  | .keyExchange session share => Sys2Proof.Machine.execKeyExchange session share s
  | .finish session => Sys2Proof.Machine.execFinish session s
  | .endSession session => Sys2Proof.Machine.execEndSession session s
  | .mctpControl command => Sys2Proof.Machine.execMctpControl command s
  | .telemetryReport what => Sys2Proof.Machine.execTelemetryReport what s
  | .setPowerLimit watts => Sys2Proof.Machine.execSetPowerLimit watts s
  | .railPinning rail pin => Sys2Proof.Machine.execRailPinning rail pin s
  | .atomicopFetchadd part addr bits v => Sys2Proof.Machine.execAtomicopFetchadd part addr bits v s
  | .atomicopSwap part addr bits v => Sys2Proof.Machine.execAtomicopSwap part addr bits v s
  | .atomicopCas part addr bits cmp v => Sys2Proof.Machine.execAtomicopCas part addr bits cmp v s
  | .hostMemoryAccess acc => Sys2Proof.Machine.execHostMemoryAccess acc s
  | .snoopInvalidate line => Sys2Proof.Machine.execSnoopInvalidate line s
  | .fabricRequest req => Sys2Proof.Machine.execFabricRequest req s
  | .correctedError array => Sys2Proof.Machine.execCorrectedError array s
  | .hostServiceRingFreed pasid idx => Sys2Proof.Machine.execHostServiceRingFreed pasid idx s
  | .tdispRequest part req => Sys2Proof.Machine.execTdispRequest part req s
  | .mainRailsDown => Sys2Proof.Machine.execMainRailsDown s

end Sys2Proof.Machine
end

