-- ==== Sys2Proof/Machine/Turns.lean ====
section
/-! DEFINITION. Machine/Turns.lean: who moves next where the agenda does not say (log entry 1), how the turn of a slot or
of a queue's interpreter begins, and what follows the instruction: asynchronous vectors (R322), clusters that fail
(R388). -/

namespace Sys2Proof.Machine

/-! ### Steps of the device (log entry 1) -/

/-- Whether a term is a step of the device or its surroundings, and no word that a slot or an interpreter issues. -/
def isEvent (i : Instr) : Bool :=
  i.fields.isNone && i.cfields.isNone && i.pilotEncode.isNone &&
    match i with
    | .illegalOpcode _ | .instructionFetchFault _ => false
    | _ => true

def bothSides : List Side := [.port, .star]

def allCores : List Nat := List.range 768

/-- The core on which a crew of a launch, or a crew that stands on none, may be placed. -/
def coreFor (p : Nat → Bool) : Option Nat := allCores.find? p

def dueConveyance (s : State) : Option Instr :=
  (s.ctxs.find? fun c => match c.deaths with | d :: _ => d.groups.isEmpty | [] => false).map fun c =>
    .conveyance c.pasid

def dueHeirless (s : State) : Option Instr :=
  (s.ctxs.find? fun c => !c.heirless.isEmpty && !(s.custLaunches c.pasid).isEmpty).map fun c => .heirlessDelivery c.pasid

/-- A `wcmp` on a core that goes on. -/
def State.woken (s : State) (w : Warp) (side : Side) : Bool := w.place == .resident && s.wakes w side

def dueWake (s : State) : Option Instr :=
  s.warps.findSome? fun w => (bothSides.find? (s.woken w)).map fun side => Instr.monitorWake w.uid side

def State.sleepOver (s : State) (w : Warp) (side : Side) : Bool :=
  match w.why side with
  | some (.sleep t) => t ≤ s.now
  | _ => false

def dueSleep (s : State) : Option Instr :=
  s.warps.findSome? fun w => (bothSides.find? (s.sleepOver w)).map fun side => Instr.sleepWake w.uid side

def dueRestart (s : State) : Option Instr :=
  (s.warps.find? fun w => w.place == .resident && w.why .port == some .packer && w.live == 0 &&
    (s.fillDue w.uid 0 || s.itemsDone (s.launch w.launch))).map fun w => .warpRestart w.uid

def dueAccept (s : State) : Option Instr :=
  s.cmds.findSome? fun c => ((List.range 48).find? (s.accepts c)).map fun e => Instr.engineAccept c.id e

def dueCommand (s : State) : Option Instr := (s.cmds.find? s.cmdReady).map fun c => .commandComplete c.id

def dueDispatch (s : State) : Option Instr :=
  s.launches.findSome? fun l => (coreFor (s.dispatches l)).map fun k => Instr.crewDispatch l.uid k

def dueEnd (s : State) : Option Instr := (s.launches.find? s.endDue).map fun l => .launchEnd l.uid

def duePromotion (s : State) : Option Instr :=
  (s.warps.find? fun w => !w.promoted && s.promotes w).map fun w => .issuePromotion w.uid

def dueUnpark (s : State) : Option Instr :=
  s.crews.findSome? fun c =>
    if s.unparks c then (coreFor (s.crewFits c)).map fun k => Instr.parkedResume c.uid k else none

/-- A launch with a crew to place that no core has room for. -/
def State.crowded (s : State) : Bool :=
  s.launches.any fun l => !s.chained l && s.mayRun l.queue && !l.ending && l.nextCrew < l.crews && !l.lrec.item &&
    (coreFor (s.dispatchable l)).isNone

def duePark (s : State) : Option Instr :=
  if s.crowded then (s.crews.find? fun c => s.crewParkable c.uid).map fun c => .park c.uid else none

def dueSlice (s : State) : Option Instr := (s.queueIdx.find? s.sliceOver).map fun q => .sliceExpiry q

/-- Whether a save of some warp of a crew can do anything. -/
def State.savable (s : State) (crew : Nat) : Bool :=
  s.warps.any fun w => w.crew == crew &&
    (w.place == .parked || (w.place == .resident && (w.live != 0 || s.parkRoom w true)))

def duePreempt (s : State) : Option Instr :=
  (s.crews.find? fun c => match c.pre with
    | some (.deferred _) => (s.partlyArrived c.uid).isNone
    | _ => false).map fun c => .preemptionDelivery c.uid

def dueForced (s : State) : Option Instr :=
  (s.crews.find? fun c => match c.pre with
    | some (.grace t) => t ≤ s.now && s.savable c.uid
    | _ => false).map fun c => .forcedSave c.uid

def dueDeferral (s : State) : Option Instr :=
  (s.crews.find? fun c => s.deferralOver c && s.savable c.uid).map fun c => .deferralLimit c.uid

def dueResume (s : State) : Option Instr :=
  s.crews.findSome? fun c =>
    if s.resumable c then (coreFor (s.crewFits c)).map fun k => Instr.savedCrewResume c.uid k else none

def duePending (s : State) : Option Instr := (s.queueIdx.find? s.waitedLong).map fun q => .pendingWaitTimeout q

def dueSweep (s : State) : Option Instr := (s.queueIdx.find? s.sweeps).map fun q => .resetSweepComplete q

def dueSuspend (s : State) : Option Instr := (s.ctxs.find? fun c => s.suspendDone c.pasid).map fun c => .suspendComplete c.pasid

def dueInvalidation (s : State) : Option Instr :=
  (s.parts.find? fun p => !p.invals.isEmpty).map fun p => .invalidationComplete p.base

def dueSpare (s : State) : Option Instr := (s.failed.find? s.spareDue).map fun c => .spareSubstitution c

def dueWindow (s : State) : Option Instr := if s.power.nextWindow ≤ s.now then some .guardBandWindow else none

def dueAccess (s : State) : Option Instr := if s.pends.isEmpty then none else some (.accessPerformed 0)

/-- What the device does of its own accord, in the order in which the default looks for it. -/
def dueEvents : List (State → Option Instr) :=
  [dueAccess, dueConveyance, dueHeirless, dueWake, dueSleep, dueRestart, dueAccept, dueCommand, dueSweep, dueForced, dueDeferral,
    duePreempt, dueResume, dueDispatch, dueUnpark, duePark, dueEnd, duePromotion, dueSlice, duePending, dueSuspend,
    dueInvalidation, dueSpare, dueWindow]

def State.dueEvent (s : State) : Option Instr := dueEvents.findSome? fun g => g s

/-- Who looks again from time to time: lanes without a monitor entry (R153), and queues in `WAIT`. -/
def State.pollers (s : State) : List Instr :=
  (s.warps.flatMap fun w => (bothSides.filter fun side => match w.why side with
    | some (.monitor _ _ polls) => w.place == .resident && polls != 0
    | _ => false).map fun side => Instr.monitorPoll w.uid side) ++
  (s.queueIdx.filter fun q => (s.queue q).st == .waiting && s.monitors.any fun m => m.who == .queue q && m.hit).map
    Instr.pilotWaitWake

/-- The pollers in turn, one each microsecond. -/
def State.poller (s : State) : Option Instr :=
  let ps := s.pollers
  ps[s.now / 1000 % ps.length]?

/-! ### The issue choice (R368) -/

/-- Whether a warp of a core issues before another of it. -/
def State.before (s : State) (a b : Warp) : Bool :=
  let pa := (s.launch a.launch).lrec.prio
  let pb := (s.launch b.launch).lrec.prio
  if a.promoted != b.promoted then a.promoted
  else if pa != pb then pb < pa
  else if a.age != b.age then a.age < b.age
  else a.wid < b.wid

/-- The first of a list in an order. -/
def firstBy (before : Warp → Warp → Bool) : List Warp → Option Warp
  | [] => none
  | w :: rest =>
    match firstBy before rest with
    | none => some w
    | some b => if before b w then some b else some w

/-- The slot of a warp that may issue on a port, if one may. -/
def State.sideFor (s : State) (w : Warp) (p : Port) : Option Side :=
  bothSides.find? fun side => s.runnable w && s.portAt w side == p && s.mayIssue w side p

/-- The slot that issues on a port of a core: of the warp of the highest priority, and then the oldest. -/
def State.portChoice (s : State) (core : Nat) (p : Port) : Option (Nat × Side) :=
  match firstBy s.before (s.warps.filter fun w => w.core == core && (s.sideFor w p).isSome) with
  | none => none
  | some w => (s.sideFor w p).map fun side => (w.uid, side)

/-- The slot that issues next: on the core with the warp that has been ready longest, and its vector port first. -/
def State.issueChoice (s : State) : Option (Nat × Side) :=
  let ws := s.warps.filter fun w => (s.sideFor w .vector).isSome || (s.sideFor w .second).isSome
  match firstBy (fun a b => a.readySince < b.readySince) ws with
  | none => none
  | some longest =>
    match s.portChoice longest.core .vector with
    | some c => some c
    | none => s.portChoice longest.core .second

/-- Whether the interpreter of a queue may run a word (R351, R355); with PACKET no pilot code runs (R395). -/
def State.interprets (s : State) (q : Nat) : Bool :=
  let x := s.queue q
  x.st == .mapped && x.slot.isSome && x.page.isEmpty && !s.packetMode q

/-- The slot that issues next: in this cycle while a port is free for one, and else in the next (R367). -/
def State.nextIssue (s : State) : Option Turn :=
  let turn (dt : Nat) (c : Nat × Side) : Turn := ⟨dt, .slot c.1 c.2⟩
  match (if s.cycle.isEmpty then none else s.issueChoice) with
  | some c => some (turn 0 c)
  | none => { s with cycle := [] }.issueChoice.map (turn (s.cycles 1))

/-- The turn that comes where the agenda is empty. -/
def State.choose (s : State) : Turn :=
  match s.queueIdx.find? s.interprets with
  | some q => ⟨0, .pilot q⟩
  | none =>
    match s.dueEvent with
    -- Each conveyance takes time, so that TIME tells the order of those of one event.
    | some (.conveyance p) => ⟨1, .event (.conveyance p)⟩
    | some i => ⟨0, .event i⟩
    | none =>
      match (if s.now % 1000 == 0 then s.poller else none) with
      | some i => ⟨1, .event i⟩
      | none =>
        match s.nextIssue with
        | some t => t
        | none =>
          match s.poller with
          | some i => ⟨1000 - s.now % 1000, .event i⟩
          | none => ⟨1, .idle⟩

/-- The next turn, and the agenda after it. -/
def State.nextTurn (s : State) : Turn × List Turn :=
  match s.agenda with
  | t :: rest => (t, rest)
  | [] => (s.choose, [])

/-- A turn begins: time has passed, and with it a cycle; a warp that is not ready yet is ready from now on at the
earliest. -/
def State.tick (s : State) : State :=
  let (t, rest) := s.nextTurn
  let now := s.now + t.dt
  { s with
    now := now
    agenda := rest
    turn := some t.act
    cycle := if t.dt == 0 then s.cycle else []
    warps := s.warps.map fun w => if s.runnable w then w else { w with readySince := now } }

/-! ### A turn -/

/-- What a turn comes to: an instruction in a state, or a state. -/
inductive Doing where
  | run (i : Instr) (s : State)
  | go (s : State)
  deriving DecidableEq, Repr

/-- A `qpush` to a register that is bound to a pipe is the pipe's (R307, R315). -/
def State.select (s : State) (w : Warp) (i : Instr) : Instr :=
  match i with
  | .qpush f =>
    if (s.launch w.launch).lrec.binds.toNat / 16 ^ (queueNo f.d) % 16 == 4 then .qpushPipe f else i
  | i => i

/-- The slot waits until its fetch can be made. What its instruction waits for, or has done already, stays as it is. -/
def State.awaitFetch (s : State) (w : Warp) (side : Side) (why : Why) : State :=
  s.setWarp (w.setSlot side { w.slot side with fetch := some ⟨why, s.now⟩ })

/-- The slot issues: its port has issued in this cycle (R367). -/
def State.issued (s : State) (w : Warp) (side : Side) (p : Port) : State :=
  { s.setWarp { w with readySince := s.now, promoted := false } with cycle := s.cycle ++ [⟨w.core, p, w.uid, side⟩] }

/-- A fetch that has not come about: an asynchronous vector that is due comes first. -/
def State.noFetch (s : State) (w : Warp) (side : Side) (other : State) : Doing :=
  match s.deliverDue w side with
  | some t => .go t
  | none => .go other

/-- Whether the host has refused the page that the slot's fetch waited for (R346). -/
def Slot.unfetchable (x : Slot) : Bool := x.fetch.isSome && (deniedAt x.denied x.pc 16).isSome

/-- The turn of a slot that may issue, by how its fetch ends (R47, R343, R391). -/
def State.fetchTurn (s : State) (w : Warp) (side : Side) : Fetch → Doing
  | .word v =>
    .run (s.select w (decodeWord v))
      ((s.issued w side (portOf (decodeWord v))).fetched w.core (s.pasidOf w) (w.slot side).pc v)
  | .fault perm => .run (.instructionFetchFault perm) (s.issued w side .second)
  | .absent va =>
    let (t, gs) := s.askPage (s.pasidOf w) (s.queueOf w) va { x := true }
    s.noFetch w side (t.awaitFetch w side (.page gs))
  | .pending va => s.noFetch w side ((s.askAts (s.pasidOf w) va).awaitFetch w side (.page [grpAts]))
  | .stalled p => s.noFetch w side (s.awaitFetch w side (.stall p))
  | .bad => s.noFetch w side ((s.send (.msix 0)).errorKill w (w.active side) (w.slot side).pc)

/-- The turn of a slot (R120, R367). -/
def State.slotTurn (s : State) (uid : Nat) (side : Side) : Doing :=
  match s.warp? uid with
  | none => .go s
  | some w =>
    let f := if (w.slot side).unfetchable then .fault true else s.fetch w.core (s.pasidOf w) (w.slot side).pc
    let port := match f with | .word v => portOf (decodeWord v) | _ => .second
    if s.mayIssue w side port then s.fetchTurn w side f else .go s

/-- The word of a packet that is being run (R355, R358, R360). -/
def State.pilotWordTurn (s : State) (q : Nat) : Doing :=
  let x := s.queue q
  if x.code.length ≤ x.pc then .go (s.faultQueue q 4 0)
  else if x.budget == 0 then .run (.budgetExceeded q) s
  else
    match decodePilot (x.code.getD x.pc 0) with
    | .ok i => .run i s
    | .error _ => .go (s.faultQueue q 1 (BitVec.ofNat 64 (x.pc + 2 ^ 16)))

/-- The turn of a queue's interpreter: a packet begins where none is under way. -/
def State.pilotTurn (s : State) (q : Nat) : Doing :=
  if !s.interprets q then .go s
  else if (s.queue q).busy then s.pilotWordTurn q
  else if (s.queue q).rdx.toNat < (s.queue q).wrx.toNat then (s.setQueue q (s.queue q).begin).pilotWordTurn q
  else .go (s.idleQueue q)

/-- What the turn that has begun comes to. A module that is down reacts to nothing but a boot (R408). -/
def State.doing (s : State) : Doing :=
  match s.turn with
  | none | some .idle => .go s
  | some (.event i) =>
    let alive := !s.power.down || match i with | .boot _ => true | _ => false
    if isEvent i && alive then .run i s else .go s
  | some (.pilot q) => if s.power.down then .go s else s.pilotTurn q
  | some (.slot uid side) => if s.power.down then .go s else s.slotTurn uid side

/-- A warp that has used a stack entry of a bad line dies (R391). -/
def State.stackKill (t : State) (w : Warp) : State :=
  match t.warp? w.uid with
  | some w => (t.send (.msix 0)).errorKill w w.live w.port.pc
  | none => t

/-- What follows every step from a state: the stacks go to the park areas and come from there (R21), a cluster may fail by
lane deaths (R388). -/
def State.close (s t : State) : State := s.syncStacks ((t.warps.filter s.stackBad).foldl State.stackKill t).checkClusters

/-- After an instruction that ran from a state: an asynchronous vector that was due is delivered in its place, unless the
instruction itself has trapped (R322). -/
def State.after (s t : State) : State :=
  let u : State :=
    match s.turn with
    | some (.slot uid side) =>
      (match s.warp? uid with
        | some w =>
          (match s.deliverDue w side, t.warp? uid with
            | some _, some y => if y.handler.isSome then t else (s.deliverDue w side).getD t
            | some u, none => u
            | none, _ => t)
        | none => t)
    | _ => t
  s.close u

/-! ### A word placed to be the next one (log entry 2) -/

/-- The queue that runs a placed pilot-code word: mapped, with one packet to do. -/
def Queue.placed (x : Queue) (w : Nat) : Queue :=
  { x with st := .mapped, slot := some 0, page := [], busy := false, code := [BitVec.ofNat 32 w], wrx := x.rdx + 1 }

/-- A pilot-code word as queue 0's whole code, and queue 0's interpreter next. -/
def State.placePilot (s : State) (w : Nat) : State :=
  { s.setQueue 0 ((s.queue 0).placed w) with
    agenda := ⟨1, .pilot 0⟩ :: s.agenda
    mapper := { s.mapper with assist := tset 0 s.mapper.assist (s.queuePart 0).base (s.assist (s.queuePart 0) &&& ~~~(4#32)) }
    power := { s.power with down := false } }

/-- The PASID of the context that a placed Yeloz word runs in, and where it is fetched. -/
def placedPasid : Nat := 0xFFFFF

def placedPc : Nat := 0x4000

/-- A warp with every lane live, at the placed word. -/
def placedWarp (uid crew launch now : Nat) : Warp :=
  { uid := uid, crew := crew, launch := launch, vN := 256, sN := 120,
    lanes := (List.range 32).map fun l => { st := .live, tid := BitVec.ofNat 32 l },
    port := freshPath (BitVec.ofNat 64 placedPc) 0xFFFFFFFF, age := now, readySince := now }

/-- Tables that map the lowest 1 GiB of the context with every right: tables at 0x1000, 0x2000 and 0x3000. -/
def placedTables : List (Nat × Nat) := [(0x1000, 0x2001), (0x2000, 0x3001), (0x3000, 0x1F)]

/-- The record of the placed context: what the device keeps for it lies apart from the word and from low addresses. -/
def placedRec : CRec :=
  { root := 0x1000, estate := 0x10000000, flow := 0x11000000, service := 0x12000000, park := 0x13000000, log := 0x14000000,
    team := 0x20000000 }

/-- A Yeloz word in memory, where a fresh warp of a fresh context fetches it next. -/
def State.placeYeloz (s : State) (w : Nat) : State :=
  let part := s.ctxPart placedPasid
  let put (m : Memory) (p : Nat × Nat) : Memory := m.putNum (part.hbm p.1) 8 p.2
  let mem := (placedTables.foldl put s.mem).putNum (part.hbm placedPc) 16 w
  let ctx : Ctx := { pasid := placedPasid, part := (s.ctx placedPasid).part, crec := placedRec }
  let launch : Launch := { uid := s.serial, queue := 0, gen := (s.queue 0).gen, pasid := placedPasid, recAddr := 0, lrec := .zero }
  let crew : Crew := { uid := s.serial + 1, launch := s.serial, nT := 16, nE := 8 }
  { s with
    mem := mem
    bad := []
    ctxs := putBy (fun c => c.pasid == placedPasid) ctx s.ctxs
    tlb := s.tlb.filter fun t => t.pasid != placedPasid
    cores := s.cores.map fun (c : Core) => { c with code := c.code.filter fun x => x.pasid != placedPasid }
    launches := s.launches ++ [launch]
    crews := s.crews ++ [crew]
    warps := s.warps ++ [placedWarp (s.serial + 2) (s.serial + 1) s.serial s.now]
    serial := s.serial + 3
    failed := s.failed.filter fun c => c != 0
    power := { s.power with down := false }
    agenda := ⟨1, .slot (s.serial + 2) .port⟩ :: s.agenda }

end Sys2Proof.Machine
end

