-- ==== Sys2Proof/Machine/Step.lean ====
section
/-! DEFINITION. Machine/Step.lean: one step of the module: the next turn of the agenda begins, and what it comes to is done
(log entry 1); and a word of the opcode table placed where the next step runs it (log entry 2). -/

namespace Sys2Proof.Machine

/-- One step. -/
def step (s : State) : Host.Outcome State Fault Refusal :=
  match s.tick.doing with
  | .go t => .next (s.tick.close t)
  | .run i t =>
    match exec i t with
    | .next u => .next (t.after u)
    | .fault r => .fault r
    | .refused r => .refused r

/-- The state with an instruction placed where the next step runs it: pilot code for a 32-bit row, and a Yeloz word,
whose bits above `nbits` are zero, for any other. -/
def State.withFetchWord (s : State) (nbits w : Nat) : State :=
  if nbits == 32 then s.placePilot w else s.placeYeloz (w % 2 ^ nbits)

end Sys2Proof.Machine
end

