-- ==== Sys2Proof/Safety.lean ====
section
/-! DEFINITION. Safety.lean: what a run keeps, and the words in which claims say what an instruction does: who issues
it, where its result goes, and what it leaves alone. -/

namespace Sys2Proof.Machine

/-! ### What a run keeps -/

/-- Memory, the module's and every crew's, is in its canonical form. -/
def State.memOk (s : State) : Prop := Memory.wf s.mem = true ∧ ∀ c ∈ s.crews, Memory.wf c.loc = true

/-! ### An instruction that a slot issues -/

/-- Slot `side` of warp `w` issues `i`: the turn is its, and the word passes the checks against the warp's allotment
(R51 to R53). -/
structure Issues (i : Instr) (s : State) (uid : Nat) (side : Side) (w : Warp) : Prop where
  turn : s.turn = some (.slot uid side)
  warp : s.warp? uid = some w
  ok : i.fault (s.allotOf w) = none

/-- The lanes that take part (R14). -/
def partOf (i : Instr) (w : Warp) (side : Side) : Word := w.takesPart side (guardsOf i).1 (guardsOf i).2

/-- The instruction has completed in its slot (R121), and nothing else of the warp has changed but its lanes, its
scalar registers and its FLAGS. -/
structure Completes (i : Instr) (side : Side) (w w' : Warp) : Prop where
  slot : w'.slot side =
    { w.slot side with
      pc := (w.slot side).pc + 16, sig := crcExtend (w.slot side).sig (sigBytes i), wait := none, fetch := none, denied := [] }
  other : w'.slot (otherSide side) = w.slot (otherSide side)
  last : w'.last = side
  rest : { w' with lanes := w.lanes, sregs := w.sregs, soiled := w.soiled, flags := w.flags, port := w.port, star := w.star, last := w.last,
                   promoted := w.promoted } = w

/-! ### Registers after an instruction -/

/-- Vector register `r` of lane `l`, when `k` registers from the destination on receive a value (R41, R48). -/
def vAfter (w : Warp) (tp : Word) (d : Opnd) (k : Nat) (val : Nat → Nat) (l r : Nat) : Word :=
  match d with
  | .v n =>
    if tp.getLsbD l && n != 255 && decide (n.toNat ≤ r ∧ r < n.toNat + k) then
      BitVec.ofNat 32 (val l / 2 ^ (32 * (r - n.toNat)))
    else (w.lane l).reg r
  | _ => (w.lane l).reg r

/-- Predicate `n` of lane `l`, when a predicate destination receives a value; a write of `pt` is discarded (R16). -/
def pAfter (w : Warp) (tp : Word) (d : Opnd) (val : Nat → Nat) (l : Nat) (n : BitVec 4) : Bool :=
  match d with
  | .p m => if tp.getLsbD l && m != 15 && n == m then val l != 0 else (w.lane l).pred n
  | _ => (w.lane l).pred n

/-- Scalar register `r`, when `k` registers from a scalar destination on receive a value, once, if any lane takes part
(R48). -/
def sAfter (w : Warp) (tp : Word) (d : Opnd) (k : Nat) (val : Nat → Nat) (r : Nat) : Word :=
  match d with
  | .s n =>
    if tp != 0 && decide (n.toNat ≤ r ∧ r < n.toNat + k) then BitVec.ofNat 32 (val 0 / 2 ^ (32 * (r - n.toNat)))
    else w.sreg r
  | _ => w.sreg r

/-- Whether register 120 + `r` has been written outside the handler since the last trap (R19), when `k` registers from a
scalar destination on receive a value. -/
def soiledAfter (w : Warp) (tp : Word) (d : Opnd) (k r : Nat) : Bool :=
  match d with
  | .s n =>
    w.soiled.getLsbD r || (tp != 0 && w.handler.isNone && decide (n.toNat ≤ 120 + r ∧ 120 + r < n.toNat + k))
  | _ => w.soiled.getLsbD r

/-- The scalar registers at a trap: those that code outside the handler has written of s120 to s127 are undefined, and
every other one is kept (R19). -/
structure Spoiled (w w' : Warp) : Prop where
  sreg : ∀ r, w'.sreg r = w.sreg r ∨ (120 ≤ r ∧ r < 128 ∧ w.soiled.getLsbD (r - 120) = true)
  soiled : w'.soiled = 0

/-- The registers of a warp read so, and nothing else of any lane has changed. -/
structure Regs (w w' : Warp) (v : Nat → Nat → Word) (p : Nat → BitVec 4 → Bool) (s : Nat → Word) (q : Nat → Bool) :
    Prop where
  vreg : ∀ l < 32, ∀ r < 255, (w'.lane l).reg r = v l r
  preg : ∀ l < 32, ∀ n, (w'.lane l).pred n = p l n
  sreg : ∀ r, w'.sreg r = s r
  soiled : ∀ r < 8, w'.soiled.getLsbD r = q r
  lane : ∀ l < 32, { w'.lane l with v := (w.lane l).v, p := (w.lane l).p } = w.lane l

/-- A destination of `k` registers, or a predicate, has received a value, and no other register has changed. -/
def Wrote (w w' : Warp) (tp : Word) (d : Opnd) (k : Nat) (val : Nat → Nat) : Prop :=
  Regs w w' (vAfter w tp d k val) (pAfter w tp d val) (sAfter w tp d k val)
    (soiledAfter w tp d k)

/-- No register has changed. -/
def SameRegs (w w' : Warp) : Prop :=
  Regs w w' (fun l r => (w.lane l).reg r) (fun l n => (w.lane l).pred n) w.sreg
    w.soiled.getLsbD

/-- The issue of `i` by a slot of a warp: what its meaning starts from. -/
def issueOf (i : Instr) (s : State) (side : Side) (w : Warp) : Issue :=
  { s := s, w := w, side := side, i := i, tp := partOf i w side }

/-- Whenever a slot issues `i`, the instruction completes: `k` registers of its destination receive, in every lane that
takes part, a value that `ok` allows; FLAGS gain what `fl` names; and nothing else in the machine changes. -/
def Computes (i : Instr) (d : Opnd) (k : Nat) (ok : Issue → Nat → Nat → Prop) (fl : Issue → Word) : Prop :=
  ∀ s uid side w, Issues i s uid side w →
    let x := issueOf i s side w
    ∃ w' val, exec i s = .next (s.setWarp w') ∧ (s.setWarp w').warp? uid = some w' ∧ Completes i side w w' ∧
      Wrote w w' x.tp d k val ∧ (∀ l < 32, ok x l (val l)) ∧ w'.flags = w.flags ||| fl x

/-- `i` completes in its slot and has no other effect. -/
def Skips (i : Instr) (s : State) (uid : Nat) (side : Side) (w : Warp) : Prop :=
  ∃ w', exec i s = .next (s.setWarp w') ∧ (s.setWarp w').warp? uid = some w' ∧ Completes i side w w' ∧ SameRegs w w' ∧
    w'.flags = w.flags

/-- `i` completes in its slot with these values for its destination and these flags, and nothing else changes. -/
def Gives (i : Instr) (s : State) (uid : Nat) (side : Side) (w : Warp) (d : Opnd) (k : Nat) (val : Nat → Nat)
    (fl : Word) : Prop :=
  ∃ w', exec i s = .next (s.setWarp w') ∧ (s.setWarp w').warp? uid = some w' ∧ Completes i side w w' ∧
    Wrote w w' (partOf i w side) d k val ∧ w'.flags = w.flags ||| fl

/-- No FLAGS bit is named. -/
def noFlags : Issue → Word := fun _ => 0

/-! ### Operands and elements (R42, R60) -/

/-- An operand of a word in a lane, `k` registers wide. -/
def operandAt (k : Nat) (f : Fields) (w : Warp) (l : Nat) (o : Opnd) : Nat := w.opnd l k (immNum f.ty f.imm) o

/-- An operand as wide as the word's type. -/
def operand (f : Fields) (w : Warp) (l : Nat) (o : Opnd) : Nat := operandAt f.ty.regs f w l o

/-- Element `e` of a value whose elements have `w` bits. -/
def element (w x e : Nat) : Nat := x / 2 ^ (w * e) % 2 ^ w

/-- An exact integer as `w` bits: wrapped modulo 2^w, or saturated (R65). -/
def fitInt (w : Nat) (signed sat : Bool) (x : Int) : Nat :=
  let lo : Int := if signed then -(2 ^ (w - 1) : Nat) else 0
  let hi : Int := if signed then (2 ^ (w - 1) : Nat) - 1 else (2 ^ w : Nat) - 1
  ((if sat then (if x < lo then lo else if hi < x then hi else x) else x) % (2 ^ w : Nat)).toNat

/-- `w` bits as an integer: two's complement when signed. -/
def toInt (w : Nat) (signed : Bool) (x : Nat) : Int :=
  if signed && 2 ^ (w - 1) ≤ x % 2 ^ w then (x % 2 ^ w : Nat) - (2 ^ w : Nat) else (x % 2 ^ w : Nat)

/-- Element `e` of an operand as an integer of the word's type. -/
def elemInt (f : Fields) (w : Warp) (l e : Nat) (o : Opnd) : Int :=
  toInt f.ty.elem f.ty.signed (element f.ty.elem (operand f w l o) e)

/-- How many elements a value of a type has. -/
def DType.count (ty : DType) : Nat := 32 * ty.regs / ty.elem

/-- `i` computes in every element the exact integer `g` of its sources A, B and C, wrapped or saturated (R65). -/
def IntOp (i : Instr) (f : Fields) (sat : Bool) (g : Int → Int → Int → Int) : Prop :=
  Computes i f.d f.ty.regs
    (fun x l v => ∀ e < DType.count f.ty, element f.ty.elem v e =
      fitInt f.ty.elem f.ty.signed sat (g (elemInt f x.w l e f.a) (elemInt f x.w l e f.b) (elemInt f x.w l e f.c)))
    noFlags

/-- `i` computes bit `j` of its result as `g j` of the bits of its sources A, B and C (R68). -/
def BitOp (i : Instr) (f : Fields) (g : Nat → (Nat → Bool) → (Nat → Bool) → (Nat → Bool) → Bool) : Prop :=
  Computes i f.d f.ty.regs
    (fun x l v => ∀ j, v.testBit j = (decide (j < f.ty.elem) &&
      g j (operand f x.w l f.a).testBit (operand f x.w l f.b).testBit (operand f x.w l f.c).testBit))
    noFlags

/-- `i` shifts every element of A by the low 32 bits of B (R69). -/
def ShiftOp (i : Instr) (f : Fields) (g : Nat → Nat → Nat) : Prop :=
  Computes i f.d f.ty.regs
    (fun x l v => ∀ e < DType.count f.ty, element f.ty.elem v e =
      g (element f.ty.elem (operand f x.w l f.a) e) (operandAt 1 f x.w l f.b % 2 ^ 32))
    noFlags

/-- `i` computes one value of `k` registers from its operands in a lane. -/
def ValueOp (i : Instr) (f : Fields) (k : Nat) (ok : Warp → Nat → Nat → Prop) : Prop :=
  Computes i f.d k (fun x l v => ok x.w l v) noFlags

/-! ### Addresses and memory (R33, R45, R140 to R149) -/

/-- The index of an address or address sum: B, sign-extended unless SUB[3], times the scale (R45). -/
def indexOf (f : Fields) (w : Warp) (l : Nat) : Int :=
  if f.b = .none then 0
  else (if f.sub.getLsbD 3 then Int.ofNat (operandAt 1 f w l f.b) else toInt 32 true (operandAt 1 f w l f.b)) *
    (2 ^ f.subBits 0 3 : Nat)

/-- The global address of a lane, a 64-bit sum (R45). -/
def laneAddr (f : Fields) (w : Warp) (l : Nat) : DWord :=
  BitVec.ofInt 64 (operandAt 2 f w l f.a + indexOf f w l + toInt 32 true f.imm.toNat)

/-- The local offset of a lane, a 32-bit sum (R145). -/
def laneOfs (f : Fields) (w : Warp) (l : Nat) : Nat :=
  ((operandAt 1 f w l f.a + indexOf f w l + toInt 32 true f.imm.toNat) % (2 ^ 32 : Nat)).toNat

/-- Every taking-part lane's access of `k` bytes passes the checks of R143, in no page that the host has refused while the
slot waited (R346). -/
def Sound (i : Instr) (s : State) (side : Side) (w : Warp) (n : Need) (k : Nat) (addr : Nat → DWord) : Prop :=
  ∀ l < 32, (partOf i w side).getLsbD l →
    (addr l).toNat + k ≤ 2 ^ 57 ∧ (addr l).toNat % k = 0 ∧ (∃ p, s.translate (s.pasidOf w) (addr l) n = .ok p) ∧
      ∀ page ∈ (w.slot side).denied, touches page (addr l) k = false

/-- The place of a lane's access that translates. -/
def keyOf (s : State) (w : Warp) (n : Need) (addr : DWord) : Nat :=
  match s.translate (s.pasidOf w) addr n with
  | .ok p => p.key
  | _ => 0

/-- The core whose L1 serves a lane's access that translates (R140, R334). -/
def l1Of (s : State) (w : Warp) (n : Need) (addr : DWord) : Nat :=
  match s.translate (s.pasidOf w) addr n with
  | .ok p => l1CoreOf (s.launch w.launch).lrec.fused w.core p.pa
  | _ => 0

/-- Whether a lane's access that translates goes to device memory. -/
def hbmOf (s : State) (w : Warp) (n : Need) (addr : DWord) : Bool :=
  match s.translate (s.pasidOf w) addr n with
  | .ok p => p.hbm
  | _ => false

/-- Byte `a` lies outside a run. -/
def Outside (a key k : Nat) : Prop := a < key ∨ key + k ≤ a

/-- No partial of an update-only line covers byte `a` (R338). -/
def NoPartial (s : State) (a : Nat) : Prop :=
  ∀ c, ∀ x ∈ (s.core c).l1, ∀ op ty parts, x.st = .upd op ty parts →
    ∀ q ∈ parts, Outside a (x.line * 128 + q.1) (ty.elem / 8)

/-- No weak store on its way to its home covers byte `a` (R141). -/
def NoPending (s : State) (a : Nat) : Prop := ∀ p ∈ s.pends, Outside a p.key p.bytes.length

/-- Nothing on its way covers a byte of a run. -/
def Quiet (s : State) (key k : Nat) : Prop := ∀ a, key ≤ a → a < key + k → NoPartial s a ∧ NoPending s a

/-- The bytes of a run's pieces. -/
def runBytes (m : Memory) (ps : List (Loc × Nat)) : List Byte := ps.flatMap fun p => Memory.read m p.1.key p.2

/-- A run of `n` bytes is aligned, inside the space, mapped to these pieces with the rights needed, good, and no partial
is out on it. -/
def Reach (s : State) (pasid : Nat) (va : DWord) (n align : Nat) (need : Need) (ps : List (Loc × Nat)) : Prop :=
  0 < n ∧ va.toNat % align = 0 ∧ va.toNat + n ≤ 2 ^ 57 ∧ s.run pasid va n need = .ok ps ∧
    ∀ p ∈ ps, s.isBad p.1.key p.2 = false ∧ ∀ a, p.1.key ≤ a → a < p.1.key + p.2 → NoPartial s a

/-- Neither holding pages in the TLBs, nor collecting partials, performing stores that are on their way and writing the
exempt bytes, changes a translation of a context: none of them reaches its page tables, and no TLB holds an older page of
it. -/
def Steady (s : State) (pasid : Nat) (exempt : Nat → Prop) : Prop :=
  ∀ (vas : List DWord) (m : Memory) (b : List Nat) (ps : List Pend),
    (∀ a, NoPartial s a → ¬exempt a → Memory.get m a = Memory.get s.mem a) → (∀ x ∈ b, x ∈ s.bad) → (∀ p ∈ ps, p ∈ s.pends) →
      let u := vas.foldl (fun (u : State) va => u.cachePage pasid va) s
      ∀ va n, ({ u with mem := m, bad := b, pends := ps } : State).translate pasid va n = s.translate pasid va n

/-- Byte `a` lies in an entry of a context's estate table, where that is mapped (R219). -/
def InEstate (s : State) (pasid a : Nat) : Prop :=
  ∃ idx < max (2 ^ (s.ctx pasid).crec.estateLog) (s.ctx pasid).estate.length, ∃ ps : List (Loc × Nat),
    s.run pasid ((s.ctx pasid).crec.estate + BitVec.ofNat 64 (32 * idx)) 32 { w := true } = .ok ps ∧
      ∃ p ∈ ps, p.1.key ≤ a ∧ a < p.1.key + p.2

/-- Nothing has changed but one warp, one context, and memory with what caches, TLBs and monitors hold of it, what is on its
way, what the device asks for and sends, and the free values used. -/
def OnlyMemory (s t : State) (uid pasid : Nat) : Prop :=
  (∀ u, u ≠ uid → t.warp? u = s.warp? u) ∧ (∀ p, p ≠ pasid → t.ctx p = s.ctx p) ∧
  t = { s with
    warps := t.warps, ctxs := t.ctxs, mem := t.mem, bad := t.bad, cores := t.cores, l2 := t.l2, cxlLines := t.cxlLines,
    monitors := t.monitors, tlb := t.tlb, pends := t.pends, pageReqs := t.pageReqs, atsReqs := t.atsReqs,
    mapper := t.mapper, sent := t.sent, free := t.free }

/-- A byte of a context is mapped to a key with the rights needed, good, and under no partial. -/
def ByteAt (s : State) (pasid : Nat) (va : DWord) (need : Need) (key : Nat) : Prop :=
  va.toNat < 2 ^ 57 ∧ NoPartial s key ∧ s.isBad key 1 = false ∧ ∃ p, s.translate pasid va need = .ok p ∧ p.key = key

/-- The readable word of `n` bytes at an address is `v`. -/
def WordAt (s : State) (pasid : Nat) (va : DWord) (n v : Nat) : Prop :=
  ∃ ps, Reach s pasid va n n { r := true } ps ∧ leNat (runBytes s.mem ps) = v

/-- Which of the elements that an instruction reads out of a tile with a mask block are masked: those outside the valid
rows and columns, and in modes 1 and 2 those that the words of their row and column mask (R268). -/
def Shown (s : State) (pasid : Nat) (mask : Option (List Byte)) (cells : Nat → Nat → Prop) (hid : Nat → Nat → Bool) :
    Prop :=
  ∀ i < 64, ∀ j < 64, cells i j →
    match mask with
    | none => hid i j = false
    | some b =>
      let n (o k : Nat) : Nat := leNat ((b.drop o).take k)
      if n 4 2 ≤ i ∨ n 6 2 ≤ j then hid i j = true
      else if n 0 4 = 1 then
        ∃ r c, WordAt s pasid (BitVec.ofNat 64 (n 24 8) + BitVec.ofNat 64 (4 * i)) 4 r ∧
          WordAt s pasid (BitVec.ofNat 64 (n 32 8) + BitVec.ofNat 64 (4 * j)) 4 c ∧ hid i j = decide (r < c)
      else if n 0 4 = 2 then
        ∃ r, WordAt s pasid (BitVec.ofNat 64 (n 16 8) + BitVec.ofNat 64 (8 * i)) 8 r ∧ hid i j = !r.testBit j
      else hid i j = false

/-- No two lanes that take part meet in a byte of their runs. -/
def Apart (tp : Word) (key : Nat → Nat) (k : Nat) : Prop :=
  ∀ l < 32, ∀ m < 32, tp.getLsbD l → tp.getLsbD m → l ≠ m → key l + k ≤ key m ∨ key m + k ≤ key l

/-- The value that an atomic leaves for an old one (R146). -/
def atomNew (f : Fields) (old c e : Nat) : Nat :=
  let el := f.ty.elem
  let less (a b : Nat) : Bool := toInt el f.ty.signed a < toInt el f.ty.signed b
  if f.e = .none then
    match f.subBits 4 2 with
    | 0 => if isFloat f.ty then ((Val.sum [(fmtOf f.ty).decode old, (fmtOf f.ty).decode c] .rne).write (fmtOf f.ty) .rne
        false).1 else (old + c) % 2 ^ el
    | 1 => if isFloat f.ty then ((fmtOf f.ty).pick false old c).1 else if less c old then c else old
    | 2 => if isFloat f.ty then ((fmtOf f.ty).pick true old c).1 else if less old c then c else old
    | _ => c
  else if f.subBits 4 2 = 0 then (old &&& e) ^^^ c else if old = e then c else old

/-! ### Numbers (R83 to R91) -/

/-- A finite value as a multiple of 2^q, for `q` no greater than its exponent. -/
def Val.at (v : Val) (q : Int) : Int :=
  match v with
  | .num n m e => intAt n m e q
  | _ => 0

/-- A code as a reader of numbers takes it: a BF16 subnormal is a zero of its sign (R91). -/
def Fmt.asRead (fm : Fmt) (x : Nat) : Nat :=
  if fm.flush && x / 2 ^ fm.fb % 2 ^ fm.eb == 0 then fm.sign (x.testBit (fm.eb + fm.fb)) else x % 2 ^ fm.width

/-- The exact value (-1)^neg * m * 2^e rounded to an integer (R87). -/
def nearInt (r : RM) (neg : Bool) (m : Nat) (e : Int) : Int :=
  let x : Int := (if neg then -1 else 1) * (m * 2 ^ e.toNat : Nat)
  let d : Int := (2 ^ (-e).toNat : Nat)
  match r with
  | .rz => Int.tdiv x d
  | .rd => x / d
  | .ru => -(-x / d)
  | .rne =>
    if 2 * (x % d) < d then x / d else if d < 2 * (x % d) then x / d + 1
    else if (x / d) % 2 = 0 then x / d else x / d + 1

/-- `i` computes in every element of the type a code and its flags from the elements of its sources, under its rounding
mode. -/
def FloatOp (i : Instr) (f : Fields) (os : List Opnd) (g : RM → List Nat → Nat × Word) : Prop :=
  Computes i f.d f.ty.regs
    (fun x l v => ∀ e < DType.count f.ty, element f.ty.elem v e =
      (g (x.rm f) (os.map fun o => element f.ty.elem (operand f x.w l o) e)).1 % 2 ^ f.ty.elem)
    (fun x => resultFlags x.tp f.d fun l => flagElems f.ty (os.map (operand f x.w l)) fun v => (g (x.rm f) v).2)

/-- `i` computes one value of `k` registers, and its flags, from its operands in a lane, under its rounding mode. -/
def FloatValue (i : Instr) (f : Fields) (k : Nat) (g : RM → Warp → Nat → Nat × Word) : Prop :=
  Computes i f.d k (fun x l v => v = (g (x.rm f) x.w l).1)
    (fun x => resultFlags x.tp f.d fun l => (g (x.rm f) x.w l).2)

/-! ### Across lanes and teams (R174 to R193) -/

/-- The combination of some lanes' values under an operation of R177, with its flags. -/
def Combines (op : Nat) (ty : DType) (vs : List Nat) (r : Nat × Word) : Prop :=
  let el := ty.elem
  let fm := fmtOf ty
  let int (v : Nat) : Int := toInt el ty.signed v
  if vs = [] then
    r = (match op with
      | 1 => if isFloat ty then fm.inf false else if ty.signed then 2 ^ (el - 1) - 1 else 2 ^ el - 1
      | 2 => if isFloat ty then fm.inf true else if ty.signed then 2 ^ (el - 1) else 0
      | 3 => 2 ^ el - 1
      | _ => 0, 0)
  else if isFloat ty then
    match op with
    | 0 => r = (Val.sum (vs.map fm.decode) .rne).write fm .rne false
    | _ =>
      r.2 = flagIf (vs.any fun v => (fm.decode v).isSnan) NV ∧
      (vs.all (fun v => (fm.decode v).isNan) → r.1 = fm.nan) ∧
      (∀ v ∈ vs, (fm.decode v).isNan = false → r.1 ∈ vs ∧ (fm.decode r.1).isNan = false ∧
        (if op = 1 then (fm.decode v).below (fm.decode r.1) else (fm.decode r.1).below (fm.decode v)) = false)
  else
    r.2 = 0 ∧
    match op with
    | 0 => r.1 = vs.sum % 2 ^ el
    | 1 => r.1 ∈ vs ∧ ∀ v ∈ vs, int r.1 ≤ int v
    | 2 => r.1 ∈ vs ∧ ∀ v ∈ vs, int v ≤ int r.1
    | 3 => ∀ j, r.1.testBit j = (decide (j < el) && vs.all fun v => v.testBit j)
    | 4 => ∀ j, r.1.testBit j = vs.any fun v => v.testBit j
    | _ => ∀ j, r.1.testBit j = decide ((vs.filter fun v => v.testBit j).length % 2 = 1)

/-- Misuse of teams and points: the lowest reason that some lane fails for traps the lanes that fail for it (R187). -/
def TeamChecks (i : Instr) (s : State) (side : Side) (w : Warp) (reason : Nat → Option Nat) (goes : Prop) : Prop :=
  let bad (r : Nat) : Word := maskOf fun l => (partOf i w side).getLsbD l && reason l == some r
  (∀ r ≤ 10, bad r ≠ 0 → (∀ q < r, bad q = 0) → exec i s = .next (s.trap w side 0x0F (BitVec.ofNat 64 r) (bad r))) ∧
  ((∀ r ≤ 10, bad r = 0) → goes)

/-- The limits of an integer format. -/
def limits (w : Nat) (signed : Bool) : Int × Int :=
  if signed then (-(2 ^ (w - 1) : Nat), (2 ^ (w - 1) : Nat) - 1) else (0, (2 ^ w : Nat) - 1)

/-- A value written as an integer: rounded, then held between the limits (R94, R111). -/
def toInteger (w : Nat) (signed : Bool) (r : RM) (v : Val) : Nat × Word :=
  let lo := (limits w signed).1
  let hi := (limits w signed).2
  let bits (y : Int) : Nat := (y % (2 ^ w : Nat)).toNat
  match v with
  | .nan _ => (0, NV)
  | .inf n => (bits (if n then lo else hi), NV ||| SAT)
  | .num n m e =>
    let x := nearInt r n m e
    if x < lo then (bits lo, NV ||| SAT) else if hi < x then (bits hi, NV ||| SAT)
    else (bits x, flagIf (v.at (min e 0) != x * 2 ^ (-(min e 0)).toNat) IX)

/-! ### Envelopes (R277 to R292) -/

/-- A domain of positive length. -/
def Dom.long (d : Dom) : Prop := ∀ lo hi, d.loQ = some lo → d.hiQ = some hi → lo < hi

/-- Lines of rising slope, each with a piece of its own within the domain. -/
def Canon (d : Dom) (ls : List Line) : Prop :=
  ls ≠ [] ∧ ls.Pairwise (fun l m => l.a.q < m.a.q) ∧ (breaks ls).Pairwise (fun x y => x < y) ∧
    ∀ x ∈ breaks ls, (∀ lo, d.loQ = some lo → lo < x) ∧ (∀ hi, d.hiQ = some hi → x < hi)

/-- Two lines with the same slope and the same intercept. -/
def SameLine (l m : Line) : Prop := l.a.q = m.a.q ∧ l.b.q = m.b.q

/-- R282. What an instruction makes of an exact domain and exact candidates: the ends and lines rounded (on a point
domain the one value), a produced infinity refused, the canonical form, its simplification, and at most 512 lines
written to D. -/
def Makes (i : Instr) (f : Fields) (s : State) (uid : Nat) (side : Side) (w : Warp) (c : Crew) (d : Dom)
    (cands : List Line) : Prop :=
  let tp := partOf i w side
  let ended (inf : DWord) (e : Option PwlNum) : DWord × Word := match e with | some n => n.round | none => (inf, 0)
  let lo := ended 0xFFF0000000000000 d.lo
  let hi := ended 0x7FF0000000000000 d.hi
  let dom : Dom := ⟨endOf lo.1, endOf hi.1⟩
  let made : List Line :=
    match dom.point with
    | some q => if cands = [] then []
      else [⟨.stored 0, .stored (BitVec.ofNat 64 (rneRat (valueAt q cands)).1), 0⟩]
    | none => cands.map fun l => ⟨.stored l.a.round.1, .stored l.b.round.1, l.a.round.2 ||| l.b.round.2⟩
  let infinite (d : DWord) : Prop := ∃ n, fp64.decode d.toNat = .inf n
  let code (n : PwlNum) : DWord := n.code.getD 0
  let lost : Prop := (d.lo ≠ none ∧ infinite lo.1) ∨ (d.hi ≠ none ∧ infinite hi.1) ∨
    ∃ l ∈ made, infinite (code l.a) ∨ infinite (code l.b)
  let canon := if dom.point ≠ none then made else canonLines dom made
  let r := if c.etol = 0 then (canon, false) else simplify dom (ratOf c.etol) canon.length canon
  (lost → exec i s = .next (s.trap w side 0x0A (BitVec.ofNat 64 (6 + 4 * 16)) tp)) ∧
  (¬lost → 512 < r.1.length → exec i s = .next (s.trap w side 9 (BitVec.ofNat 64 (r.1.length + 4 * 2 ^ 16)) tp)) ∧
  (¬lost → r.1.length ≤ 512 →
    ∃ t w' c', exec i s = .next t ∧ t.warp? uid = some w' ∧ t.crew? w.crew = some c' ∧ Completes i side w w' ∧
      SameRegs w w' ∧ t.mem = s.mem ∧ { c' with envs := c.envs } = c ∧ (∀ n, n ≠ envNo f.d → c'.env n = c.env n) ∧
      c'.env (envNo f.d) = { lo := lo.1, hi := hi.1, lines := r.1.map fun l => (code l.a, code l.b) } ∧
      w'.flags = w.flags ||| r.1.foldl (fun fl l => fl ||| l.fl) (lo.2 ||| hi.2 ||| flagIf r.2 EVSIMP))

/-- An instruction that uses format slot `n`: the check of the slot, made only when a lane takes part (R93). -/
def UsesSlot (i : Instr) (n : Nat) (s : State) (uid : Nat) (side : Side) (w : Warp) (takes : DWord → Bool)
    (goes : DWord → Prop) : Prop :=
  let tp := partOf i w side
  let fs : DWord := tget 0 (s.launch w.launch).lrec.fslots n
  if tp = 0 then Skips i s uid side w
  else match slotFault fs with
    | some reason => exec i s = .next (s.trap w side 0x0E (BitVec.ofNat 64 (n + reason * 16)) tp)
    | none =>
      if takes fs then goes fs else exec i s = .next (s.trap w side 0x0E (BitVec.ofNat 64 (n + 4 * 16)) tp)

/-! ### Paths (R121 to R129) -/

/-- Slot `side` starts a block at a PC, and nothing else of the warp has changed. -/
structure Jumps (side : Side) (w w' : Warp) (pc : DWord) : Prop where
  slot : w'.slot side =
    { w.slot side with pc := pc, sig := 0, latched := (w.slot side).mask, resumed := false, wait := none, fetch := none, denied := [] }
  other : w'.slot (otherSide side) = w.slot (otherSide side)
  last : w'.last = side
  rest : { w' with port := w.port, star := w.star, last := w.last, promoted := w.promoted } = w

/-- `i` takes its path to a PC; the warp is otherwise as `v`. -/
def GoesTo (i : Instr) (s : State) (uid : Nat) (side : Side) (v : Warp) (pc : DWord) : Prop :=
  ∃ w', exec i s = .next (s.setWarp w') ∧ (s.setWarp w').warp? uid = some w' ∧ Jumps side v w' pc

/-- The checks 1 and 2 of R122, which the first block exit of a resumed path does not make (R133). -/
def SigFine (w : Warp) (side : Side) (sigx : Word) : Prop :=
  sigx = 0 ∨ (w.slot side).resumed ∨ ((w.slot side).sig = sigx ∧ (w.slot side).mask = (w.slot side).latched)

/-- Nothing of the warp has changed but its lanes, its slots and its stack. -/
def OnlyPaths (w v : Warp) : Prop :=
  { v with lanes := w.lanes, port := w.port, star := w.star, stack := w.stack, last := w.last, promoted := w.promoted } = w

/-- No fault-split is open above the path of a slot, so a reconvergence point does not wait (R132). -/
def NoSplit (w : Warp) (side : Side) : Prop := ∀ e, w.topEntry (w.slot side).mask = some e → e.kind ≠ 1

end Sys2Proof.Machine
end

