-- ==== Sys2Proof/Certificates/Slice0/Obligations.lean ====
section
/-! DEFINITION. Certificates/Slice0/Obligations.lean: the statements for the provers. -/

open Sys2Proof Sys2Proof.Machine

/-! ### Integer, logic and move instructions (R60 to R81) -/

/-- R65. The arithmetic instructions compute the exact integer of their elements and write it wrapped modulo 2^w, or
with `.sat` held between the limits of the element type; `madw` and `idp4` have widths of their own. -/
def Obligations.IntegerArithmetic : Prop :=
  ∀ f : Fields,
    IntOp (.add f) f (f.sub == 1) (fun a b _ => a + b) ∧
    IntOp (.sub f) f (f.sub == 1) (fun a b _ => a - b) ∧
    IntOp (.mul f) f false (fun a b _ => a * b) ∧
    IntOp (.mulhi f) f false (fun a b _ => a * b / (2 ^ f.ty.elem : Nat)) ∧
    IntOp (.mad f) f false (fun a b c => a * b + c) ∧
    IntOp (.min f) f false (fun a b _ => if a < b then a else b) ∧
    IntOp (.max f) f false (fun a b _ => if a < b then b else a) ∧
    IntOp (.abs f) f (f.sub == 1) (fun a _ _ => if a < 0 then -a else a) ∧
    IntOp (.neg f) f (f.sub == 1) (fun a _ _ => 0 - a) ∧
    IntOp (.clamp f) f false (fun a lo hi => min (max a lo) hi) ∧
    ValueOp (.madw f) f 2 (fun w l v =>
      v = fitInt 64 f.ty.signed false
        (toInt 32 f.ty.signed (operandAt 1 f w l f.a) * toInt 32 f.ty.signed (operandAt 1 f w l f.b) +
          operandAt 2 f w l f.c)) ∧
    ValueOp (.idp4 f) f 1 (fun w l v =>
      let byte (o : Opnd) (k : Nat) : Int := toInt 8 f.ty.signed (element 8 (operandAt 1 f w l o) k)
      v = fitInt 32 f.ty.signed false
        (toInt 32 f.ty.signed (operandAt 1 f w l f.c) + (byte f.a 0 * byte f.b 0 + byte f.a 1 * byte f.b 1 +
          byte f.a 2 * byte f.b 2 + byte f.a 3 * byte f.b 3)))

/-- R66, R67. `addc` and `subb` write the sum or difference with the carry or borrow of C (0 when C is none), and to E
whether it left the word's width. A quotient is rounded toward zero (`Int.tdiv`), a remainder is a − b × quotient, and the
edge cases are those of the table; neither traps. -/
def Obligations.IntegerCarryAndDivision : Prop :=
  (∀ (f : Fields) (s : State) (uid : Nat) (side : Side) (w : Warp),
     let x (minus : Bool) (l : Nat) : Int :=
       let a : Int := operand f w l f.a
       let b : Int := operand f w l f.b
       let c : Int := operandAt 1 f w l f.c
       if minus then a - b - c else a + b + c
     let val (minus : Bool) (l : Nat) : Nat := (x minus l % (2 ^ f.ty.elem : Nat)).toNat
     let out (minus : Bool) (l : Nat) : Nat := if (2 ^ f.ty.elem : Nat) ≤ x minus l ∨ x minus l < 0 then 1 else 0
     let goes (i : Instr) (minus : Bool) : Prop := Issues i s uid side w →
       ∃ w', exec i s = .next (s.setWarp w') ∧ (s.setWarp w').warp? uid = some w' ∧ Completes i side w w' ∧
         Regs w w' (vAfter w (partOf i w side) f.d f.ty.regs (val minus)) (pAfter w (partOf i w side) f.e (out minus))
           w.sreg w.soiled.getLsbD ∧ w'.flags = w.flags
     goes (.addc f) false ∧ goes (.subb f) true) ∧
  (∀ f : Fields,
     IntOp (.div f) f false (fun a b _ =>
       if b = 0 then (if f.ty.signed ∧ a < 0 then 1 else -1) else Int.tdiv a b) ∧
     IntOp (.rem f) f false (fun a b _ => if b = 0 then a else a - b * Int.tdiv a b))

/-- R68, R69, R71. The logic instructions work on every bit by itself; `lop3` looks its bit up in the table; `brev` turns
the bits round. The shifts of every element by one count, and the funnel shift. -/
def Obligations.LogicAndShifts : Prop :=
  (∀ f : Fields,
     BitOp (.and f) f (fun j a b _ => a j && b j) ∧
     BitOp (.or f) f (fun j a b _ => a j || b j) ∧
     BitOp (.xor f) f (fun j a b _ => a j != b j) ∧
     BitOp (.andn f) f (fun j a b _ => a j && !b j) ∧
     BitOp (.not f) f (fun j a _ _ => !a j) ∧
     BitOp (.lop3 f) f (fun j a b c =>
       f.imm.toNat.testBit ((if a j then 1 else 0) + 2 * (if b j then 1 else 0) + 4 * (if c j then 1 else 0))) ∧
     BitOp (.brev f) f (fun j a _ _ => a (f.ty.elem - 1 - j))) ∧
  (∀ f : Fields,
     let el := f.ty.elem
     ShiftOp (.shl f) f (fun a n => if n < el then a * 2 ^ n % 2 ^ el else 0) ∧
     ShiftOp (.shr f) f (fun a n => if n < el then a / 2 ^ n else 0) ∧
     ShiftOp (.sra f) f (fun a n => fitInt el true false (toInt el true a / (2 ^ (if n < el then n else el) : Nat))) ∧
     ShiftOp (.rol f) f (fun a n => (a * 2 ^ (n % el) + a / 2 ^ (el - n % el)) % 2 ^ el) ∧
     ValueOp (.fsh f) f f.ty.regs (fun w l v =>
       let y := operand f w l f.a + operand f w l f.b * 2 ^ el
       let m := min (operandAt 1 f w l f.c % 2 ^ 32) el
       v = if f.sub == 1 then y * 2 ^ m / 2 ^ el % 2 ^ el else y / 2 ^ m % 2 ^ el))

/-- R70, R71, R72. Bit fields extracted and inserted, bits counted, bytes picked. -/
def Obligations.IntegerBits : Prop :=
  ∀ f : Fields,
    let el := f.ty.elem
    ValueOp (.bext f) f f.ty.regs (fun w l v =>
      let a := operand f w l f.a
      let p := operandAt 1 f w l f.b % 256
      let k := min (operandAt 1 f w l f.c % 256) el
      let bit (i : Nat) : Bool := if i < el then a.testBit i else f.sub == 1 && a.testBit (el - 1)
      ∀ j, v.testBit j = (decide (j < el) &&
        if j < k then bit (p + j) else f.sub == 1 && decide (0 < k) && bit (p + k - 1))) ∧
    ValueOp (.bins f) f f.ty.regs (fun w l v =>
      let p := operandAt 1 f w l f.c % 256
      let k := min (operandAt 1 f w l f.e % 256) el
      ∀ j, v.testBit j = (decide (j < el) &&
        if p ≤ j ∧ j < p + k then (operand f w l f.b).testBit (j - p) else (operand f w l f.a).testBit j)) ∧
    ValueOp (.popc f) f 1 (fun w l v => v = ((List.range el).map fun i => (operand f w l f.a).testBit i).count true) ∧
    ValueOp (.clz f) f 1 (fun w l v =>
      v ≤ el ∧ (∀ i, el - v ≤ i → i < el → (operand f w l f.a).testBit i = false) ∧
        (v < el → (operand f w l f.a).testBit (el - 1 - v) = true)) ∧
    ValueOp (.ctz f) f 1 (fun w l v =>
      v ≤ el ∧ (∀ i < v, (operand f w l f.a).testBit i = false) ∧
        (v < el → (operand f w l f.a).testBit v = true)) ∧
    ValueOp (.bperm f) f 1 (fun w l v =>
      let y := operandAt 1 f w l f.a + 2 ^ 32 * operandAt 1 f w l f.b
      ∀ k < 4,
        let c := element 8 (operandAt 1 f w l f.c) k
        let b := element 8 y (c % 8)
        element 8 v k = match c / 8 % 4 with
          | 0 => b
          | 1 => 0
          | 2 => if b.testBit 7 then 255 else 0
          | _ => 255)

/-- R73 to R75, R77, R78, R81. Comparisons, combined or not; selection; the address sum; values moved, predicates looked
up, masks gathered and spread, and one lane read. -/
def Obligations.CompareSelectMove : Prop :=
  (∀ f : Fields,
     ValueOp (.cmp f) f 1 (fun w l v =>
       let a := toInt f.ty.elem f.ty.signed (operand f w l f.a)
       let b := toInt f.ty.elem f.ty.signed (operand f w l f.b)
       let c := operandAt 1 f w l f.c != 0
       let t := match f.subBits 0 3 with
         | 0 => decide (a = b)
         | 1 => decide (a ≠ b)
         | 2 => decide (a < b)
         | 3 => decide (a ≤ b)
         | 4 => decide (b < a)
         | _ => decide (b ≤ a)
       (v != 0) = match f.subBits 4 2 with
         | 0 => t
         | 1 => t && c
         | 2 => t || c
         | _ => t != c) ∧
     ValueOp (.sel f) f f.ty.regs (fun w l v =>
       v = if operandAt 1 f w l f.c ≠ 0 then operand f w l f.a else operand f w l f.b) ∧
     ValueOp (.lea f) f 2 (fun w l v =>
       let ofs : Int := if f.c == .none then 0 else toInt 32 true (operandAt 1 f w l f.c)
       v = fitInt 64 false false (operandAt 2 f w l f.a + indexOf f w l + ofs))) ∧
  (∀ f : Fields,
     ValueOp (.mov f) f f.ty.regs (fun w l v => v = operand f w l f.a) ∧
     ValueOp (.plop f) f 1 (fun w l v =>
       let bit (o : Opnd) : Nat := if operandAt 1 f w l o ≠ 0 then 1 else 0
       (v != 0) = f.imm.toNat.testBit (bit f.a + 2 * bit f.b + 4 * bit f.c)) ∧
     Computes (.pmask f) f.d 1 (fun x _ v => ∀ j, v.testBit j =
       (decide (j < 32) && x.tp.getLsbD j && operandAt 1 f x.w j f.a != 0)) noFlags ∧
     ValueOp (.pmaskSet f) f 1 (fun w l v => (v != 0) = (operandAt 1 f w l f.a).testBit l) ∧
     ∀ s uid side w, Issues (.v2s f) s uid side w →
       let tp := partOf (.v2s f) w side
       let lane := operandAt 1 f w 0 f.b % 32
       let gives (v : Nat) (fl : Word) : Prop := Gives (.v2s f) s uid side w f.d f.ty.regs (fun _ => v) fl
       if tp = 0 then Skips (.v2s f) s uid side w
       else if tp.getLsbD lane then gives (operand f w lane f.a) 0
       else if (w.lane lane).st = .dead then gives 0 DEADREAD
       else if f.sub = 1 then gives 0 0
       else exec (.v2s f) s = .next (s.trap w side 6 0 (bitOf lane)))

/-- R79. The order of the checks of `srd` and `swr`, what each trap says, and what is read or written. -/
def Obligations.StatusAccess : Prop :=
  ∀ (f : Fields) (s : State) (uid : Nat) (side : Side) (w : Warp),
    let n := f.imm.toNat % 256
    let am := w.active side
    (Issues (.srd f) s uid side w →
      match srInfo n with
      | none => exec (.srd f) s = .next (s.trap w side 3 (BitVec.ofNat 64 n) am)
      | some r =>
        if r.lane ∧ isScalar f.d then exec (.srd f) s = .next (s.trap w side 3 (BitVec.ofNat 64 n) am)
        else if r.wide ∧ ¬wideOk (s.allotOf w) f.d then exec (.srd f) s = .next (s.trapField w side (.srd f) .d am)
        else
          Gives (.srd f) s uid side w f.d (if r.wide then 2 else 1) ((issueOf (.srd f) s side w).srValue n) 0) ∧
    (Issues (.swr f) s uid side w → (s.crew? w.crew).isSome →
      let x := issueOf (.swr f) s side w
      match srInfo n with
      | none => exec (.swr f) s = .next (s.trap w side 3 (BitVec.ofNat 64 (n + 256)) am)
      | some r =>
        if ¬r.rw then exec (.swr f) s = .next (s.trap w side 3 (BitVec.ofNat 64 (n + 256)) am)
        else if r.wide ∧ ¬wideOk (s.allotOf w) f.a then exec (.swr f) s = .next (s.trapField w side (.swr f) .a am)
        else if x.tp = 0 then Skips (.swr f) s uid side w
        else
          let value (l : Nat) : Nat := operandAt (if r.wide then 2 else 1) f w l f.a
          -- The lanes that give a value: each its own, or for a wider scope the lowest one for all.
          let gives (l : Nat) : Prop := x.tp.getLsbD l ∧ (r.lane ∨ ∀ k < l, x.tp.getLsbD k = false)
          ((∃ l < 32, gives l ∧ ¬srAccepts n (value l)) →
            ∃ mask : Word, exec (.swr f) s = .next (s.trap w side 3 (BitVec.ofNat 64 (n + 256)) mask) ∧
              ∀ l < 32, mask.getLsbD l =
                if isScalar f.a then x.tp.getLsbD l else decide (gives l ∧ ¬srAccepts n (value l))) ∧
          ((∀ l < 32, gives l → srAccepts n (value l)) →
            ∃ t w', exec (.swr f) s = .next t ∧ t.warp? uid = some w' ∧ w'.sregs = w.sregs ∧
              (∀ l < 32, { w'.lane l with heir := (w.lane l).heir } = w.lane l) ∧ t.mem = s.mem ∧
              (w'.slot side).pc = (w.slot side).pc + 16 ∧
              ∀ l < 32, ∀ m < 0x33, m ≠ 0x0C →
                (issueOf (.swr f) t side w').srValue m l =
                  if m ≠ n then (issueOf (.swr f) s side w).srValue m l
                  else if r.lane ∧ ¬x.tp.getLsbD l then (issueOf (.swr f) s side w).srValue m l
                  else
                    let k := if r.lane then l else (lowLane x.tp).getD 0
                    if n = 0x11 ∧ value k = 2 ^ 63 then 0 else value k))

/-! ### Numbers, floating point and conversion (R82 to R116) -/

/-- R87, R88. The value that rounding writes when it does not overflow: of all the values of the format, the nearest one
that the mode allows; IX tells whether it is the exact one. The exact magnitude is `N / D` in units of 2^q: `m` in units
of 2^e, or with `sticky` something between that and the next. -/
def Obligations.RoundingIsCorrect : Prop :=
  ∀ fm ∈ [fp64, fp32, fp16, e5m2, e4m3, e2m1], ∀ (r : RM) (sat neg : Bool) (m : Nat) (e : Int) (sticky : Bool)
    (q : Int) (N D : Nat),
    let unit := 2 ^ (e - q).toNat * D
    0 < D → q ≤ e → q ≤ fm.emin - fm.fb → m * unit ≤ N → N < (m + 1) * unit → (sticky = true ↔ N ≠ m * unit) →
    (sticky = true → 2 ^ 64 ≤ m) →
    let out := fm.round r sat neg m e sticky
    out.2 &&& OF = 0 →
    (∃ n k j, fm.decode out.1 = .num n k j) ∧
      let x : Int := if neg then -N else N
      let y : Int := (fm.decode out.1).at q * D
      (out.2 &&& IX ≠ 0 ↔ y ≠ x) ∧
      ∀ c < 2 ^ fm.width, (∃ n k j, fm.decode c = .num n k j) →
        let z : Int := (fm.decode c).at q * D
        match r with
        | .rne => (y - x).natAbs ≤ (z - x).natAbs ∧ ((y - x).natAbs = (z - x).natAbs → z ≠ y → out.1 % 2 = 0)
        | .rz => y.natAbs ≤ x.natAbs ∧ (z.natAbs ≤ x.natAbs → z.natAbs ≤ y.natAbs)
        | .rd => y ≤ x ∧ (z ≤ x → z ≤ y)
        | .ru => x ≤ y ∧ (x ≤ z → y ≤ z)

/-- R90, R102, R103. What is rounded is the exact result: sums and products of finite values exactly, with the sign of
a zero; quotients and roots to 64 bits and more, with the rest marked; and what the invalid operations give. -/
def Obligations.ExactArithmetic : Prop :=
  (∀ (vs : List Val) (r : RM) (q : Int), q ≤ 0 → (∀ v ∈ vs, ∃ n m e, v = .num n m e ∧ q ≤ e) →
    ∃ n m e, Val.sum vs r = .num n m e false ∧ q ≤ e ∧ intAt n m e q = (vs.map fun v => v.at q).sum ∧
      (m = 0 → n = (if vs ≠ [] ∧ vs.all Val.neg then true else vs.any Val.neg && r == .rd))) ∧
  (∀ (ps : List (Val × Val)) (cs : List Val) (r : RM),
    (∃ p ∈ ps, (p.1.isZero = true ∧ ∃ n, p.2 = .inf n) ∨ (p.2.isZero = true ∧ ∃ n, p.1 = .inf n)) →
    fmaRaw ps cs r = .nan true) ∧
  (∀ a b c d e k r, fmaRaw [(.num a b e, .num c d k)] [] r = Val.sum [.num (a != c) (b * d) (e + k)] r) ∧
  (∀ vs r, Val.inf false ∈ vs → Val.inf true ∈ vs → ∃ nv, Val.sum vs r = .nan nv ∧ (vs.all (!·.isNan) → nv = true)) ∧
  (∀ a b n m e k, m ≠ 0 → ∃ j sh st, divRaw (.num a n e) (.num b m k) = .num (a != b) j (e - k - (sh : Nat)) st ∧
    j * m ≤ n * 2 ^ sh ∧ n * 2 ^ sh < (j + 1) * m ∧ (st = true ↔ j * m ≠ n * 2 ^ sh) ∧ (n ≠ 0 → 2 ^ 64 ≤ j)) ∧
  (∀ a b n e k, n ≠ 0 → divRaw (.num a n e) (.num b 0 k) = .inf (a != b) DZ) ∧
  (∀ a b e k, divRaw (.num a 0 e) (.num b 0 k) = .nan true) ∧
  (∀ a b, divRaw (.inf a) (.inf b) = .nan true) ∧
  (∀ n e, n ≠ 0 → ∃ j k sh st, sqrtRaw (.num false n e) = .num false j k st ∧ (e - 2 * k = (sh : Nat)) ∧
    j * j ≤ n * 2 ^ sh ∧ n * 2 ^ sh < (j + 1) * (j + 1) ∧ (st = true ↔ j * j ≠ n * 2 ^ sh) ∧ 2 ^ 64 ≤ j) ∧
  (∀ n e, n ≠ 0 → sqrtRaw (.num true n e) = .nan true) ∧
  (∀ n e, sqrtRaw (.num n 0 e) = .num n 0 0 false) ∧ sqrtRaw (.inf true) = .nan true

/-- R102 to R105. The rounding instructions: the exact result of every element, rounded once into the format; and what
rounding to an integral value gives, for every code of a format that is not flushed. -/
def Obligations.FloatArithmetic : Prop :=
  (∀ f : Fields,
     let fm := fmtOf f.ty
     let v (l : List Nat) (k : Nat) : Val := fm.decode (l.getD k 0)
     let rounds (i : Instr) (os : List Opnd) (g : RM → List Nat → Raw) : Prop :=
       FloatOp i f os fun r l => (g r l).write fm r false
     rounds (.fadd f) [f.a, f.b] (fun r l => Val.sum [v l 0, v l 1] r) ∧
     rounds (.fsub f) [f.a, f.b] (fun r l => Val.sum [v l 0, (v l 1).negate] r) ∧
     rounds (.fmul f) [f.a, f.b] (fun _ l => mulRaw (v l 0) (v l 1)) ∧
     rounds (.ffma f) [f.a, f.b, f.c] (fun r l => fmaRaw [(v l 0, v l 1)] [v l 2] r) ∧
     rounds (.fdiv f) [f.a, f.b] (fun _ l => divRaw (v l 0) (v l 1)) ∧
     rounds (.fsqrt f) [f.a] (fun _ l => sqrtRaw (v l 0)) ∧
     FloatValue (.fscale f) f f.ty.regs (fun r w l =>
       -- The count is 32 bits whatever TYPE, and so is an immediate that it names (log entry 63).
       let n := toInt 32 true (if f.b = .imm then f.imm.toNat else operandAt 1 f w l f.b)
       let g (c : List Nat) : Nat × Word := ((v c 0).scale n).write fm r false
       (mapElems f.ty [operand f w l f.a] fun c => (g c).1, flagElems f.ty [operand f w l f.a] fun c => (g c).2)) ∧
     FloatValue (.fdp2 f) f 1 (fun r w l =>
       let half (o : Opnd) (k : Nat) : Val := fm.decode (element 16 (operandAt 1 f w l o) k)
       (fmaRaw [(half f.a 0, half f.b 0), (half f.a 1, half f.b 1)] [fp32.decode (operandAt 1 f w l f.c)] r).write
         fp32 r false) ∧
     FloatOp (.frnd f) f [f.a] (fun r l => fm.integral r (f.sub.getLsbD 3) (l.getD 0 0))) ∧
  (∀ fm ∈ [fp64, fp32, fp16], ∀ (r : RM) (exact : Bool), ∀ c < 2 ^ fm.width,
     match fm.decode c with
     | .nan s => fm.integral r exact c = (fm.nan, flagIf s NV)
     | .inf n => fm.integral r exact c = (fm.inf n, 0)
     | .num n m e =>
       ∃ m' e', fm.decode (fm.integral r exact c).1 = .num n m' e' ∧
         ∀ q : Int, q ≤ 0 → q ≤ e → q ≤ e' →
           intAt n m' e' q = nearInt r n m e * 2 ^ (-q).toNat ∧
           (fm.integral r exact c).2 = flagIf (exact && intAt n m' e' q != intAt n m e q) IX)

/-- R106, R107, R108. Minimum and maximum, signs, comparisons and classes. -/
def Obligations.FloatCompare : Prop :=
  ∀ f : Fields,
    let fm := fmtOf f.ty
    -- The pick of R106: an operand as it is read, and no numeric operand lies beyond it.
    let picks (i : Instr) (beyond : Val → Val → Bool) : Prop :=
      ∃ g : List Nat → Nat × Word, FloatOp i f [f.a, f.b] (fun _ => g) ∧
        ∀ a < 2 ^ fm.width, ∀ b < 2 ^ fm.width,
          let x := fm.decode a
          let y := fm.decode b
          let z := fm.decode (g [a, b]).1
          (g [a, b]).2 = flagIf (x.isSnan || y.isSnan) NV ∧
          (x.isNan → y.isNan → (g [a, b]).1 = fm.nan) ∧
          (x.isNan → ¬y.isNan → (g [a, b]).1 = fm.asRead b) ∧
          (¬x.isNan → y.isNan → (g [a, b]).1 = fm.asRead a) ∧
          (¬x.isNan → ¬y.isNan →
            ((g [a, b]).1 = fm.asRead a ∨ (g [a, b]).1 = fm.asRead b) ∧ beyond x z = false ∧ beyond y z = false)
    picks (.fmin f) (fun u z => u.below z) ∧
    picks (.fmax f) (fun u z => z.below u) ∧
    (∃ g : List Nat → Nat × Word, FloatOp (.fabs f) f [f.a] (fun _ => g) ∧ ∀ a < 2 ^ fm.width,
      let x := fm.decode a
      let r := fm.asRead a
      let top := 2 ^ (fm.eb + fm.fb)
      g [a] = if x.isNan then (fm.nan, flagIf x.isSnan NV) else
        (match f.sub.toNat with | 0 => r % top | 1 => r % top + top | _ => if r < top then r + top else r - top, 0)) ∧
    FloatValue (.fcmp f) f 1 (fun _ w l =>
      let a := fm.decode (operand f w l f.a)
      let b := fm.decode (operand f w l f.b)
      let c := operandAt 1 f w l f.c != 0
      let un := a.isNan || b.isNan
      let t := match f.subBits 0 3 with
        | 0 => !un && a.cmp b == .eq
        | 1 => un || a.cmp b != .eq
        | 2 => !un && a.cmp b == .lt
        | 3 => !un && a.cmp b != .gt
        | 4 => !un && a.cmp b == .gt
        | 5 => !un && a.cmp b != .lt
        | 6 => un
        | _ => !un
      let d := match f.subBits 4 2 with
        | 0 => t
        | 1 => t && c
        | 2 => t || c
        | _ => t != c
      (if d then 1 else 0,
        flagIf (a.isSnan || b.isSnan || (un && 2 ≤ f.subBits 0 3 && f.subBits 0 3 ≤ 5)) NV)) ∧
    FloatValue (.fclass f) f 1 (fun _ w l =>
      let cls (x : Nat) : Nat :=
        let neg := x.testBit (fm.eb + fm.fb)
        let e := x / 2 ^ fm.fb % 2 ^ fm.eb
        let m := x % 2 ^ fm.fb
        if e = 2 ^ fm.eb - 1 then
          (if m = 0 then (if neg then 2 else 9) else if m < 2 ^ (fm.fb - 1) then 0 else 1)
        else if e = 0 then
          (if m = 0 ∨ fm.flush then (if neg then 5 else 6) else if neg then 4 else 7)
        else if neg then 3 else 8
      let a := operand f w l f.a
      (if f.ty = .f16x2 ∨ f.ty = .bf16x2 then 2 ^ cls (element 16 a 0) + 2 ^ (cls (element 16 a 1) + 16) else 2 ^ cls a, 0))

/-- R109. The special functions read FP32, give in every lane a fixed function of the code alone, and give their exact
cases exactly. (Of the other codes they give any value within the bound, log entry 10.) -/
def Obligations.SpecialFunctions : Prop :=
  (∀ f : Fields,
    let special (i : Instr) (op : Sfu) : Prop :=
      FloatValue i f 1 fun _ w l => op.run (BitVec.ofNat 32 (operandAt 1 f w l f.a))
    special (.frcp f) .rcp ∧ special (.frsq f) .rsq ∧ special (.fexp2 f) .exp2 ∧ special (.flog2 f) .log2 ∧
      special (.fsinpi f) .sinpi ∧ special (.fcospi f) .cospi ∧ special (.ftanh f) .tanh) ∧
  (∀ (op : Sfu) (c : Word), (fp32.decode c.toNat).isNan →
    op.run c = (0x7FC00000, flagIf (fp32.decode c.toNat).isSnan NV)) ∧
  (∀ n : Bool,
    let zero : Word := if n then 0x80000000 else 0
    let inf : Word := if n then 0xFF800000 else 0x7F800000
    let one : Word := if n then 0xBF800000 else 0x3F800000
    Sfu.run .rcp zero = (inf.toNat, DZ) ∧ Sfu.run .rcp inf = (zero.toNat, 0) ∧ Sfu.run .rsq zero = (inf.toNat, DZ) ∧
      Sfu.run .exp2 zero = (0x3F800000, 0) ∧ Sfu.run .log2 zero = (0xFF800000, DZ) ∧
      Sfu.run .sinpi zero = (zero.toNat, 0) ∧ Sfu.run .sinpi inf = (0x7FC00000, NV) ∧
      Sfu.run .cospi zero = (0x3F800000, 0) ∧ Sfu.run .cospi inf = (0x7FC00000, NV) ∧
      Sfu.run .tanh zero = (zero.toNat, 0) ∧ Sfu.run .tanh inf = (one.toNat, 0)) ∧
  Sfu.run .rsq 0x7F800000 = (0, 0) ∧ Sfu.run .exp2 0x7F800000 = (0x7F800000, 0) ∧ Sfu.run .exp2 0xFF800000 = (0, 0) ∧
  Sfu.run .log2 0x7F800000 = (0x7F800000, 0) ∧
  (∀ c : Word, 0x80000000 < c.toNat → c.toNat ≤ 0xFF800000 →
    Sfu.run .rsq c = (0x7FC00000, NV) ∧ Sfu.run .log2 c = (0x7FC00000, NV)) ∧
  (∀ e : Nat, 1 ≤ e → e ≤ 254 →
    -- The code of 2^(e - 127).
    let c := BitVec.ofNat 32 (e * 2 ^ 23)
    (e ≤ 253 → Sfu.run .rcp c = ((254 - e) * 2 ^ 23, 0)) ∧
    (e % 2 = 1 → Sfu.run .rsq c = ((381 - e) / 2 * 2 ^ 23, 0)) ∧
    fp32.decode (Sfu.run .log2 c).1 = fp32.decode (((intVal ((e : Int) - 127)).write fp32 .rne false).1) ∧
    Sfu.run .exp2 (BitVec.ofNat 32 ((intVal ((e : Int) - 127)).write fp32 .rne false).1) = (e * 2 ^ 23, 0))

/-- R93, R111 to R114, R116. The conversions between integers and floats, of packed floats, and of single elements
through a format slot. -/
def Obligations.Conversions : Prop :=
  ∀ f : Fields,
    FloatValue (.cvt f) f f.ty.regs (fun r w l =>
      let src := tyOf f.imm.toNat
      let a := operandAt src.regs f w l f.a
      let sat := f.sub.getLsbD 3
      if isFloat src then
        let v := (fmtOf src).decode a
        if isFloat f.ty then v.write (fmtOf f.ty) r sat else toInteger f.ty.elem f.ty.signed r v
      else
        let x := toInt src.elem src.signed a
        if isFloat f.ty then (Val.num (x < 0) x.natAbs 0).write (fmtOf f.ty) r sat
        else
          let lo := (limits f.ty.elem f.ty.signed).1
          let hi := (limits f.ty.elem f.ty.signed).2
          ((max lo (min hi x) % (2 ^ f.ty.elem : Nat)).toNat, flagIf (x < lo || hi < x) SAT)) ∧
    FloatValue (.cvtx2 f) f 1 (fun r w l =>
      let one (o : Opnd) : Nat × Word :=
        (fp32.decode (operandAt 1 f w l o)).write (fmtOf f.ty) r (f.sub.getLsbD 4)
      ((one f.a).1 + (one f.b).1 * 2 ^ 16, (one f.a).2 ||| (one f.b).2)) ∧
    FloatValue (.cvtx2Unp f) f 2 (fun _ w l =>
      let one (k : Nat) : Nat × Word :=
        ((fmtOf f.ty).decode (element 16 (operandAt 1 f w l f.a) k)).write fp32 .rne false
      ((one 0).1 + (one 1).1 * 2 ^ 32, (one 0).2 ||| (one 1).2)) ∧
    FloatValue (.cvt8x4 f) f 1 (fun r w l =>
      let one (k : Nat) : Nat × Word :=
        (fp32.decode (element 32 (operandAt 4 f w l f.a) k)).write (if f.sub.getLsbD 3 then e5m2 else e4m3) r
          (f.sub.getLsbD 5)
      ((one 0).1 + (one 1).1 * 2 ^ 8 + (one 2).1 * 2 ^ 16 + (one 3).1 * 2 ^ 24,
        (one 0).2 ||| (one 1).2 ||| (one 2).2 ||| (one 3).2)) ∧
    FloatValue (.cvt8x4Unp f) f 4 (fun _ w l =>
      let one (k : Nat) : Nat × Word :=
        ((if f.sub.getLsbD 3 then e5m2 else e4m3).decode (element 8 (operandAt 1 f w l f.a) k)).write fp32 .rne false
      ((one 0).1 + (one 1).1 * 2 ^ 32 + (one 2).1 * 2 ^ 64 + (one 3).1 * 2 ^ 96,
        (one 0).2 ||| (one 1).2 ||| (one 2).2 ||| (one 3).2)) ∧
    ∀ s uid side w,
      let n := f.imm.toNat
      let each (i : Instr) (g : RM → Nat → Nat × Word) : Prop :=
        let r := (issueOf i s side w).rm f
        Gives i s uid side w f.d 1 (fun l => (g r (operandAt 1 f w l f.a)).1)
          (resultFlags (partOf i w side) f.d fun l => (g r (operandAt 1 f w l f.a)).2)
      (Issues (.cvtf f) s uid side w →
        UsesSlot (.cvtf f) n s uid side w (fun fs => !slotScaled fs && slotElem fs != 1) fun fs =>
          each (.cvtf f) fun _ a =>
            if slotElem fs = 8 ∨ slotElem fs = 9 then
              toInteger 8 (slotElem fs == 8) (slotRound fs) (fp32.decode a)
            else (fp32.decode a).write (slotFmt fs) (slotRound fs) (slotSat fs)) ∧
      (Issues (.cvtfDec f) s uid side w →
        UsesSlot (.cvtfDec f) n s uid side w (fun fs => !slotScaled fs && slotElem fs != 1) fun fs =>
          each (.cvtfDec f) fun _ a =>
            (if slotElem fs = 8 ∨ slotElem fs = 9 then intVal (toInt 8 (slotElem fs == 8) a)
              else (slotFmt fs).decode (a % 2 ^ (slotFmt fs).width)).write fp32 .rne false) ∧
      (Issues (.bunpack f) s uid side w →
        UsesSlot (.bunpack f) n s uid side w (fun fs => slotElem fs == 5 || slotElem fs == 6 || slotElem fs == 7)
          fun fs => each (.bunpack f) fun r a =>
            let code := element 8 a 0
            let scale := element 8 a 1
            let plain := (slotFmt fs).decode (code % 2 ^ (slotFmt fs).width)
            (if !slotScaled fs then plain
              else if scale = 0xFF then .nan false
              else if slotSpecial fs && code % 16 == 8 then (e4m3.decode (element 8 a 2)).scale ((scale : Int) - 127)
              else plain.scale ((scale : Int) - 127)).write fp32 r false)

/-- R115. `bpack` finds one scale for the block, the smallest that holds every value, and writes it with the code of each
value; a special byte, when the slot asks for one, is the one that `quantise` finds. -/
def Obligations.BlockQuantisation : Prop :=
  ∀ (f : Fields) (s : State) (uid : Nat) (side : Side) (w : Warp), Issues (.bpack f) s uid side w →
    UsesSlot (.bpack f) f.imm.toNat s uid side w slotScaled fun fs =>
      let tp := partOf (.bpack f) w side
      let x (l : Nat) : Val := fp32.decode (operandAt 1 f w l f.a)
      let emax : Nat := match slotElem fs with | 7 => 6 | 5 => 448 | _ => 57344
      let finite : Prop := ∀ l < 32, tp.getLsbD l → ∃ n m e, x l = .num n m e
      (¬finite → Gives (.bpack f) s uid side w f.d 1 (fun _ => 0xFF00) NV) ∧
      (finite →
        let within (k : Int) : Prop := ∀ l < 32, tp.getLsbD l →
          ∀ q, q ≤ k → (∀ n m e, x l = .num n m e → q ≤ e) → ((x l).at q).natAbs ≤ emax * 2 ^ (k - q).toNat
        ∃ k : Int, -127 ≤ k ∧ k ≤ 127 ∧ within k ∧ (k = -127 ∨ ¬within (k - 1)) ∧
          let y (l : Nat) : Val := (x l).scale (-k)
          if ¬slotSpecial fs then
            let code (l : Nat) : Nat × Word := (y l).write (slotFmt fs) (slotRound fs) (slotSat fs)
            Gives (.bpack f) s uid side w f.d 1 (fun l => (127 + k).toNat * 2 ^ 8 + (code l).1)
              (orAll tp fun l => (code l).2)
          else
            let b := quantise fs ((lanesOf tp).map fun l => (l, x l))
            Gives (.bpack f) s uid side w f.d 1
              (fun l => b.special * 2 ^ 16 + (127 + k).toNat * 2 ^ 8 +
                ((b.codes.find? fun p => p.1 == l).map Prod.snd).getD 0) b.flags)

/-! ### Control and divergence (R118 to R135) -/

/-- R122. A format-C instruction makes its signature checks first: with SIGX other than 0, a SIG or a mask that does not
match kills the warp's lanes, is counted by the core, and has no other effect. -/
def Obligations.SignatureChecks : Prop :=
  ∀ (f : CFields) (s : State) (uid : Nat) (side : Side) (w : Warp),
    ∀ i ∈ [Instr.bra f, .brx f, .call f, .ret f, .fork f, .join f, .brk f, .sigchk f, .exit f],
      Issues i s uid side w → ¬SigFine w side f.sigx →
        exec i s = .next (s.sigKill w (w.slot side).pc) ∧
        ((s.sigKill w (w.slot side).pc).core w.core).sigKills = (s.core w.core).sigKills + 1 ∧
        ∀ w', (s.sigKill w (w.slot side).pc).warp? uid = some w' → w'.live = 0

/-- R123, R124. The uniform transfers, and the two instructions that go on at once. (The TRAPMASK of a `ret` that fails is
the model's choice, log entry 51.) -/
def Obligations.UniformTransfers : Prop :=
  ∀ (f : CFields) (s : State) (uid : Nat) (side : Side) (w : Warp),
    let p := w.slot side
    let am := w.active side
    let target := p.pc + 16 + f.ofs1.signExtend 64 * 16
    let pair : DWord := BitVec.ofNat 64 ((w.sreg f.sreg.toNat).toNat + 2 ^ 32 * (w.sreg (f.sreg.toNat + 1)).toNat)
    let uniform (i : Instr) (go : Prop) : Prop :=
      Issues i s uid side w → SigFine w side f.sigx →
        let tp := partOf i w side
        (tp = 0 → GoesTo i s uid side w (p.pc + 16)) ∧
        (tp ≠ 0 → tp ≠ am → exec i s = .next (s.trap w side 4 1 tp)) ∧
        (tp ≠ 0 → tp = am → go)
    let misaligned (i : Instr) : Prop := exec i s = .next (s.trapAddr w side 7 2 false pair am)
    let called (i : Instr) (pc : DWord) : Prop :=
      if 512 ≤ w.depth then exec i s = .next (s.trap w side 5 0 p.mask)
      else GoesTo i s uid side
        { w with stack := ⟨p.pc + 16, p.mask, 2, (w.lane ((lowLane p.mask).getD 0)).nc, 0⟩ :: w.stack } pc
    uniform (.bra f) (GoesTo (.bra f) s uid side w target) ∧
    uniform (.brx f) (if pair.extractLsb' 0 4 ≠ 0 then misaligned (.brx f) else GoesTo (.brx f) s uid side w pair) ∧
    uniform (.call f)
      (if f.s then (if pair.extractLsb' 0 4 ≠ 0 then misaligned (.call f) else called (.call f) pair)
        else called (.call f) target) ∧
    (NoSplit w side → uniform (.ret f)
      (match w.stack.find? fun e => e.mask &&& p.mask != 0 with
        | some e =>
          if 4 ≤ e.kind.toNat then
            exec (.ret f) s = .next (if f.sigx ≠ 0 then s.sigKill w p.pc else s.trap w side 4 2 p.mask)
          else if e.kind = 2 ∧ e.mask = p.mask then
            GoesTo (.ret f) s uid side { w with stack := w.stack.erase e } e.pc
          else exec (.ret f) s = .next (s.trap w side 4 4 am)
        | none => exec (.ret f) s = .next (s.trap w side 4 4 am))) ∧
    (Issues (.sigchk f) s uid side w → SigFine w side f.sigx → GoesTo (.sigchk f) s uid side w (p.pc + 16)) ∧
    (Issues (.nop f) s uid side w → Skips (.nop f) s uid side w)

/-- R125. `fork`: all lanes one way, or two paths under a join entry, the second in the other slot or pending. -/
def Obligations.Fork : Prop :=
  ∀ (f : CFields) (s : State) (uid : Nat) (side : Side) (w : Warp),
    Issues (.fork f) s uid side w → SigFine w side f.sigx →
      let p := w.slot side
      let q := w.slot (otherSide side)
      let nc := (w.lane ((lowLane p.mask).getD 0)).nc
      let target (ofs : BitVec 24) : DWord := p.pc + 16 + ofs.signExtend 64 * 16
      let tk := maskOf fun l => (partOf (.fork f) w side).getLsbD l && ((w.lane l).pred f.cp != f.cn)
      let ft := p.mask &&& ~~~tk
      if tk = 0 then GoesTo (.fork f) s uid side w (p.pc + 16)
      else if ft = 0 then GoesTo (.fork f) s uid side w (target f.ofs1)
      else if nc = 255 ∨ 512 < w.depth + (if q.mask = 0 then 1 else 2) then
        exec (.fork f) s = .next (s.trap w side 5 0 p.mask)
      else
        ∃ w', exec (.fork f) s = .next (s.setWarp w') ∧ (s.setWarp w').warp? uid = some w' ∧
          w'.slot side = { p with pc := p.pc + 16, mask := ft, latched := ft, sig := 0, resumed := false, wait := none,
                                  fetch := none, denied := [] } ∧
          (if q.mask = 0 then
            w'.slot (otherSide side) = { pc := target f.ofs1, mask := tk, latched := tk } ∧
              w'.stack = ⟨target f.ofs2, p.mask, 0, nc, 0⟩ :: w.stack
          else
            w'.slot (otherSide side) = q ∧
              w'.stack = ⟨target f.ofs1, tk, 3, nc + 1, 0⟩ :: ⟨target f.ofs2, p.mask, 0, nc, 0⟩ :: w.stack) ∧
          (∀ l < 32, w'.lane l =
            { w.lane l with nc := if p.mask.getLsbD l then (w.lane l).nc + 1 else (w.lane l).nc }) ∧
          OnlyPaths w w'

/-- R126, R128, R130, R132. `join` and `brk`: what the lanes leave, and where they go; the regions that this completes are
settled. A break makes its own checks first; one that passes them waits where it would cross a fault-split. (The TRAPMASK
of trap 0x04 with reason 3 is the model's choice, log entry 51.) -/
def Obligations.JoinAndBreak : Prop :=
  ∀ (f : CFields) (s : State) (uid : Nat) (side : Side) (w : Warp),
    let p := w.slot side
    let am := w.active side
    let nc := (w.lane ((lowLane p.mask).getD 0)).nc
    let gone : Warp := { w.setSlot side {} with last := side, promoted := false }
    (Issues (.join f) s uid side w → SigFine w side f.sigx → NoSplit w side →
      let bad : Prop := exec (.join f) s =
        .next (if f.sigx ≠ 0 then s.sigKill w p.pc else s.trap w side 4 2 p.mask)
      match w.stack.find? fun e => e.mask &&& p.mask != 0 with
      | none => bad
      | some e =>
        if ¬(e.kind = 0 ∧ e.pc = p.pc ∧ p.mask &&& ~~~e.mask = 0 ∧ e.depth + 1 = nc ∧ nc ≠ 0) then bad
        else
          -- The lanes of E that still run, or wait in an entry above it.
          let others := (w.slot (otherSide side)).mask ||| w.parked.foldl (fun m x => m ||| x.mask) 0 |||
            (w.stack.takeWhile (· != e)).foldl (fun m x => m ||| x.mask) 0
          if e.mask &&& others ≠ 0 then exec (.join f) s = .next (s.setWarp gone.settle)
          else ∃ v : Warp, exec (.join f) s = .next (s.setWarp v.settle) ∧
            v.slot side = { pc := e.pc + 16, mask := e.mask, latched := e.mask } ∧
            v.slot (otherSide side) = w.slot (otherSide side) ∧ v.stack = w.stack.erase e ∧ OnlyPaths w v ∧
            ∀ l < 32, v.lane l = { w.lane l with nc := if e.mask.getLsbD l then (w.lane l).nc - 1 else (w.lane l).nc }) ∧
    (Issues (.join f) s uid side w → SigFine w side f.sigx →
      ∀ e, w.topEntry p.mask = some e → e.kind = 1 →
        let q := w.slot (otherSide side)
        ((∀ t, q.wait ≠ some ⟨.split, t⟩) → exec (.join f) s = .next (s.setWarp (w.await side .split s.now))) ∧
        (∀ t, q.wait = some ⟨.split, t⟩ → q.mask &&& e.mask ≠ 0 → p.mask ||| q.mask = e.mask → q.pc ≠ p.pc →
          exec (.join f) s = .next (s.trap w side 4 5 e.mask))) ∧
    (Issues (.brk f) s uid side w → SigFine w side f.sigx →
      let b := partOf (.brk f) w side
      let n := f.n.toNat
      let holds (e : SEntry) : Bool := e.kind == 0 && b &&& ~~~e.mask == 0
      let target := p.pc + 16 + f.ofs1.signExtend 64 * 16
      let reach := reachOf b n w.stack
      if b = 0 then GoesTo (.brk f) s uid side w (p.pc + 16)
      else if reach.any fun e => 4 ≤ e.kind.toNat && e.mask &&& b != 0 then
        exec (.brk f) s = .next (if f.sigx ≠ 0 then s.sigKill w p.pc else s.trap w side 4 2 p.mask)
      else if (w.stack.filter holds).length < n ∨ reach.any fun e => e.kind == 2 && e.mask &&& b != 0 then
        exec (.brk f) s = .next (s.trap w side 4 3 am)
      else if (reach.any fun e => e.kind == 1 && e.mask &&& b != 0) ∧ (w.topEntry p.mask).any fun e => e.kind == 1 then
        (∀ t, (w.slot (otherSide side)).wait ≠ some ⟨.split, t⟩) →
          exec (.brk f) s = .next (s.setWarp (w.await side .split s.now))
      else if b ≠ p.mask ∧ 512 ≤ w.depth ∧ (w.slot (otherSide side)).mask ≠ 0 then
        exec (.brk f) s = .next (s.trap w side 5 0 p.mask)
      else ∃ v : Warp, exec (.brk f) s = .next (s.setWarp v.settle) ∧ OnlyPaths w v ∧
        (∀ l < 32, v.lane l =
          { w.lane l with nc := if b.getLsbD l then (w.lane l).nc - BitVec.ofNat 8 n else (w.lane l).nc }) ∧
        if b = p.mask then
          v.slot side = { p with pc := target, sig := 0, latched := p.mask, resumed := false, wait := none,
                                 fetch := none, denied := [] } ∧
            v.slot (otherSide side) = w.slot (otherSide side) ∧ v.stack = cutRegions b n w.stack
        else
          v.slot side = { p with pc := p.pc + 16, mask := p.mask &&& ~~~b, latched := p.mask &&& ~~~b, sig := 0,
                                 resumed := false, wait := none, fetch := none, denied := [] } ∧
            if (w.slot (otherSide side)).mask = 0 then
              v.slot (otherSide side) = { pc := target, mask := b, latched := b } ∧ v.stack = cutRegions b n w.stack
            else v.slot (otherSide side) = w.slot (otherSide side) ∧
              v.stack = ⟨target, b, 3, nc - BitVec.ofNat 8 n, 0⟩ :: cutRegions b n w.stack)

/-! ### Memory (R137 to R157) -/

/-- R143. The address checks of the global accesses, in their order, each with its trap, the address of the lowest lane
that fails and the mask of those that do; and the wait for pages that are absent on every lane. -/
def Obligations.AddressChecks : Prop :=
  ∀ (f : Fields) (s : State) (uid : Nat) (side : Side) (w : Warp),
    ∀ q ∈ [(Instr.ld f, { r := true }), (.st f, { w := true }), (.atom f, { r := true, w := true }),
        (.red f, { w := true }), (.wcmp f, ({ r := true } : Need))],
      Issues q.1 s uid side w →
        let k := bytesOf f.ty
        let tp := partOf q.1 w side
        let addr := laneAddr f w
        let tr (l : Nat) : Tr := s.translate (s.pasidOf w) (addr l) q.2
        let fails (p : Nat → Bool) : Word := maskOf fun l => tp.getLsbD l && p l
        let low (m : Word) : DWord := addr ((lowLane m).getD 0)
        let out := fails fun l => decide (2 ^ 57 ≤ (addr l).toNat)
        let odd := fails fun l => (addr l).toNat % k != 0
        let refused := fails fun l => tr l == .refused || (w.slot side).denied.any fun page => touches page (addr l) k
        let absent := fails fun l => tr l == .absent
        if out ≠ 0 then exec q.1 s = .next (s.trapAddr w side 8 0 false (low out) out)
        else if odd ≠ 0 then exec q.1 s = .next (s.trapAddr w side 7 0 false (low odd) odd)
        else if refused ≠ 0 then exec q.1 s = .next (s.trapAddr w side 8 0 true (low refused) refused)
        else tp ≠ 0 → absent = tp →
          ∃ t w' gs, exec q.1 s = .next t ∧ t.warp? uid = some w' ∧ gs ≠ [] ∧ w'.why side = some (.page gs) ∧
            (w'.slot side).pc = (w.slot side).pc ∧ w'.lanes = w.lanes ∧ w'.sregs = w.sregs ∧ w'.flags = w.flags ∧
            t.mem = s.mem ∧ ∀ r ∈ s.pageReqs, r ∈ t.pageReqs

/-- R140, R141, R143, R145, R163. A load whose lanes pass their checks and meet no uncorrectable error completes: at the home it
reads memory; at the L1 a clean line, or else memory under the core's own stores on their way, which a strong load performs
first. (Lanes at an L1 are taken to use one line, so that none makes room at the cost of another's.) A store completes and
changes no register; bytes that it does not store to are unchanged, and what it stores is in memory, or for a weak store at
the L1 on its way there. -/
def Obligations.GlobalAccesses : Prop :=
  (∀ (f : Fields) (s : State) (uid : Nat) (side : Side) (w : Warp),
     let k := bytesOf f.ty
     let tp := partOf (.ld f) w side
     let addr := laneAddr f w
     let key (l : Nat) : Nat := keyOf s w { r := true } (addr l)
     let core (l : Nat) : Nat := l1Of s w { r := true } (addr l)
     let level (l : Nat) : Level := levelOf (s.launch w.launch).lrec.fused (hbmOf s w { r := true } (addr l)) (attOf f)
     Issues (.ld f) s uid side w → Sound (.ld f) s side w { r := true } k addr →
     (∀ l < 32, tp.getLsbD l → s.isBad (lineOf (key l) * 128) 128 = false ∧
       s.badCopy (core l) (lineOf (key l)) ≠ some true) →
       ∃ (t : State) (w' : Warp) (val : Nat → Nat), exec (.ld f) s = .next t ∧ t.warp? uid = some w' ∧ Completes (.ld f) side w w' ∧
         Wrote w w' tp f.d f.ty.regs (fun l => loaded f (val l)) ∧ w'.flags = w.flags ∧ t.crews = s.crews ∧
         (f.ord = .weak → t.pends = s.pends) ∧ (∀ q ∈ t.pends, q ∈ s.pends) ∧
         (∀ a, NoPartial s a → f.ord = .weak ∨ NoPending s a → Memory.get t.mem a = Memory.get s.mem a) ∧
         ∀ l < 32, tp.getLsbD l → (∀ a, key l ≤ a → a < key l + k → NoPartial s a) →
           (isScalar f.d → ∀ m < l, tp.getLsbD m = false) →
           let got := val (if isScalar f.d then 0 else l)
           match level l with
           | .point => f.ord = .weak ∨ (∀ m < 32, tp.getLsbD m → level m = .point) → got = Memory.num s.mem (key l) k
           | .home => hbmOf s w { r := true } (addr l) → f.ord = .weak ∨ (∀ m < 32, tp.getLsbD m → level m = .home) →
               got = Memory.num s.mem (key l) k
           | .l1 => hbmOf s w { r := true } (addr l) →
             (∀ m < 32, tp.getLsbD m → level m = .l1 ∧ core m = core l ∧ lineOf (key m) = lineOf (key l)) →
             match (s.l1At (core l) (lineOf (key l))).map L1Line.st with
             | some (.clean data) => got = leNat ((List.range k).map fun j => data.getD (key l % 128 + j) 0)
             | _ => got = leNat (overlay (s.pends.filter fun q => q.core == core l) (key l) (Memory.read s.mem (key l) k))
           | .near => True) ∧
  (∀ (f : Fields) (s : State) (uid : Nat) (side : Side) (w : Warp),
     let k := bytesOf f.ty
     let tp := partOf (.st f) w side
     let addr := laneAddr f w
     let key (l : Nat) : Nat := keyOf s w { w := true } (addr l)
     let core (l : Nat) : Nat := l1Of s w { w := true } (addr l)
     let level (l : Nat) : Level := levelOf (s.launch w.launch).lrec.fused (hbmOf s w { w := true } (addr l)) (attOf f)
     Issues (.st f) s uid side w → Sound (.st f) s side w { w := true } k addr →
     (∀ l < 32, tp.getLsbD l → s.isBad (key l) k = false ∧ s.badCopy (core l) (lineOf (key l)) ≠ some true) →
       ∃ t w', exec (.st f) s = .next t ∧ t.warp? uid = some w' ∧ Completes (.st f) side w w' ∧ SameRegs w w' ∧
         w'.flags = w.flags ∧ t.crews = s.crews ∧
         (∀ a, NoPartial s a → NoPending s a → (∀ l < 32, tp.getLsbD l → Outside a (key l) k) →
           Memory.get t.mem a = Memory.get s.mem a) ∧
         (Apart tp key k → ∀ l < 32, tp.getLsbD l →
           (∀ a, key l ≤ a → a < key l + k → NoPartial s a ∧ NoPending s a) →
           if f.ord = .weak ∧ level l = .l1 then
             ∃ p ∈ t.pends, p.key = key l ∧ p.bytes = leBytes k (operand f w l f.c) ∧ p.uid = uid ∧ p.core = core l
           else Memory.num t.mem (key l) k = operand f w l f.c % 2 ^ (8 * k)))

/-- R34, R143, R145. Local memory: its checks, its loads and its stores, where no lane meets a bad line of it. -/
def Obligations.LocalMemory : Prop :=
  ∀ (f : Fields) (s : State) (uid : Nat) (side : Side) (w : Warp) (c : Crew), s.crew? w.crew = some c →
    let k := bytesOf f.ty
    let ofs := laneOfs f w
    let size := 1024 * ((s.launch w.launch).lrec.roles.map Role.kib).sum
    let checked (i : Instr) (goes : Prop) : Prop := Issues i s uid side w →
      let tp := partOf i w side
      let fails (p : Nat → Bool) : Word := maskOf fun l => tp.getLsbD l && p l
      let low (m : Word) : DWord := BitVec.ofNat 64 (ofs ((lowLane m).getD 0))
      let out := fails fun l => size ≤ ofs l
      let odd := fails fun l => ofs l % k != 0
      if out ≠ 0 then exec i s = .next (s.trapAddr w side 8 1 false (low out) out)
      else if odd ≠ 0 then exec i s = .next (s.trapAddr w side 7 1 false (low odd) odd)
      else (∀ l < 32, tp.getLsbD l → ∀ n ∈ c.locBad, overlaps (ofs l) k (n * 128) 128 = false) → goes
    checked (.ldl f) (Gives (.ldl f) s uid side w f.d f.ty.regs (fun l => loaded f (Memory.num c.loc (ofs l) k)) 0) ∧
    checked (.stl f)
      (∃ t w' c', exec (.stl f) s = .next t ∧ t.warp? uid = some w' ∧ Completes (.stl f) side w w' ∧ SameRegs w w' ∧
        w'.flags = w.flags ∧ t.mem = s.mem ∧ t.crew? w.crew = some c' ∧ { c' with loc := c.loc } = c ∧
        (∀ a, (∀ l < 32, (partOf (.stl f) w side).getLsbD l → Outside a (ofs l) k) →
          Memory.get c'.loc a = Memory.get c.loc a) ∧
        (Apart (partOf (.stl f) w side) ofs k → ∀ l < 32, (partOf (.stl f) w side).getLsbD l →
          Memory.num c'.loc (ofs l) k = operand f w l f.c % 2 ^ (8 * k))) ∧
    checked (.atoml f)
      (∃ (t : State) (w' : Warp) (c' : Crew) (val : Nat → Nat), exec (.atoml f) s = .next t ∧ t.warp? uid = some w' ∧ Completes (.atoml f) side w w' ∧
        Wrote w w' (partOf (.atoml f) w side) f.d f.ty.regs val ∧ w'.flags = w.flags ∧ t.mem = s.mem ∧
        t.crew? w.crew = some c' ∧ { c' with loc := c.loc } = c ∧
        (∀ a, (∀ l < 32, (partOf (.atoml f) w side).getLsbD l → Outside a (ofs l) k) →
          Memory.get c'.loc a = Memory.get c.loc a) ∧
        (Apart (partOf (.atoml f) w side) ofs k → ∀ l < 32, (partOf (.atoml f) w side).getLsbD l →
          val l = Memory.num c.loc (ofs l) k ∧
          Memory.num c'.loc (ofs l) k = atomNew f (val l) (operand f w l f.c) (operand f w l f.e)))

/-- R140, R144, R146, R147, R149. An `atom` whose lanes pass their checks reads the old value and leaves the new one; a
`red` of one lane is seen when its line's partials are combined. -/
def Obligations.Atomics : Prop :=
  ∀ (f : Fields) (s : State) (uid : Nat) (side : Side) (w : Warp),
    let k := bytesOf f.ty
    let addr := laneAddr f w
    (let n : Need := { r := true, w := true }
     let tp := partOf (.atom f) w side
     let key (l : Nat) : Nat := keyOf s w n (addr l)
     Issues (.atom f) s uid side w → Sound (.atom f) s side w n k addr →
     (∀ l < 32, tp.getLsbD l → s.isBad (key l) k = false) →
      ∃ (t : State) (w' : Warp) (val : Nat → Nat), exec (.atom f) s = .next t ∧ t.warp? uid = some w' ∧ Completes (.atom f) side w w' ∧
        Wrote w w' tp f.d f.ty.regs val ∧ w'.flags = w.flags ∧ t.crews = s.crews ∧
        (∀ a, NoPartial s a → NoPending s a → (∀ l < 32, tp.getLsbD l → Outside a (key l) k) →
          Memory.get t.mem a = Memory.get s.mem a) ∧
        (Apart tp key k → ∀ l < 32, tp.getLsbD l → Quiet s (key l) k →
          ∀ p, s.translate (s.pasidOf w) (addr l) n = .ok p → p.hbm ∨ (p.sysatom ∧ f.scope = .sys) →
            val l = Memory.num s.mem (key l) k ∧
            Memory.num t.mem (key l) k = atomNew f (val l) (operand f w l f.c) (operand f w l f.e))) ∧
    (let n : Need := { w := true }
     let tp := partOf (.red f) w side
     let key (l : Nat) : Nat := keyOf s w n (addr l)
     Issues (.red f) s uid side w → Sound (.red f) s side w n k addr →
     (∀ l < 32, tp.getLsbD l → hbmOf s w n (addr l) = false → s.isBad (key l) k = false) →
      ∃ t w', exec (.red f) s = .next t ∧ t.warp? uid = some w' ∧ Completes (.red f) side w w' ∧ SameRegs w w' ∧
        w'.flags = w.flags ∧ t.crews = s.crews ∧
        (∀ a, NoPartial s a → NoPending s a → (∀ l < 32, tp.getLsbD l → Outside a (key l) k) →
          Memory.get t.mem a = Memory.get s.mem a) ∧
        ∀ l p, l < 32 → tp = bitOf l → s.translate (s.pasidOf w) (addr l) n = .ok p → p.hbm → isFloat f.ty = false →
          s.isBad p.key k = false → Quiet s p.key k →
          (∀ c x, s.l1At c (lineOf p.key) = some x → ∃ d, x.st = .clean d) →
          Memory.num (t.collect p.key k).mem p.key k =
            combine (ropOf f) f.ty (Memory.num s.mem p.key k) (operand f w l f.c))

/-- R150, R155 to R157. Fences, prefetches and cache control change no register and no byte of memory that nothing on
its way covers. A fence that orders class L performs the warp's weak stores at their homes; a discarded line is gone from
the L1. -/
def Obligations.FencesAndCaches : Prop :=
  ∀ (f : Fields) (s : State) (uid : Nat) (side : Side) (w : Warp),
    let fused := (s.launch w.launch).lrec.fused
    let runs (i : Instr) (and : State → Prop) : Prop := Issues i s uid side w →
      ∃ t w', exec i s = .next t ∧ t.warp? uid = some w' ∧ Completes i side w w' ∧ SameRegs w w' ∧ w'.flags = w.flags ∧
        t.crews = s.crews ∧ (∀ a, NoPartial s a → NoPending s a → Memory.get t.mem a = Memory.get s.mem a) ∧ and t
    -- On a fused cluster `.clu` reaches only the homes of system memory (R140).
    let reaches (key : Nat) : Prop := f.scope = .dev ∨ f.scope = .sys ∨ (f.scope = .clu ∧ (fused = false ∨ hostBase ≤ key))
    let lineAt (l : Nat) (p : Loc) : Prop :=
      inSpace (laneAddr f w l) ∧ s.translate (s.pasidOf w) (laneAddr f w l) { r := true } = .ok p ∧
        s.isBad (lineOf p.key * 128) 128 = false
    runs (.fence f) (fun t =>
      (partOf (.fence f) w side ≠ 0 → f.imm.getLsbD 0 → ∀ p ∈ t.pends, p.uid = uid → ¬reaches p.key) ∧
      (partOf (.fence f) w side = 0 → t.pends = s.pends ∧ t.mem = s.mem)) ∧
    runs (.prefetch f) (fun t => t.pends = s.pends) ∧
    runs (.cachectlInv f) (fun t => t.pends = s.pends ∧
      ∀ l < 32, (partOf (.cachectlInv f) w side).getLsbD l → ∀ p, lineAt l p →
        t.l1At (l1CoreOf fused w.core p.pa) (lineOf p.key) = none) ∧
    runs (.cachectlSetev f) (fun t => t.pends = s.pends ∧
      ∀ l < 32, (partOf (.cachectlSetev f) w side).getLsbD l → ∀ p, lineAt l p →
        -- Of several lines made evict-last, one of a full set may lose the class to another (R340).
        ∀ c, evpClass f.evp = some c → c ≠ .last ∨ partOf (.cachectlSetev f) w side = bitOf l →
          (∀ x, t.l1At (l1CoreOf fused w.core p.pa) (lineOf p.key) = some x → x.cls = c) ∧
            ∀ x, t.l2At p.unit (lineOf p.key) false = some x → x.cls = c) ∧
    runs (.cachectlInvall f) (fun t => t.pends = s.pends ∧
      (partOf (.cachectlInvall f) w side ≠ 0 →
        ∀ k ∈ l1sOf fused w.core, ∀ x ∈ (t.core k).l1, x.pasid ≠ s.pasidOf w))

/-- R152, R153. `wcmp` completes when the comparison holds on every lane; else its slot waits, with a monitor entry on
the line of each lane that waits. A write to the line is seen; the lane whose entry has seen one, or that polls, looks
again. -/
def Obligations.MonitorWaits : Prop :=
  ∀ (f : Fields) (s : State) (uid : Nat) (side : Side) (w : Warp),
    let k := bytesOf f.ty
    let n : Need := { r := true }
    let tp := partOf (.wcmp f) w side
    let addr := laneAddr f w
    let el := f.ty.elem
    let mask (l : Nat) : Nat := if f.e = .none then 2 ^ el - 1 else operand f w l f.e
    let holds (l v : Nat) : Bool :=
      let a := toInt el f.ty.signed (v &&& mask l)
      let b := toInt el f.ty.signed (operand f w l f.c &&& mask l)
      match f.subBits 4 2 with
      | 0 => a == b
      | 1 => a != b
      | 2 => decide (a < b)
      | _ => decide (b ≤ a)
    (Issues (.wcmp f) s uid side w → Sound (.wcmp f) s side w n k addr → s.monitors.length ≤ 4000 →
      (∀ l < 32, tp.getLsbD l → ∀ p, s.translate (s.pasidOf w) (addr l) n = .ok p →
        (p.hbm ∨ f.scope = .sys) ∧ s.isBad (lineOf p.key * 128) 128 = false ∧ ∀ a, p.key ≤ a → a < p.key + k → NoPartial s a) →
      let val (l : Nat) : Nat := Memory.num s.mem (keyOf s w n (addr l)) k
      ((∀ l < 32, tp.getLsbD l → holds l (val l)) →
        ∃ t w', exec (.wcmp f) s = .next t ∧ t.warp? uid = some w' ∧ Completes (.wcmp f) side w w' ∧
          Wrote w w' tp f.d f.ty.regs val ∧ w'.flags = w.flags ∧ t.crews = s.crews ∧
          ∀ a, NoPartial s a → Memory.get t.mem a = Memory.get s.mem a) ∧
      ((∃ l < 32, tp.getLsbD l ∧ holds l (val l) = false) →
        ∃ t w' done polls, exec (.wcmp f) s = .next t ∧ t.warp? uid = some w' ∧
          w'.why side = some (.monitor f done polls) ∧ (w'.slot side).pc = (w.slot side).pc ∧
          w'.lanes = w.lanes ∧ w'.sregs = w.sregs ∧
          ∀ l < 32, tp.getLsbD l → holds l (val l) = false → ∃ m ∈ t.monitors,
            m.who = .lane uid side l ∧ m.line = lineOf (keyOf s w n (addr l)))) ∧
    (∀ key bs, ∀ m ∈ s.monitors, m.line * 128 < key + bs.length → key < m.line * 128 + 128 → 0 < bs.length →
      { m with hit := true } ∈ (s.put key bs).monitors) ∧
    -- One lane that waits looks again, by a wake or by a poll, and finds that its comparison holds.
    ∀ l < 32, ∀ polls p, s.warp? uid = some w → w.why side = some (.monitor f [] polls) →
      w.takesPart side f.g1 f.g2 = bitOf l → s.translate (s.pasidOf w) (addr l) n = .ok p → p.hbm → f.ord ≠ .weak →
      (f.scope = .dev ∨ f.scope = .sys) → s.isBad (lineOf p.key * 128) 128 = false → (∀ a, p.key ≤ a → a < p.key + k → NoPartial s a) →
      holds l (Memory.num s.mem p.key k) →
      let ends (i : Instr) : Prop :=
        ∃ t w', exec i s = .next t ∧ t.warp? uid = some w' ∧ (w'.slot side).wait = none ∧
          (w'.slot side).pc = (w.slot side).pc + 16 ∧
          Wrote w w' (bitOf l) f.d f.ty.regs (fun _ => Memory.num s.mem p.key k)
      (s.hits uid side = bitOf l → ends (.monitorWake uid side)) ∧
      (polls = bitOf l → ends (.monitorPoll uid side))

/-- R131. A load whose page is absent on some lanes completes on the others and splits: a KIND 1 entry over the slot's
mask, the nesting counter raised, and the lanes parked at the load until their pages are there. -/
def Obligations.FaultSplits : Prop :=
  ∀ (f : Fields) (s : State) (uid : Nat) (side : Side) (w : Warp),
    let k := bytesOf f.ty
    let n : Need := { r := true }
    let tp := partOf (.ld f) w side
    let addr := laneAddr f w
    let p := w.slot side
    let nc := (w.lane ((lowLane p.mask).getD 0)).nc
    let tr (l : Nat) : Tr := s.translate (s.pasidOf w) (addr l) n
    let absent := maskOf fun l => tp.getLsbD l && tr l == .absent
    Issues (.ld f) s uid side w → isScalar f.d = false → p.denied = [] →
    (∀ l < 32, tp.getLsbD l → (addr l).toNat + k ≤ 2 ^ 57 ∧ (addr l).toNat % k = 0 ∧
      (tr l = .absent ∨ ∃ q, tr l = .ok q ∧ s.isBad (lineOf q.key * 128) 128 = false ∧
        s.badCopy (l1Of s w n (addr l)) (lineOf q.key) ≠ some true)) →
    absent ≠ 0 → absent ≠ tp →
      if nc = 255 ∨ 512 ≤ w.depth then exec (.ld f) s = .next (s.trap w side 5 0 p.mask)
      else ∃ (t : State) (v w₁ : Warp) (val : Nat → Nat) (gs : List Nat),
        exec (.ld f) s = .next (t.setWarp v.settle) ∧ gs ≠ [] ∧
        -- The load on the lanes whose page is there.
        Completes (.ld f) side w w₁ ∧ Wrote w w₁ (tp &&& ~~~absent) f.d f.ty.regs val ∧
        -- The split.
        v.stack = ⟨p.pc, p.mask, 1, nc, absent⟩ :: w₁.stack ∧ v.parked = w₁.parked ++ [⟨p.pc, absent, gs, []⟩] ∧
        v.slot side = { w₁.slot side with
          mask := (w₁.slot side).mask &&& ~~~absent, latched := (w₁.slot side).latched &&& ~~~absent } ∧
        v.slot (otherSide side) = w.slot (otherSide side) ∧ v.sregs = w₁.sregs ∧ v.flags = w₁.flags ∧
        ∀ l < 32, v.lane l = { w₁.lane l with
          nc := if p.mask.getLsbD l then (w₁.lane l).nc + 1 else (w₁.lane l).nc }

/-! ### Across lanes, teams and rendezvous (R172 to R196) -/

/-- R174 to R178. Reading a neighbour or a chosen lane: the trap for a source that does not take part, DEADREAD and 0 for a
dead one, and the edges; reductions, scans and votes over the lanes that take part. -/
def Obligations.CrossLane : Prop :=
  (∀ (f : Fields) (s : State) (uid : Nat) (side : Side) (w : Warp), NoSplit w side →
     let z := f.sub.getLsbD 2
     let term : Int := match f.subBits 3 2 with | 0 => 0 | 1 => 8 | 2 => 16 | _ => 32
     let reads (i : Instr) (src : Nat → Option Nat) (edge : Nat → Nat) : Prop := Issues i s uid side w →
       let tp := partOf i w side
       let dead (m : Nat) : Bool := (w.lane m).st == .dead
       let absent (l m : Nat) : Bool := src l == some m && !tp.getLsbD m && !dead m && !z
       let readers := maskOf fun l => tp.getLsbD l && (List.range 32).any (absent l)
       let sources := maskOf fun m => (List.range 32).any fun l => tp.getLsbD l && absent l m
       let ofDead := maskOf fun l => tp.getLsbD l && (List.range 32).any fun m => src l == some m && !tp.getLsbD m && dead m
       if readers ≠ 0 then exec i s = .next (s.trap w side 6 (readers.setWidth 64) sources)
       else Gives i s uid side w f.d f.ty.regs
         (fun l => match src l with
           | some m => if tp.getLsbD m then operand f w m f.a else 0
           | none => edge l)
         (if ofDead = 0 then 0 else DEADREAD)
     let inside (j : Int) : Option Nat := if 0 ≤ j ∧ j < 32 then some j.toNat else none
     reads (.nbr f)
       (fun l =>
         let j : Int := l + (toInt 32 true (operandAt 1 f w l f.b) + term)
         if f.subBits 0 2 = 1 then inside (j % 32) else inside j)
       (fun l => if f.subBits 0 2 = 0 then 0 else operand f w l f.c) ∧
     reads (.xsh f)
       (fun l =>
         let b := operandAt 1 f w l f.b + term.toNat
         inside (if f.subBits 0 2 = 0 then b else l ^^^ b : Nat))
       (fun _ => 0)) ∧
  (∀ (f : Fields) (s : State) (uid : Nat) (side : Side) (w : Warp), NoSplit w side →
     let vals (ls : List Nat) : List Nat := ls.map fun l => operand f w l f.a
     (Issues (.lred f) s uid side w →
       let tp := partOf (.lred f) w side
       ∃ r, Combines (f.subBits 0 3) f.ty (vals (lanesOf tp)) r ∧
         Gives (.lred f) s uid side w f.d f.ty.regs (fun _ => r.1) (if tp = 0 then 0 else r.2)) ∧
     (Issues (.lscan f) s uid side w →
       let tp := partOf (.lscan f) w side
       ∃ r : Nat → Nat × Word,
         (∀ l < 32, Combines (f.subBits 0 3) f.ty
           (vals ((lanesOf tp).filter fun j => if f.sub.getLsbD 3 then decide (j < l) else decide (j ≤ l))) (r l)) ∧
         Gives (.lscan f) s uid side w f.d f.ty.regs (fun l => (r l).1) (orAll tp fun l => (r l).2)) ∧
     (Issues (.vote f) s uid side w →
       let tp := partOf (.vote f) w side
       let yes (l : Nat) : Bool := tp.getLsbD l && operandAt 1 f w l f.a != 0
       let no (l : Nat) : Bool := tp.getLsbD l && !yes l
       let lanes := List.range 32
       let bit (b : Bool) : Nat := if b then 1 else 0
       Gives (.vote f) s uid side w f.d 1
         (fun _ => match f.subBits 0 3 with
           | 0 => bit (!lanes.any no)
           | 1 => bit (lanes.any yes)
           | 2 => bit (!lanes.any no || !lanes.any yes)
           | 3 => (maskOf yes).toNat
           | 4 => (lanes.filter yes).length
           | _ => (lanes.find? yes).getD 0xFFFFFFFF) 0))

/-- R179 to R181. `regroup`: its own check; the wait for the others; and at the last arrival the threads moved, those
with the predicate first, or with tags that differ a trap of every participant. -/
def Obligations.Regroup : Prop :=
  ∀ (f : Fields) (s : State) (uid : Nat) (side : Side) (w : Warp),
    Issues (.regroup f) s uid side w → NoSplit w side → side = .port → (s.warps.map Warp.uid).Nodup →
    if w.star.mask ≠ 0 ∨ w.stack ≠ [] then exec (.regroup f) s = .next (s.trap w side 4 6 (w.active side))
    else
      let here := s.setWarp (w.await .port (.regroup f) s.now)
      let ws := here.groupOf w
      let tags := ws.filterMap fun y => y.arrived.map Fields.imm
      (ws.any (fun y => y.arrived.isNone) → exec (.regroup f) s = .next here) ∧
      (ws.all (fun y => y.arrived.isSome) → (∃ a ∈ tags, ∃ b ∈ tags, a ≠ b) →
        exec (.regroup f) s = .next (ws.foldl (fun s y => s.trap y .port 4 7 y.port.mask) here)) ∧
      (ws.all (fun y => y.arrived.isSome) → (∀ a ∈ tags, ∀ b ∈ tags, a = b) →
        ∃ t, exec (.regroup f) s = .next t ∧
          ∀ (k : Nat) (p q : Nat × Nat × Lane), (keyed ws true ++ keyed ws false)[k]? = some p → (lanesWhere ws fun _ x => x.st != .dead)[k]? = some q →
            ∃ y, t.warp? q.1 = some y ∧ y.lane q.2.1 = p.2.2 ∧ (y.slot .port).mask = y.live ∧
              y.live.getLsbD q.2.1 = true)

/-- R192. What joins, arrivals, leaves and turns do to an initialised point. -/
def Obligations.PhaseAccounting : Prop :=
  ∀ (p : Point) (tid : Word), p.init = true →
    let open_ (q : Point) : Prop := ¬(0 < q.x ∧ (q.a : Int) = q.x)
    let same (q : Point) : Prop := q.init = true ∧ q.p = p.p ∧ q.bw = p.bw
    -- A change that completes no phase.
    (p.x = 0 ∧ p.a = 0 → same (p.join tid) ∧ (p.join tid).x = 1 ∧ (p.join tid).state tid = .due) ∧
    (¬(p.x = 0 ∧ p.a = 0) → open_ p →
      same (p.join tid) ∧ (p.join tid).x = p.x ∧ (p.join tid).j = p.j + 1 ∧ (p.join tid).state tid = .new) ∧
    (p.state tid = .due → (p.a : Int) + 1 ≠ p.x → ∃ q, p.arrive tid = some (q, p.p) ∧ same q ∧ q.a = p.a + 1 ∧
      q.x = p.x ∧ q.j = p.j ∧ q.y = p.y ∧ q.state tid = .arrived) ∧
    (p.state tid = .new → open_ p → ∃ q, p.arrive tid = some (q, p.p + 1) ∧ same q ∧ q.y = p.y + 1 ∧ q.a = p.a ∧
      q.state tid = .early) ∧
    (p.state tid = .arrived ∨ p.state tid = .early → p.arrive tid = none) ∧
    (∀ death, p.state tid = .due → (p.a : Int) ≠ p.x - 1 →
      same (p.leave tid death) ∧ (p.leave tid death).x = p.x - 1 ∧ (p.leave tid death).b = (p.b || death)) ∧
    (∀ death, p.state tid = .arrived → open_ p →
      same (p.leave tid death) ∧ (p.leave tid death).a = p.a ∧ (p.leave tid death).j = p.j - 1) ∧
    (∀ death, p.state tid = .new → open_ p →
      same (p.leave tid death) ∧ (p.leave tid death).y = p.y ∧ (p.leave tid death).j = p.j - 1) ∧
    (∀ death, p.state tid = .early → open_ p →
      same (p.leave tid death) ∧ (p.leave tid death).y = p.y - 1 ∧ (p.leave tid death).j = p.j - 1) ∧
    -- The arrival that completes a phase.
    (p.state tid = .due → (p.a : Int) + 1 = p.x → ¬(0 < p.x + p.j ∧ (p.y : Int) = p.x + p.j) →
      ∃ q, p.arrive tid = some (q, p.p) ∧ q.p = p.p + 1 ∧ q.bw = (p.bw <<< 1 ||| if p.b then 1 else 0) ∧ q.b = false ∧
        q.x = p.x + p.j ∧ q.j = 0 ∧ q.a = p.y ∧ q.y = 0 ∧ q.state tid = .due ∧
        ∀ u, u ≠ tid → q.state u = if p.state u = .early then .arrived else .due)

/-- R185, R187 to R189, R194. Teams: their checks, and records made, joined, left, freed and read. -/
def Obligations.Teams : Prop :=
  ∀ (f : Fields) (s : State) (uid : Nat) (side : Side) (w : Warp),
    let pasid := s.pasidOf w
    let k := f.subBits 0 2
    let h (l : Nat) : Word := BitVec.ofNat 32 (operandAt 1 f w l f.a)
    let mine (l : Nat) : Word := (w.lane l).team k
    let tid (l : Nat) : Word := (w.lane l).tid
    let team (s : State) (h : Word) : Team := s.team pasid (h.toNat % 2 ^ 16)
    -- In use, and of the handle's generation; a handle has bit 31 clear.
    let valid (s : State) (h : Word) : Prop := (team s h).used ∧ h.toNat / 2 ^ 16 = (team s h).gen.toNat
    let naming (tp : Word) (i : Nat) : List Nat := (lanesOf tp).filter fun l => (h l).toNat % 2 ^ 16 == i
    let ends (i : Instr) (and : State → Warp → Prop) : Prop :=
      ∃ t w', exec i s = .next t ∧ t.warp? uid = some w' ∧ Completes i side w w' ∧ w'.sregs = w.sregs ∧
        w'.flags = w.flags ∧ t.crews = s.crews ∧ and t w'
    (Issues (.tnew f) s uid side w →
      ∃ (t : State) (w' : Warp) (val : Nat → Nat), exec (.tnew f) s = .next t ∧ t.warp? uid = some w' ∧
        Completes (.tnew f) side w w' ∧ Wrote w w' (partOf (.tnew f) w side) f.d 1 val ∧ w'.flags = w.flags ∧
        t.mem = s.mem ∧
        ∀ l < 32, (partOf (.tnew f) w side).getLsbD l → (isScalar f.d → ∀ m < l, (partOf (.tnew f) w side).getLsbD m = false) →
          let v := BitVec.ofNat 32 (val (if isScalar f.d then 0 else l))
          if v = 0xFFFFFFFF then ∀ i < 65536, (t.team pasid i).used
          else valid t v ∧ ¬(team s v).used ∧ (team t v).members = [] ∧ (team t v).points = [] ∧
            (team t v).gen = (team s v).gen) ∧
    (Issues (.tjoin f) s uid side w →
      let tp := partOf (.tjoin f) w side
      TeamChecks (.tjoin f) s side w
        (fun l =>
          if ¬(valid s (h l)) then some 3
          else if mine l ≠ 0xFFFFFFFF ∨ tid l ∈ (team s (h l)).members then some 9
          else if 2 ^ 20 ≤ (team s (h l)).members.length + ((lanesOf tp).filter fun m => m < l && h m == h l).length then
            some 10
          else none)
        (ends (.tjoin f) fun t w' =>
          t.mem = s.mem ∧ (∀ i, t.team pasid i = (naming tp i).foldl (fun x l => x.join (tid l)) (s.team pasid i)) ∧
          ∀ l < 32, w'.lane l = if tp.getLsbD l then (w.lane l).setTeam k (h l) else w.lane l)) ∧
    (Issues (.tleave f) s uid side w →
      let tp := partOf (.tleave f) w side
      TeamChecks (.tleave f) s side w (fun l => if mine l = 0xFFFFFFFF then some 4 else none)
        (ends (.tleave f) fun t w' =>
          (∀ i, t.team pasid i =
            ((lanesOf tp).filter fun l => s.validHandle pasid (mine l) && (mine l).toNat % 2 ^ 16 == i).foldl
              (fun x l => x.leave (tid l) false) (s.team pasid i)) ∧
          (∀ l < 32, w'.lane l = if tp.getLsbD l then (w.lane l).setTeam k 0xFFFFFFFF else w.lane l) ∧
          ∀ a, NoPartial s a → NoPending s a → Memory.get t.mem a = Memory.get s.mem a)) ∧
    (Issues (.tfree f) s uid side w →
      let tp := partOf (.tfree f) w side
      TeamChecks (.tfree f) s side w
        (fun l => if ¬(valid s (h l)) then some 3 else if (team s (h l)).members ≠ [] then some 2 else none)
        (ends (.tfree f) fun t w' =>
          t.mem = s.mem ∧ (∀ l < 32, w'.lane l = w.lane l) ∧
          ∀ i, t.team pasid i = if naming tp i = [] then s.team pasid i else { gen := (s.team pasid i).gen + 1 })) ∧
    (Issues (.tinfo f) s uid side w →
      let pt (l : Nat) : Nat := operandAt 1 f w l f.a
      let point (l : Nat) : Point := (team s (mine l)).point (pt l)
      TeamChecks (.tinfo f) s side w
        (fun l => if mine l = 0xFFFFFFFF then some 4 else if f.subBits 2 2 ≠ 0 ∧ 23 < pt l then some 7 else none)
        (Gives (.tinfo f) s uid side w f.d 2
          (fun l => match f.subBits 2 2 with
            | 0 => (team s (mine l)).members.length +
                (match (team s (mine l)).members.find? fun u => s.threadLive pasid u with
                  | some u => (u.toNat % 2 ^ 31) * 2 ^ 32 + 2 ^ 63
                  | none => 0)
            | 1 => ((point l).x % 2 ^ 21).toNat + (point l).a * 2 ^ 32 + (if (point l).init then 2 ^ 53 else 0)
            | _ => (point l).p.toNat + (point l).bw.toNat * 2 ^ 32) 0))

/-- R187, R191, R193, R195, R196. Points initialised, arrived at and waited for. -/
def Obligations.Rendezvous : Prop :=
  ∀ (f : Fields) (s : State) (uid : Nat) (side : Side) (w : Warp),
    let pasid := s.pasidOf w
    let h (l : Nat) : Word := (w.lane l).team (f.subBits 0 2)
    let pt (l : Nat) : Nat := operandAt 1 f w l f.a
    let tid (l : Nat) : Word := (w.lane l).tid
    let point (s : State) (l : Nat) : Point := (s.team pasid ((h l).toNat % 2 ^ 16)).point (pt l)
    let common (l : Nat) : Option Nat := if h l = 0xFFFFFFFF then some 4 else if 23 < pt l then some 7 else none
    let entered (arrives : Bool) (l : Nat) : Option Nat :=
      if h l = 0xFFFFFFFF then some 4 else if 23 < pt l then some 7 else if (point s l).init = false then some 6
      else if arrives ∧ ((point s l).state (tid l) = .arrived ∨ (point s l).state (tid l) = .early) then some 5 else none
    let bit (p : Point) (ph : Word) : Bool := (p.p - ph).toNat ≤ 32 && p.bw.getLsbD ((p.p - ph).toNat - 1)
    let isOver (p : Point) (ph : Word) : Prop := 1 ≤ (p.p - ph).toNat ∧ (p.p - ph).toNat ≤ 2 ^ 31
    (Issues (.rzinit f) s uid side w →
      let n (l : Nat) : Nat := operandAt 1 f w l f.b
      TeamChecks (.rzinit f) s side w
        (fun l => match common l with
          | some r => some r
          | none =>
            if ¬((point s l).a = 0 ∧ (point s l).y = 0) then some 1
            else if n l = 0 ∨ 2 ^ 20 < n l then some 8 else none)
        (∃ t w', exec (.rzinit f) s = .next t ∧ t.warp? uid = some w' ∧ Completes (.rzinit f) side w w' ∧ SameRegs w w' ∧
          w'.flags = w.flags ∧ t.mem = s.mem ∧
          ∀ l < 32, (partOf (.rzinit f) w side).getLsbD l →
            (∀ m, l < m → m < 32 → (partOf (.rzinit f) w side).getLsbD m → (h m).toNat % 2 ^ 16 ≠ (h l).toNat % 2 ^ 16 ∨ pt m ≠ pt l) →
            point t l = { point s l with init := true, x := n l, j := 0, b := false, st := [] })) ∧
    (Issues (.rzarr f) s uid side w →
      let tp := partOf (.rzarr f) w side
      TeamChecks (.rzarr f) s side w (entered true)
        (∃ (t : State) (w' : Warp) (val : Nat → Nat), exec (.rzarr f) s = .next t ∧ t.warp? uid = some w' ∧
          Completes (.rzarr f) side w w' ∧ Wrote w w' tp f.d 1 val ∧ w'.flags = w.flags ∧
          (tp ≠ 0 → ∀ p ∈ t.pends, p.uid ≠ uid) ∧
          (∀ a, NoPartial s a → NoPending s a → Memory.get t.mem a = Memory.get s.mem a) ∧
          ∀ l < 32, tp = bitOf l → (point s l).arrive (tid l) = some (point t l, BitVec.ofNat 32 (val l)))) ∧
    (Issues (.rzwait f) s uid side w → NoSplit w side → (w.slot side).wait = none →
      let tp := partOf (.rzwait f) w side
      let ph (l : Nat) : Word := BitVec.ofNat 32 (operandAt 1 f w l f.b)
      TeamChecks (.rzwait f) s side w (entered false)
        (((∀ l < 32, tp.getLsbD l → isOver (point s l) (ph l)) →
          Gives (.rzwait f) s uid side w f.d 1 (fun l => if bit (point s l) (ph l) then 1 else 0) 0) ∧
        ((∃ l < 32, tp.getLsbD l ∧ ¬isOver (point s l) (ph l)) →
          ∃ waits bits, exec (.rzwait f) s = .next (s.setWarp (w.await side (.rendezvous waits bits) s.now)) ∧
            ∀ l < 32, tp.getLsbD l → ¬isOver (point s l) (ph l) → ⟨l, h l, pt l, ph l⟩ ∈ waits))) ∧
    (Issues (.rzaw f) s uid side w → NoSplit w side → (w.slot side).wait = none →
      let tp := partOf (.rzaw f) w side
      TeamChecks (.rzaw f) s side w (entered true)
        (∀ l < 32, tp = bitOf l → ∀ q ph, (point s l).arrive (tid l) = some (q, ph) →
          ∃ t w', exec (.rzaw f) s = .next t ∧ t.warp? uid = some w' ∧ point t l = q ∧ (∀ p ∈ t.pends, p.uid ≠ uid) ∧
            (isOver q ph → Completes (.rzaw f) side w w' ∧
              Wrote w w' tp f.d 1 (fun _ => if bit q ph then 1 else 0)) ∧
            (¬isOver q ph → w'.lanes = w.lanes ∧ (w'.slot side).pc = (w.slot side).pc ∧
              w'.why side = some (.rendezvous [⟨l, h l, pt l, ph⟩] []))))

/-! ### Items and flows (R198 to R212) -/

/-- R129, R199, R201 to R205, R207, R208. `exit` and `iend` end the threads of the lanes that take part: the lanes become
vacant and leave every mask, the others go on. `inext` does the same and fills the vacant lanes; a warp at the packer
starts again when a fill places a lane, and retires when no item can come. What the packer takes next for a lane: granted
held items, then the ring's next item, by its class. -/
def Obligations.ItemEndsAndTakes : Prop :=
  (∀ (s : State) (uid : Nat) (side : Side) (w : Warp),
     let item : Bool := (s.launch w.launch).lrec.item
     let p := w.slot side
     let ended (i : Instr) : Prop :=
       let tp := partOf i w side
       ∃ t, exec i s = .next t ∧
         (w.active side &&& ~~~tp ≠ 0 → ∃ w', t.warp? uid = some w' ∧ (w'.slot side).pc = p.pc + 16 ∧
           (w'.slot side).mask = p.mask &&& ~~~tp ∧ w'.sregs = w.sregs ∧
           ∀ l < 32, (w'.lane l).v = (w.lane l).v ∧ (w'.lane l).p = (w.lane l).p ∧
             (w'.lane l).st = if tp.getLsbD l then .vacant else (w.lane l).st) ∧
         (w.live = tp → item = false → t.warp? uid = none) ∧
         (w.live = tp → item = true → ∃ w', t.warp? uid = some w' ∧ w'.live = 0 ∧ w'.why .port = some .packer)
     (∀ f : CFields, Issues (.exit f) s uid side w → SigFine w side f.sigx → NoSplit w side →
       if partOf (.exit f) w side = 0 then GoesTo (.exit f) s uid side w (p.pc + 16) else ended (.exit f)) ∧
     (∀ f : Fields, Issues (.iend f) s uid side w →
       if partOf (.iend f) w side = 0 then Skips (.iend f) s uid side w
       else if item = false then exec (.iend f) s = .next (s.trapField w side (.iend f) .op (partOf (.iend f) w side))
       else ended (.iend f)) ∧
     (∀ f : Fields, Issues (.inext f) s uid side w → p.wait = none →
       let tp := partOf (.inext f) w side
       if tp = 0 then Skips (.inext f) s uid side w
       else if item = false then exec (.inext f) s = .next (s.trapField w side (.inext f) .op tp)
       else
         let gone := s.endThreads w p.pc tp
         ∀ w₁, gone.warp? uid = some w₁ →
           let vacated := (gone.dropMonitors uid tp).setWarp (w₁.mapLanes tp fun _ y => { y with st := .vacant })
           let nc := (w.lane ((lowLane p.mask).getD 0)).nc
           let r := vacated.fill uid nc
           -- Threads of replayed items start at the role entry instead (R214).
           let joined := r.placed &&& ~~~r.again
           joined ≠ 0 → r.s.warp? uid ≠ none →
             ∃ t w', exec (.inext f) s = .next t ∧ t.warp? uid = some w' ∧ (w'.slot side).pc = p.pc + 16 ∧
               (∀ l < 32, joined.getLsbD l → (w'.slot side).mask.getLsbD l = true) ∧ (w'.slot side).sig = 0 ∧
               (∀ d, f.d = .s d → w'.sreg d.toNat = BitVec.ofNat 32 (countOf r.placed)) ∧
               (r.again ≠ 0 → (w.slot (otherSide side)).mask = 0 → w'.slot (otherSide side) =
                 { pc := (r.s.launch w.launch).entry, mask := r.again, latched := r.again })) ∧
     (s.warp? uid = some w → w.why .port = some .packer → w.live = 0 →
       let r := s.fill uid 0
       ∀ y l, r.s.warp? uid = some y → r.s.launch? y.launch = some l →
         ∃ t, exec (.warpRestart uid) s = .next t ∧
           (r.placed ≠ 0 → ∃ w', t.warp? uid = some w' ∧ w'.star.mask = 0 ∧ w'.stack = [] ∧ w'.sregs = [] ∧
             w'.flags = 0 ∧ w'.rmode = 0 ∧ w'.mqp = [] ∧ w'.handler = none ∧ w'.lanes = y.lanes ∧
             w'.port = { pc := l.lrec.code + ((l.lrec.roles.head?.map Role.entry).getD 0).setWidth 64, mask := r.placed,
                         latched := r.placed }) ∧
           (r.placed = 0 → r.s.itemsDone l = true → t.warp? uid = none))) ∧
  (∀ (s : State) (l : Launch) (tid : Word) (fuel : Nat), s.launch? l.uid = some l →
     (∀ h, readyHeld l.held = some h → h.cls = 0 →
       State.nextItem l.uid tid (fuel + 1) s = (s.dropHeld l.uid h.iid, some (h.taken h.iseq
         (match h.st with | .granted fb _ => fb | .replayed fb _ => fb | _ => false)))) ∧
     (∀ (r : Ring) (bs : List Byte) (s' : State), l.held = [] → s.ringAt l.pasid l.lrec.ring = some r → r.t ≠ r.w →
       s.ctxRead l.pasid (l.lrec.ring + 64 + BitVec.ofNat 64 (32 * (r.t % 2 ^ r.n))) 32 = some (s', bs) →
       let num (o k : Nat) : Nat := leNat ((bs.drop o).take k)
       num 4 1 < 8 → num 4 1 % 4 = 0 → num 5 3 = 0 → num 16 16 = 0 →
         ∃ t, State.nextItem l.uid tid (fuel + 1) s =
             (t, some { flow := BitVec.ofNat 32 (num 0 4), cls := 0, replay := l.lrec.replay || (num 4 1).testBit 2,
                        pay := BitVec.ofNat 64 (num 8 8), iid := l.nextIid, iseq := 0,
                        arrival := (s'.ctxWrite l.pasid (l.lrec.ring + 8) (leBytes 8 (r.t + 1))).now, fb := false }) ∧
           t.mem = (s'.ctxWrite l.pasid (l.lrec.ring + 8) (leBytes 8 (r.t + 1))).mem) ∧
     (∀ (h : Held) (fb : Bool), h.cls = 1 → (s.flow l.pasid h.flow).fb = fb →
       (s.takeItem l h tid).2 = some (h.taken (s.flow l.pasid h.flow).assign fb)) ∧
     (∀ (h : Held), h.cls = 2 → (s.flow l.pasid h.flow).owner = 0xFFFFFFFF →
       (s.takeItem l h tid).2 = some (h.taken 0 (s.flow l.pasid h.flow).fb)) ∧
     (∀ (h : Held), h.cls = 2 → (s.flow l.pasid h.flow).owner ≠ 0xFFFFFFFF →
       (s.takeItem l h tid).2 = none ∧
         ((s.takeItem l h tid).1.flow l.pasid h.flow).waiters = (s.flow l.pasid h.flow).waiters ++ [.held l.uid h.iid]) ∧
     (∀ (x : Lane) (t : Taken) (nc : Byte), t.cls ≤ 2 →
       let y := x.load t tid nc
       y.st = .live ∧ y.tid = tid ∧ y.nc = nc ∧ y.iflow = t.flow ∧ y.iseq = t.iseq ∧ y.iid = t.iid ∧ y.ipay = t.pay ∧
         y.iclass = BitVec.ofNat 32 (t.cls + if t.fb then 8 else 0) ∧ y.heir = 0 ∧ y.inher = 0 ∧ y.teams = [] ∧
         y.v = x.v ∧ y.p = x.p))

/-- R206, R209, R211, R212. `irel`, `relabel`, `iflowq` and `ispawn`, each with what one lane's own does. -/
def Obligations.Flows : Prop :=
  ∀ (f : Fields) (s : State) (uid : Nat) (side : Side) (w : Warp),
    let pasid := s.pasidOf w
    let y (l : Nat) : Lane := w.lane l
    let flow (l : Nat) : Word := BitVec.ofNat 32 (operandAt 1 f w l f.a)
    let len := 16 * (f.sub.toNat % 4 + 1)
    let goes (i : Instr) (and : State → Warp → Prop) : Prop :=
      ∃ t w', exec i s = .next t ∧ t.warp? uid = some w' ∧ (w'.slot side).pc = (w.slot side).pc + 16 ∧
        (w'.slot side).wait = none ∧ w'.sregs = w.sregs ∧ w'.flags = w.flags ∧ and t w'
    -- `irel` of the head's record: a lane that is not class O, or whose slot is discharged, traps.
    (Issues (.irel f) s uid side w → (w.slot side).wait = none → (w.slot side).denied = [] →
      let tp := partOf (.irel f) w side
      let bad := maskOf fun l => tp.getLsbD l && !s.slotOpen pasid (y l)
      (bad ≠ 0 → exec (.irel f) s = .next (s.trapField w side (.irel f) .op bad)) ∧
      ∀ l < 32, tp = bitOf l → bad = 0 →
        let addr : DWord := BitVec.ofNat 64 (operandAt 2 f w l f.a)
        let fl := s.flow pasid (y l).iflow
        ∀ q, s.translate pasid addr { r := true, w := true } = .ok q → addr.toNat % 16 = 0 →
          addr.toNat + len ≤ 2 ^ 57 → addr.toNat % 4096 + len ≤ 4096 →
          (fl.release = (y l).iseq ∨ s.buffered (s.flowHome pasid (y l).iflow) < 8192) →
            goes (.irel f) fun t w' =>
              (w'.lane l).posted = true ∧ (w'.lane l).v = (y l).v ∧ (w'.lane l).p = (y l).p ∧
              (fl.release = (y l).iseq → fl.recs = [] → s.isBad q.key len = false →
                Memory.read t.mem q.key len = leBytes len (operandAt (len / 4) f w l f.c))) ∧
    -- `relabel` to the label that the lane has, and of an unordered lane to class O.
    (Issues (.relabel f) s uid side w → (w.slot side).wait = none →
      ∀ l < 32, partOf (.relabel f) w side = bitOf l → s.threadLane pasid (y l).tid = some (y l) →
        let cls := f.sub.toNat % 4
        flow l = (y l).iflow → cls = ((y l).iclass.extractLsb' 0 2).toNat →
        (cls = 2 → ∀ m < 32, m ≠ l → (w.lane m).st = .live → (s.flow pasid (flow l)).owner ≠ (w.lane m).tid) →
        cls ≠ 1 →
          goes (.relabel f) fun t w' => t.ctxs = s.ctxs ∧ Wrote w w' (bitOf l) f.d 1 (fun _ => 1)) ∧
    (Issues (.relabel f) s uid side w → (w.slot side).wait = none →
      ∀ l < 32, partOf (.relabel f) w side = bitOf l → s.threadLane pasid (y l).tid = some (y l) →
        f.sub.toNat % 4 = 1 → (y l).iclass.extractLsb' 0 2 = 0 → s.flowRoom pasid (flow l) = true →
          goes (.relabel f) fun _ w' =>
            (w'.lane l).iflow = flow l ∧ (w'.lane l).iclass.extractLsb' 0 2 = 1 ∧
            (w'.lane l).iseq = (s.flow pasid (flow l)).assign ∧
            ∀ n : BitVec 4, f.d = .p n → n ≠ 15 → (w'.lane l).pred n = true) ∧
    -- `iflowq` without `.clr`.
    (Issues (.iflowq f) s uid side w → f.sub.getLsbD 0 = false →
      let tp := partOf (.iflowq f) w side
      let word (l : Nat) : Nat :=
        let fl := s.flow pasid (flow l)
        fl.release.toNat + min fl.waiters.length (2 ^ 24 - 1) * 2 ^ 32 + (if fl.owner ≠ 0xFFFFFFFF then 2 ^ 62 else 0) +
          (if fl.fb then 2 ^ 63 else 0)
      ∃ val : Nat → Nat, Gives (.iflowq f) s uid side w f.d 2 val 0 ∧
        ∀ l < 32, tp.getLsbD l → (isScalar f.d → ∀ m < l, tp.getLsbD m = false) →
          val (if isScalar f.d then 0 else l) = word l) ∧
    -- `ispawn`: one lane's item goes to its ring, if that takes it.
    (Issues (.ispawn f) s uid side w → (w.slot side).denied = [] →
      ∀ l < 32, partOf (.ispawn f) w side = bitOf l →
        let hdr : DWord := BitVec.ofNat 64 (operandAt 2 f w l f.a)
        let drained := (s.cacheRun pasid hdr 64).drainWarp uid
        let n : Need := { r := true, w := true }
        ∀ q r, s.translate pasid hdr n = .ok q → hdr.toNat % 64 = 0 → hdr.toNat + 64 ≤ 2 ^ 57 → s.isBad q.key 64 = false →
          s.ringAt pasid hdr = some r → drained.ringAt pasid hdr = some r →
          if ¬r.devfed ∨ r.closed ∨ 2 ^ r.n ≤ r.w - r.t then
            goes (.ispawn f) fun t w' => Wrote w w' (bitOf l) f.d 1 (fun _ => 0) ∧ t.mem = drained.mem
          else
            let slot := hdr + 64 + BitVec.ofNat 64 (32 * (r.w % 2 ^ r.n))
            let bytes := leBytes 4 (operandAt 1 f w l f.b) ++ leBytes 4 (f.sub.toNat % 8) ++
              leBytes 8 (operandAt 2 f w l f.c) ++ leBytes 16 0
            let drained := ((s.cacheRun pasid hdr 64).cacheRun pasid slot 32).drainWarp uid
            ∀ q', s.translate pasid slot n = .ok q' → s.isBad q'.key 32 = false → drained.ringAt pasid hdr = some r →
              goes (.ispawn f) fun t w' => Wrote w w' (bitOf l) f.d 1 (fun _ => 1) ∧
                t.mem = ((drained.ctxWrite pasid slot bytes).ctxWrite pasid hdr (leBytes 8 (r.w + 1))).mem)

/-! ### Holdings and the estate (R219 to R239) -/

/-- R225 to R228, R230 to R232, R239. Locks and promises taken and given up, heirs named, entries read, lanes that die: the
checks of each, which trap the lanes that fail them; then the instruction completes on every lane that takes part, with
what each leaves in the estate, in memory and in its registers. -/
def Obligations.Holdings : Prop :=
  ∀ (f : Fields) (s : State) (uid : Nat) (side : Side) (w : Warp),
    let pasid := s.pasidOf w
    let need : Need := { r := true, w := true }
    let tid (l : Nat) : Word := (w.lane l).tid
    let obj (l : Nat) : DWord := BitVec.ofNat 64 (operandAt 2 f w l f.a)
    let heir (l : Nat) : Word := if f.b = .none then (w.lane l).heir else BitVec.ofNat 32 (operandAt 1 f w l f.b)
    let heirOk (l : Nat) : Bool := decide ((heir l).toNat < 0x80010000) || heir l == 0xFFFFFFFF
    let room : Prop := (s.ctx pasid).reserved < (s.ctx pasid).freeEntries.length
    let tableSize := 2 ^ (s.ctx pasid).crec.estateLog
    let held (kind : BitVec 4) (l : Nat) : Option Nat := s.holding pasid (tid l) kind (obj l)
    -- The object of every lane that takes part passes the checks of R143 and is good.
    let sound (i : Instr) (k : Nat) : Prop :=
      Issues i s uid side w ∧ Sound i s side w need k obj ∧
        ∀ l < 32, (partOf i w side).getLsbD l → s.isBad (keyOf s w need (obj l)) k = false
    -- R225: lanes that fail trap, and no lane has any effect.
    let checked (i : Instr) (ok : Nat → Bool) (goes : Prop) : Prop :=
      let bad := maskOf fun l => (partOf i w side).getLsbD l && !ok l
      (bad ≠ 0 → exec i s = .next (s.trapField w side i .op bad)) ∧ (bad = 0 → goes)
    let ends (i : Instr) (and : State → Warp → Prop) : Prop :=
      ∃ t w', exec i s = .next t ∧ t.warp? uid = some w' ∧ Completes i side w w' ∧ w'.flags = w.flags ∧
        OnlyMemory s t uid pasid ∧ and t w'
    let answers (i : Instr) (and : State → (Nat → Nat) → Prop) : Prop :=
      ends i fun t w' => ∃ val : Nat → Nat, (∀ l, val l ≤ 1) ∧ Wrote w w' (partOf i w side) f.d 1 val ∧ and t val
    -- One lane acts on an object in device memory that nothing on its way meets.
    let alone (i : Instr) (k l : Nat) (p : Loc) : Prop :=
      l < 32 ∧ partOf i w side = bitOf l ∧ s.translate pasid (obj l) need = .ok p ∧ p.hbm = true ∧ Quiet s p.key k
    -- Every entry but one is as it was, save FORWARD entries that nothing names any more.
    let others (t : State) (p : Nat → Prop) : Prop :=
      ∀ j, p j → t.entry pasid j = s.entry pasid j ∨ ((s.entry pasid j).kind = 5 ∧ t.entry pasid j = {})
    let made (t : State) (l : Nat) (kind : BitVec 4) : Prop :=
      ∃ idx < tableSize, (s.entry pasid idx).kind = 0 ∧ others t (· ≠ idx) ∧
        t.entry pasid idx =
          { object := obj l, holder := tid l, heir := heir l, from_ := 0xFFFFFFFF, kind := kind, time := s.time }
    let discharged (t : State) (idx : Nat) : Prop :=
      others t (· ≠ idx) ∧ t.entry pasid idx =
        if (s.entry pasid idx).unack then { s.entry pasid idx with state := 2 } else {}
    -- The object word is `v`, and no other byte has changed but those of the table; of a table that is mapped elsewhere.
    let stored (t : State) (key k v : Nat) : Prop :=
      Steady s pasid (fun a => ¬Outside a key k ∨ InEstate s pasid a ∨ ¬NoPending s a) →
      (∀ a, InEstate s pasid a → Outside a key k) →
        Memory.num t.mem key k = v % 2 ^ (8 * k) ∧
        ∀ a, NoPartial s a → NoPending s a → Outside a key k → ¬InEstate s pasid a → Memory.get t.mem a = Memory.get s.mem a
    let kept (t : State) : Prop :=
      Steady s pasid (InEstate s pasid) →
        ∀ a, NoPartial s a → ¬InEstate s pasid a → Memory.get t.mem a = Memory.get s.mem a
    let unmoved (t : State) : Prop := t.ctxs = s.ctxs ∧ ∀ a, NoPartial s a → Memory.get t.mem a = Memory.get s.mem a
    (sound (.hlock f) 4 → checked (.hlock f) heirOk (answers (.hlock f) fun t val =>
      ∀ l p, alone (.hlock f) 4 l p →
        let old := Memory.num s.mem p.key 4
        if room ∧ old % 2 ^ 31 = 0 then val l = 1 ∧ made t l 1 ∧ stored t p.key 4 (old + (tid l).toNat + 1)
        else val l = 0 ∧ unmoved t)) ∧
    (sound (.promise f) 8 → checked (.promise f) heirOk (answers (.promise f) fun t val =>
      ∀ l p, alone (.promise f) 8 l p →
        let old := Memory.num s.mem p.key 8
        let named := ∃ j < (s.ctx pasid).estate.length, (s.entry pasid j).kind = 2 ∧ (s.entry pasid j).object = obj l ∧
          ((s.entry pasid j).state = 0 ∨ (s.entry pasid j).state = 1)
        (room → ¬named → old.testBit 62 = false → val l = 1 ∧ made t l 2 ∧ stored t p.key 8 old) ∧
        (¬room ∨ named ∨ old.testBit 62 = true → val l = 0 ∧ unmoved t))) ∧
    (sound (.hunlock f) 4 → checked (.hunlock f) (fun l => (held 1 l).isSome) (ends (.hunlock f) fun t w' =>
      SameRegs w w' ∧ ∀ l p idx, alone (.hunlock f) 4 l p → held 1 l = some idx →
        discharged t idx ∧ (Memory.num s.mem p.key 4 % 2 ^ 31 = (tid l).toNat + 1 → stored t p.key 4 0))) ∧
    (sound (.fulfil f) 8 → checked (.fulfil f) (fun l => (held 2 l).isSome) (ends (.fulfil f) fun t w' =>
      SameRegs w w' ∧ ∀ l p idx, alone (.fulfil f) 8 l p → held 2 l = some idx →
        let old := Memory.num s.mem p.key 8
        discharged t idx ∧ (old.testBit 62 = false →
          stored t p.key 8 (old / 2 ^ 63 * 2 ^ 63 + 2 ^ 62 + operandAt 2 f w l f.c % 2 ^ 62)))) ∧
    -- What the update of an object word leaves in memory.
    (∀ (p : Loc) (k : Nat) (new : Nat → Option Nat), p.hbm = true → Quiet s p.key k → 0 < k →
      let r := s.update p k new
      r.2 = new (Memory.num s.mem p.key k) ∧
      (∀ a, NoPartial s a → Outside a p.key k → Memory.get r.1.mem a = Memory.get s.mem a) ∧
      Memory.num r.1.mem p.key k =
        match new (Memory.num s.mem p.key k) with
        | some v => v % 2 ^ (8 * k)
        | none => Memory.num s.mem p.key k) ∧
    (Issues (.heir f) s uid side w →
      let idx (l : Nat) : Nat := operandAt 1 f w l f.a
      let tp := partOf (.heir f) w side
      checked (.heir f) (fun l => decide (idx l < tableSize) && (s.entry pasid (idx l)).heldBy (tid l) && heirOk l)
        (ends (.heir f) fun t w' =>
          SameRegs w w' ∧ kept t ∧ others t (fun j => ∀ l < 32, tp.getLsbD l → idx l ≠ j) ∧
          ∀ l < 32, tp.getLsbD l → (∀ m < 32, tp.getLsbD m → m ≠ l → idx m ≠ idx l) →
            t.entry pasid (idx l) = { s.entry pasid (idx l) with heir := heir l })) ∧
    (∀ i ∈ [Instr.estqLo f, .estqHi f], Issues i s uid side w →
      let idx (l : Nat) : Nat := operandAt 1 f w l f.a
      let half (e : Entry) : Nat :=
        if i = .estqLo f then e.object.toNat + e.holder.toNat * 2 ^ 64 + e.heir.toNat * 2 ^ 96
        else e.from_.toNat + (e.kind.toNat + e.state.toNat * 16 + (if e.brv then 128 else 0) +
          (if e.unack then 256 else 0) + (if e.sys then 512 else 0)) * 2 ^ 32 + e.time.toNat * 2 ^ 64
      checked i (fun l => decide (idx l < tableSize))
        (Gives i s uid side w f.d 4 (fun l => half (s.entry pasid (idx l))) 0)) ∧
    (Issues (.estqFind f) s uid side w →
      let kind (l : Nat) : Nat := operandAt 1 f w l f.b
      let fits (l : Nat) (e : Entry) : Prop :=
        e.kind.toNat = kind l ∧ e.object.toNat = operandAt 2 f w l f.a ∧ e.state ≠ 2
      checked (.estqFind f) (fun l => decide (1 ≤ kind l ∧ kind l ≤ 4))
        (∃ val : Nat → Nat, Gives (.estqFind f) s uid side w f.d 1 val 0 ∧
          ∀ m < 32, (partOf (.estqFind f) w side).getLsbD m →
            (val m = 0xFFFFFFFF ∧ ∀ j < (s.ctx pasid).estate.length, ¬fits m (s.entry pasid j)) ∨
              fits m (s.entry pasid (val m)))) ∧
    (Issues (.die f) s uid side w →
      let p := w.slot side
      let tp := partOf (.die f) w side
      (tp = 0 → Skips (.die f) s uid side w) ∧
      (tp ≠ 0 → ∃ t, exec (.die f) s = .next t ∧ kept t ∧
        (∃ d ∈ (t.ctx pasid).deaths, d.dead.map Dead.tid = (lanesOf tp).map tid ∧ d.reset = none) ∧
        (w.live = tp → (s.launch w.launch).lrec.item = false → t.warp? uid = none) ∧
        (∀ w', t.warp? uid = some w' →
          ∀ m < 32, { w'.lane m with st := (w.lane m).st, nc := (w.lane m).nc } = w.lane m ∧
            (w'.lane m).st = if tp.getLsbD m then .dead else (w.lane m).st) ∧
        (w.active side &&& ~~~tp ≠ 0 → ∃ w', t.warp? uid = some w' ∧ (w'.slot side).pc = p.pc + 16 ∧
          (w'.slot side).mask = p.mask &&& ~~~tp ∧ w'.sregs = w.sregs ∧ w'.flags = w.flags)))

/-- R229, R230, R233 to R239. What a conveyance does to the object word and to the entry, by the heir; `convey` and
`bereft` of one lane; and the conveyance of a death event, holding by holding. -/
def Obligations.Conveyances : Prop :=
  -- The object words of R237: a lock, a promise, and one that no longer matches its entry (R239).
  (∀ (holder t : Word) (old : Nat), holder ≠ 0x7FFFFFFF → holder.toNat < 0x7FFFFFFE → t.toNat < 0x7FFFFFFE →
    old < 2 ^ 32 → old % 2 ^ 31 = holder.toNat + 1 →
      newWord 1 holder true (.live t) old = some (0x80000000 + t.toNat + 1) ∧
      newWord 1 holder true .void old = some 0x80000000 ∧ newWord 1 holder true .custody old = some 0xFFFFFFFF ∧
      newWord 1 holder false .void old = some (old / 2 ^ 31 * 2 ^ 31)) ∧
  (∀ (holder : Word) (h : Heir) (death : Bool) (old : Nat), holder.toNat < 0x7FFFFFFE → old % 2 ^ 31 ≠ holder.toNat + 1 →
    newWord 1 holder death h old = none) ∧
  (∀ (holder t : Word) (old : Nat), old < 2 ^ 62 →
    newWord 2 holder true (.live t) old = some (2 ^ 63 + old) ∧ newWord 2 holder true .void old = some (2 ^ 63 + 2 ^ 62) ∧
      newWord 2 holder true .custody old = some (2 ^ 63 + old)) ∧
  (∀ (holder : Word) (h : Heir) (death : Bool) (old : Nat), old.testBit 62 = true → newWord 2 holder death h old = none) ∧
  -- Heirs (R235).
  (∀ (s : State) (pasid hops : Nat) (gone : List Word) (t : Word),
    s.resolve pasid gone hops 0xFFFFFFFF = .void ∧ s.resolve pasid gone hops 0 = .custody ∧
    (t ≠ 0 → t ∈ gone → t ≠ 0xFFFFFFFF → s.resolve pasid gone hops t = .void) ∧
    (t ≠ 0 → t ∉ gone → t.toNat < 2 ^ 31 → s.threadLive pasid t = true → s.resolve pasid gone hops t = .live t) ∧
    (t ≠ 0 → t ∉ gone → t.toNat < 2 ^ 31 → s.threadLive pasid t = false →
      (s.findEntry pasid fun e => e.kind == 5 && e.holder == t) = none → s.resolve pasid gone hops t = .custody)) ∧
  -- The entry that passes, and its heir (R223, R230, R237).
  (∀ (s : State) (pasid idx : Nat) (e : Entry) (g : Giver) (t : Word) (y : Lane), 1 ≤ e.kind.toNat → e.kind.toNat ≤ 4 →
    s.threadLane pasid t = some y →
    (s.passEntry pasid idx e g (.live t)).entry pasid idx =
      { e with from_ := g.from_, brv := e.brv || g.death, time := s.time, holder := t, unack := true, state := 0,
               heir := if e.kind.toNat ≤ 2 then y.heir else 0xFFFFFFFF } ∧
    (s.passEntry pasid idx e g .custody).entry pasid idx =
      { e with from_ := g.from_, brv := e.brv || g.death, time := s.time, holder := 0x7FFFFFFF, unack := true,
               state := 1 } ∧
    (g.death = true → (s.passEntry pasid idx e g .void).entry pasid idx = {})) ∧
  -- `convey` and `bereft` of one lane.
  (∀ (f : Fields) (s : State) (uid : Nat) (side : Side) (w : Warp) (l : Nat), l < 32 →
    let pasid := s.pasidOf w
    let tid := (w.lane l).tid
    let custodian := (s.launch w.launch).lrec.custodian
    let idx := operandAt 1 f w l f.a
    let e := s.entry pasid idx
    let heir : Word := BitVec.ofNat 32 (operandAt 1 f w l f.b)
    let mine : Prop := e.heldBy tid = true ∨ (custodian = true ∧ e.inCustody = true)
    (Issues (.convey f) s uid side w → partOf (.convey f) w side = bitOf l →
      if 2 ^ (s.ctx pasid).crec.estateLog ≤ idx ∨ ¬mine ∨ heir = 0 ∨ (0x80010000 ≤ heir.toNat ∧ heir ≠ 0xFFFFFFFF) then
        exec (.convey f) s = .next (s.trapField w side (.convey f) .op (bitOf l))
      else
        let d := s.drainWarp uid
        let g : Giver := { tid := tid, from_ := if e.heldBy tid then tid else e.from_, death := false,
                           queue := s.queueOf w, core := w.core, pc := (w.slot side).pc }
        let h := d.resolve pasid [] 8 heir
        let goes (and : State → Prop) : Prop :=
          ∃ t w', exec (.convey f) s = .next t ∧ t.warp? uid = some w' ∧ (w'.slot side).pc = (w.slot side).pc + 16 ∧
            w'.sregs = w.sregs ∧ w'.flags = w.flags ∧ and t
        (3 ≤ e.kind.toNat → goes fun t => t.ctxs = (d.conveyTo pasid idx g h none).1.ctxs) ∧
        -- A lock or a promise, whose word matches its entry or does not.
        (e.kind.toNat < 3 → (w.slot side).denied = [] → ∀ p : Loc,
          let k := if e.kind = 1 then 4 else 8
          s.run pasid e.object k { r := true, w := true } = .ok [(p, k)] → p.hbm = true → s.isBad p.key k = false →
          Quiet s p.key k → goes fun t =>
            match newWord e.kind e.holder false h (Memory.num s.mem p.key k) with
            | none => t.entry pasid idx = if e.unack then { e with state := 2 } else {}
            | some _ => match h with
              | .live u => (t.entry pasid idx).holder = u ∧ (t.entry pasid idx).state = 0 ∧ (t.entry pasid idx).unack = true ∧
                  (t.entry pasid idx).from_ = g.from_ ∧ (t.entry pasid idx).brv = e.brv
              | .custody => t.entry pasid idx =
                  { e with from_ := g.from_, time := s.time, holder := 0x7FFFFFFF, unack := true, state := 1 }
              | .void => t.entry pasid idx =
                  if e.unack then { e with from_ := g.from_, time := s.time, state := 2 } else {})) ∧
    (∀ i ∈ [Instr.bereft f, .bereftCust f], Issues i s uid side w → partOf i w side = bitOf l →
      let cust := i = .bereftCust f
      if cust ∧ custodian = false then exec i s = .next (s.trapField w side i .op (bitOf l))
      else
        let got (v : Nat) (t : State) (w' : Warp) : Prop :=
          exec i s = .next t ∧ t.warp? uid = some w' ∧ (w'.slot side).pc = (w.slot side).pc + 16 ∧ w'.sregs = w.sregs ∧
            ∀ d : BitVec 8, f.d = .v d → ∀ j < 4, d.toNat + j < 255 →
              (w'.lane l).reg (d.toNat + j) = BitVec.ofNat 32 (v / 2 ^ (32 * j))
        match s.oldestRecord pasid (if cust then 0x7FFFFFFF else tid) with
        | none => ∃ t w', got 0 t w' ∧ t.ctxs = s.ctxs
        | some j =>
          let r := s.entry pasid j
          ∃ t w', got (2 ^ 31 + (if r.state = 1 then 2 ^ 26 else 0) + (if r.state = 2 then 2 ^ 25 else 0) +
              (if r.brv then 2 ^ 24 else 0) + r.kind.toNat * 2 ^ 20 + j % 2 ^ 20 + r.from_.toNat * 2 ^ 32 +
              r.time.toNat * 2 ^ 64) t w' ∧
            (r.kind ≠ 5 → t.entry pasid j = if r.state = 2 then {} else { r with unack := false }))) ∧
  -- CONVEYANCE: the deceased's accesses, then one holding after another, then the event's end (R236).
  (∀ (s : State) (pasid : Nat),
    ((s.ctx pasid).deaths = [] → exec (.conveyance pasid) s = .next s) ∧
    ∀ d rest, (s.ctx pasid).deaths = d :: rest → d.groups = [] →
      (d.fenced = false → ∃ t, exec (.conveyance pasid) s = .next t ∧
        (t.ctx pasid).deaths = { d with fenced := true } :: rest ∧ ∀ x ∈ d.dead, ∀ p ∈ t.pends, p.uid ≠ x.uid) ∧
      (d.fenced = true → s.nextHolding pasid (d.dead.map Dead.tid) = none →
        ∃ t, exec (.conveyance pasid) s = .next t ∧ (t.ctx pasid).deaths = rest) ∧
      (d.fenced = true → ∀ idx e x, s.nextHolding pasid (d.dead.map Dead.tid) = some (idx, e) → 3 ≤ e.kind.toNat →
        (d.dead.find? fun y => y.tid == e.holder) = some x →
          let s' := s.setCtx { s.ctx pasid with deaths := { d with denied := false } :: rest }
          exec (.conveyance pasid) s = .next (s'.conveyTo pasid idx
            { tid := x.tid, from_ := x.tid, death := true, queue := x.queue, core := x.core, pc := x.pc }
            (s.resolve pasid (if d.reset.isSome then d.dead.map Dead.tid else []) 8 e.heir) none).1))

/-! ### The matrix unit (R245 to R270) -/

/-- R249 to R254, R258. `mma`: its checks; every quarter that takes part accumulates its rows on its tile, each element
exactly and rounded once; a page that is not present stops a quarter before its row. -/
def Obligations.MatrixMultiply : Prop :=
  ∀ (f : Fields) (s : State) (uid : Nat) (side : Side) (w : Warp) (c : Crew),
    Issues (.mma f) s uid side w → s.crew? w.crew = some c → Steady s (s.pasidOf w) (fun _ => False) →
    let i := Instr.mma f
    let tp := partOf i w side
    let pasid := s.pasidOf w
    let slot (n : Nat) : DWord := tget 0 (s.launch w.launch).lrec.fslots n
    let sa := f.imm.toNat % 8
    let sb := f.imm.toNat / 8 % 8
    let fa := slot sa
    let fb := slot sb
    let size (n : Nat) : Nat := if n = 0 then 64 else n
    let rows := size (f.imm.toNat / 2 ^ 8 % 256)
    let cols := size (f.imm.toNat / 2 ^ 16 % 256)
    let slotTrap (info : Nat) : Prop := exec i s = .next (s.trap w side 0x0E (BitVec.ofNat 64 info) tp)
    (tp = 0 → Skips i s uid side w) ∧
    (tp ≠ 0 → ∀ r, slotFault fa = some r → slotTrap (sa + r * 16)) ∧
    (tp ≠ 0 → slotFault fa = none → ∀ r, slotFault fb = some r → slotTrap (sb + 8 + r * 16)) ∧
    (tp ≠ 0 → slotFault fa = none → slotFault fb = none → mmaShape fa fb = none → slotTrap (sb + 8 + 4 * 16)) ∧
    ∀ k kind, tp ≠ 0 → slotFault fa = none → slotFault fb = none → mmaShape fa fb = some (k, kind) →
      let lanes (q : Nat) : Word := tp &&& (0xFF#32 <<< (8 * q))
      let lo (q : Nat) : Nat := (lowLane (lanes q)).getD 0
      let a (q : Nat) : Nat := operandAt 4 f w (lo q) f.a
      let b (q : Nat) : Nat := operandAt 4 f w (lo q) f.b
      let tile (q : Nat) : Nat := tileNo f.d + (if f.imm.getLsbD 6 then a q / 2 ^ 96 % 16 else 0)
      let row (x i : Nat) : DWord := BitVec.ofNat 64 x + BitVec.ofNat 64 (i * (x / 2 ^ 64 % 2 ^ 32))
      let r0 (q : Nat) : Nat := if (w.mqpAt q).getLsbD 0 then (w.mqpAt q).toNat / 2 % 128 else 0
      let fits (q : Nat) : Bool :=
        decide (tile q < c.nT) && (c.tile (tile q)).kind == kind &&
          (kind != .f64 || (tile q % 2 == 0 && decide (tile q + 1 < c.nT)))
      let lined (x : Nat) (fs : DWord) : Prop :=
        (BitVec.ofNat 64 x).toNat % rowAlign fs = 0 ∧ x / 2 ^ 64 % 2 ^ 32 % rowAlign fs = 0
      let reach (va : DWord) (fs : DWord) (ps : List (Loc × Nat)) : Prop :=
        Reach s pasid va (rowBytes fs k) 1 { r := true } ps
      let wrong := maskOf fun l => tp.getLsbD l && !fits (l / 8)
      (wrong ≠ 0 → exec i s = .next (s.trapField w side i .d wrong)) ∧
      (wrong = 0 → (w.slot side).denied = [] → (∀ q < 4, lanes q ≠ 0 → c.badTile (tile q) = false) →
        ∀ pa pb : Nat → Nat → List (Loc × Nat), (∀ q < 4, lanes q ≠ 0 → lined (a q) fa ∧ lined (b q) fb ∧ (∀ j < cols, reach (row (b q) j) fb (pb q j)) ∧
          ∀ r, r0 q ≤ r → r < rows → reach (row (a q) r) fa (pa q r)) →
        ∃ t w' c', exec i s = .next t ∧ t.warp? uid = some w' ∧ t.crew? w.crew = some c' ∧
          Completes i side w { w' with mqp := w.mqp } ∧ SameRegs w w' ∧ { c' with tiles := c.tiles } = c ∧
          (∀ x, NoPartial s x → Memory.get t.mem x = Memory.get s.mem x) ∧
          (∀ q < 4, w'.mqpAt q = if lanes q = 0 then w.mqpAt q else 0) ∧
          (∀ u, (∀ q < 4, lanes q ≠ 0 → u ≠ tile q ∧ (kind = .f64 → u ≠ tile q + 1)) → c'.tile u = c.tile u) ∧
          ∀ q < 4, lanes q ≠ 0 →
            let was := (c.tile (tile q)).wide
            let wide := was || ((slotWide fa || slotWide fb) && kind != .i32)
            let fm := tileFmt kind wide
            let old (i j : Nat) : Nat :=
              if wide && !was then widenCode (tileFmt kind false) fm (c.code (tile q) i j) else c.code (tile q) i j
            let bytes (p : Nat → Nat → List (Loc × Nat)) (n : Nat) : List Byte := runBytes s.mem (p q n)
            let new (i j : Nat) : Nat × Word :=
              if kind = .i32 then
                (((((intRow fa k (bytes pa i)).zip (intRow fb k (bytes pb j))).map fun (p : Int × Int) => p.1 * p.2).sum +
                  (old i j : Int)) % (2 ^ 32 : Nat) |>.toNat, 0)
              else (fmaRaw ((slotRow fa k (bytes pa i)).zip (slotRow fb k (bytes pb j))) [fm.decode (old i j)] .rne).write
                fm .rne false
            ((∀ p < 4, p ≠ q → lanes p ≠ 0 → tile p ≠ tile q) →
              (c'.tile (tile q)).kind = kind ∧ (c'.tile (tile q)).wide = wide ∧
              (c'.tile (tile q)).mask = (c.tile (tile q)).mask ∧
              ∀ i < 64, ∀ j < 64, c'.code (tile q) i j =
                if r0 q ≤ i ∧ i < rows ∧ j < cols then (new i j).1 else old i j) ∧
            ((∀ p < 4, p ≠ q → lanes p = 0) →
              w'.flags = w.flags ||| ((List.range rows).filter fun i => decide (r0 q ≤ i)).foldl (fun fl i =>
                (List.range cols).foldl (fun fl j => fl ||| (new i j).2) fl) 0)) ∧
      (wrong = 0 → (w.slot side).denied = [] → ∀ q < 4, tp = lanes q → c.badTile (tile q) = false → ∀ (pa pb : Nat → List (Loc × Nat)) (r : Nat) (va : DWord),
        lined (a q) fa → lined (b q) fb → (∀ j < cols, reach (row (b q) j) fb (pb j)) → r0 q ≤ r → r < rows →
        (∀ n, r0 q ≤ n → n < r → reach (row (a q) n) fa (pa n)) →
        (∀ n, r0 q ≤ n → n < rows → (row (a q) n).toNat + rowBytes fa k ≤ 2 ^ 57) →
        (∀ n, r ≤ n → n < rows → ∀ x p, s.run pasid (row (a q) n) (rowBytes fa k) { r := true } ≠ .bad x .pending ∧
          s.run pasid (row (a q) n) (rowBytes fa k) { r := true } ≠ .bad x (.stalled p)) →
        s.run pasid (row (a q) r) (rowBytes fa k) { r := true } = .bad va .absent →
          ∃ t w' gs since, exec i s = .next t ∧ t.warp? uid = some w' ∧
            w'.mqpAt q = (va &&& ~~~(0x1FF#64)) ||| BitVec.ofNat 64 (r * 2 + 1) ∧
            w'.slot side = { w.slot side with wait := some ⟨.page gs, since⟩, fetch := none } ∧ SameRegs w w')

/-- R262 to R269. The instructions that fill, load, store, move, mask and reduce tiles. An element that is read out is
the tile's code, rounded to the tile's normal format if the tile is wide, or the fill value if it is masked. -/
def Obligations.MatrixTiles : Prop :=
  (∀ (c : Crew) (t i j : Nat),
    let x := c.tile t
    c.readout t i j true = (fillCode x.kind x.mask, 0) ∧
    (x.wide = false ∨ x.kind = .i32 → c.readout t i j false = (c.code t i j, 0)) ∧
    (x.wide = true → x.kind ≠ .i32 →
      c.readout t i j false = ((tileFmt x.kind true).decode (c.code t i j)).write (tileFmt x.kind false) .rne false)) ∧
  ∀ (f : Fields) (s : State) (uid : Nat) (side : Side) (w : Warp) (c : Crew), s.crew? w.crew = some c →
    let pasid := s.pasidOf w
    let size (n : Nat) : Nat := if n = 0 then 64 else n
    let rows := size (f.imm.toNat / 2 ^ 8 % 256)
    let cols := size (f.imm.toNat / 2 ^ 16 % 256)
    let goes (i : Instr) (and : State → Warp → Crew → Prop) : Prop :=
      ∃ t w' c', exec i s = .next t ∧ t.warp? uid = some w' ∧ t.crew? w.crew = some c' ∧ Completes i side w w' ∧
        { c' with tiles := c.tiles } = c ∧ and t w' c'
    let quiet (t : State) : Prop := ∀ a, NoPartial s a → Memory.get t.mem a = Memory.get s.mem a
    let plain (t : State) (w' : Warp) : Prop := SameRegs w w' ∧ w'.flags = w.flags ∧ quiet t
    let onTile (i : Instr) (t : Nat) (fld : Fld) (act : Prop) : Prop := Issues i s uid side w →
      if partOf i w side = 0 then Skips i s uid side w
      else if t % 2 = 1 ∧ (c.tile t).kind = .f64 then exec i s = .next (s.trapField w side i fld (w.active side))
      else (w.slot side).denied = [] → act
    -- The instructions on a tile's elements, of a tile that no error has left bad (R390).
    let withTile (i : Instr) (t : Nat) (fld : Fld) (act : Prop) : Prop := onTile i t fld (c.badTile t = false → act)
    let others (c' : Crew) (t : Nat) (pair : Prop) : Prop := ∀ u, u ≠ t → (pair → u ≠ t + 1) → c'.tile u = c.tile u
    let kind (t : Nat) : TKind := (c.tile t).kind
    let regs (t : Nat) : Nat := if kind t = .f64 then 2 else 1
    let named : TKind := if f.ty = .f64 then .f64 else if f.ty = .i32 then .i32 else .f32
    let base (i : Instr) : DWord := BitVec.ofNat 64 (operandAt 2 f w ((lowLane (partOf i w side)).getD 0) f.a)
    let row (i : Instr) (n : Nat) : DWord :=
      base i + BitVec.ofNat 64 (n *
        (if f.b = .imm then f.imm.toNat else operandAt 1 f w ((lowLane (partOf i w side)).getD 0) f.b))
    let made (c' : Crew) (t : Nat) : Prop :=
      (c'.tile t).kind = named ∧ (c'.tile t).wide = false ∧ others c' t (kind t = .f64 ∨ named = .f64) ∧
        (kind t = .f64 → named ≠ .f64 → (c'.tile (t + 1)).kind = .f32 ∧ (c'.tile (t + 1)).wide = false)
    let d := tileNo f.d
    let a := tileNo f.a
    let e := tileNo f.c
    onTile (.mzero f) d .d (goes (.mzero f) fun t w' c' => plain t w' ∧ made c' d ∧ (c'.tile d).mask = none ∧
      ∀ i < 64, ∀ j < 64, c'.code d i j = 0) ∧
    onTile (.mld f) d .d (
      let z := if f.ty = .f64 then 8 else 4
      ∀ ps : Nat → List (Loc × Nat), (∀ n < 64, Reach s pasid (row (.mld f) n) (64 * z) z { r := true } (ps n)) →
        goes (.mld f) fun t w' c' => plain t w' ∧ made c' d ∧ (c'.tile d).mask = (c.tile d).mask ∧
          ∀ i < 64, ∀ j < 64, c'.code d i j = leNat (((runBytes s.mem (ps i)).drop (j * z)).take z)) ∧
    withTile (.mst f) e .c (
      let stored (fs : Option DWord) : Prop :=
        let len := match fs with | none => cols * (4 * regs e) | some fs => rowBytes fs cols
        let align := match fs with | none => 4 * regs e | some fs => rowAlign fs
        ∀ (hid : Nat → Nat → Bool) (ps : Nat → List (Loc × Nat)),
          Shown s pasid (c.tile e).mask (fun i j => i < rows ∧ j < cols) hid →
          (∀ n < rows, Reach s pasid (row (.mst f) n) len align { w := true } (ps n)) →
          ((List.range rows).flatMap ps).Pairwise (fun p q => p.1.key + p.2 ≤ q.1.key ∨ q.1.key + q.2 ≤ p.1.key) →
            goes (.mst f) fun t w' c' => SameRegs w w' ∧ c' = c ∧
              (∀ n < rows, runBytes t.mem (ps n) = (c.mstRow e n cols fs hid).1) ∧
              (∀ a, NoPartial s a → (∀ n < rows, ∀ p ∈ ps n, Outside a p.1.key p.2) →
                Memory.get t.mem a = Memory.get s.mem a) ∧
              w'.flags = w.flags ||| (List.range rows).foldl (fun fl n => fl ||| (c.mstRow e n cols fs hid).2) 0
      if f.sub.getLsbD 0 then stored none
      else UsesSlot (.mst f) (f.imm.toNat % 8) s uid side w
        (fun fs => !((slotElem fs == 7 && !slotScaled fs && cols % 2 != 0) || (slotScaled fs && cols % 32 != 0) ||
          (slotElem fs == 1 && kind e != .f64)))
        fun fs => stored (some fs)) ∧
    withTile (.mmov f) a .a (
      let tp := partOf (.mmov f) w side
      let k := regs a
      let col (l : Nat) : Nat := operandAt 1 f w l f.b % 64
      if kind a = .f64 ∧ groupOk (s.allotOf w) f.d = false then
        exec (.mmov f) s = .next (s.trapField w side (.mmov f) .d (w.active side))
      else ∀ hid : Nat → Nat → Bool,
        Shown s pasid (c.tile a).mask (fun i j => tp.getLsbD (i % 32) ∧ j = col (i % 32)) hid →
          let out (l h : Nat) : Nat × Word := c.readout a (l + 32 * h) (col l) (hid (l + 32 * h) (col l))
          goes (.mmov f) fun t w' c' => quiet t ∧ c' = c ∧
            Wrote w w' tp f.d (2 * k) (fun l => (out l 0).1 + (out l 1).1 * 2 ^ (32 * k)) ∧
            w'.flags = w.flags ||| orAll tp fun l => (out l 0).2 ||| (out l 1).2) ∧
    withTile (.mmovW f) d .d (
      let tp := partOf (.mmovW f) w side
      let k := regs d
      if kind d = .f64 ∧ groupOk (s.allotOf w) f.a = false then
        exec (.mmovW f) s = .next (s.trapField w side (.mmovW f) .a (w.active side))
      else goes (.mmovW f) fun t w' c' => plain t w' ∧ others c' d (kind d = .f64) ∧
        (c'.tile d).kind = kind d ∧ (c'.tile d).wide = (c.tile d).wide ∧ (c'.tile d).mask = (c.tile d).mask ∧
        ∀ i < 64, ∀ j < 64, c'.code d i j =
          let v := operandAt (2 * k) f w (i % 32) f.a / 2 ^ (32 * k * (i / 32)) % 2 ^ (32 * k)
          if tp.getLsbD (i % 32) ∧ operandAt 1 f w (i % 32) f.b % 64 = j then
            if (c.tile d).wide ∧ kind d ≠ .i32 then widenCode (tileFmt (kind d) false) (tileFmt (kind d) true) v else v
          else c.code d i j) ∧
    onTile (.mmask f) d .d (
      ∀ ps : List (Loc × Nat), Reach s pasid (base (.mmask f)) 64 8 { r := true } ps →
        let b := runBytes s.mem ps
        let n (o k : Nat) : Nat := leNat ((b.drop o).take k)
        if n 0 4 < 3 ∧ n 4 2 ≤ 64 ∧ n 6 2 ≤ 64 ∧ n 12 4 = 0 ∧ n 40 24 = 0 ∧ (n 0 4 = 2 → n 16 8 % 8 = 0) ∧
            (n 0 4 = 1 → n 24 8 % 4 = 0 ∧ n 32 8 % 4 = 0) then
          goes (.mmask f) fun t w' c' => plain t w' ∧ c'.tile d = { c.tile d with mask := some b } ∧ others c' d False
        else ∃ u, exec (.mmask f) s = .next (u.trapField w side (.mmask f) .op (w.active side)) ∧ quiet u) ∧
    onTile (.mmaskClear f) d .d (goes (.mmaskClear f) fun t w' c' =>
      plain t w' ∧ c'.tile d = { c.tile d with mask := none } ∧ others c' d False) ∧
    (let ty : DType := if kind e = .f64 then .f64 else if kind e = .i32 then .i32 else .f32
     let k := regs e
     let codes (hid : Nat → Nat → Bool) (i : Nat) : List Nat :=
       (List.range cols).map fun j => (c.readout e i j (hid i j)).1
     let reduces (hid : Nat → Nat → Bool) (i : Nat) (r : Nat × Word) : Prop :=
       Combines (if f.sub.getLsbD 0 then 0 else 2) ty (codes hid i) r
     let flags (hid : Nat → Nat → Bool) (i : Nat) (r : Nat × Word) : Word :=
       r.2 ||| (List.range cols).foldl (fun g j => g ||| (c.readout e i j (hid i j)).2) 0
     let sized (hid : Nat → Nat → Bool) : Prop := ∀ i < rows, ∀ v ∈ codes hid i, v < 2 ^ (32 * k)
     withTile (.mrow f) e .c (
       let tp := partOf (.mrow f) w side
       if kind e = .f64 ∧ groupOk (s.allotOf w) f.d = false then
         exec (.mrow f) s = .next (s.trapField w side (.mrow f) .d (w.active side))
       else ∀ hid : Nat → Nat → Bool, sized hid →
         Shown s pasid (c.tile e).mask (fun i j => i < rows ∧ tp.getLsbD (i % 32) ∧ j < cols) hid →
           ∃ red : Nat → Nat × Word, (∀ i < rows, tp.getLsbD (i % 32) → reduces hid i (red i)) ∧
             goes (.mrow f) fun t w' c' => quiet t ∧ c' = c ∧
               Wrote w w' tp f.d (2 * k) (fun l =>
                 let part (h : Nat) : Nat := if l + 32 * h < rows then (red (l + 32 * h)).1
                   else operandAt (2 * k) f w l f.d / 2 ^ (32 * k * h) % 2 ^ (32 * k)
                 part 0 + part 1 * 2 ^ (32 * k)) ∧
               w'.flags = w.flags ||| ((List.range rows).filter fun i => tp.getLsbD (i % 32)).foldl
                 (fun g i => g ||| flags hid i (red i)) 0) ∧
     withTile (.mrowM f) e .c (
       ∀ (hid : Nat → Nat → Bool) (ps : List (Loc × Nat)), sized hid →
         Shown s pasid (c.tile e).mask (fun i j => i < rows ∧ j < cols) hid →
         Reach s pasid (base (.mrowM f)) (4 * k * rows) (4 * k) { w := true } ps →
         ps.Pairwise (fun p q => p.1.key + p.2 ≤ q.1.key ∨ q.1.key + q.2 ≤ p.1.key) →
           ∃ red : Nat → Nat × Word, (∀ i < rows, reduces hid i (red i)) ∧
             goes (.mrowM f) fun t w' c' => SameRegs w w' ∧ c' = c ∧
               runBytes t.mem ps = ((List.range rows).flatMap fun i => leBytes (4 * k) (red i).1) ∧
               (∀ a, NoPartial s a → (∀ p ∈ ps, Outside a p.1.key p.2) → Memory.get t.mem a = Memory.get s.mem a) ∧
               w'.flags = w.flags ||| (List.range rows).foldl (fun g i => g ||| flags hid i (red i)) 0)) ∧
    (Issues (.mprog f) s uid side w →
      Gives (.mprog f) s uid side w f.d 2 (fun _ => (w.mqpAt (f.sub.toNat % 4)).toNat) 0) ∧
    (Issues (.mprogSet f) s uid side w →
      let tp := partOf (.mprogSet f) w side
      let lo := (lowLane tp).getD 0
      let v := operandAt 2 f w lo f.a
      let q := f.sub.toNat % 4
      if tp = 0 then Skips (.mprogSet f) s uid side w
      else if v ≠ 0 ∧ v % 2 = 0 then
        exec (.mprogSet f) s =
          .next (s.trap w side 3 (BitVec.ofNat 64 (0x12 + q + 256)) (if isScalar f.a then tp else bitOf lo))
      else ∃ w', exec (.mprogSet f) s = .next (s.setWarp w') ∧ (s.setWarp w').warp? uid = some w' ∧
        Completes (.mprogSet f) side w { w' with mqp := w.mqp } ∧ SameRegs w w' ∧ w'.flags = w.flags ∧
        ∀ p < 4, w'.mqpAt p = if p = q then BitVec.ofNat 64 v else w.mqpAt p)

/-! ### The horizon unit (R277 to R302) -/

/-- R283, R284, R290, R292, R302. The canonical form has the greatest value of the lines at every point of the domain
and gives each line a piece; simplification stays within its bound; the sum and the conjugate are those of the
functions. All of it is exact. -/
def Obligations.EnvelopeForms : Prop :=
  (∀ (d : Dom) (ls : List Line), d.long → ls ≠ [] →
    let c := canonLines d ls
    Canon d c ∧ (∀ l ∈ c, ∃ m ∈ ls, SameLine l m) ∧
    (∀ x, d.has x → (∃ l ∈ ls, valueAt x c = l.at x) ∧ ∀ l ∈ ls, l.at x ≤ valueAt x c) ∧
    ∀ l ∈ c, ∃ u v : Rat, u < v ∧ d.has u ∧ d.has v ∧
      ∀ x, u < x → x < v → ∀ m ∈ ls, ¬SameLine l m → m.at x < l.at x) ∧
  (∀ (d : Dom) (ls : List Line) (t : Rat), d.long → Canon d ls → 0 ≤ t →
    let r := simplify d (some t) ls.length ls
    Canon d r.1 ∧ r.1.Sublist ls ∧ (r.2 = true ↔ r.1 ≠ ls) ∧
    (2 ≤ r.1.length → ∀ k ∈ changes d none 0 r.1, t < k.2) ∧
    ∀ x, d.has x → valueAt x r.1 ≤ valueAt x ls ∧
      valueAt x ls - valueAt x r.1 ≤ t * ((ls.length - r.1.length : Nat) : Rat)) ∧
  (∀ (d e : Dom) (f g : List Line), Canon d f → Canon e g → (d.meet e).empty = false →
    ∀ x, (d.meet e).has x → valueAt x (sumLines (d.meet e) f g) = valueAt x f + valueAt x g) ∧
  (∀ (d : Dom) (ls : List Line), Canon d ls → d.empty = false →
    let r := conjugate d ls
    ∀ y : Rat,
      (r.1.has y → (∃ x, d.has x ∧ x * y - valueAt x ls = valueAt y r.2) ∧
        ∀ x, d.has x → x * y - valueAt x ls ≤ valueAt y r.2) ∧
      (r.1.has y = false → ∀ m : Rat, ∃ x, d.has x ∧ m < x * y - valueAt x ls)) ∧
  ∀ (n : Bool) (m : Nat) (e : Int), m ≠ 0 →
    let r := (Val.num n m e).write fp64 .rne false
    rneRat (ratNum n m e) = (r.1, r.2 &&& (IX ||| UF))

/-- R281, R285 to R298. The horizon instructions: what each traps on, and the envelope, registers or memory that it
writes. -/
def Obligations.Horizon : Prop :=
  ∀ (f : Fields) (s : State) (uid : Nat) (side : Side) (w : Warp) (c : Crew), s.crew? w.crew = some c →
    let pasid := s.pasidOf w
    let lo (i : Instr) : Nat := (lowLane (partOf i w side)).getD 0
    let num (l : Nat) (o : Opnd) : DWord := BitVec.ofNat 64 (operandAt 2 f w l o)
    let A := c.env (envNo f.a)
    let B := c.env (envNo f.b)
    let traps (i : Instr) (reason field : Nat) (mask : Word) : Prop :=
      exec i s = .next (s.trap w side 0x0A (BitVec.ofNat 64 (reason + field * 16)) mask)
    let once (i : Instr) (act : Prop) : Prop := Issues i s uid side w →
      if partOf i w side = 0 then Skips i s uid side w else act
    let makes (i : Instr) (d : Dom) (cands : List Line) : Prop := Makes i f s uid side w c d cands
    let lines (i : Instr) (both : Bool) (act : Prop) : Prop := A.bad = false → (both → B.bad = false) →
      if A.lines = [] then traps i 1 5 (partOf i w side)
      else if both ∧ B.lines = [] then traps i 1 6 (partOf i w side) else act
    let badLower (d : DWord) : Prop := (∃ q, fp64.decode d.toNat = .nan q) ∨ fp64.decode d.toNat = .inf false
    let badUpper (d : DWord) : Prop := (∃ q, fp64.decode d.toNat = .nan q) ∨ fp64.decode d.toNat = .inf true
    let empty (a b : DWord) : Prop := ∃ x y, ratOf a = some x ∧ ratOf b = some y ∧ y < x
    let wrote (i : Instr) (t : State) (e : Env) (fl : Word) : Prop :=
      ∃ w' c', exec i s = .next t ∧ t.warp? uid = some w' ∧ t.crew? w.crew = some c' ∧ Completes i side w w' ∧
        SameRegs w w' ∧ w'.flags = w.flags ||| fl ∧ { c' with envs := c.envs } = c ∧
        (∀ n, n ≠ envNo f.d → c'.env n = c.env n) ∧ c'.env (envNo f.d) = e
    once (.einit f) (
      let i := Instr.einit f
      let l := num (lo i) f.a
      let h := num (lo i) f.b
      (badLower l → traps i 3 5 (partOf i w side)) ∧
      (¬badLower l → badUpper h → traps i 3 6 (partOf i w side)) ∧
      (¬badLower l → ¬badUpper h → empty l h → traps i 2 5 (partOf i w side)) ∧
      (¬badLower l → ¬badUpper h → ¬empty l h → ∃ t, wrote i t { lo := l, hi := h, lines := [] } 0 ∧ t.mem = s.mem)) ∧
    once (.eins f) (
      let i := Instr.eins f
      let tp := partOf i w side
      let fails (o : Opnd) (l : Nat) : Bool := (ratOf (num l o)).isNone
      let bad := maskOf fun l => tp.getLsbD l && (fails f.a l || fails f.b l)
      let e := c.env (envNo f.d)
      e.bad = false →
      if bad ≠ 0 then traps i 5 (if fails f.a ((lowLane bad).getD 0) then 5 else 6) bad
      else makes i e.dom (e.ls ++ (lanesOf tp).map fun l => ⟨.stored (num l f.a), .stored (num l f.b), 0⟩)) ∧
    once (.esum f) (lines (.esum f) true (
      let d := A.dom.meet B.dom
      if d.empty then traps (.esum f) 2 5 (partOf (.esum f) w side) else makes (.esum f) d (sumLines d A.ls B.ls))) ∧
    once (.emax f) (A.bad = false → B.bad = false →
      let d := A.dom.meet B.dom
      if d.empty then traps (.emax f) 2 5 (partOf (.emax f) w side) else makes (.emax f) d (A.ls ++ B.ls)) ∧
    once (.einf f) (lines (.einf f) true (
      let p := conjugate A.dom A.ls
      let q := conjugate B.dom B.ls
      let d := p.1.meet q.1
      let plus (x y : Option PwlNum) : Option PwlNum := x.bind fun a => y.map fun b => ⟨a.q + b.q, none⟩
      if d.empty then traps (.einf f) 4 5 (partOf (.einf f) w side)
      else makes (.einf f) ⟨plus A.dom.lo B.dom.lo, plus A.dom.hi B.dom.hi⟩
        (conjugate d (exactCanon d (sumLines d (exactCanon p.1 p.2) (exactCanon q.1 q.2)))).2)) ∧
    once (.econj f) (lines (.econj f) false (
      let p := conjugate A.dom A.ls
      makes (.econj f) p.1 p.2)) ∧
    once (.eshift f) (lines (.eshift f) false (
      let i := Instr.eshift f
      let par (o : Opnd) : Option Rat := ratOf (num (lo i) o)
      (par f.b = none → traps i 5 6 (partOf i w side)) ∧
      (par f.b ≠ none → par f.c = none → traps i 5 7 (partOf i w side)) ∧
      (par f.b ≠ none → par f.c ≠ none → par f.e = none → traps i 5 8 (partOf i w side)) ∧
      ∀ x y m, par f.b = some x → par f.c = some y → par f.e = some m →
        let move (n : Option PwlNum) : Option PwlNum := n.map fun n => ⟨n.q + x, none⟩
        makes i ⟨move A.dom.lo, move A.dom.hi⟩
          (A.ls.map fun l => ⟨⟨l.a.q + m, none⟩, ⟨l.b.q - l.a.q * x + y, none⟩, 0⟩))) ∧
    once (.eeval f) (lines (.eeval f) false (
      let i := Instr.eeval f
      let tp := partOf i w side
      -- What one lane reads: the value's code, the index, and its flags.
      let reads (l v k : Nat) (fl : Word) : Prop :=
        match fp64.decode (num l f.b).toNat with
        | .nan q => v = 0x7FF8000000000000 ∧ k = 0xFFFFFFFF ∧ fl = flagIf q NV
        | .inf _ => v = 0x7FF0000000000000 ∧ k = 0xFFFFFFFF ∧ fl = 0
        | .num n m e =>
          let x := ratNum n m e
          if A.dom.has x = false then v = 0x7FF0000000000000 ∧ k = 0xFFFFFFFF ∧ fl = 0
          else ∃ line, A.ls[k]? = some line ∧ (∀ j : Nat, ∀ z : Line, A.ls[j]? = some z → z.at x ≤ line.at x ∧ (j < k → z.at x < line.at x)) ∧
            (v, fl) = rneRat (line.at x)
      ∀ (val idx : Nat → Nat) (fl : Nat → Word), (∀ l < 32, tp.getLsbD l → reads l (val l) (idx l) (fl l)) →
        let inside (l : Nat) : Bool := match fp64.decode (num l f.b).toNat with | .num n m e => A.dom.has (ratNum n m e) | _ => false
        let lost := maskOf fun l => tp.getLsbD l && inside l && (val l == 0x7FF0000000000000 || val l == 0xFFF0000000000000)
        if lost ≠ 0 then traps i 6 4 lost
        else ∃ w1 w', exec i s = .next (s.setWarp w') ∧ (s.setWarp w').warp? uid = some w' ∧ Completes i side w w' ∧
          Wrote w w1 tp f.d 2 val ∧ Wrote w1 w' tp f.e 1 idx ∧ w'.flags = w.flags ||| orAll tp fl)) ∧
    (Issues (.ebrk f) s uid side w → A.bad = false → Gives (.ebrk f) s uid side w f.d 4 (fun l =>
      match A.lines[operandAt 1 f w l f.b + l]? with
      | some (a, b) => a.toNat + b.toNat * 2 ^ 64
      | none => 0x7FF8000000000000 + 0x7FF8000000000000 * 2 ^ 64) 0) ∧
    (Issues (.ecnt f) s uid side w → A.bad = false →
      let tp := partOf (.ecnt f) w side
      ∃ w1 w', exec (.ecnt f) s = .next (s.setWarp w') ∧ (s.setWarp w').warp? uid = some w' ∧
        Completes (.ecnt f) side w w' ∧ w'.flags = w.flags ∧
        Wrote w w1 tp f.d 1 (fun _ => A.lines.length) ∧ Wrote w1 w' tp f.e 4 (fun _ => A.lo.toNat + A.hi.toNat * 2 ^ 64)) ∧
    once (.eld f) (
      let i := Instr.eld f
      let va := num (lo i) f.a
      ∀ ps, (w.slot side).denied = [] → Steady s pasid (fun _ => False) → Reach s pasid va 32 16 { r := true } ps →
        let h := runBytes s.mem ps
        let at_ (b : List Byte) (o k : Nat) : Nat := leNat ((b.drop o).take k)
        let n := at_ h 0 4
        let l : DWord := BitVec.ofNat 64 (at_ h 16 8)
        let u : DWord := BitVec.ofNat 64 (at_ h 24 8)
        let bad : Prop := 512 < n ∨ at_ h 4 12 ≠ 0 ∨ badLower l ∨ badUpper u ∨ empty l u
        (bad → traps i 7 5 (partOf i w side)) ∧
        (¬bad → ∀ qs, (if n = 0 then qs = [] else Reach s pasid (va + 32) (16 * n) 16 { r := true } qs) →
          let b := runBytes s.mem qs
          let e : Env := { lo := l, hi := u, lines := (List.range n).map fun k =>
            (BitVec.ofNat 64 (at_ b (16 * k) 8), BitVec.ofNat 64 (at_ b (16 * k + 8) 8)) }
          let good : Prop := (∀ x ∈ e.lines, ratOf x.1 ≠ none ∧ ratOf x.2 ≠ none) ∧
            (exactCanon e.dom e.ls).map (fun x => (x.a.q, x.b.q)) = e.ls.map fun x => (x.a.q, x.b.q)
          (¬good → traps i 7 5 (partOf i w side)) ∧
          (good → ∃ t, wrote i t e 0 ∧ ∀ a, NoPartial s a → Memory.get t.mem a = Memory.get s.mem a))) ∧
    once (.est f) (
      let i := Instr.est f
      let e := c.env (envNo f.c)
      let va := num (lo i) f.a
      let n := e.lines.length
      ∀ ps qs, e.bad = false → (w.slot side).denied = [] → Reach s pasid va 32 16 { w := true } ps →
        (if n = 0 then qs = [] else Reach s pasid (va + 32) (16 * n) 16 { w := true } qs) →
        (ps ++ qs).Pairwise (fun p q => p.1.key + p.2 ≤ q.1.key ∨ q.1.key + q.2 ≤ p.1.key) →
          ∃ t w', exec i s = .next t ∧ t.warp? uid = some w' ∧ Completes i side w w' ∧ SameRegs w w' ∧
            w'.flags = w.flags ∧ t.crew? w.crew = some c ∧
            runBytes t.mem (ps ++ qs) = leBytes 4 n ++ List.replicate 12 0 ++ leBytes 8 e.lo.toNat ++ leBytes 8 e.hi.toNat ++
              e.lines.flatMap (fun (l : DWord × DWord) => leBytes 8 l.1.toNat ++ leBytes 8 l.2.toNat) ∧
            ∀ a, NoPartial s a → (∀ p ∈ ps ++ qs, Outside a p.1.key p.2) → Memory.get t.mem a = Memory.get s.mem a)

/-! ### Queue registers, pipes, tags and engines (R305 to R316) -/

/-- R305 to R307, R309, R311, R313 to R315. Pipes pushed and popped, commands pushed to an engine with the checks that
come first, and the instructions on tags. -/
def Obligations.QueuesAndTags : Prop :=
  ∀ (f : Fields) (s : State) (uid : Nat) (side : Side) (w : Warp) (c : Crew), s.crew? w.crew = some c →
    let pasid := s.pasidOf w
    let binding (q : Nat) : Nat := (s.launch w.launch).lrec.binds.toNat / 2 ^ (4 * q) % 16
    let queueTrap (i : Instr) (reason q : Nat) : Prop :=
      exec i s = .next (s.trap w side 0x0D (BitVec.ofNat 64 (reason + q * 16)) (partOf i w side))
    let tagTrap (i : Instr) (reason t : Nat) : Prop :=
      exec i s = .next (s.trap w side 0x12 (BitVec.ofNat 64 (reason + t * 256)) (partOf i w side))
    let waits (i : Instr) (why : Why) : Prop := exec i s = .next (s.setWarp (w.await side why s.now))
    let goesFrom (v : Warp) (i : Instr) (and : State → Warp → Crew → Prop) : Prop :=
      ∃ t w' c', exec i s = .next t ∧ t.warp? uid = some w' ∧ t.crew? w.crew = some c' ∧ Completes i side v w' ∧
        w'.flags = w.flags ∧ and t w' c'
    let goes (i : Instr) (and : State → Warp → Crew → Prop) : Prop :=
      goesFrom w i fun t w' c' => t.mem = s.mem ∧ and t w' c'
    let issued (i : Instr) (act : Prop) : Prop := Issues i s uid side w →
      if partOf i w side = 0 then Skips i s uid side w else act
    let pipes (c' : Crew) (q : Nat) (p : List PipeEnt) : Prop :=
      { c' with pipes := c.pipes } = c ∧ ∀ n, c'.pipe n = if n = q then p else c.pipe n
    -- Pops.
    (∀ i ∈ [Instr.qpop f, .qtry f], issued i (
      let q := queueNo f.a
      if binding q = 0 then queueTrap i 1 q
      else if binding q ≠ 4 then queueTrap i 2 q
      else
        let tp := partOf i w side
        match c.pipe q with
        | [] => if i = .qpop f then waits i (.pipe q false) else Gives i s uid side w f.e 1 (fun _ => 0) 0
        | e :: rest => goes i fun _ w' c' => pipes c' q rest ∧
            ∃ w1, Wrote w w1 tp f.d 1 (fun l => if e.mask.getLsbD l then (e.els.getD l 0).toNat else 0) ∧
              if i = .qpop f then SameRegs w1 w' else Wrote w1 w' tp f.e 1 (fun _ => 1))) ∧
    -- Pushes.
    (∀ i ∈ [Instr.qpush f, .qpushPipe f], issued i (
      let q := queueNo f.d
      let tp := partOf i w side
      (binding q = 0 → queueTrap i 1 q) ∧
      (binding q = 4 → if 16 ≤ (c.pipe q).length then waits i (.pipe q true)
        else goes i fun _ w' c' => SameRegs w w' ∧ ∃ e : PipeEnt, pipes c' q (c.pipe q ++ [e]) ∧ e.mask = tp ∧
          ∀ l < 32, tp.getLsbD l → (e.els.getD l 0).toNat = operandAt 1 f w l f.a % 2 ^ 32) ∧
      (1 ≤ binding q → binding q ≤ 3 → (w.slot side).wait = none →
        let eng : Engine := if binding q = 1 then .copy else if binding q = 2 then .gather else .coll
        let lanes := if isScalar f.a then (lanesOf tp).take 1 else lanesOf tp
        let words (l : Nat) : List DWord :=
          (List.range 4).map fun k => BitVec.ofNat 64 (operandAt 8 f w l f.a / 2 ^ (64 * k))
        let bits (l k lo n : Nat) : Nat := ((words l).getD k 0).toNat / 2 ^ lo % 2 ^ n
        let elem (l : Nat) : Nat := (tyOf (bits l 2 28 4)).elem / 8
        let tag (l : Nat) : Nat := if eng = .copy then bits l 2 48 6 else if eng = .gather then bits l 3 48 6 else bits l 3 0 6
        let addrs (l : Nat) : List (DWord × Nat) :=
          if eng = .copy then [((words l).getD 0 0, 1), ((words l).getD 1 0, 1)]
          else if eng = .gather then [((words l).getD 0 0, 1), ((words l).getD 1 0, 4), ((words l).getD 2 0, 1)]
          else [((words l).getD 1 0, elem l)]
        let team (l : Nat) : Word := BitVec.ofNat 32 (bits l 0 0 32)
        let fine (l : Nat) : Prop :=
          if eng = .copy then bits l 2 56 8 = 0 ∧ bits l 2 32 16 ≠ 0
          else if eng = .gather then bits l 3 54 10 = 0 ∧ bits l 3 0 32 ≠ 0 ∧ bits l 3 0 32 ≤ 2 ^ 20
          else bits l 0 32 32 = 0 ∧ bits l 3 6 58 = 0 ∧ bits l 2 0 24 ≠ 0 ∧ bits l 2 24 4 ≤ 3 ∧ bits l 2 28 4 ≤ 5 ∧
            (bits l 2 24 4 = 3 → bits l 2 28 4 ∈ [0, 2]) ∧ (∃ k < 4, (w.lane l).team k = team l) ∧ team l ≠ 0xFFFFFFFF ∧
            s.collPhase pasid (team l) (w.lane l).tid = some (BitVec.ofNat 32 (bits l 2 32 32))
        let free (t : Nat) : Prop := s.tagFree w.core t = true ∧ (lanes.filter fun l => tag l == t).length ≤ 1
        let inside (a : DWord × Nat) : Prop := a.1.toNat < 2 ^ 57
        let lined (a : DWord × Nat) : Prop := a.1.toNat % a.2 = 0
        ((∃ l ∈ lanes, ∃ a ∈ addrs l, ¬inside a) → ∃ va m, (∃ l ∈ lanes, ∃ a ∈ addrs l, ¬inside a ∧ a.1 = va) ∧
          exec i s = .next (s.trapAddr w side 8 0 false va m)) ∧
        ((∀ l ∈ lanes, ∀ a ∈ addrs l, inside a) → (∃ l ∈ lanes, ∃ a ∈ addrs l, ¬lined a) →
          ∃ va m, (∃ l ∈ lanes, ∃ a ∈ addrs l, ¬lined a ∧ a.1 = va) ∧ exec i s = .next (s.trapAddr w side 7 0 false va m)) ∧
        ((∀ l ∈ lanes, ∀ a ∈ addrs l, inside a ∧ lined a) →
          ((∃ l ∈ lanes, ¬fine l) → queueTrap i 3 q) ∧
          ((∀ l ∈ lanes, fine l) →
            (∀ l ∈ lanes, ¬free (tag l) → (∀ m ∈ lanes, tag m < tag l → free (tag m)) → tagTrap i 1 (tag l)) ∧
            ((∀ l ∈ lanes, free (tag l)) →
              (8 ≤ s.heldCmds uid q → waits i (.push q 0)) ∧
              (s.heldCmds uid q + lanes.length ≤ 8 → goesFrom w i fun t w' c' => SameRegs w w' ∧
                -- A collective's arrival is a release at device scope (R196).
                (if eng = .coll then (∀ p ∈ t.pends, p.uid ≠ uid) ∧
                    ∀ a, NoPending s a → NoPartial s a → Memory.get t.mem a = Memory.get s.mem a
                  else t.mem = s.mem ∧ t.pends = s.pends) ∧
                { c' with tags := c.tags } = c ∧ c'.tags = c.tags ++ lanes.map (fun l => { n := tag l }) ∧
                t.cmds = s.cmds ++ lanes.zipIdx.map (fun (x : Nat × Nat) =>
                  { id := s.serial + x.2, eng := eng, words := words x.1, tag := tag x.1, crew := w.crew, core := w.core,
                    uid := w.uid, qreg := q, tid := (w.lane x.1).tid, queue := s.queueOf w,
                    gen := (s.queue (s.queueOf w)).gen, pasid := pasid, pc := (w.slot side).pc,
                    phase := BitVec.ofNat 32 (bits x.1 2 32 32) }) ∧
                (eng ≠ .coll → t.ctxs = s.ctxs) ∧
                ∀ l, eng = .coll → lanes = [l] → ∃ p, (s.pointOf pasid (team l) 23).arrive (w.lane l).tid =
                    some (p, BitVec.ofNat 32 (bits l 2 32 32)) ∧ t.pointOf pasid (team l) 23 = p))))))) ∧
    -- Tags.
    (let mask : DWord := BitVec.ofNat 64 (operandAt 2 f w 0 f.a)
     let has (t : Nat) : Prop := t < 64 ∧ mask.getLsbD t = true
     -- A slot that waits remembers a tag that has been cleared meanwhile (R314).
     let owned (t : Nat) : Prop := c.tag? t ≠ none ∧ ∀ m a, w.why side ≠ some (.tags m a (some t))
     let done (t : Nat) : Prop := ∃ y, c.tag? t = some y ∧ y.done = true
     let lowest (p : Nat → Prop) (t : Nat) : Prop := has t ∧ p t ∧ ∀ u < t, has u → ¬p u
     (∀ i ∈ [Instr.twaitany f, .twaitall f, .tffr f], issued i (
       (∀ t, lowest (fun t => ¬owned t) t → tagTrap i 3 t) ∧
       ((∀ t, has t → owned t) →
         (i = .twaitany f →
           (mask = 0 → tagTrap i 4 0) ∧ (∀ t, lowest done t → Gives i s uid side w f.d 1 (fun _ => t) 0) ∧
           (mask ≠ 0 → (∀ t, has t → ¬done t) → waits i (.tags mask false none))) ∧
         (i = .twaitall f →
           ((∀ t, has t → done t) → Skips i s uid side w) ∧ (∀ t, has t → ¬done t → waits i (.tags mask true none))) ∧
         (i = .tffr f →
           (∀ t, lowest done t → Gives i s uid side w f.d 1 (fun _ => t) 0) ∧
           ((∀ t, has t → ¬done t) → Gives i s uid side w f.d 1 (fun _ => 0xFFFFFFFF) 0))))) ∧
     issued (.tclr f) (
       let held (t : Nat) : Prop := s.tagFree c.core t = false ∧ ¬done t
       (∀ t, lowest held t → tagTrap (.tclr f) 2 t) ∧
       ((∀ t, has t → ¬held t) → ∃ freed : DWord,
         (∀ t < 64, freed.getLsbD t = (mask.getLsbD t && (c.tag? t).isSome)) ∧
         let lose (v : Warp) : Warp :=
           { v with port := v.port.loseTags freed, star := v.star.loseTags freed,
                    handler := v.handler.map fun h =>
                      { h with port := h.port.loseTags freed, star := h.star.loseTags freed } }
         goesFrom (lose w) (.tclr f) fun t w' c' => t.mem = s.mem ∧ SameRegs w w' ∧ { c' with tags := c.tags } = c ∧
           c'.tags = (c.tags.filter fun y => !mask.getLsbD y.n) ∧
           ∀ u ≠ uid, t.warp? u = (s.warp? u).map fun v => if v.crew = w.crew then lose v else v)))

/-- R308 to R311. A command is accepted by an engine of its kind with room, in push order; copies and gathers move their
rows and complete their tag; a refused first byte completes it with its error bit; a collective combines the buffers of
its phase and gives each the combination. -/
def Obligations.Engines : Prop :=
  ∀ (s : State) (id : Nat),
    (∀ engine,
      (s.cmd? id = none → exec (.engineAccept id engine) s = .next s) ∧
      ∀ c, s.cmd? id = some c →
        let fits (x : Cmd) : Prop :=
          match x.eng with
          | .copy => engine < 48 ∧ tget none s.copyGroups (engine / 4) = some (s.ctxPart x.pasid).base ∧
              ((s.ctxPart x.pasid).entry (0x340 + engine / 4)).st ≠ 3
          | .gather => engine = clusterOf x.core
          | .coll => engine = sliceOf x.core
        let room : Prop := (s.cmds.filter fun x => x.eng == c.eng && x.at_ == some engine).length < 32
        let first (x : Cmd) : Prop := x.at_ = none ∧
          ∀ y ∈ s.cmds, y.at_ = none → y.uid = x.uid → y.qreg = x.qreg → x.id ≤ y.id
        -- The queue registers of an engine take turns, and the oldest push goes first among those that have not been
        -- served (R310).
        let turn : Prop := ∀ x ∈ s.cmds, x.eng = c.eng → first x → fits x →
          s.servedAt engine c < s.servedAt engine x ∨ (s.servedAt engine c = s.servedAt engine x ∧ c.id ≤ x.id)
        (fits c → room → first c → turn →
          ∃ t, exec (.engineAccept id engine) s = .next t ∧ t.cmd? id = some { c with at_ := some engine } ∧
            t.served.getLast? = some ⟨c.eng, engine, c.uid, c.qreg⟩ ∧
            { t with cmds := s.cmds, served := s.served } = s ∧ ∀ j ≠ id, t.cmd? j = s.cmd? j) ∧
        (¬fits c ∨ ¬room ∨ ¬first c ∨ ¬turn → exec (.engineAccept id engine) s = .next s)) ∧
    (s.cmd? id = none → exec (.commandComplete id) s = .next s) ∧
    ∀ c, s.cmd? id = some c →
      let i := Instr.commandComplete id
      let bits (k lo n : Nat) : Nat := (c.words.getD k 0).toNat / 2 ^ lo % 2 ^ n
      let word (k : Nat) : DWord := c.words.getD k 0
      -- The command is gone and its tag is done.
      let ended (t : State) (err : Bool) : Prop :=
        (∀ x ∈ t.cmds, x.id ≠ id) ∧ ∀ crew, s.crew? c.crew = some crew → ∃ crew', t.crew? c.crew = some crew' ∧
          crew'.tags = crew.tags.map fun y => if y.n = c.tag then { y with done := true, err := err } else y
      let runs : Prop := c.at_ ≠ none ∧ c.groups = [] ∧ c.done = 0 ∧ c.denied = false
      (c.at_ = none ∨ c.groups ≠ [] → exec i s = .next s) ∧
      -- Rows of `n` bytes moved from one place to another.
      (let moves (rows n : Nat) (src dst : Nat → DWord) : Prop :=
         ∀ from_ to_ : Nat → Nat → Nat,
           (∀ r < rows, ∀ b < n, ByteAt s c.pasid (src r + BitVec.ofNat 64 b) { r := true } (from_ r b) ∧
             ByteAt s c.pasid (dst r + BitVec.ofNat 64 b) { w := true } (to_ r b)) →
           (∀ r < rows, ∀ b < n, ∀ q < rows, ∀ a < n, from_ r b ≠ to_ q a ∧ (to_ r b = to_ q a → r = q ∧ b = a)) →
           Steady s c.pasid (fun a => ∃ r < rows, ∃ b < n, a = to_ r b) →
             ∃ t, exec i s = .next t ∧ ended t false ∧
               (∀ r < rows, ∀ b < n, Memory.get t.mem (to_ r b) = Memory.get s.mem (from_ r b)) ∧
               ∀ a, NoPartial s a → (∀ r < rows, ∀ b < n, a ≠ to_ r b) → Memory.get t.mem a = Memory.get s.mem a
       (c.eng = .copy → runs → copyOverlaps c = false →
         moves (bits 2 32 16) (bits 2 0 32) (fun r => word 0 + BitVec.ofNat 64 (r * bits 3 0 32))
           (fun r => word 1 + BitVec.ofNat 64 (r * bits 3 32 32))) ∧
       (c.eng = .gather → runs →
         let dst (r : Nat) : DWord := word 2 + BitVec.ofNat 64 (r * bits 3 0 32)
         ∀ (index : Nat → Nat) (at_ : Nat → Nat → Nat),
           (∀ r < bits 3 32 16, index r < 2 ^ 32 ∧ ∀ b < 4,
             ByteAt s c.pasid (word 1 + BitVec.ofNat 64 (4 * r) + BitVec.ofNat 64 b) { r := true } (at_ r b) ∧
             Memory.get s.mem (at_ r b) = BitVec.ofNat 8 (index r / 2 ^ (8 * b)) ∧
             ∀ q < bits 3 32 16, ∀ k < bits 3 0 32, ∀ p,
               s.translate c.pasid (dst q + BitVec.ofNat 64 k) { w := true } = .ok p → p.key ≠ at_ r b) →
           moves (bits 3 32 16) (bits 3 0 32) (fun r => word 0 + BitVec.ofNat 64 (index r * bits 3 0 32)) dst)) ∧
      (c.eng = .copy → runs → copyOverlaps c = false → 0 < bits 2 32 16 → 0 < bits 2 0 32 →
        ((word 0).toNat ≥ 2 ^ 57 ∨ s.translate c.pasid (word 0) { r := true } = .refused) →
          ∃ t, exec i s = .next t ∧ ended t true ∧
            ((s.ctx c.pasid).late = [] → (∃ ps, s.run c.pasid (s.ctx c.pasid).crec.log 24 { r := true } = .ok ps) →
              (s.ctx c.pasid).logW - s.ctxNum c.pasid ((s.ctx c.pasid).crec.log + 8) 8 ≠ 2 ^ (s.ctx c.pasid).crec.logLog →
              ∃ r, (t.ctx c.pasid).log = (s.ctx c.pasid).log ++ [r] ∧ r.code = 0x45 ∧ r.source = 2 ∧ r.tid = c.tid ∧
                r.addr = word 0 ∧ r.prog0 = 0 ∧ r.prog1 = BitVec.ofNat 64 c.tag)) ∧
      (c.eng = .copy → runs → 0 < bits 2 32 16 → 0 < bits 2 0 32 → (word 0).toNat < 2 ^ 57 →
        s.translate c.pasid (word 0) { r := true } = .absent →
          ∃ t gs, exec i s = .next t ∧ t.cmd? id = some { c with groups := gs } ∧ t.mem = s.mem ∧ t.crews = s.crews) ∧
      -- Collectives.
      (c.eng = .coll → runs →
        let team : Word := BitVec.ofNat 32 (bits 0 0 32)
        let size := (collType c.words).elem / 8
        let completed : Prop := (s.pointOf c.pasid team 23).completed c.phase = true
        let group := s.cmds.filter fun x => x.eng == .coll && x.pasid == c.pasid &&
          ((x.words.getD 0 0).toNat % 2 ^ 32 == bits 0 0 32) && x.phase == c.phase
        let count (m : Cmd) : Nat := (m.words.getD 2 0).toNat % 2 ^ 24
        let buffer (m : Cmd) : DWord := m.words.getD 1 0
        (s.validHandle c.pasid team = false → ∃ t, exec i s = .next t ∧ ended t true) ∧
        (s.validHandle c.pasid team = true → ¬completed → exec i s = .next s) ∧
        (s.validHandle c.pasid team = true → completed → c.result = none →
          (∀ m ∈ group, m.at_ ≠ none ∧ m.groups = [] ∧ m.denied = false ∧ m.words.getD 2 0 = c.words.getD 2 0) →
          (s.cmds.map Cmd.id).Nodup → bits 2 28 4 ≤ 5 → (3 ≤ bits 2 24 4 → bits 2 28 4 ∈ [0, 2]) →
          Steady s c.pasid (fun _ => False) →
          ∀ key : Nat → Nat → Nat, (∀ m ∈ group, ∀ b < count m * size,
            ByteAt s c.pasid (buffer m + BitVec.ofNat 64 b) { r := true } (key m.id b)) →
          let value (m : Cmd) (e : Nat) : Nat :=
            leNat ((List.range size).map fun b => Memory.get s.mem (key m.id (e * size + b)))
          ∃ t es, exec i s = .next t ∧ t.cmd? id = some { c with result := some es } ∧ es.length = count c ∧
            (∀ e < count c, ∃ fl, Combines (if bits 2 24 4 < 3 then bits 2 24 4 else 4) (collType c.words)
              (group.map fun m => value m e) (es.getD e 0, fl)) ∧
            ∀ a, NoPartial s a → Memory.get t.mem a = Memory.get s.mem a) ∧
        (∀ es, s.validHandle c.pasid team = true → completed → c.result = some es →
          let bytes := es.flatMap (leBytes size)
          ∀ to_ : Nat → Nat, (∀ b < bytes.length, ByteAt s c.pasid (buffer c + BitVec.ofNat 64 b) { w := true } (to_ b)) →
            (∀ b < bytes.length, ∀ a < bytes.length, to_ a = to_ b → a = b) →
            Steady s c.pasid (fun a => ∃ b < bytes.length, a = to_ b) →
              ∃ t, exec i s = .next t ∧ ended t false ∧
                (∀ b < bytes.length, Memory.get t.mem (to_ b) = bytes.getD b 0) ∧
                ∀ a, NoPartial s a → (∀ b < bytes.length, a ≠ to_ b) → Memory.get t.mem a = Memory.get s.mem a))

/-! ### Traps and the system instructions (R51, R52, R318 to R331) -/

/-- R51, R52, R319 to R325. A word whose fields do not fit traps; what entry into the handler saves and sets; a trap
inside the handler kills the warp; `rte` restores what was saved; the software traps, the unallocated word and the fetch
that fails. -/
def Obligations.Traps : Prop :=
  (∀ (i : Instr) (s : State) (uid : Nat) (side : Side) (w : Warp) (fld : Fld), s.turn = some (.slot uid side) →
    s.warp? uid = some w → i.fault (s.allotOf w) = some fld →
      exec i s = .next (s.trap w side 2
        (BitVec.ofNat 64 (fld.code * 2 ^ 12 + match i.op with | some o => o.toNat | none => 0)) (w.active side))) ∧
  (∀ (s : State) (uid : Nat) (side : Side) (w : Warp) (vec : Nat) (info : DWord) (mask : Word), s.warp? uid = some w →
    let entry := (s.launch w.launch).lrec.code + (s.launch w.launch).lrec.trapEntry
    let pasid := s.pasidOf w
    let t := s.trap w side vec info mask
    (w.handler = none → ∃ n w' h, t = ({ s with free := n } : State).setWarp w' ∧ t.warp? uid = some w' ∧
      Spoiled w w' ∧ (w.soiled = 0 → n = s.free) ∧
      w'.trapv = BitVec.ofNat 32 vec ∧ w'.trappc = (w.slot side).pc ∧ w'.trapinfo = info ∧ w'.trapmask = mask ∧
      w'.port = { pc := entry, mask := w.live, latched := w.live } ∧ w'.star = {} ∧ w'.stack = [] ∧ w'.parked = [] ∧
      (∀ l < 32, w'.lane l = if w.live.getLsbD l then { w.lane l with nc := 0 } else w.lane l) ∧
      { w' with trapv := w.trapv, trappc := w.trappc, trapinfo := w.trapinfo, trapmask := w.trapmask, port := w.port,
                star := w.star, stack := w.stack, parked := w.parked, lanes := w.lanes, handler := w.handler,
                sregs := w.sregs, soiled := w.soiled } = w ∧
      w'.handler = some h ∧ h.stack = w.stack ∧ h.parked = w.parked ∧ h.side = side ∧ h.last = w.last ∧ h.vec = vec ∧
      (match side with | .port => h.port | .star => h.star) =
        { w.slot side with denied := if vec = 0x10 ∨ vec = 0x0B then (w.slot side).denied else [] } ∧
      (match side with | .port => h.star | .star => h.port) = w.slot (otherSide side) ∧
      h.ncs = (lanesOf w.live).map fun l => (l, (w.lane l).nc)) ∧
    (w.handler ≠ none →
      (∀ w', t.warp? uid = some w' → ∀ l < 32, (w.lane l).st = .live → (w'.lane l).st = .dead) ∧
      ((s.ctx pasid).late = [] → (∃ ps, s.run pasid (s.ctx pasid).crec.log 24 { r := true } = .ok ps) →
        (s.ctx pasid).logW - s.ctxNum pasid ((s.ctx pasid).crec.log + 8) 8 ≠ 2 ^ (s.ctx pasid).crec.logLog →
        ∃ r, (t.ctx pasid).log = (s.ctx pasid).log ++ [r] ∧ r.code = 0x0C ∧ r.aux = BitVec.ofNat 8 vec ∧
          r.pc = (w.slot side).pc ∧ r.lanes = w.live))) ∧
  ∀ (f : Fields) (s : State) (uid : Nat) (side : Side) (w : Warp),
    let pc := (w.slot side).pc
    (Issues (.rte f) s uid side w →
      (w.handler = none → exec (.rte f) s = .next (s.trapField w side (.rte f) .op (w.active side))) ∧
      ∀ h, w.handler = some h →
        let clean : Prop := w.stack = [] ∧ ∀ l < 32, (w.lane l).st = .live → (w.lane l).nc = 0
        let saved (x : Side) : Slot := match x with | .port => h.port | .star => h.star
        let back := if f.sub.getLsbD 0 then w.trappc + 16 else w.trappc
        (¬clean → exec (.rte f) s = .next (s.killWarp w pc 4)) ∧
        (clean → ∃ u : Warp, exec (.rte f) s = .next (s.setWarp u.settle) ∧ u.handler = none ∧ u.stack = h.stack ∧
          u.parked = h.parked ∧ u.last = h.last ∧
          -- What the instruction had done when an asynchronous vector came in front of it stays done.
          u.slot h.side = (if (h.vec = 0x10 ∨ h.vec = 0x0B) ∧ back = (saved h.side).pc then
              { saved h.side with fetch := none }
            else { saved h.side with pc := back, wait := none, fetch := none, denied := [] }) ∧
          u.slot (otherSide h.side) = saved (otherSide h.side) ∧
          (∀ l < 32, u.lane l = if w.live.getLsbD l then
              { w.lane l with nc := ((h.ncs.find? fun (y : Nat × Byte) => y.1 == l).map Prod.snd).getD (w.lane l).nc }
            else w.lane l) ∧
          { u with port := w.port, star := w.star, stack := w.stack, parked := w.parked, lanes := w.lanes,
                   handler := w.handler, last := w.last } = w)) ∧
    (∀ i ∈ [Instr.trap f, .bkpt f], Issues i s uid side w →
      let tp := partOf i w side
      let lo := (lowLane tp).getD 0
      let vec := if i = .trap f then f.imm.toNat % 256 else 0x11
      let info := if i = .trap f then operandAt 1 f w lo f.a % 2 ^ 32 else f.imm.toNat % 65536
      if tp = 0 then Skips i s uid side w
      else if w.handler ≠ none then exec i s = .next (s.killWarp w pc (BitVec.ofNat 8 vec))
      else ∃ n w' h, exec i s = .next (({ s with free := n } : State).setWarp w') ∧
          (s.setWarp w').warp? uid = some w' ∧
          (∀ l < 32, (w'.lane l).v = (w.lane l).v ∧ (w'.lane l).p = (w.lane l).p) ∧ Spoiled w w' ∧ w'.flags = w.flags ∧
          w'.trapv = BitVec.ofNat 32 vec ∧ w'.trappc = pc + 16 ∧ w'.trapinfo = BitVec.ofNat 64 info ∧
          w'.trapmask = tp ∧ w'.port.pc = (s.launch w.launch).lrec.code + (s.launch w.launch).lrec.trapEntry ∧
          w'.port.mask = w.live ∧ w'.star = {} ∧ w'.handler = some h ∧ h.side = side ∧ h.last = side ∧
          (match side with | .port => h.port | .star => h.star) =
            { w.slot side with pc := pc + 16, sig := crcExtend (w.slot side).sig (sigBytes i), wait := none,
                               fetch := none, denied := [] }) ∧
    (∀ word, Issues (.illegalOpcode word) s uid side w →
      exec (.illegalOpcode word) s = .next (s.trap w side 1 (BitVec.ofNat 64 (word.toNat % 1024)) (w.active side))) ∧
    ∀ perm, Issues (.instructionFetchFault perm) s uid side w →
      exec (.instructionFetchFault perm) s =
        .next (s.takeTrap w side 8 (BitVec.ofNat 32 (8 + 2 * 2 ^ 8 + if perm then 2 ^ 12 else 0)) pc pc (w.active side))

/-- R326, R327, R329 to R331. `yield`, `rdts`, `sleep` and its wake, `svc` with its posting and its return, the host's
resume and its freeing of entries. -/
def Obligations.SystemInstructions : Prop :=
  (∀ (f : Fields) (s : State) (uid : Nat) (side : Side) (w : Warp),
    let pasid := s.pasidOf w
    let issued (i : Instr) (act : Prop) : Prop := Issues i s uid side w →
      if partOf i w side = 0 then Skips i s uid side w else act
    (Issues (.yield f) s uid side w →
      if w.due ≠ none ∨ (∃ h, w.handler = some h ∧ h.vec = 0x10) then
        ∃ w', exec (.yield f) s = .next ((s.setWarp w').putAway w' .savedControl) ∧ Completes (.yield f) side w w' ∧
          SameRegs w w' ∧ w'.flags = w.flags
      else ∃ w', exec (.yield f) s = .next (s.setWarp w') ∧ (s.setWarp w').warp? uid = some w' ∧
        Completes (.yield f) side w { w' with age := w.age } ∧ SameRegs w w' ∧ w'.flags = w.flags ∧ s.now ≤ w'.age ∧
        ∀ y ∈ s.warps, y.core = w.core → y.age < w'.age) ∧
    issued (.rdts f) (
      ∃ t w', exec (.rdts f) s = .next t ∧ t.warp? uid = some w' ∧ Completes (.rdts f) side w w' ∧
        Wrote w w' (partOf (.rdts f) w side) f.d 2 (fun _ => s.time.toNat) ∧ w'.flags = w.flags ∧
        (f.sub.getLsbD 0 = false → t = s.setWarp w') ∧
        (f.sub.getLsbD 0 = true → ∀ p ∈ t.pends, ¬(p.uid = uid ∧ p.side = side))) ∧
    issued (.sleep f) (
      let n := operandAt 1 f w 0 f.a
      if n = 0 then Skips (.sleep f) s uid side w
      else ∃ w' v, exec (.sleep f) s = .next (s.setWarp w') ∧ (s.setWarp w').warp? uid = some w' ∧
        w'.slot side = { v with wait := some ⟨.sleep (s.now + n), s.now⟩ } ∧
        Completes (.sleep f) side w (w'.setSlot side v) ∧ SameRegs w w' ∧ w'.flags = w.flags) ∧
    (Issues (.svc f) s uid side w →
      let i := Instr.svc f
      let tp := partOf i w side
      let ring := (s.ctx pasid).crec.service
      let wr := s.ctxNum pasid ring 8
      let used := wr - s.ctxNum pasid (ring + 8) 8
      let n := countOf tp
      let id := (s.ctx pasid).nextCall
      let first := match f.a with | .v n => n.toNat | _ => 0
      let waiting := ∃ k since, (w.slot side).wait = some ⟨.svcCall k, since⟩
      let size := (s.svcRing pasid).2.2
      (¬waiting → n = 0 → Skips i s uid side w) ∧
      (¬waiting → n ≠ 0 → size < n → exec i s = .next (s.trapField w side i .op tp)) ∧
      (¬waiting → n ≠ 0 → n ≤ size → size < n + used → exec i s = .next (s.setWarp (w.await side (.svcRoom n) s.now))) ∧
      (¬waiting → n ≠ 0 → n + used ≤ size → (s.crewWarps w.crew).length ≠ 1 →
        let entry (k : Nat) : DWord := ring + BitVec.ofNat 64 (64 + 128 * ((wr + k) % size))
        let bytes (l : Nat) : List Byte :=
          leBytes 4 (f.imm.toNat % 65536) ++ leBytes 4 (w.lane l).tid.toNat ++ leBytes 8 id ++ leBytes 4 l ++
            leBytes 4 0 ++ leBytes 8 s.time.toNat ++ leBytes 32 0 ++
            (List.range 16).flatMap fun k => leBytes 4 ((w.lane l).reg (first + k)).toNat
        let d := s.performIf fun p => p.uid == uid
        s.ctxNum pasid ring 8 = d.ctxNum pasid ring 8 → s.ctxNum pasid (ring + 8) 8 = d.ctxNum pasid (ring + 8) 8 →
        d.svcRing pasid = s.svcRing pasid →
          ∃ t w' call since, exec i s = .next t ∧ t.warp? uid = some w' ∧
            w'.slot side = { w.slot side with wait := some ⟨.svcCall id, since⟩, fetch := none, denied := [] } ∧ SameRegs w w' ∧
            (t.ctx pasid).nextCall = id + 1 ∧ (t.ctx pasid).calls = (s.ctx pasid).calls ++ [call] ∧ call.id = id ∧
            call.uid = uid ∧ call.side = side ∧ call.ready = false ∧
            call.entries = (lanesOf tp).zipIdx.map (fun (p : Nat × Nat) => (p.1, entry p.2)) ∧
            t.mem = ((call.entries.foldl (fun (s : State) (p : Nat × DWord) => s.ctxWrite pasid p.2 (bytes p.1)) d).ctxWrite
              pasid ring (leBytes 8 (wr + n))).mem) ∧
      ∀ k since call, (w.slot side).wait = some ⟨.svcCall k, since⟩ →
        ((s.ctx pasid).calls.find? fun c => c.id == k && c.ready) = some call →
          ∃ t w', exec i s = .next t ∧ t.warp? uid = some w' ∧ Completes i side w w' ∧ w'.flags = w.flags ∧ t.mem = s.mem ∧
            (t.ctx pasid).calls = (s.ctx pasid).calls.filter (fun c => c.id != call.id) ∧
            ∀ l < 32, (∃ p ∈ call.entries, p.1 = l) →
              let r := (call.results.find? fun (r : Nat × List Byte) => r.1 == l).map fun r => leNat r.2
              (∀ p, f.d = .p p → p ≠ 15 → (w'.lane l).pred p = r.isSome) ∧
              ∀ j < 255, (w'.lane l).reg j = match r with
                | some v => if first ≤ j ∧ j < first + 16 then BitVec.ofNat 32 (v / 2 ^ (32 * (j - first))) else (w.lane l).reg j
                | none => (w.lane l).reg j)) ∧
  (∀ (s : State) (uid : Nat) (side : Side),
    (∀ w t since, s.warp? uid = some w → (w.slot side).wait = some ⟨.sleep t, since⟩ →
      (t ≤ s.now → ∃ w', exec (.sleepWake uid side) s = .next (s.setWarp w') ∧
        w' = w.setSlot side { w.slot side with wait := none }) ∧
      (s.now < t → exec (.sleepWake uid side) s = .next s)) ∧
    (s.warp? uid = none → exec (.sleepWake uid side) s = .next s)) ∧
  (∀ (s : State) (q : Nat) (id : DWord),
    let pasid := (s.queue q).pasid.toNat
    let waits (c : Call) : Prop :=
      c.id = id.toNat ∧ c.ready = false ∧ ∃ w since, s.warp? c.uid = some w ∧ (w.slot c.side).wait = some ⟨.svcCall c.id, since⟩
    ((∀ c ∈ (s.ctx pasid).calls, ¬waits c) → ∃ t, exec (.resume q id) s = .next t ∧
      t.mapper.droppedResume = s.mapper.droppedResume + 1 ∧ { t with mapper := s.mapper } = s) ∧
    (∀ c, (s.ctx pasid).calls = [c] → waits c →
      let status (p : Nat × DWord) : Nat := s.ctxNum pasid (p.2 + 20) 4
      ((∃ p ∈ c.entries, status p = 0) → exec (.resume q id) s = .next s) ∧
      ((∀ p ∈ c.entries, status p ≠ 0) →
        let taken (p : Nat × DWord) : Nat × List Byte := (p.1, leBytes 64 (s.ctxNum pasid (p.2 + 64) 64))
        let results := (c.entries.filter fun p => status p == 1).map taken
        ∃ t, exec (.resume q id) s = .next t ∧ t.mem = s.mem ∧ t.warps = s.warps ∧
          (t.ctx pasid).calls = [{ c with ready := true, results := results }]))) ∧
  ∀ (s : State) (pasid : Nat) (idx : DWord), exec (.hostServiceRingFreed pasid idx) s =
    .next (s.ctxWrite pasid ((s.ctx pasid).crec.service + 8) (leBytes 8 idx.toNat))

/-! ### Pilot code and queues (R348 to R366) -/

/-- R355 to R361. The pilot operations: registers, jumps and loops; reads and writes of u64s inside the windows, and how
each fails; launches, signals, waits; how a packet ends and a queue faults. -/
def Obligations.PilotCode : Prop :=
  -- Registers and the next word.
  (∀ (x : Queue) (a b : BitVec 4) (v : DWord), (x.setK a v).kreg b = (if b = a then v else x.kreg b) ∧
    { x.setK a v with k := x.k } = x) ∧
  (∀ x : Queue,
    ((∀ l, x.loops.head? = some l → l.past ≠ x.pc + 1) →
      x.fall = { x with pc := x.pc + 1, budget := x.budget - 1, denied := false }) ∧
    ∀ l rest, x.loops = l :: rest → l.past = x.pc + 1 →
      (1 < l.left → x.fall = { x with
        pc := l.first, loops := { l with left := l.left - 1 } :: rest, budget := x.budget - 1, denied := false }) ∧
      (l.left ≤ 1 → x.fall = { x with loops := rest }.fall)) ∧
  -- A queue that faults.
  (∀ (s : State) (q : Nat) (reason : Byte) (detail : DWord),
    let x := s.queue q
    let pasid := x.pasid.toNat
    let t := s.faultQueue q reason detail
    t.queue q = { x with st := .faulted, reason := reason, detail := detail, faultTime := s.time, slot := none,
                         pend := none, effects := false, loading := false, page := [], denied := false, hosts := [] } ∧
    ((s.ctx pasid).late = [] → (∃ ps, s.run pasid (s.ctx pasid).crec.log 24 { r := true } = .ok ps) →
      (s.ctx pasid).logW - s.ctxNum pasid ((s.ctx pasid).crec.log + 8) 8 ≠ 2 ^ (s.ctx pasid).crec.logLog →
      ∃ r, (t.ctx pasid).log = (s.ctx pasid).log ++ [r] ∧ r.code = 0x46 ∧ r.aux = reason ∧ r.prog0 = x.rdx ∧
        r.prog1 = x.wrx)) ∧
  (∀ (s : State) (q : Nat), s.turn = some (.pilot q) →
    let x := s.queue q
    let pasid := x.pasid.toNat
    let goes (i : Instr) (y : Queue) : Prop := exec i s = .next (s.setQueue q y)
    let faults (i : Instr) (reason : Byte) (detail : DWord) : Prop := exec i s = .next (s.faultQueue q reason detail)
    ∀ (a b : BitVec 4) (n : BitVec 17) (o : BitVec 12),
      let y : DWord := n.signExtend 64
      (∀ p ∈ [(Instr.ldi a n, y), (.ldiSh a n, (x.kreg a <<< 17) ||| n.setWidth 64),
          (.pilotAddReg a b, x.kreg a + x.kreg b), (.pilotAddImm a n, x.kreg a + y),
          (.pilotSubReg a b, x.kreg a - x.kreg b), (.pilotSubImm a n, x.kreg a - y),
          (.pilotAndReg a b, x.kreg a &&& x.kreg b), (.pilotAndImm a n, x.kreg a &&& y),
          (.pilotOrReg a b, x.kreg a ||| x.kreg b), (.pilotOrImm a n, x.kreg a ||| y),
          (.pilotShlReg a b, x.kreg a <<< ((x.kreg b).toNat % 64)), (.pilotShlImm a n, x.kreg a <<< (y.toNat % 64)),
          (.pilotShrReg a b, x.kreg a >>> ((x.kreg b).toNat % 64)), (.pilotShrImm a n, x.kreg a >>> (y.toNat % 64))],
        goes p.1 (x.setK a p.2).fall) ∧
      (∀ acquire release, goes (.pilotFence acquire release) x.fall) ∧
      (∀ (c : BitVec 3) (t : BitVec 14),
        let u := x.kreg a
        let v := x.kreg b
        let holds : Prop := (c = 0 ∧ u = v) ∨ (c = 1 ∧ u ≠ v) ∨ (c = 2 ∧ u.toNat < v.toNat) ∨
          (c = 3 ∧ v.toNat ≤ u.toNat) ∨ (c = 4 ∧ u.toInt < v.toInt) ∨ (c = 5 ∧ v.toInt ≤ u.toInt) ∨ c = 6
        let to_ := x.pc + 1 + t.toNat
        (holds → goes (.cmpj a b c t) { x with
          pc := to_, loops := x.loops.dropWhile (fun l => decide (l.past ≤ to_)), budget := x.budget - 1, denied := false }) ∧
        (¬holds → goes (.cmpj a b c t) x.fall)) ∧
      (∀ (l : BitVec 5) (k : BitVec 7), goes (.loop l k) { x with
        pc := x.pc + 1, loops := { first := x.pc + 1, past := x.pc + 2 + l.toNat, left := k.toNat } :: x.loops,
        budget := x.budget - 1, denied := false }) ∧
      faults (.err a) 6 (x.kreg a) ∧
      (let y := { x with rdx := x.rdx + 1, busy := false, pc := 0, loops := [], effects := false, denied := false }
       if y.wrx.toNat ≤ y.rdx.toNat then
         exec .done s = .next ((s.setQueue q { y with st := .ready, slot := none, pend := none }).runMapper)
       else goes .done y) ∧
      -- Accesses.
      (let window (w : Nat) : DWord × Nat :=
         if w = 0 then (x.ring, 64 * 2 ^ x.logSize.toNat) else if w = 1 then (x.sigBase, x.sigLen.toNat)
         else (x.launchBase, x.launchLen.toNat)
       let at_ (w : Nat) : DWord := (window w).1 + x.kreg b + BitVec.ofNat 64 (8 * o.toNat)
       let inside (w : Nat) (va : DWord) : Prop :=
         va.toNat % 8 = 0 ∧ (window w).1.toNat ≤ va.toNat ∧ va.toNat + 8 ≤ (window w).1.toNat + (window w).2
       let good (va : DWord) (need : Need) (p : Loc) : Prop :=
         va.toNat < 2 ^ 57 ∧ s.translate pasid va need = .ok p ∧ s.isBad p.key 8 = false ∧
           ∀ a, p.key ≤ a → a < p.key + 8 → NoPartial s a
       let access (i : Instr) (w : Nat) (va : DWord) (need : Need) (act : Loc → Prop) : Prop :=
         (¬inside w va → faults i 3 va) ∧
         (inside w va → 2 ^ 57 ≤ va.toNat ∨ s.translate pasid va need = .refused ∨ x.denied = true → faults i 5 va) ∧
         (inside w va → va.toNat < 2 ^ 57 → s.translate pasid va need = .absent → x.denied = false →
           ∃ t gs, exec i s = .next t ∧ t.queue q = { x with st := .mapped, page := gs, denied := false }) ∧
         ∀ p, inside w va → x.denied = false → good va need p → act p
       let reads (i : Instr) (p : Loc) : Prop :=
         ∃ t, exec i s = .next t ∧ t.queue q = (x.setK a (BitVec.ofNat 64 (Memory.num s.mem p.key 8))).fall ∧
           ∀ a, NoPartial s a → Memory.get t.mem a = Memory.get s.mem a
       let writes (i : Instr) (p : Loc) (v : Nat) : Prop :=
         ∃ t, exec i s = .next t ∧ t.queue q = { x.fall with effects := true } ∧ Memory.num t.mem p.key 8 = v ∧
           ∀ a, NoPartial s a → Outside a p.key 8 → Memory.get t.mem a = Memory.get s.mem a
       (∀ k : BitVec 3, access (.ldp a k) 0
         (x.ring + BitVec.ofNat 64 (64 * (x.rdx.toNat % 2 ^ x.logSize.toNat) + 8 * k.toNat)) { r := true }
         fun p => reads (.ldp a k) p) ∧
       (∀ w : BitVec 2, access (.ldq a b w o) w.toNat (at_ w.toNat) { r := true } fun p => reads (.ldq a b w o) p) ∧
       (∀ w : BitVec 2, access (.stq a b w o) w.toNat (at_ w.toNat) { w := true }
         fun p => writes (.stq a b w o) p (x.kreg a).toNat) ∧
       access (.signalStore a b o) 1 (at_ 1) { w := true } (fun p => writes (.signalStore a b o) p (x.kreg a).toNat) ∧
       access (.signalAdd a b o) 1 (at_ 1) { r := true, w := true }
         (fun p => writes (.signalAdd a b o) p ((Memory.num s.mem p.key 8 + (x.kreg a).toNat) % 2 ^ 64)) ∧
       (access (.launch b o) 2 (at_ 2) { r := true } fun p =>
         ((at_ 2).toNat % 256 ≠ 0 → exec (.launch b o) s = .next ((s.holdRun p.key 8).faultQueue q 7 (at_ 2))) ∧
         ((at_ 2).toNat % 256 = 0 → ∀ ps, Reach s pasid (at_ 2) 256 256 { r := true } ps →
           ∃ u : State, (∀ a, NoPartial s a → Memory.get u.mem a = Memory.get s.mem a) ∧ u.queues = s.queues ∧
             u.launches = s.launches ∧ u.ctxs = s.ctxs ∧
             exec (.launch b o) s = .next (match u.addLaunch q (at_ 2) (runBytes s.mem ps) with
               | some t => t.setQueue q { x.fall with effects := true }
               | none => u.faultQueue q 7 (at_ 2)))) ∧
       ∀ c : BitVec 3, exec (.wait a b o c) s = .next (s.waitLook q a b o c) ∧
         (¬inside 1 (at_ 1) → s.waitLook q a b o c = (s.disarm (.queue q)).faultQueue q 3 (at_ 1)) ∧
         ∀ p, inside 1 (at_ 1) → x.denied = false → good (at_ 1) { r := true } p →
           let t := s.waitLook q a b o c
           let v := Memory.num s.mem p.key 8
           let k := (x.kreg a).toNat
           let holds : Prop := (c = 0 ∧ v = k) ∨ (c = 1 ∧ v ≠ k) ∨ (c = 2 ∧ v < k) ∨ (c = 3 ∧ k ≤ v)
           (holds → t.queue q = { x.fall with st := .mapped } ∧ ∀ m ∈ t.monitors, m.who ≠ .queue q) ∧
           (c.toNat ≤ 3 → ¬holds → t.queue q = { x with st := .waiting, denied := false } ∧
             ∃ m ∈ t.monitors, m.who = .queue q ∧ m.line = lineOf p.key))) ∧
  -- Events.
  ∀ (s : State) (q : Nat),
    let x := s.queue q
    let late : Prop := x.st = .mapped ∧ x.busy = true ∧ x.page = [] ∧ x.budget = 0 ∧ x.pc < x.code.length
    (late → exec (.budgetExceeded q) s = .next (s.faultQueue q 2 (BitVec.ofNat 64 x.pc))) ∧
    (¬late → exec (.budgetExceeded q) s = .next s) ∧
    (let seen : Prop := ∃ m ∈ s.monitors, m.who = .queue q ∧ m.hit = true
     (x.st ≠ .waiting ∨ ¬seen → exec (.pilotWaitWake q) s = .next s) ∧
     ∀ a b o c, x.st = .waiting → seen → decodePilot (x.code.getD x.pc 0) = .ok (.wait a b o c) →
       exec (.pilotWaitWake q) s = .next (s.waitLook q a b o c))

/-- R348, R349, R351 to R354, R358, R371, R373, R395. Enabling a queue, notifies, the host-assisted registers, the
mapper's choices and the host's map and evict commands, and the two times at which a pending queue is heard. -/
def Obligations.QueueMapping : Prop :=
  -- What the load-time checks accept.
  (∀ bs : List Byte,
    let n (o k : Nat) : Nat := leNat ((bs.drop o).take k)
    ctxOk bs = true ↔ n 0 8 % 4096 = 0 ∧ n 8 8 % 32 = 0 ∧ n 0x10 1 ≤ 20 ∧ 10 ≤ n 0x11 1 ∧ n 0x11 1 ≤ 24 ∧ n 0x12 6 = 0 ∧
      n 0x18 8 % 64 = 0 ∧ n 0x20 8 % 4096 = 0 ∧ n 0x28 8 % 64 = 0 ∧ n 0x30 8 % 4096 = 0 ∧ n 0x38 8 % 4096 = 0 ∧
      n 0x40 8 % 64 = 0 ∧ 4 ≤ n 0x48 1 ∧ n 0x48 1 ≤ 16 ∧ n 0x49 3 = 0 ∧ n 0x50 176 = 0) ∧
  (∀ ws : List Word, codeFault ws = none → ∀ i w, ws[i]? = some w → ∃ op, decodePilot w = .ok op ∧
    ∀ a b c t, op = .cmpj a b c t → i + 1 + t.toNat < ws.length) ∧
  -- What the mapper chooses.
  (∀ s : State,
    let waits (part q : Nat) : Prop := q < s.queues.length ∧ (s.queue q).st = .pending ∧ (s.queuePart q).base = part ∧
      (s.queue q).loading = false ∧ s.slotMap q = false ∧ s.packetMode q = false ∧ s.held q = false
    let older (p q : Nat) : Prop := (s.queue q).prio.toNat < (s.queue p).prio.toNat ∨
      ((s.queue p).prio = (s.queue q).prio ∧ (s.queue p).pend.getD 0 < (s.queue q).pend.getD 0)
    let free (k : Nat) : Prop := ∀ x ∈ s.queues, x.slot ≠ some k
    (∀ part q, s.nextPending part = some q → waits part q ∧ ∀ p, waits part p → ¬older p q) ∧
    (∀ part, s.nextPending part = none → ∀ q, ¬waits part q) ∧
    (∀ q, q ∈ s.nextPendings ↔ ∃ p ∈ s.parts, s.nextPending p.base = some q) ∧
    -- A free slot goes to a queue of some partition that has one.
    (∀ k, s.nextPendings ≠ [] → s.freeSlot = some k → k < 128 ∧ free k ∧
      ∃ q ∈ s.nextPendings, ∃ n, s.mapStep = some (({ s with free := n } : State).mapTo q k false)) ∧
    (∀ q k byHost, q < s.queues.length →
      (s.mapTo q k byHost).queue q = { s.queue q with
        st := if s.inWait q then .waiting else .mapped, slot := some k, mappedAt := s.now, byHost := byHost,
        sliced := false, pend := none, told := false, counted := false }) ∧
    -- A wait that queues which may not be pre-empted cause is counted once (R353).
    ((∀ k < 128, ¬free k) → (∀ x ∈ s.queues, x.slot ≠ none → x.preemptible = false) →
      s.press.mapper.pressure = s.mapper.pressure + BitVec.ofNat 32 ((List.range s.queues.length).countP fun q =>
        decide ((s.queue q).st = .pending ∧ s.packetMode q = false ∧ (s.queue q).counted = false))) ∧
    (∀ q ∈ s.nextPendings, ∀ v, s.freeSlot = none → s.victim q = some v →
      (s.queue v).slot ≠ none ∧ (s.queue v).preemptible = true ∧ (s.queue v).byHost = false ∧ s.slotMap v = false ∧
      (s.queuePart v).base = (s.queuePart q).base ∧
      ((s.queue v).prio.toNat < (s.queue q).prio.toNat ∨
        ((s.queue v).prio = (s.queue q).prio ∧ 2000000 ≤ s.now - (s.queue v).mappedAt)) ∧
      (s.evictQueue v).queue v = { s.queue v with
        st := .pending, slot := none, pend := some s.now, told := false, counted := false } ∧
      ∀ c ∈ s.crews, (∃ l ∈ s.launches, l.queue = v ∧ l.uid = c.launch) → c.pre = none →
        (∃ w ∈ s.warps, w.crew = c.uid ∧ (w.place = .resident ∨ w.place = .parked)) →
          { c with pre := some (.deferred s.now) } ∈ (s.evictQueue v).crews)) ∧
  (∀ (s : State) (q : Nat), q < s.queues.length →
    let x := s.queue q
    let pasid := x.pasid.toNat
    -- Enabling.
    (let i := Instr.queueEnable q
     let bs := Memory.read s.mem ((s.queuePart q).hbm x.ctx.toNat) 256
     let may : Prop := x.st = .disabled ∧ s.sec.booted = true ∧ s.sec.recovery = false ∧
       Config.tdiEnables (s.queuePart q).tdi.code = true
     let good : Prop := x.ctx.toNat % 256 = 0 ∧ s.isBad ((s.queuePart q).hbm x.ctx.toNat) 256 = false ∧ ctxOk bs = true
     let u := (s.openCtx pasid x.ctx (.of bs)).takeModes pasid
     let n := x.pilotLen.toNat
     (¬may → exec i s = .next s) ∧
     (may → ¬good → ∃ t, exec i s = .next t ∧
       t.queue q = { x with st := .faulted, reason := 1, detail := 0xFFFFFFFF, faultTime := s.time }) ∧
     (may → good → u.packetMode q = true → ∃ t, exec i s = .next t ∧ (t.queue q).st = .ready ∧ (t.queue q).code = []) ∧
     (may → good → u.packetMode q = false → ∀ ps, (if n = 0 then ps = [] else Reach u pasid x.pilot (4 * n) 1 { r := true } ps) →
       let code := runBytes u.mem ps
       let ws : List Word := (List.range n).map fun k => BitVec.ofNat 32 (leNat ((code.drop (4 * k)).take 4))
       match codeFault ws with
       | none => ∃ t, exec i s = .next t ∧ t.queue q = { x with
           st := .ready, loading := false, code := ws, k := [], pc := 0, loops := [], budget := 512, busy := false,
           effects := false, page := [], denied := false, hosts := [], slot := none, pend := none }
       | some (k, r) => ∃ t, exec i s = .next t ∧ (t.queue q).st = .faulted ∧ (t.queue q).reason = 1 ∧
           (t.queue q).detail = BitVec.ofNat 64 (k + r * 2 ^ 16))) ∧
    -- Notifies.
    (∀ v : DWord,
      let i := Instr.notify q v
      let busy : Prop := x.st ≠ .disabled ∧ x.st ≠ .resetting ∧ x.st ≠ .faulted
      (x.st = .disabled ∨ x.st = .resetting → exec i s = .next s) ∧
      (x.st = .faulted → exec i s = .next (s.setQueue q { x with wrx := v })) ∧
      (busy → v.toNat ≤ x.wrx.toNat → exec i s = .next s) ∧
      (busy → x.wrx.toNat < v.toNat → 2 ^ x.logSize.toNat < v.toNat - x.rdx.toNat →
        exec i s = .next (s.faultQueue q 8 v)) ∧
      (busy → x.wrx.toNat < v.toNat → v.toNat - x.rdx.toNat ≤ 2 ^ x.logSize.toNat →
        ∃ t, exec i s = .next t ∧ (t.queue q).wrx = v ∧ (t.queue q).rdx = x.rdx ∧ t.mem = s.mem ∧
          (x.st ≠ .ready → t.queue q = { x with wrx := v }) ∧ (x.st = .ready → (t.queue q).st ∈ [.pending, .mapped, .waiting]))) ∧
    -- Host-assisted registers.
    (let acts : Prop := s.packetMode q = true ∧ x.st ≠ .disabled ∧ x.st ≠ .faulted ∧ x.st ≠ .resetting
     (∀ va : DWord,
       let i := Instr.hostLaunch q va
       let inside : Prop := x.launchBase.toNat ≤ va.toNat ∧ va.toNat < x.launchBase.toNat + x.launchLen.toNat ∧
         va.toNat % 256 = 0
       (¬acts → exec i s = .next s) ∧ (acts → ¬inside → exec i s = .next (s.faultQueue q 3 va)) ∧
       (acts → inside → ∀ ps, Reach s pasid va 256 256 { r := true } ps →
         ∃ u : State, (∀ a, NoPartial s a → Memory.get u.mem a = Memory.get s.mem a) ∧ u.queues = s.queues ∧
           u.launches = s.launches ∧ u.ctxs = s.ctxs ∧ exec i s = .next (match u.addLaunch q va (runBytes s.mem ps) with
             | some t => t
             | none => u.faultQueue q 7 va))) ∧
     ∀ idx : DWord,
       let i := Instr.hostReadIndex q idx
       (¬acts ∨ idx.toNat ≤ x.rdx.toNat ∨ x.wrx.toNat < idx.toNat → exec i s = .next s) ∧
       (acts → x.rdx.toNat < idx.toNat → idx.toNat ≤ x.wrx.toNat → ∃ t, exec i s = .next t ∧ (t.queue q).rdx = idx ∧
         (t.queue q).st = if idx = x.wrx ∧ x.st = .pending then .ready else x.st)) ∧
    -- Times.
    (let due : Prop := x.slot ≠ none ∧ x.preemptible = true ∧ x.sliced = false ∧ 2000000 ≤ s.now - x.mappedAt ∧
       ∃ p < s.queues.length, (s.queue p).st = .pending ∧ (s.queue p).prio = x.prio ∧
         (s.queuePart p).base = (s.queuePart q).base
     (¬due → exec (.sliceExpiry q) s = .next s) ∧
     (due → exec (.sliceExpiry q) s = .next ((s.setQueue q { x with sliced := true }).request q).runMapper)) ∧
    (let late : Prop := x.st = .pending ∧ x.told = false ∧ s.packetMode q = false ∧
       1000000 ≤ s.now - x.pend.getD s.now
     (¬late → exec (.pendingWaitTimeout q) s = .next s) ∧
     (late → exec (.pendingWaitTimeout q) s = .next ((s.setQueue q { x with told := true }).raiseDev 0)))) ∧
  -- The commands of the host.
  ∀ (s : State) (cmd : Word),
    let q := cmd.toNat % 4096
    let slot := cmd.toNat / 2 ^ 12 % 128
    let reserved : Prop := cmd.extractLsb' 19 12 ≠ 0
    let result (i : Instr) (r : Nat) : Prop :=
      exec i s = .next { s with mapper := { s.mapper with mapResult := BitVec.ofNat 4 r } }
    let free : Prop := ∀ x ∈ s.queues, x.slot ≠ some slot
    let pending : Prop := (s.queue q).st = .pending ∧ s.held q = false
    (reserved → result (.map cmd) 5 ∧ result (.evict cmd) 5) ∧
    (¬reserved → ¬pending → result (.map cmd) 2) ∧
    (¬reserved → pending → s.slotMap q = false → result (.map cmd) 4) ∧
    (¬reserved → pending → s.slotMap q = true → ¬free → result (.map cmd) 1) ∧
    -- A queue whose packets the host performs, or whose code is not checked yet, gets no slot (R358, R395); the result is
    -- left open (log entry 64).
    (¬reserved → pending → s.slotMap q = true → free → (s.packetMode q = true ∨ (s.queue q).loading = true) →
      ∃ n r, exec (.map cmd) s = .next { s with free := n, mapper := { s.mapper with mapResult := r } }) ∧
    (¬reserved → pending → s.slotMap q = true → free → s.packetMode q = false → (s.queue q).loading = false → ∃ t, exec (.map cmd) s = .next t ∧ t.mapper.mapResult = 0 ∧
      (t.queue q).slot = some slot ∧ (t.queue q).byHost = true ∧
      (t.queue q).st = if ∃ m ∈ s.monitors, m.who = .queue q then .waiting else .mapped) ∧
    (¬reserved → free → result (.evict cmd) 1) ∧
    ∀ v < s.queues.length, ¬reserved → (s.queue v).slot = some slot →
      (∀ u < s.queues.length, (s.queue u).slot = some slot → u = v) →
      (s.slotMap v = false → result (.evict cmd) 4) ∧
      (s.slotMap v = true → (s.queue v).preemptible = false → result (.evict cmd) 3) ∧
      (s.slotMap v = true → (s.queue v).preemptible = true → ∃ t, exec (.evict cmd) s = .next t ∧ t.mapper.mapResult = 0 ∧
        ∃ c, t.queue v = { s.queue v with st := .pending, slot := none, pend := some s.now, told := false, counted := c })

/-! ### Launches, pages and translations (R31, R342 to R346, R362 to R370) -/

/-- R31, R362 to R366, R368. Which records are accepted, where and how a crew is placed, what the end of a launch does,
and the choice of the slot that issues. -/
def Obligations.Launches : Prop :=
  -- The record.
  (∀ (bs : List Byte) (copy : Bool),
    let n (o k : Nat) : Nat := leNat ((bs.drop o).take k)
    let item : Prop := n 0 4 % 4 = 1
    let ro (r : Nat) : Nat := 0x10 + 16 * r
    let used (r : Nat) : Prop := n (ro r + 4) 2 ≠ 0
    let total (g : Nat → Nat) : Nat := ((List.range 4).map fun r => if n (ro r + 4) 2 = 0 then 0 else g (ro r)).sum
    let warps := total fun o => n (o + 4) 2 / 32
    recordOk bs copy = true ↔
      n 0 4 % 4 ≤ 1 ∧ n 0 4 < 512 ∧ (item → 1 ≤ n 4 4 ∧ n 4 4 ≤ 64 ∧ n 0x70 2 = 1) ∧
      (¬item → (n 0 4).testBit 4 = false ∧ 1 ≤ n 4 4 ∧ n 4 4 ≤ 2 ^ 31 - 2 ∧ n 0x58 8 = 0 ∧ n 0x70 2 = warps) ∧
      n 8 8 % 16 = 0 ∧ used 0 ∧
      (∀ r < 4, n (ro r + 12) 4 = 0 ∧ (item → r ≠ 0 → n (ro r) 16 = 0) ∧
        (used r → n (ro r + 4) 2 % 32 = 0 ∧ n (ro r) 4 % 16 = 0 ∧ 1 ≤ n (ro r + 6) 1 ∧ n (ro r + 6) 1 ≤ 32 ∧
          1 ≤ n (ro r + 7) 1 ∧ n (ro r + 7) 1 ≤ 15 ∧ n (ro r + 8) 1 ≤ 16 ∧ n (ro r + 9) 1 ≤ 8 ∧ n (ro r + 10) 2 ≤ 256)) ∧
      1 ≤ n 0x70 2 ∧ n 0x70 2 ≤ 64 ∧ n 0x72 2 = 0 ∧ n 0x78 8 = 0 ∧ n 0xC0 64 = 0 ∧
      (∀ i < 8, n 0x74 4 / 16 ^ i % 16 ≤ 4 ∧ (copy = false → n 0x74 4 / 16 ^ i % 16 ≠ 1)) ∧
      -- A crew that could never fit on a core is refused.
      total (fun o => n (o + 8) 1) ≤ 16 ∧ total (fun o => n (o + 9) 1) ≤ 8 ∧ total (fun o => n (o + 10) 2) ≤ 256 ∧
      warps ≤ 64 ∧ total (fun o => n (o + 4) 2 / 32 * (n (o + 6) 1 * 8 * 128)) ≤ 524288) ∧
  (∀ (s : State) (q : Nat) (va : DWord) (bs : List Byte),
    s.addLaunch q va bs =
      if va.toNat % 256 = 0 ∧ recordOk bs (s.hasCopy (s.queuePart q)) = true then
        some (({ s with
          launches := s.launches ++ [{ uid := s.serial, queue := q, gen := (s.queue q).gen, pasid := (s.queue q).pasid.toNat,
                                       recAddr := va, lrec := .of bs, assist := s.assist (s.queuePart q) }]
          serial := s.serial + 1 } : State).takeModes (s.queue q).pasid.toNat)
      else none) ∧
  -- The dispatcher.
  (∀ (s : State) (id core : Nat) (l : Launch), s.launch? id = some l →
    let i := Instr.crewDispatch id core
    let may (m : Launch) : Prop :=
      (m.lrec.chain = true → ∀ x ∈ s.launches, x.queue = m.queue → ¬x.uid < m.uid) ∧ m.ending = false ∧
      s.mayRun m.queue = true ∧ s.fits (s.ctxPart m.pasid) core m.needs = true ∧
      (m.lrec.item = true → s.itemsDone m = false ∧
        -- Parked and saved crews may come back to any core (log entry 67).
        (s.crews.countP fun c => c.launch == m.uid && (c.core == core || c.core == 768)) < m.lrec.count) ∧
      (m.lrec.item = false → m.nextCrew * (32 * m.lrec.crewSize) < m.lrec.count ∧
        (m.tidBase ≠ none ∨ s.tidBlock m.pasid m.lrec.count ≠ none))
    let goes : Prop := may l ∧ ∀ m ∈ s.launches, l.lrec.prio < m.lrec.prio → ¬may m
    0 < l.lrec.crewSize → (∀ m ∈ s.launches, 0 < m.lrec.crewSize) →
    (¬goes → exec i s = .next s) ∧
    (goes → (∀ w ∈ s.warps, w.place = .resident → w.core = core → ∃ c ∈ s.crews, c.uid = w.crew ∧ c.core = core) →
      (∀ w ∈ s.warps, w.wid < 64) → (l.lrec.item = false → l.lrec.warps.length ≤ l.lrec.crewSize) →
      let taken := if l.lrec.fused = true ∧ clusterOf core ∉ l.clusters then l.clusters ++ [clusterOf core] else l.clusters
      ∃ (t : State) (c : Crew) (ws : List Warp), exec i s = .next t ∧ t.crews = s.crews ++ [c] ∧ t.warps = s.warps ++ ws ∧
        c.uid = s.serial ∧ c.launch = id ∧ c.core = core ∧ c.tiles = [] ∧ c.envs = [] ∧ c.loc = [] ∧ c.etol = 0 ∧
        c.pipes = [] ∧ c.tags = [] ∧ c.pre = none ∧
        c.nT = (l.lrec.roles.map Role.tiles).sum ∧ c.nE = (l.lrec.roles.map Role.envs).sum ∧
        c.nL = (l.lrec.roles.map Role.kib).sum ∧
        ws.Pairwise (fun a b => a.wid < b.wid) ∧
        (∀ w ∈ ws, w.crew = s.serial ∧ w.launch = id ∧ w.core = core ∧ w.place = .resident ∧ w.age = s.now ∧ w.wid < 64 ∧
          w.sregs = [] ∧ w.flags = 0 ∧ w.rmode = 0 ∧ w.handler = none ∧ w.stack = [] ∧ w.parked = [] ∧ w.star = {} ∧
          ∀ y ∈ s.warps, y.place = .resident → y.core = core → y.wid ≠ w.wid) ∧
        (∀ k ∈ l1sOf l.lrec.fused core, (∀ x ∈ (t.core k).l1, x.pasid ≠ l.pasid) ∧ ∀ x ∈ (t.core k).code, x.pasid ≠ l.pasid) ∧
        (∀ a, NoPartial s a → Memory.get t.mem a = Memory.get s.mem a) ∧
        (l.lrec.item = true → t.launch? id = some { l with
            nextCrew := l.nextCrew + 1, tidBase := none, clusters := taken } ∧
          ∀ w ∈ ws, w.live = 0 ∧ w.vacant = 0xFFFFFFFF ∧ w.port.mask = 0 ∧ ∃ since, w.port.wait = some ⟨.packer, since⟩) ∧
        (l.lrec.item = false → ∃ base, (l.tidBase = some base ∨ (l.tidBase = none ∧ s.tidBlock l.pasid l.lrec.count = some base)) ∧
          t.launch? id = some { l with nextCrew := l.nextCrew + 1, tidBase := some base, clusters := taken } ∧
          ∀ j, let first := l.nextCrew * 32 * l.lrec.crewSize + 32 * j
            (j < ws.length ↔ j < l.lrec.warps.length ∧ first < l.lrec.count) ∧
            ∀ w r, ws[j]? = some w → l.lrec.warps[j]? = some r →
              w.vN = r.v8 * 8 ∧ w.sN = r.s8 * 8 ∧ w.port.pc = l.lrec.code + r.entry.setWidth 64 ∧ w.port.mask = w.live ∧
              w.port.latched = w.live ∧ w.port.sig = 0 ∧ w.port.wait = none ∧
              ∀ k < 32, w.lane k = if first + k < l.lrec.count then
                { st := .live, tid := BitVec.ofNat 32 (base + first + k) } else {}))) ∧
  (∀ (s : State) (core : Nat) (n : Needs), s.hasRoom core n = true ↔
    let all := n :: (s.crews.filter fun c => c.core == core).map s.crewNeeds
    (all.map Needs.slots).sum ≤ 64 ∧ (all.map fun m => m.vs.sum * 128).sum ≤ 512 * 1024 ∧
    (all.map Needs.tiles).sum ≤ 16 ∧ (all.map Needs.envs).sum ≤ 16 ∧ (all.map Needs.loc).sum ≤ 256 ∧
    ∀ t ∈ n.tags, s.tagFree core t = true) ∧
  (∀ (s : State) (pasid n base : Nat), 0 < n → s.tidBlock pasid n = some base →
    let used (t : Nat) : Prop := t ∈ s.namedTids pasid ∨ ∃ b ∈ s.tidBlocks pasid, b.1 ≤ t ∧ t < b.1 + b.2
    (∀ t, base ≤ t → t < base + n → ¬used t ∧ t ≤ 0x7FFFFFFD) ∧ ∀ b < base, ∃ t, b ≤ t ∧ t < b + n ∧ used t) ∧
  -- The end of a launch.
  (∀ (s : State) (id : Nat) (l : Launch), s.launch? id = some l → (∀ c, ((s.core c).l1.map L1Line.line).Nodup) →
    let i := Instr.launchEnd id
    let ended : Prop := (s.queue l.queue).st ≠ .resetting ∧ ((l.ending = true ∧ l.groups = []) ∨
      (l.ending = false ∧ (l.lrec.chain = true → ∀ x ∈ s.launches, x.queue = l.queue → ¬x.uid < l.uid) ∧
        (∀ w ∈ s.warps, w.launch ≠ id) ∧ (l.lrec.item = true → s.itemsDone l = true) ∧
        (l.lrec.item = false → l.tidBase ≠ none ∧ l.crews ≤ l.nextCrew)))
    let u : State := if l.ending then s else s.settleLaunch l
    let a := l.lrec.signal
    let pasid := l.pasid
    let gone (t : State) : Prop := t.launches = s.launches.filter fun (x : Launch) => x.uid != id
    let fails : Prop := a.toNat % 8 ≠ 0 ∨ 2 ^ 57 ≤ a.toNat ∨ u.translate pasid a { r := true, w := true } = .refused ∨
      l.denied = true
    (¬ended → exec i s = .next s) ∧
    (ended →
      (l.ending = false → (∀ p ∈ u.pends, p ∈ s.pends ∧ ¬(p.queue = l.queue ∧ p.pasid = pasid)) ∧
        (∀ c, ∀ x ∈ (u.core c).l1, x.pasid = pasid → ∃ data, x.st = .clean data) ∧
        ∀ b, NoPartial s b → NoPending s b → Memory.get u.mem b = Memory.get s.mem b) ∧
      (a = 0 → ∃ t, exec i s = .next t ∧ gone t ∧ t.mem = u.mem) ∧
      (a ≠ 0 → fails → ∃ t, exec i s = .next t ∧ gone t ∧ t.queues = s.queues ∧
        ((u.ctx pasid).late = [] → (∃ ps, u.run pasid (u.ctx pasid).crec.log 24 { r := true } = .ok ps) →
          (u.ctx pasid).logW - u.ctxNum pasid ((u.ctx pasid).crec.log + 8) 8 ≠ 2 ^ (u.ctx pasid).crec.logLog →
          ∃ r, (t.ctx pasid).log = (u.ctx pasid).log ++ [r] ∧ r.code = 0x4A ∧ r.source = 7 ∧ r.addr = a ∧
            r.queue = BitVec.ofNat 16 l.queue)) ∧
      (a ≠ 0 → ¬fails → u.translate pasid a { r := true, w := true } = .absent → ∃ t gs, exec i s = .next t ∧
        t.launch? id = some { l with ending := true, groups := gs, denied := false } ∧ t.mem = u.mem) ∧
      (a ≠ 0 → ¬fails → ∀ p, u.translate pasid a { r := true, w := true } = .ok p → u.isBad p.key 8 = false →
        (∀ b, p.key ≤ b → b < p.key + 8 → NoPartial u b) →
          ∃ t, exec i s = .next t ∧ gone t ∧ Memory.num t.mem p.key 8 = (Memory.num u.mem p.key 8 + 2 ^ 64 - 1) % 2 ^ 64 ∧
            ∀ b, NoPartial u b → Outside b p.key 8 → Memory.get t.mem b = Memory.get u.mem b))) ∧
  -- The issue choice.
  (∀ (s : State) (uid : Nat) (w : Warp), s.warp? uid = some w → 0 < s.power.clock →
    exec (.issuePromotion uid) s =
      .next (if s.runnable w = true ∧ 64 * 1000 ≤ (s.now - w.readySince) * s.power.clock then
        s.setWarp { w with promoted := true } else s)) ∧
  (∀ f : Fields,
    let wide := match f.d with | .v _ | .p _ => Port.vector | _ => .second
    portOf (.add f) = wide ∧ portOf (.fadd f) = wide ∧ portOf (.vote f) = wide ∧ portOf (.ld f) = .second ∧
      portOf (.qpop f) = .second) ∧
  ∀ s : State,
    let prio (w : Warp) : Nat := (s.launch w.launch).lrec.prio
    let may (w : Warp) (side : Side) (p : Port) : Prop := s.portAt w side = p ∧ s.mayIssue w side p = true
    (∀ core p uid side, s.portChoice core p = some (uid, side) → ∃ w ∈ s.warps, w.uid = uid ∧ w.core = core ∧ may w side p ∧
      ∀ y ∈ s.warps, y.core = core → (∃ o, may y o p) →
        (y.promoted = true → w.promoted = true) ∧ (y.promoted = w.promoted → prio y ≤ prio w) ∧
        (y.promoted = w.promoted → prio y = prio w → w.age ≤ y.age) ∧
        (y.promoted = w.promoted → prio y = prio w → y.age = w.age → w.wid ≤ y.wid)) ∧
    (∀ core p, s.portChoice core p = none → ∀ w ∈ s.warps, w.core = core → ∀ side, ¬may w side p) ∧
    (∀ uid side, s.issueChoice = some (uid, side) → ∃ core p, s.portChoice core p = some (uid, side)) ∧
    (s.issueChoice = none → ∀ w ∈ s.warps, ∀ side p, ¬may w side p) ∧
    -- One instruction a cycle on each port of a core; of a warp's two slots, the one that did not issue last (R120, R367).
    ∀ w side p, s.mayIssue w side p = true →
      let o := otherSide side
      s.eligible w side = true ∧ (∀ c ∈ s.cycle, ¬(c.core = w.core ∧ c.port = p) ∧ ¬(c.uid = w.uid ∧ c.side = side)) ∧
      (side = w.last → s.eligible w o = true → s.portAt w o = p → ∃ c ∈ s.cycle, c.uid = w.uid ∧ c.side = o)

/-- R342 to R344, R346, R370. The walk of the page tables: which entry each level reads, how it ends, and where a page of
each size puts an address; an entry that a TLB still holds may be used in its place. What the answers of the host to page
and translation requests do, and invalidations. -/
def Obligations.PagesAndTranslations : Prop :=
  (∀ (s : State) (pasid : Nat) (va : DWord) (n : Need),
    let part := s.ctxPart pasid
    let tr := s.translate pasid va n
    (s.ctx pasid).assist.getLsbD 0 = false →
    let ent (table ofs : Nat) : DWord := BitVec.ofNat 64 (Memory.num s.mem (part.hbm (table + 8 * ofs)) 8)
    let idx (lo : Nat) : Nat := va.toNat / 2 ^ lo % 512
    let pa (e : DWord) : Nat := e.toNat % 2 ^ 52 / 4096 * 4096
    let e5 := ent (s.ctx pasid).crec.root.toNat (idx 48)
    let e4 := ent (pa e5) (idx 39)
    let e3 := ent (pa e4) (idx 30)
    let e2 := ent (pa e3) (idx 21)
    let e1 := ent (pa e2) (idx 12)
    let bit (e : DWord) (k : Nat) : Prop := e.getLsbD k = true
    let clear (e : DWord) (ks : List Nat) : Prop := ∀ k ∈ ks, e.getLsbD k = false
    let high : List Nat := [7, 10, 11] ++ (List.range 12).map (52 + ·)
    -- A valid table entry, and a leaf of a page of 2 to the `log` bytes.
    let table (e : DWord) : Prop := bit e 0 ∧ clear e ([4, 5, 6, 8, 9] ++ high)
    let leaf (e : DWord) (log : Nat) : Prop :=
      bit e 0 ∧ clear e high ∧ ¬(bit e 8 ∧ bit e 9) ∧ (clear e [8, 9] → clear e [6]) ∧ pa e % 2 ^ log = 0
    let maps (e : DWord) (log : Nat) : Prop :=
      tr = if (n.r && !e.getLsbD 1) || (n.w && !e.getLsbD 2) || (n.x && !e.getLsbD 3) then .refused
        else s.place part (e.extractLsb' 8 2) (e.getLsbD 6) (pa e + va.toNat % 2 ^ log)
    let held (t : Tlb) : Prop := t.pasid = pasid ∧ t.va.toNat / 2 ^ t.log = va.toNat / 2 ^ t.log
    -- No entry that the walk reads lies in a bad line (R390).
    let good (table ofs : Nat) : Prop := s.isBad (part.hbm (table + 8 * ofs)) 8 = false
    let sound : Prop := good (s.ctx pasid).crec.root.toNat (idx 48) ∧
      (table e5 → good (pa e5) (idx 39) ∧
        (table e4 → good (pa e4) (idx 30) ∧ (table e3 → good (pa e3) (idx 21) ∧ (table e2 → good (pa e2) (idx 12)))))
    ((∀ t ∈ s.tlb, ¬held t) → sound →
      (∀ e, (e = e5 ∨ (table e5 ∧ (e = e4 ∨ (table e4 ∧ (e = e3 ∨ (table e3 ∧ (e = e2 ∨ (table e2 ∧ e = e1)))))))) →
        clear e [0] → tr = .absent) ∧
      (∀ e, (e = e5 ∨ (table e5 ∧ (e = e4 ∨ (table e4 ∧ (e = e3 ∨ (table e3 ∧ e = e2)))))) → bit e 0 →
        (¬clear e (5 :: high) → tr = .refused) ∧ (e = e5 ∨ e = e4 → bit e 4 → tr = .refused)) ∧
      (table e5 → table e4 → bit e3 4 → leaf e3 30 → clear e3 [5] → maps e3 30) ∧
      (table e5 → table e4 → table e3 → bit e2 4 → leaf e2 21 → clear e2 [5] → maps e2 21) ∧
      (table e5 → table e4 → table e3 → table e2 → leaf e1 12 → clear e1 [5] → maps e1 12) ∧
      (table e5 → table e4 → table e3 → table e2 → leaf e1 16 → bit e1 5 →
        (∀ i < 16, ent (pa e2) (idx 12 / 16 * 16 + i) = e1) → maps e1 16)) ∧
    -- The entry that a TLB holds, or the page that the tables give.
    (tr = ({ s with tlb := [] } : State).translate pasid va n ∨ ∃ t ∈ s.tlb, held t ∧
      tr = if (n.r && !t.r) || (n.w && !t.w) || (n.x && !t.x) then .refused
        else s.place part t.mem t.sysatom (t.pa.toNat / 2 ^ t.log * 2 ^ t.log + va.toNat % 2 ^ t.log))) ∧
  (∀ (s : State) (pasid g : Nat),
    (∀ x ∈ s.queues, x.pasid.toNat = pasid → x.hosts = [] ∧ x.loading = false) → (s.ctx pasid).late = [] →
    (s.warps.map Warp.uid).Nodup → (s.pageReqs.map fun r => (r.pasid, r.group)).Nodup →
    -- Every path of the context that waits for pages has been told of those of `out`, and of the pages that were refused.
    let told (t : State) (out : Nat → Prop) (refused : Nat → DWord → Prop) : Prop :=
      ∀ w ∈ s.warps, s.pasidOf w = pasid → ∀ side gs since, (w.slot side).mask ≠ 0 → (w.slot side).fetch = none →
        (w.slot side).wait = some ⟨.page gs, since⟩ → ∃ w' gs' d, t.warp? w.uid = some w' ∧
          w'.slot side = { w.slot side with wait := some ⟨.page gs', since⟩, denied := d } ∧
          (∀ x, x ∈ gs' ↔ x ∈ gs ∧ ¬out x ∧ x ≠ grpRoom) ∧
          ∀ p, p ∈ d ↔ p ∈ (w.slot side).denied ∨ ∃ x ∈ gs, refused x p
    let dropped (t : State) : Prop := t.pageReqs = s.pageReqs.filter fun (r : PageReq) => !(r.pasid == pasid && r.group == g)
    let valid (r : PageReq) : Prop := s.reqOf pasid g = some r ∧ s.current r = true
    (∀ i ∈ [Instr.pageResponseSuccess pasid g, .invalidRequest pasid g, .responseFailure pasid g], (∀ r, ¬valid r) →
      ∃ t, exec i s = .next t ∧ t.mapper = { s.mapper with stale := s.mapper.stale + 1 } ∧ dropped t ∧ t.mem = s.mem ∧
        told t (fun _ => False) fun _ _ => False) ∧
    (∀ r, valid r → ∃ t, exec (.pageResponseSuccess pasid g) s = .next t ∧ t.mapper = s.mapper ∧ dropped t ∧ t.mem = s.mem ∧
      told t (fun x => x = g) fun _ _ => False) ∧
    (∀ r, valid r → ∃ t, exec (.invalidRequest pasid g) s = .next t ∧ t.mapper = s.mapper ∧ dropped t ∧ t.mem = s.mem ∧
      told t (fun x => x = g) fun x p => x = g ∧ p = r.page) ∧
    (∀ r, valid r → ∃ t, exec (.responseFailure pasid g) s = .next t ∧
      (∀ q ∈ t.pageReqs, q ∈ s.pageReqs ∧ ¬(q.pasid = pasid ∧ s.current q = true)) ∧
      told t (fun x => x = g ∨ ∃ q ∈ s.pageReqs, q.pasid = pasid ∧ s.current q = true ∧ q.group = x)
        (fun x p => (x = g ∧ p = r.page) ∨
          ∃ q ∈ s.pageReqs, q.pasid = pasid ∧ s.current q = true ∧ q.group = x ∧ q.page = p) ∧
      ((∃ ps, s.run pasid (s.ctx pasid).crec.log 24 { r := true } = .ok ps) →
        (s.ctx pasid).logW - s.ctxNum pasid ((s.ctx pasid).crec.log + 8) 8 ≠ 2 ^ (s.ctx pasid).crec.logLog →
        ∃ x, (t.ctx pasid).log = (s.ctx pasid).log ++ [x] ∧ x.code = 0x44 ∧ x.addr = r.page))) ∧
  (∀ (s : State) (pasid : Nat) (tr : AtsReply),
    let i := Instr.atsCompletion pasid tr
    let inside (va : DWord) : Prop := va.toNat / 2 ^ tr.log = tr.va.toNat / 2 ^ tr.log
    let asked : Prop := ∃ q ∈ s.atsReqs, q.pasid = pasid ∧ inside q.page
    (¬asked → exec i s = .next s) ∧
    (asked → 12 ≤ tr.log → ∃ t, exec i s = .next t ∧
      (∀ q ∈ s.atsReqs, q.pasid = pasid → inside q.page → q ∉ t.atsReqs) ∧
      ((t.ctx pasid).assist.getLsbD 0 = true → ∀ va n, inside va →
        t.translate pasid va n =
          if (n.r → tr.r) ∧ (n.w → tr.w) ∧ (n.x → tr.x) then
            t.place (t.ctxPart pasid) tr.mem tr.sysatom (tr.pa.toNat / 2 ^ tr.log * 2 ^ tr.log + va.toNat % 2 ^ tr.log)
          else .absent))) ∧
  (∀ (s : State) (part : Nat) (seq : DWord),
    exec (.invalidationDoorbell part seq) s = .next { s with parts := s.parts.map fun p =>
      if p.base = part ∧ p.mbBell.toNat < seq.toNat then
        { p with mbBell := seq,
                 invals := p.invals ++ [{ seq := seq, base := p.mbBase, len := p.mbLen, who := p.mbWho }] }
      else p }) ∧
  ∀ (s : State) (part : Nat) (p : Part), s.parts.find? (fun x => x.base == part) = some p →
    let i := Instr.invalidationComplete part
    (p.invals = [] → exec i s = .next s) ∧
    ∀ v rest, p.invals = v :: rest →
      let mine (pasid : Nat) : Prop :=
        (s.ctxPart pasid).base = part ∧ (v.who.getLsbD 31 = true ∨ (v.who.extractLsb' 0 20).toNat = pasid)
      let page (y : Tlb) : Nat := y.va.toNat / 2 ^ y.log * 2 ^ y.log
      let meets (y : Tlb) : Prop :=
        v.len = 0 ∨ (v.base.toNat < page y + 2 ^ y.log ∧ page y < v.base.toNat + v.len.toNat)
      ∃ t, exec i s = .next t ∧ t.parts.find? (fun x => x.base == part) = some { p with mbDone := v.seq, invals := rest } ∧
        (∀ y, y ∈ t.tlb ↔ y ∈ s.tlb ∧ ¬(mine y.pasid ∧ meets y)) ∧ (∀ q ∈ t.pends, q ∈ s.pends ∧ ¬mine q.pasid) ∧
        ∀ a, NoPartial s a → NoPending s a → Memory.get t.mem a = Memory.get s.mem a

/-! ### Parking, pre-emption and queue reset (R238, R322, R369, R372 to R380) -/

/-- R322, R369, R372 to R376. When crews are parked, pre-empted, saved and resumed, what a save keeps and performs, and how
an asynchronous vector is delivered. -/
def Obligations.SavesAndResumes : Prop :=
  -- A vector that is due to a warp outside its handler.
  (∀ (s : State) (w : Warp) (side : Side), s.warp? w.uid = some w →
    let enters (t : State) (u : State) (vec n : Nat) : Prop :=
      ∃ m w' h, t = ({ u with free := m } : State).setWarp w' ∧ w'.uid = w.uid ∧ w'.handler = some h ∧ h.vec = vec ∧ h.side = side ∧ h.stack = w.stack ∧
        h.parked = w.parked ∧ w'.trapv = BitVec.ofNat 32 vec ∧ w'.trappc = (w.slot side).pc ∧
        w'.trapinfo = BitVec.ofNat 64 n ∧ w'.trapmask = w.live ∧ w'.port.mask = w.live ∧ w'.star = {} ∧ w'.stack = [] ∧
        w'.port.pc = (s.launch w.launch).lrec.code + (s.launch w.launch).lrec.trapEntry ∧ Spoiled w w' ∧
        w'.flags = w.flags ∧ (∀ l < 32, { w'.lane l with nc := 0 } = { w.lane l with nc := 0 }) ∧
        (vec = 0x10 → w'.due = none ∧ w'.custDue = w.custDue) ∧ (vec = 0x0B → w'.custDue = none)
    (w.handler ≠ none ∨ (w.due = none ∧ w.custDue = none) → s.deliverDue w side = none) ∧
    (∀ n, w.handler = none → w.due = some n → ∃ t, s.deliverDue w side = some t ∧ enters t s 0x10 n) ∧
    ∀ n, w.handler = none → w.due = none → w.custDue = some n → ∃ t, s.deliverDue w side = some t ∧
      enters t (s.setCtx { s.ctx (s.pasidOf w) with heirless := (s.ctx (s.pasidOf w)).heirless.erase n }) 0x0B n) ∧
  -- A holding in custody becomes due to the lowest warp of a custodian launch.
  (∀ (s : State) (pasid : Nat),
    let i := Instr.heirlessDelivery pasid
    let takes (l : Launch) (w : Warp) : Prop := l ∈ s.launches ∧ l.pasid = pasid ∧ l.lrec.custodian = true ∧ w ∈ s.warps ∧
      w.launch = l.uid ∧ w.handler = none ∧ s.runnable w = true
    let may : Prop := (∀ w ∈ s.warps, s.pasidOf w = pasid → w.custDue = none) ∧ ∃ l w, takes l w
    ((s.ctx pasid).heirless = [] ∨ ¬may → exec i s = .next s) ∧
    ∀ n rest, (s.ctx pasid).heirless = n :: rest → may →
      ∃ (t : State) (l : Launch) (w : Warp), exec i s = .next t ∧ takes l w ∧
        (∀ y, takes l y → w.core < y.core ∨ (w.core = y.core ∧ w.wid ≤ y.wid)) ∧
        t.warps = (s.setWarp { w with custDue := some n }).warps ∧ t.ctxs = s.ctxs ∧ t.mem = s.mem) ∧
  (∀ (s : State) (id core : Nat) (c : Crew), s.crew? id = some c → (s.warps.map Warp.uid).Nodup →
    (s.crews.map Crew.uid).Nodup → (∀ w ∈ s.warps, w.wid < 64) →
    (∀ w ∈ s.warps, w.place = .resident → ∃ y ∈ s.crews, y.uid = w.crew ∧ y.core = w.core) →
    (∀ w ∈ s.warps, w.crew = id → w.launch = c.launch) →
    let pasid := (s.launch c.launch).pasid
    let queue := (s.launch c.launch).queue
    let mine (w : Warp) : Prop := w ∈ s.warps ∧ w.crew = id
    let room : Prop := s.parkUsed pasid + (((s.warps.filter fun w => w.crew == id).map fun w => w.savePages true).sum +
      s.crewPages c) ≤ (s.ctx pasid).crec.parkSize.toNat / 4096
    let logged : Prop := (s.ctx pasid).late = [] ∧ (∃ ps, s.run pasid (s.ctx pasid).crec.log 24 { r := true } = .ok ps) ∧
      (s.ctx pasid).logW - s.ctxNum pasid ((s.ctx pasid).crec.log + 8) 8 ≠ 2 ^ (s.ctx pasid).crec.logLog
    -- What is performed before a save completes.
    let settled (t : State) (w : Warp) : Prop := (∀ p ∈ t.pends, p ∈ s.pends ∧ p.uid ≠ w.uid) ∧
      ∀ a, NoPartial s a → NoPending s a → Memory.get t.mem a = Memory.get s.mem a
    let saved (w : Warp) (place : Place) : Warp := { w with place := place, due := none, custDue := none }
    let out (t : State) (pre : Option Preempt) : Prop := t.crew? id = some { c with core := 768, pre := pre }
    let size := (s.launch c.launch).lrec.crewSize
    -- Resuming, parked or saved.
    (∀ i ∈ [Instr.savedCrewResume id core, .parkedResume id core],
      let ready : Prop := if i = .parkedResume id core then
          (∀ w, mine w → w.place = .parked) ∧ ∃ w, mine w ∧ s.parkOver w = true
        else (∃ w, mine w) ∧ ∀ w, mine w → w.place = .savedFull ∨ w.place = .savedControl
      let goes : Prop := ready ∧ s.mayRun queue = true ∧
        s.fits (s.ctxPart pasid) core { s.crewNeeds c with slots := size } = true ∧
        ((s.launch c.launch).lrec.item = true →
          (s.crews.countP fun y => y.launch == (s.launch c.launch).uid && y.core == core) < (s.launch c.launch).lrec.count)
      (¬goes → exec i s = .next s) ∧
      (goes → (s.warps.filter fun w => w.crew == id).length ≤ size → ∃ (t : State), exec i s = .next t ∧
        (∀ k ∈ l1sOf (s.launch c.launch).lrec.fused core, ∀ x ∈ (t.core k).l1, x.pasid ≠ pasid) ∧
        (∀ a, NoPartial s a → Memory.get t.mem a = Memory.get s.mem a) ∧
        ((∃ w, mine w ∧ w.place ≠ .savedControl) → t.crew? id = some { c with core := core }) ∧
        ((∀ w, mine w → w.place = .savedControl) → ∃ y, t.crew? id = some y ∧
          { y with tiles := c.tiles, envs := c.envs, loc := c.loc, etol := c.etol, pipes := c.pipes } =
            { c with core := core }) ∧
        (∀ w, ¬mine w → w ∈ s.warps → w ∈ t.warps) ∧
        ∀ w, mine w → ∃ w', t.warp? w.uid = some w' ∧ w'.place = .resident ∧ w'.core = core ∧
          (∀ side, w'.slot side = match (w.slot side).wait with
            | some ⟨.monitor _ _ _, _⟩ => { w.slot side with wait := none }
            | _ => w.slot side) ∧
          { w' with place := w.place, core := w.core, wid := w.wid, port := w.port, star := w.star, lanes := w.lanes,
                    sregs := w.sregs, flags := w.flags, rmode := w.rmode, readySince := w.readySince,
                    handler := w.handler } = w ∧
          w'.handler = w.restartWaits.handler ∧
          (w.place ≠ .savedControl → w'.lanes = w.lanes ∧ w'.sregs = w.sregs ∧ w'.flags = w.flags ∧ w'.rmode = w.rmode) ∧
          (w.place = .savedControl → (∀ l < 32, { w'.lane l with v := (w.lane l).v, p := (w.lane l).p } = w.lane l) ∧
            ∀ r, 120 ≤ r → r < 128 → w'.sreg r = w.sreg r))) ∧
    -- Parking.
    (let i := Instr.park id
     let long (w : Warp) (side : Side) : Prop := ∃ t, (w.slot side).parkSince = some t ∧ 4000 ≤ s.now - t
     let idle (w : Warp) (side : Side) : Prop :=
       (w.slot side).mask = 0 ∧ (w.slot side).wait = none ∧ (w.slot side).fetch = none
     let waits (w : Warp) : Prop := w.place = .resident ∧ s.warpReady w = false ∧
       ((long w .port ∧ (long w .star ∨ idle w .star)) ∨ (idle w .port ∧ long w .star))
     let all : Prop := (∃ w, mine w) ∧ ∀ w, mine w → waits w
     (¬all → exec i s = .next s) ∧
     (all → room → ∃ t, exec i s = .next t ∧ out t c.pre ∧
       ∀ w, mine w → t.warp? w.uid = some (saved w .parked) ∧ settled t w) ∧
     (all → ¬room → ∀ w, mine w → (∀ y, mine y → y = w) → ∃ t, exec i s = .next t ∧
       (∀ w', t.warp? w.uid = some w' → w'.live = 0) ∧ (t.queue queue).st = .faulted ∧ (t.queue queue).reason = 9 ∧
       (t.queue queue).detail = (s.ctx pasid).crec.parkSize)) ∧
    -- Pre-emption.
    ((s.partlyArrived id = none ↔ ∀ w, mine w → ∀ l < 32, (w.lane l).st = .live → ∀ k < 4,
        let h := (w.lane l).team k
        s.validHandle (s.pasidOf w) h = true → ∀ n < 32, (s.pointOf (s.pasidOf w) h n).init = true →
          (s.pointOf (s.pasidOf w) h n).a = 0 ∧ (s.pointOf (s.pasidOf w) h n).y = 0) ∧
     (let i := Instr.preemptionDelivery id
      let now : Prop := (∃ t, c.pre = some (.deferred t)) ∧ s.partlyArrived id = none
      let deadline := s.now + 1000 * (s.ctx pasid).crec.grace
      (¬now → exec i s = .next s) ∧
      (now → room → ∃ t, exec i s = .next t ∧
        (∀ w, mine w →
          (w.place = .resident → s.runnable w = true → t.warp? w.uid = some { w with due := some deadline }) ∧
          (w.place = .resident → s.runnable w = false →
            t.warp? w.uid = some (saved w.restartWaits .savedFull) ∧ settled t w) ∧
          (w.place = .parked → t.warp? w.uid = some { w.restartWaits with place := .savedFull })) ∧
        ((∃ w, mine w ∧ w.place = .resident ∧ s.runnable w = true) →
          t.crew? id = some { c with pre := some (.grace deadline) }) ∧
        ((∀ w, mine w → w.place = .resident → s.runnable w = false) → out t none))) ∧
     (let i := Instr.forcedSave id
      let now : Prop := ∃ d, c.pre = some (.grace d) ∧ d ≤ s.now
      (¬now → exec i s = .next s) ∧
      (now → room → ∃ t, exec i s = .next t ∧ (∀ w, mine w → w.place = .resident →
        t.warp? w.uid = some (saved w.restartWaits .savedFull)) ∧ ((∃ w, mine w) → out t none) ∧
        ∀ w, mine w → w.place = .resident → (∀ y, mine y → y = w) → logged →
          ∃ r, (t.ctx pasid).log = (s.ctx pasid).log ++ [r] ∧ r.code = 0x47 ∧ r.source = 0 ∧ r.outcome = 3 ∧
            r.lanes = w.live)) ∧
     (let i := Instr.deferralLimit id
      let now : Prop := ∃ t, c.pre = some (.deferred t) ∧ t + 1000 * (s.ctx pasid).crec.deferral ≤ s.now
      (¬now ∨ s.partlyArrived id = none → exec i s = .next s) ∧
      (∀ h n p, now → s.partlyArrived id = some (h, n, p) → room → ∃ t, exec i s = .next t ∧ out t none ∧
        (∀ w, mine w → w.place = .resident → t.warp? w.uid = some (saved w.restartWaits .savedFull)) ∧
        (∀ w, mine w → w.place = .parked → t.warp? w.uid = some { w.restartWaits with place := .savedFull }) ∧
        (logged → ∃ r, (t.ctx pasid).log = (s.ctx pasid).log ++ [r] ∧ r.code = 0x47 ∧ r.source = 10 ∧ r.outcome = 3 ∧
          r.prog0 = BitVec.ofNat 64 (h.toNat + p.p.toNat * 2 ^ 32) ∧ r.prog1 = BitVec.ofNat 64 (n + p.a % 2 ^ 24 * 2 ^ 8))))))

/-- R380. A queue reset ends its queue's threads, commands and items, and its close writes one record. -/
def Obligations.QueueReset : Prop :=
  (∀ (s : State) (bell : Word),
    let i := Instr.queueReset bell
    let q := bell.toNat % 4096
    let x := s.queue q
    let acts : Prop := bell.toNat < 4096 ∧ x.st ≠ .disabled ∧ x.st ≠ .resetting
    (¬acts → exec i s = .next s) ∧
    (acts → ∃ t, exec i s = .next t ∧
      t.queue q = { x with
        st := .resetting, gen := x.gen + 1, slot := none, pend := none, told := false, busy := false, loops := [],
        effects := false, loading := false, page := [], denied := false, hosts := [] } ∧
      (∀ w ∈ t.warps, s.queueOf w ≠ q) ∧ (∀ c ∈ t.cmds, c.queue ≠ q) ∧ (∀ l ∈ t.launches, l.queue = q → l.held = []) ∧
      (∀ m ∈ t.monitors, m.who ≠ .queue q) ∧ (∀ y ∈ t.watches, y.queue ≠ q) ∧
      ((∃ w ∈ s.warps, s.queueOf w = q ∧ w.live ≠ 0) → ∃ d ∈ (t.ctx x.pasid.toNat).deaths, d.reset = some q ∧
        ∀ w ∈ s.warps, s.queueOf w = q → ∀ l < 32, (w.lane l).st = .live →
          ∃ y ∈ d.dead, y.tid = (w.lane l).tid ∧ y.heir = (w.lane l).heir ∧ y.died = true))) ∧
  ∀ (s : State) (q : Nat),
    let i := Instr.resetSweepComplete q
    let x := s.queue q
    let pasid := x.pasid.toNat
    let goes : Prop := x.st = .resetting ∧ ∀ d ∈ (s.ctx pasid).deaths, d.reset ≠ some q
    (¬goes → exec i s = .next s) ∧
    (goes → ∃ t, exec i s = .next t ∧ t.queue q = { x with st := .disabled } ∧
      (∀ l ∈ t.launches, l.queue ≠ q) ∧ (∀ p ∈ t.pends, p.queue ≠ q) ∧
      ((t.ctx pasid).dropped = (s.ctx pasid).dropped + 1 ∨
        ∃ r, r.code = 0x49 ∧ r.source = 7 ∧ r.outcome = 0 ∧ r.queue = BitVec.ofNat 16 q ∧ r.gen = x.gen ∧ r.prog0 = x.rdx ∧
          r.prog1 = x.wrx ∧
          -- It is in the log, or waits until the log's header is mapped (R345).
          ((t.ctx pasid).log = (s.ctx pasid).log ++ [r] ∨
            ∃ gs, (t.ctx pasid).late = (s.ctx pasid).late ++ [⟨.record r, gs⟩])))

/-! ### The hypervisor's registers, charts, partitions and suspension (R347, R354, R370, R381 to R387, R396, R404) -/

/-- R347, R354, R370, R396, R402. What writes of the device's registers and assist words do. -/
def Obligations.DeviceRegisters : Prop :=
  (∀ (s : State) (v : DWord) (q off : Nat),
    let i := Instr.registerWrite (.queueEntry q off) v
    let x := s.queue q
    let goes (o : Nat) (y : Queue) : Prop := off = o → exec i s = .next (s.setQueue q y)
    (4096 ≤ q ∨ x.st ≠ .disabled → exec i s = .next s) ∧
    (q < 4096 → x.st = .disabled →
      goes 0x00 { x with ring := v } ∧
      goes 0x08 { x with logSize := v.extractLsb' 0 8, prio := v.extractLsb' 8 3, preemptible := v.getLsbD 11,
                         pasid := v.extractLsb' 32 20 } ∧
      goes 0x10 { x with ctx := v } ∧ goes 0x18 { x with pilot := v } ∧ goes 0x20 { x with pilotLen := v.setWidth 16 } ∧
      goes 0x40 { x with sigBase := v } ∧
      goes 0x48 { x with sigLen := v.extractLsb' 0 32, launchLen := v.extractLsb' 32 32 } ∧
      goes 0x50 { x with launchBase := v } ∧
      (off ∉ [0x00, 0x08, 0x10, 0x18, 0x20, 0x40, 0x48, 0x50] → goes off x))) ∧
  (∀ (s : State) (v : DWord) (n : Nat),
    -- A vector above 2,047 is ignored.
    (let i := Instr.registerWrite (.deviceVector n) v
     if n < 4 ∧ v.toNat % 2 ^ 16 ≤ 2047 then ∃ t, exec i s = .next t ∧
       { t with mapper := { t.mapper with devVec := s.mapper.devVec } } = s ∧
       ∀ k, tget 0 t.mapper.devVec k = if k = n then v.setWidth 16 else tget 0 s.mapper.devVec k
     else exec i s = .next s) ∧
    (let i := Instr.registerWrite (.queueVector n) v
     if n < 4096 ∧ v.toNat % 2 ^ 16 ≤ 2047 then ∃ t, exec i s = .next t ∧
       { t with mapper := { t.mapper with qVec := s.mapper.qVec } } = s ∧
       ∀ k, tget 0 t.mapper.qVec k = if k = n then v.setWidth 16 else tget 0 s.mapper.qVec k
     else exec i s = .next s) ∧
    (let i := Instr.registerWrite (.outLimit n) v
     if n < 12 then ∃ t, exec i s = .next t ∧ { t with outLimits := s.outLimits } = s ∧
       ∀ k, tget 0 t.outLimits k = if k = n then v else tget 0 s.outLimits k
     else exec i s = .next s) ∧
    (let i := Instr.registerWrite (.copyGroup n) v
     if n < 12 then ∃ t, exec i s = .next t ∧ { t with copyGroups := s.copyGroups } = s ∧
       (∀ k, k ≠ n → tget none t.copyGroups k = tget none s.copyGroups k) ∧
       ((∃ p ∈ s.parts, p.base = v.toNat) → tget none t.copyGroups n = some v.toNat) ∧
       ((∀ p ∈ s.parts, p.base ≠ v.toNat) → tget none t.copyGroups n = none)
     else exec i s = .next s) ∧
    (let i := Instr.registerWrite (.pasidHome n) v
     let used : Prop := ∃ x ∈ s.queues, x.pasid.toNat = n ∧ x.st ≠ .disabled
     (used → exec i s = .next s) ∧
     (¬used → exec i s = .next (s.setCtx { s.ctx n with part := v.toNat % 12 }))) ∧
    (let mb (off : Nat) (g : Part → Part) : Prop := exec (.registerWrite (.mailbox n off) v) s =
       .next { s with parts := s.parts.map fun p => if p.base = n then g p else p }
     mb 0x00 (fun p => { p with mbBase := v }) ∧ mb 0x08 (fun p => { p with mbLen := v }) ∧
       mb 0x10 (fun p => { p with mbWho := v.setWidth 32 }) ∧ ∀ off, off ∉ [0x00, 0x08, 0x10] → mb off id) ∧
    exec (.registerWrite .guardThreshold v) s = .next { s with power := { s.power with threshold := v.toNat } } ∧
    exec (.registerWrite .ignored v) s = .next s ∧
    -- Writing 1 clears a pending bit.
    (∀ bits : Word, ∃ t, exec (.deviceSourcePendingClear bits) s = .next t ∧
      { t with mapper := { t.mapper with devPend := s.mapper.devPend } } = s ∧
      ∀ k < 4, t.mapper.devPend.getLsbD k = (s.mapper.devPend.getLsbD k && !bits.getLsbD k)) ∧
    (∃ t, exec (.queueVectorPendingClear n) s = .next t ∧
      { t with mapper := { t.mapper with qPend := s.mapper.qPend } } = s ∧
      ∀ k, tget false t.mapper.qPend k = if k = n then false else tget false s.mapper.qPend k)) ∧
  ∀ (s : State) (base : Nat) (w : Word),
    let i := Instr.assistWordWrite base w
    let here : Prop := ∃ p ∈ s.parts, p.base = base
    let calm : Prop := ∀ q < s.queues.length, (s.queuePart q).base = base →
      (s.queue q).st = .disabled ∨ (s.queue q).st = .ready ∨ (s.queue q).st = .faulted ∨
        (s.ctx (s.queue q).pasid.toNat).suspended = true
    let word (t : State) (b : Nat) : Word := tget 0 t.mapper.assist b
    (¬here → exec i s = .next s) ∧
    (here → ¬calm → exec i s = .next (({ s with parts := s.parts.map fun (p : Part) =>
      if p.base = base then { p with chartErr := p.chartErr + 1 } else p } : State).raiseDev 3)) ∧
    (here → calm → ∃ t, exec i s = .next t ∧ t.parts = s.parts ∧
      (∀ b, word t b = if b = base then w &&& 0x3F else word s b) ∧
      ((word s base).getLsbD 0 = w.getLsbD 0 → t.tlb = s.tlb ∧ t.mem = s.mem) ∧
      ((word s base).getLsbD 0 ≠ w.getLsbD 0 → (∀ y, y ∈ t.tlb ↔ y ∈ s.tlb ∧ (s.ctxPart y.pasid).base ≠ base) ∧
        ∀ p ∈ t.pends, p ∈ s.pends ∧ (s.ctxPart p.pasid).base ≠ base))

/-- R381, R384 to R387, R401. Place charts, fabric peers and the partition layout. What a chart entry may name is the model's
(log entry 69). -/
def Obligations.ChartsAndPartitions : Prop :=
  (∀ (s : State) (base : Nat) (p : Part) (v : DWord), s.parts.find? (fun x => x.base == base) = some p →
    let has (t : State) (i : Nat) (c : Chart) : Prop := ∃ p', t.parts.find? (fun x => x.base == base) = some p' ∧
      p'.entry i = c ∧ (∀ j, j ≠ i → p'.entry j = p.entry j) ∧ { p' with chart := p.chart } = p
    -- No replica of a launch of the partition is left (R337).
    let dropped (t : State) : Prop := ∀ x, x ∈ t.l2 ↔ x ∈ s.l2 ∧
      ∀ n d, x.st = .replica n d → (s.ctxPart (s.launch n).pasid).base ≠ base
    (∀ idx : Nat,
      let i := Instr.chartEntryWrite base idx v
      let e : Chart := { st := v.extractLsb' 62 2, new := v.extractLsb' 24 24, phys := v.extractLsb' 0 24 }
      let was := (p.entry idx).phys.toNat
      let n := e.phys.toNat
      let mine (sl : Nat) : Prop := p.base ≤ sl ∧ sl < p.base + p.size
      let core : Prop := idx < 0x300
      let cluster : Prop := 0x300 ≤ idx ∧ idx < 0x330
      let channel : Prop := 0x350 ≤ idx ∧ idx < 0x3B0
      let owned : Prop := (core ∧ mine (idx / 64)) ∨ (cluster ∧ mine ((idx - 0x300) / 4)) ∨
        (0x330 ≤ idx ∧ idx < 0x33C ∧ mine (idx - 0x330)) ∨
        (0x340 ≤ idx ∧ idx < 0x34C ∧ tget none s.copyGroups (idx - 0x340) = some p.base) ∨
        (channel ∧ mine ((idx - 0x350) / 8))
      let evicted : Prop := (∀ q < s.queues.length, (s.queuePart q).base = base → (s.queue q).slot = none) ∧
        ∀ w ∈ s.warps, (s.ctxPart (s.pasidOf w)).base = base → w.place ≠ .resident
      let die (k : Nat) : Nat := if k < 48 then k / 12 else k - 48
      let spare : Prop := idx - 0x300 ∈ s.failed ∧ n = 48 + die was ∧ die was ∉ s.sparesUsed
      let unit : Prop := (core → n < 768) ∧ (cluster → n < 48 ∨ n = was ∨ spare) ∧ (channel → n < 96) ∧
        (0x330 ≤ idx → ¬channel → n < 12)
      let acts : Prop := owned ∧ evicted ∧ e.st ≠ 1 ∧ e.st ≠ 2 ∧ unit
      let bare (t : State) (c : Nat) : Prop := (t.core c).l1 = [] ∧ (t.core c).code = [] ∧ ∀ y ∈ t.tlb, y.at_ ≠ .core c
      (¬acts → exec i s = .next s) ∧
      (acts → ∃ t, exec i s = .next t ∧ has t idx e ∧ dropped t ∧ t.mem = s.mem ∧ t.queues = s.queues ∧ t.warps = s.warps ∧
        (core → n ≠ was → bare t idx) ∧
        -- A cluster that is given another unit runs again, and has empty caches (R389).
        (cluster → e.st = 0 → n ≠ was → t.failed = s.failed.erase (idx - 0x300) ∧
          (∀ c, c / 16 = idx - 0x300 → bare t c) ∧ (∀ y ∈ t.tlb, y.at_ ≠ .cluster (idx - 0x300)) ∧
          t.sparesUsed = s.sparesUsed ++ (if 48 ≤ n then [n - 48] else [])) ∧
        (¬(cluster ∧ e.st = 0 ∧ n ≠ was) → t.failed = s.failed ∧ t.sparesUsed = s.sparesUsed))) ∧
    ∀ peer : Nat,
      let n := 0x400 + peer % 256
      let e := p.entry n
      let drained : Prop := ∀ q ∈ s.pends, q.peer = some n → (s.ctxPart q.pasid).base = base →
        q.key / 2 ^ 43 ≠ fabricKey e.phys 0 / 2 ^ 43
      -- A write in some states takes NEW and PHYS as written; in any other it is ignored and counted.
      let moves (i : Instr) (st : BitVec 2) (ok : Prop) : Prop :=
        (ok → ∃ t, exec i s = .next t ∧ has t n { st := st, new := v.extractLsb' 24 24, phys := v.extractLsb' 0 24 }) ∧
        (¬ok → exec i s = .next (({ s with parts := s.parts.map fun (x : Part) =>
          if x.base = base then { x with chartErr := x.chartErr + 1 } else x } : State).raiseDev 3))
      moves (.peerForward base peer v) 1 (e.st = 0) ∧ moves (.peerStall base peer v) 2 (e.st = 0) ∧
      moves (.peerInvalid base peer v) 3 True ∧
      moves (.peerValid base peer v) 0 (e.st = 2 ∨ e.st = 3 ∨ (e.st = 1 ∧ drained ∧ (v.extractLsb' 0 24 : BitVec 24) = e.new))) ∧
  -- Where a fabric address goes.
  (∀ (s : State) (p : Part) (pa : Nat),
    let n := 0x400 + pa / 2 ^ 43 % 256
    let e := p.entry n
    let at_ (phys : BitVec 24) : Nat := 2 ^ 54 + phys.toNat * 2 ^ 43 + pa % 2 ^ 43
    let goes (phys : BitVec 24) : Prop :=
      if p.base ≤ phys.toNat / 2 ^ 20 ∧ phys.toNat / 2 ^ 20 < p.base + p.size ∧
          (∀ pages ∈ Config.peerExport s.now phys.toNat, pa % 2 ^ 43 < pages * 4096) then
        ∃ l, s.fabric p pa = .ok l ∧ l.key = at_ phys ∧ l.hbm = false ∧ l.peer = some n
      else s.fabric p pa = .refused
    let waits : Prop := ∃ q ∈ s.pends, q.peer = some n ∧ q.key / 128 = at_ e.phys / 128
    -- A request lets those pass that have waited in the port for longer.
    let behind : Prop := s.turnBehind p n = true
    ((∀ uid side, s.turn ≠ some (.slot uid side)) → ¬behind) ∧
    (∀ uid side, s.turn = some (.slot uid side) →
      let port := s.inPort p n
      ((∀ r ∈ port, r.2 ≠ (uid, side)) → (behind ↔ port ≠ [])) ∧
      ∀ t, port.filter (fun r => r.2 == (uid, side)) = [(t, uid, side)] →
        (behind → ∃ r ∈ port, r.2 ≠ (uid, side) ∧ r.1 ≤ t) ∧ ((∃ r ∈ port, r.1 < t) → behind)) ∧
    (e.st = 3 → s.fabric p pa = .refused) ∧ (e.st ≠ 3 → e.st = 2 ∨ behind → s.fabric p pa = .stalled n) ∧
    (e.st = 0 → ¬behind → goes e.phys) ∧
    (e.st = 1 → ¬behind → waits → s.fabric p pa = .stalled n) ∧ (e.st = 1 → ¬behind → ¬waits → goes e.new)) ∧
  -- The layout.
  (∀ (s : State) (runs : List (Nat × Nat)),
    let i := Instr.partitionLayoutChange runs
    let legal : Prop := (∀ r ∈ runs, r.2 ∈ [1, 2, 3, 4, 6, 12] ∧ r.1 % r.2 = 0 ∧ r.1 + r.2 ≤ 12) ∧
      runs.Pairwise fun a b => a.1 + a.2 ≤ b.1 ∨ b.1 + b.2 ≤ a.1
    let hit (sl : Nat) : Prop := sl < 12 ∧ (s.parts.find? fun (p : Part) => p.has sl).map (fun p => (p.base, p.size)) ≠
      runs.find? fun (r : Nat × Nat) => decide (r.1 ≤ sl) && decide (sl < r.1 + r.2)
    let busy : Prop := ∃ q < s.queues.length, (s.queue q).st ≠ .disabled ∧ ∃ sl, hit sl ∧ (s.queuePart q).has sl = true
    -- No store under translations that end with the layout is on its way (R396).
    let still : Prop := ∀ q ∈ s.pends, ∀ p ∈ s.parts, (s.assist p).getLsbD 0 = true → p.base ≠ (s.ctxPart q.pasid).base
    (¬legal ∨ busy → exec i s = .next s) ∧
    (legal → ¬busy → ∃ t, exec i s = .next t ∧ t.queues = s.queues ∧ t.parts.map (fun p => (p.base, p.size)) = runs ∧
      (∀ sl, ((∃ k, hit k) → tget 0 t.mapper.assist sl = 0) ∧
        ((∀ k, ¬hit k) → tget 0 t.mapper.assist sl = tget 0 s.mapper.assist sl)) ∧
      (∀ sl, sl ∈ s.affected runs ↔ hit sl) ∧
      (∀ a, NoPartial s a → NoPending s a → Memory.get t.mem a = Memory.get s.mem a) ∧
      (still → t.mem = s.mem ∧ ∀ x, x ∈ t.l2 ↔ x ∈ s.l2 ∧ ∀ sl, hit sl → x.unit ≠ (s.partOf sl).unit sl) ∧
      (∀ c, hit (c / 64) → (t.core c).l1 = [] ∧ (t.core c).code = []) ∧ (∀ m ∈ t.monitors, ¬hit m.home) ∧
      (∀ y ∈ t.tlb, ¬hit (s.ctx y.pasid).part ∧ (∀ c, y.at_ = .core c → ¬hit (c / 64)) ∧
        ∀ c, y.at_ = .cluster c → ¬hit (c / 4)) ∧
      ∀ c ∈ t.ctxs, hit c.part → ∀ f ∈ c.flows, f.recs = []))

/-- R404. Suspending a context, the acknowledgements of its peers, and resuming it. -/
def Obligations.Suspension : Prop :=
  (∀ (s : State) (pasid : Nat), (s.warps.map Warp.uid).Nodup → (s.crews.map Crew.uid).Nodup →
    (∀ w ∈ s.warps, ∃ c ∈ s.crews, c.uid = w.crew ∧ w.launch = c.launch) →
    let i := Instr.partitionSuspend pasid
    let c := s.ctx pasid
    let under : Prop := c.suspended = true ∨ c.suspending = true
    let crews := s.crews.filter fun y => (s.launch y.launch).pasid == pasid
    let pages (y : Crew) : Nat := ((s.warps.filter fun w => w.crew == y.uid).map fun w => w.savePages true).sum + s.crewPages y
    (under → exec i s = .next s) ∧
    (¬under → s.parkUsed pasid + (crews.map pages).sum ≤ c.crec.parkSize.toNat / 4096 → ∃ t, exec i s = .next t ∧
      (t.ctx pasid).suspending = true ∧ (t.ctx pasid).suspended = false ∧
      (∀ q < s.queues.length, (s.queue q).pasid.toNat = pasid →
        let x := s.queue q
        -- It leaves its slot and is pending; the slot-pressure count may count it at once (R353).
        (∃ b, t.queue q = if x.slot ≠ none then
            { x with st := .pending, slot := none, pend := some s.now, told := false, counted := b }
          else { x with counted := b }) ∧
        (∀ m ∈ t.monitors, m.who ≠ .queue q) ∧
        ∀ a b o cmp, decodePilot (x.code.getD x.pc 0) = .ok (.wait a b o cmp) → x.busy = true →
          (∃ m ∈ s.monitors, m.who = .queue q) →
          { ofs := x.kreg b + BitVec.ofNat 64 (8 * o.toNat), val := x.kreg a, cmp := cmp, queue := q } ∈ t.watches) ∧
      ∀ w ∈ s.warps, s.pasidOf w = pasid →
        (w.place = .resident →
          t.warp? w.uid = some { w.restartWaits with place := .savedFull, due := none, custDue := none }) ∧
        (w.place = .parked → t.warp? w.uid = some { w.restartWaits with place := .savedFull }))) ∧
  (∀ (s : State) (pasid : Nat),
    let i := Instr.suspendComplete pasid
    let c := s.ctx pasid
    let p := s.ctxPart pasid
    let quiet : Prop := ∀ k < p.size, ∀ x ∈ p.chart, 0x400 ≤ x.1 → x.2.st ≠ 3 → x.2.phys.toNat / 2 ^ 20 = p.base + k →
      (p.base + k, x.2.phys.toNat / 2 ^ 4 % 2 ^ 16) ∈ s.acks
    let done : Prop := c.suspending = true ∧ quiet ∧ ∀ w ∈ s.warps, s.pasidOf w = pasid → w.place ≠ .resident
    (¬done → exec i s = .next s) ∧
    (done → exec i s = .next { s.setCtx { c with suspending := false, suspended := true } with
      mapper := { s.mapper with suspendDone := BitVec.ofNat 32 (pasid + 2 ^ 31) } })) ∧
  (∀ (s : State) (port peer : Nat), ∃ t, exec (.quiesceAck port peer) s = .next t ∧ { t with acks := s.acks } = s ∧
    ∀ a, a ∈ t.acks ↔ a ∈ s.acks ∨ a = (port, peer)) ∧
  ∀ (s : State) (pasid : Nat),
    let i := Instr.partitionResume pasid
    let c := s.ctx pasid
    let p := s.ctxPart pasid
    let mine (w : Watch) : Prop := (s.queue w.queue).pasid.toNat = pasid
    (c.suspended = false → exec i s = .next s) ∧
    (c.suspended = true → ∃ t, exec i s = .next t ∧ (t.ctx pasid).suspended = false ∧
      (∀ w, w ∈ t.watches ↔ w ∈ s.watches ∧ ¬mine w) ∧
      (∀ a, a ∈ t.acks ↔ a ∈ s.acks ∧ ¬(p.base ≤ a.1 ∧ a.1 < p.base + p.size)) ∧
      (∀ a, NoPartial s a → Memory.get t.mem a = Memory.get s.mem a) ∧
      -- The one watch of the context is armed again by its word.
      ∀ w l, s.watches.filter (fun w => (s.queue w.queue).pasid.toNat == pasid) = [w] →
        (∀ m ∈ s.monitors, m.who ≠ .queue w.queue) →
        s.translate pasid ((s.queue w.queue).sigBase + w.ofs) { r := true } = .ok l →
        (∀ a, l.key ≤ a → a < l.key + 8 → NoPartial s a) →
        let v := Memory.num s.mem l.key 8
        let k := w.val.toNat
        let holds : Prop := (w.cmp = 0 ∧ v = k) ∨ (w.cmp = 1 ∧ v ≠ k) ∨ (w.cmp = 2 ∧ v < k) ∨ (w.cmp = 3 ∧ k ≤ v)
        (holds → ∀ m ∈ t.monitors, m.who ≠ .queue w.queue) ∧
        (w.cmp.toNat ≤ 3 → ¬holds → ∃ m ∈ t.monitors, m.who = .queue w.queue ∧ m.line = lineOf l.key))

/-! ### Errors and reliability (R160, R214, R338, R339, R388 to R393) -/

/-- R141, R160, R338, R390, R391, R393. What the memory system performs on its own, what an uncorrectable error does to what
held the data, and corrected errors with the guard-band. -/
def Obligations.ErrorHandling : Prop :=
  (∀ (s : State) (n : Nat),
    let i := Instr.accessPerformed n
    (s.pends.length ≤ n → exec i s = .next s) ∧
    ∀ p, s.pends[n]? = some p →
      let meets (q : Pend) : Prop := q.core = p.core ∧ q.key < p.key + p.bytes.length ∧ p.key < q.key + q.bytes.length
      ∃ t k q, exec i s = .next t ∧ s.pends[k]? = some q ∧ t.pends = s.pends.eraseIdx k ∧
        (p.bytes ≠ [] → meets q ∧ ∀ j < k, ∀ x, s.pends[j]? = some x → ¬meets x) ∧
        (p.peer = none → (∀ a, NoPartial s a → Outside a q.key q.bytes.length → Memory.get t.mem a = Memory.get s.mem a) ∧
          ∀ b < q.bytes.length, Memory.get t.mem (q.key + b) = q.bytes.getD b 0)) ∧
  (∀ (s : State) (core line : Nat), ∃ t, exec (.l1Eviction core line) s = .next t ∧ t.l1At core line = none ∧
    t.pends = s.pends ∧ t.warps = s.warps ∧ (∀ l, l ≠ line → t.l1At core l = s.l1At core l) ∧
    ∀ a, NoPartial s a → Memory.get t.mem a = Memory.get s.mem a) ∧
  -- The device gives up a line of host or CXL memory, and what waits for a write of it looks again.
  (∀ (s : State) (line : Nat), ∃ t, exec (.snoopInvalidate line) s = .next t ∧ t.cxlLines = s.cxlLines.erase line ∧
    (∀ x, x ∈ t.l2 ↔ x ∈ s.l2 ∧ ¬(x.line = line ∧ ∃ d, x.st = .copy d)) ∧
    t.monitors = s.monitors.map (fun (m : Monitor) => if m.line = line then { m with hit := true } else m) ∧
    { t with cxlLines := s.cxlLines, l2 := s.l2, monitors := s.monitors } = s) ∧
  (∀ (s : State) (l : Nat),
    let u := s.send (.msix 0)
    let bad (t : State) : Prop := ∀ x, x ∈ t.bad ↔ x ∈ s.bad ∨ x = l
    -- Whether a record reaches the log of a context at once.
    let logged (u : State) (pasid : Nat) : Prop := (u.ctx pasid).late = [] ∧
      (∃ ps, u.run pasid (u.ctx pasid).crec.log 24 { r := true } = .ok ps) ∧
      (u.ctx pasid).logW - u.ctxNum pasid ((u.ctx pasid).crec.log + 8) 8 ≠ 2 ^ (u.ctx pasid).crec.logLog
    (∃ t, exec (.uncorrectableError (.line l)) s = .next t ∧ bad t ∧ { t with bad := s.bad } = u) ∧
    (∃ t, exec (.uncorrectableError (.writeBack l)) s = .next t ∧ l ∈ t.bad ∧ (s.ctxNear l = none → { t with bad := s.bad } = u) ∧
      ∀ pasid, s.ctxNear l = some pasid → logged (u.markBad l) pasid →
        ∃ r, (t.ctx pasid).log = (s.ctx pasid).log ++ [r] ∧ r.code = 0x40 ∧ r.source = 8 ∧ r.outcome = 1 ∧
          r.addr = BitVec.ofNat 64 (l * 128) ∧ r.place = placeAt ((s.ctxPart pasid).homeOf l)) ∧
    ∀ core,
      (let i := Instr.uncorrectableError (.partialLine core l)
       let held : Prop := ∃ x op ty parts, s.l1At core l = some x ∧ x.st = .upd op ty parts
       (¬held → exec i s = .next u) ∧
       (held → ∃ t x, exec i s = .next t ∧ s.l1At core l = some x ∧ t.l1At core l = none ∧
         (logged (s.dropL1 core l) x.pasid →
           ∃ r, (t.ctx x.pasid).log = (s.ctx x.pasid).log ++ [r] ∧ r.code = 0x43 ∧ r.source = 8 ∧ r.outcome = 2 ∧
             r.addr = BitVec.ofNat 64 (l * 128) ∧ r.place = placeOf core))) ∧
      -- A clean copy is bad until it leaves the L1 or is written whole.
      ∃ t, exec (.uncorrectableError (.l1Line core l)) s = .next t ∧ t.mem = s.mem ∧ t.sent = u.sent ∧
        (∀ k, k ≠ l → t.l1At core k = s.l1At core k) ∧
        ∀ x, s.l1At core l = some x → t.l1At core l = some (match x.st with | .clean _ => { x with bad := true } | _ => x)) ∧
  -- What a crew holds is bad until it is written whole.
  (∀ (s : State) (id : Nat) (c : Crew), s.crew? id = some c →
    let u := s.send (.msix 0)
    let goes (loc : ErrLoc) (here : Prop) (ok : Crew → Prop) : Prop :=
      (¬here → exec (.uncorrectableError loc) s = .next u) ∧
      (here → ∃ t y, exec (.uncorrectableError loc) s = .next t ∧ t.crew? id = some y ∧ ok y ∧
        { t with crews := s.crews } = u)
    (∀ n, goes (.tile id n) (n < c.nT) fun y => { y with tiles := c.tiles } = c ∧
      ∀ k, y.tile k = if k = n then { c.tile k with bad := true } else c.tile k) ∧
    (∀ n, goes (.env id n) (n < c.nE) fun y => { y with envs := c.envs } = c ∧
      ∀ k, y.env k = if k = n then { c.env k with bad := true } else c.env k) ∧
    ∀ n, goes (.localLine id n) (n < 8 * c.nL ∧ n ∉ c.locBad) fun y => y = { c with locBad := c.locBad ++ [n] }) ∧
  (∀ (s : State) (uid : Nat) (w : Warp), s.warp? uid = some w →
    let pasid := s.pasidOf w
    let logged : Prop := (s.ctx pasid).late = [] ∧ (∃ ps, s.run pasid (s.ctx pasid).crec.log 24 { r := true } = .ok ps) ∧
      (s.ctx pasid).logW - s.ctxNum pasid ((s.ctx pasid).crec.log + 8) 8 ≠ 2 ^ (s.ctx pasid).crec.logLog
    let record (t : State) (m : Word) (pc : DWord) : Prop := logged →
      ∃ r, (t.ctx pasid).log = (s.ctx pasid).log ++ [r] ∧ r.code = 0x40 ∧ r.source = 0 ∧ r.outcome = 1 ∧ r.lanes = m ∧
        r.pc = pc ∧ r.place = placeOf w.core
    -- Each lane counts against its cluster (R388).
    let counted (t : State) (m : Word) : Prop :=
      t.laneDeaths = s.laneDeaths ++ (lanesOf m).map fun _ => (w.core / 16, s.now)
    -- The lanes of a mask die, with one record.
    let dies (t : State) (m : Word) (pc : DWord) : Prop := m ≠ 0 → counted t m ∧
      (∀ w', t.warp? uid = some w' → ∀ l < 32, m.getLsbD l → (w'.lane l).st = .dead) ∧
      (∀ w', t.warp? uid = some w' → ∀ l < 32, m.getLsbD l = false → (w'.lane l).st = (w.lane l).st) ∧
      (∃ d, (t.ctx pasid).deaths = (s.ctx pasid).deaths ++ [d] ∧ d.dead.map Dead.tid = (lanesOf m).map fun l => (w.lane l).tid) ∧
      record t m pc
    let goes (loc : ErrLoc) (m : Word) (pc : DWord) : Prop :=
      ∃ t, exec (.uncorrectableError loc) s = .next t ∧ .msix 0 ∈ t.sent ∧ dies t m pc ∧
        (m = 0 → t.warps = s.warps ∧ t.ctxs = s.ctxs)
    (∀ l < 32, (w.lane l).st ≠ .vacant →
      goes (.lane uid l) (w.live &&& bitOf l) (if w.star.mask.getLsbD l then w.star.pc else w.port.pc)) ∧
    -- A vacant lane is dead from now on, with no thread that dies (R13).
    (∀ l < 32, (w.lane l).st = .vacant → ∃ t, exec (.uncorrectableError (.lane uid l)) s = .next t ∧ .msix 0 ∈ t.sent ∧
      counted t (bitOf l) ∧ record t (bitOf l) 0 ∧ (t.ctx pasid).deaths = (s.ctx pasid).deaths ∧
      ∃ w', t.warp? uid = some w' ∧ (∀ k < 32, w'.lane k = if k = l then { w.lane k with st := .dead } else w.lane k) ∧
        { w' with lanes := w.lanes } = w) ∧
    goes (.warp uid) w.live w.port.pc) ∧
  -- Corrected errors.
  (∀ (s : State) (a : Nat), ∃ t, exec (.correctedError a) s = .next t ∧
    (∀ b, tget 0 t.power.window b = tget 0 s.power.window b + if b = a then 1 else 0) ∧
    (∀ b, tget 0 t.power.total b = tget 0 s.power.total b + if b = a then 1 else 0) ∧
    { t with power := { t.power with window := s.power.window, total := s.power.total } } = s) ∧
  ∀ s : State,
    let i := Instr.guardBandWindow
    let byHost (a : Nat) : Prop := (∃ p ∈ s.parts, (s.assist p).getLsbD 5 = true) ∨ tget none s.power.pinned a ≠ none
    (s.now < s.power.nextWindow → exec i s = .next s) ∧
    (s.power.nextWindow ≤ s.now → ∃ t, exec i s = .next t ∧ t.mem = s.mem ∧ t.warps = s.warps ∧ t.queues = s.queues ∧
      t.power.window = [] ∧ t.power.nextWindow = s.power.nextWindow + 1000000000 ∧ t.power.total = s.power.total ∧
      ∀ a,
        let n := tget 0 s.power.window a
        let old := tget 0 s.power.below a
        let new := tget 0 t.power.below a
        -- The windows at or below the threshold that the rail has had; as many as it needs at reset (log entry 33).
        let quiet (x : State) : Nat := tget 600 x.power.quiet a
        (s.power.threshold < n → (a, n) ∈ t.power.errLog ∧ (byHost a → new = old) ∧ (¬byHost a → new = old - 1) ∧
          quiet t = 0) ∧
        (n ≤ s.power.threshold →
          (new = old ∨ (new = old + 1 ∧ ¬byHost a ∧ 600 ≤ quiet s + 1)) ∧
          (a < s.power.window.length ∨ a < s.power.below.length → quiet t = quiet s + 1)))

/-- R214, R388, R389. A cluster that fails: its threads die but for the items that are relaunched, and its spare takes its
place. -/
def Obligations.ClusterFailures : Prop :=
  (∀ (s : State) (k : Nat),
    let i := Instr.clusterFailure k
    let on (w : Warp) : Prop := w.place = .resident ∧ w.core / 16 = k
    (48 ≤ k → exec i s = .next s) ∧
    (k < 48 → k ∈ s.failed → exec i s = .next (s.send (.msix 0))) ∧
    (k < 48 → k ∉ s.failed → ∃ t, exec i s = .next t ∧ t.failed = s.failed ++ [k] ∧ .msix 0 ∈ t.sent ∧
      (∀ w ∈ t.warps, ¬on w) ∧
      ((s.warps.map Warp.uid).Nodup → ∀ w ∈ s.warps, ¬on w → ∃ y ∈ t.warps, y.uid = w.uid) ∧
      (∀ c, c / 16 = k → (t.core c).l1 = [] ∧ (t.core c).code = []) ∧
      (∀ w ∈ s.warps, on w → (∃ l ∈ s.launches, l.uid = w.launch) →
        (∃ c ∈ s.ctxs, c.pasid = s.pasidOf w) → (s.warps.map Warp.uid).Nodup → ∀ l < 32, (w.lane l).st = .live →
          (s.replays w l = true → ∃ h ∈ (t.launch w.launch).held, h.iid = (w.lane l).iid ∧ h.pay = (w.lane l).ipay ∧
            h.flow = (w.lane l).iflow ∧ h.arrival = (w.lane l).arrival ∧ ∃ fb kept, h.st = .replayed fb kept) ∧
          (s.replays w l = false → ∃ d ∈ (t.ctx (s.pasidOf w)).deaths, ∃ y ∈ d.dead, y.tid = (w.lane l).tid ∧ y.died = true)) ∧
      ((s.assist (s.partOf (k / 4))).getLsbD 4 = true → (∃ p, s.parts.find? (fun p => p.has (k / 4)) = some p) →
        ((t.partOf (k / 4)).entry (0x300 + k)).st = 3))) ∧
  (∀ (s : State) (w : Warp) (l : Nat), s.replays w l = true ↔
    (s.launch w.launch).lrec.item = true ∧ (w.lane l).st = .live ∧ (w.lane l).replay = true ∧
      s.released (s.pasidOf w) (w.lane l) = false) ∧
  (∀ s : State,
    let deaths (k : Nat) : Nat := (s.laneDeaths.filter fun d => d.1 == k && decide (s.now - d.2 < 1000000000)).length
    (∀ k, s.failing = some k → k ∉ s.failed ∧ 3 ≤ deaths k) ∧ (s.failing = none → ∀ k, k ∉ s.failed → deaths k < 3) ∧
    s.checkClusters = match s.failing with | some k => s.failCluster k | none => s) ∧
  ∀ (s : State) (k : Nat) (p : Part), s.parts.find? (fun p => p.has (k / 4)) = some p → (s.parts.map Part.base).Nodup →
    let i := Instr.spareSubstitution k
    let e := p.entry (0x300 + k)
    -- The die of the unit that the entry names: 12 clusters each, and then a spare each.
    let die := if e.phys.toNat < 48 then e.phys.toNat / 12 else e.phys.toNat - 48
    let due : Prop := k ∈ s.failed ∧ e.st ≠ 3 ∧ (s.assist p).getLsbD 4 = false
    let has (t : State) (c : Chart) : Prop := ∃ p', t.parts.find? (fun p => p.has (k / 4)) = some p' ∧
      p'.entry (0x300 + k) = c ∧ ∀ j, j ≠ 0x300 + k → p'.entry j = p.entry j
    (¬due → exec i s = .next s) ∧
    (due → die ∈ s.sparesUsed → ∃ t, exec i s = .next t ∧ has t { e with st := 3 } ∧
      t.failed = s.failed ∧ t.sparesUsed = s.sparesUsed) ∧
    (due → die ∉ s.sparesUsed → ∃ t, exec i s = .next t ∧
      has t { e with phys := BitVec.ofNat 24 (48 + die) } ∧ t.failed = s.failed.erase k ∧
      t.sparesUsed = s.sparesUsed ++ [die] ∧ (∀ c, c / 16 = k → (t.core c).l1 = [] ∧ (t.core c).code = []) ∧
      (∀ y ∈ t.tlb, y.at_ ≠ .cluster k) ∧ ∀ d ∈ t.laneDeaths, d.1 ≠ k)

/-! ### The host, peers, boot, attestation, management and power (R397 to R408) -/

/-- R336, R349, R354, R385, R390, R397 to R399, R402. Accesses of the host and of peers to the module's memory, what the pages
of registers read as, the link, and the TDI. -/
def Obligations.HostAccesses : Prop :=
  -- A read of good bytes under no partial is completed with them; one that meets a bad byte is aborted.
  (∀ (s : State) (i : Instr) (n : Nat) (key : Nat → Nat),
    let reads : Prop :=
      ((∀ b < n, NoPartial s (key b) ∧ s.isBad (key b) 1 = false) → ∃ t, exec i s = .next t ∧
        t.sent = s.sent ++ [.completion ((List.range n).map fun b => Memory.get s.mem (key b))] ∧
        t.warps = s.warps ∧ t.queues = s.queues ∧ ∀ a, NoPartial s a → Memory.get t.mem a = Memory.get s.mem a) ∧
      ((∃ b < n, s.isBad (key b) 1 = true) → ∃ t, exec i s = .next t ∧ t.sent = s.sent ++ [.msix 0, .aborted])
    (∀ part addr p, i = .hostMemoryAccess (.readHbm part addr n) → s.parts.find? (fun p => p.base == part) = some p →
      (addr.toNat + n ≤ p.size * 2 ^ 36 → (∀ b < n, key b = p.hbm (addr.toNat + b)) → reads) ∧
      (p.size * 2 ^ 36 < addr.toNat + n → exec i s = .next (s.send .unsupported))) ∧
    (∀ mem addr, i = .hostMemoryAccess (.readSys mem addr n) → addr.toNat + n ≤ 2 ^ 52 →
      (∀ b < n, key b = (if mem = 2 then 2 ^ 53 else 2 ^ 52) + addr.toNat + b) → reads) ∧
    ∀ port ofs, i = .fabricRequest (.read port ofs n) →
      let p := s.partOf port
      let open_ : Prop := ofs.toNat + n ≤ (tget 0 s.outLimits port).toNat ∧ ofs.toNat + n ≤ p.size * 2 ^ 36
      (open_ → (∀ b < n, key b = p.hbm (ofs.toNat + b)) → reads) ∧ (¬open_ → exec i s = .next (s.send .refusedExport))) ∧
  -- A write leaves its bytes.
  (∀ (s : State) (i : Instr) (bs : List Byte) (key : Nat → Nat),
    let lands (t : State) : Prop :=
      t.sent = s.sent ∧ t.warps = s.warps ∧ t.queues = s.queues ∧
      (∀ b < bs.length, Memory.get t.mem (key b) = bs.getD b 0) ∧
      ∀ a, NoPartial s a → (∀ b < bs.length, a ≠ key b) → Memory.get t.mem a = Memory.get s.mem a
    let writes : Prop := (∀ b < bs.length, ∀ c < bs.length, key b = key c → b = c) → ∃ t, exec i s = .next t ∧ lands t
    (∀ part addr p, i = .hostMemoryAccess (.writeHbm part addr bs) → s.parts.find? (fun p => p.base == part) = some p →
      (addr.toNat + bs.length ≤ p.size * 2 ^ 36 → (∀ b < bs.length, key b = p.hbm (addr.toNat + b)) → writes) ∧
      (p.size * 2 ^ 36 < addr.toNat + bs.length → exec i s = .next (s.send .unsupported))) ∧
    -- The host's own memory: the device holds no copy of the lines any more.
    (∀ mem addr, i = .hostMemoryAccess (.writeSys mem addr bs) → addr.toNat + bs.length ≤ 2 ^ 52 →
      (∀ b < bs.length, key b = (if mem = 2 then 2 ^ 53 else 2 ^ 52) + addr.toNat + b) → ∃ t, exec i s = .next t ∧ lands t ∧
        ∀ x ∈ t.l2, ∀ b < bs.length, x.line = key b / 128 → ∀ d, x.st ≠ .copy d) ∧
    ∀ port ofs, i = .fabricRequest (.write port ofs bs) →
      let p := s.partOf port
      let open_ : Prop :=
        ofs.toNat + bs.length ≤ (tget 0 s.outLimits port).toNat ∧ ofs.toNat + bs.length ≤ p.size * 2 ^ 36
      (open_ → (∀ b < bs.length, key b = p.hbm (ofs.toNat + b)) → writes) ∧
        (¬open_ → exec i s = .next (s.send .refusedExport))) ∧
  -- Registers as the host reads them.
  (∀ s : State,
    let reads (page : IoPage) (off : Nat) (bs : List Byte) : Prop :=
      exec (.hostMemoryAccess (.readIo page off bs.length)) s = .next (s.send (.completion bs))
    (∀ q, reads (.notify q) 0 (leBytes 8 (s.queue q).wrx.toNat) ∧
      ∀ off n, 16 ≤ off → reads (.notify q) off (List.replicate n 0)) ∧
    (∀ q,
      let x := s.queue q
      reads (.queueEntry q) 0x00 (leBytes 8 x.ring.toNat) ∧ reads (.queueEntry q) 0x08 [x.logSize] ∧
      reads (.queueEntry q) 0x0A (leBytes 2 x.gen.toNat) ∧ reads (.queueEntry q) 0x0C (leBytes 4 x.pasid.toNat) ∧
      reads (.queueEntry q) 0x10 (leBytes 8 x.ctx.toNat) ∧ reads (.queueEntry q) 0x18 (leBytes 8 x.pilot.toNat) ∧
      reads (.queueEntry q) 0x20 (leBytes 2 x.pilotLen.toNat) ∧
      reads (.queueEntry q) 0x22 [match x.st with
        | .disabled => 0 | .ready => 1 | .pending => 2 | .mapped => 3 | .waiting => 4 | .faulted => 5 | .resetting => 6] ∧
      reads (.queueEntry q) 0x23 [x.reason] ∧ reads (.queueEntry q) 0x28 (leBytes 8 x.detail.toNat) ∧
      reads (.queueEntry q) 0x30 (leBytes 8 x.rdx.toNat) ∧ reads (.queueEntry q) 0x38 (leBytes 8 x.wrx.toNat) ∧
      reads (.queueEntry q) 0x58 (leBytes 8 x.faultTime.toNat)) ∧
    (∀ part p, s.parts.find? (fun p => p.base == part) = some p →
      reads (.mailbox part) 0x18 (leBytes 8 p.mbBell.toNat) ∧ reads (.mailbox part) 0x20 (leBytes 8 p.mbDone.toNat) ∧
      ∀ i,
        let e := p.entry i
        reads (.chart part) (8 * i)
          (leBytes 8 (if (0x400 ≤ i ∧ i < 0x500) ∨ (i < 0x400 ∧ s.ownsUnit p i = true) then
            e.phys.toNat + e.new.toNat * 2 ^ 24 + (if s.drained p i then 2 ^ 61 else 0) + e.st.toNat * 2 ^ 62 else 0))) ∧
    (let m := s.mapper
     reads .status 0x00 (leBytes 4 ((List.range 128).countP fun k => s.queues.any fun x => x.slot == some k)) ∧
     reads .status 0x04 (leBytes 4 m.pressure.toNat) ∧ reads .status 0x08 (leBytes 4 m.stale.toNat) ∧
     reads .status 0x0C (leBytes 4 m.droppedResume.toNat) ∧ reads .status 0x1C (leBytes 4 m.suspendDone.toNat) ∧
     reads .status 0x24 (leBytes 4 m.mapResult.toNat) ∧
     (∀ b < 12, reads .status (0x40 + 4 * b) (leBytes 4 (tget 0 m.assist b).toNat)) ∧
     (∀ k < 4, reads .status (0x400 + 2 * k) (leBytes 2 (tget 0 m.devVec k).toNat)) ∧
     reads .status 0x408 (leBytes 4 m.devPend.toNat) ∧
     (∀ q, reads .status (0x1000 + 2 * q) (leBytes 2 (tget 0 m.qVec q).toNat)) ∧
     ∀ q < 4096, ∃ a b : Byte, reads .status (0x600 + q / 8) [a] ∧ reads .status (0x800 + q / 8) [b] ∧
       a.getLsbD (q % 8) = ((s.queue q).st == .pending) ∧ b.getLsbD (q % 8) = tget false m.qPend q) ∧
    -- What a register that is only written reads as is left open (log entry 70).
    ∀ page off n, ∃ t bs, exec (.hostMemoryAccess (.readIo page off n)) s = .next t ∧
      { t with sent := s.sent, free := s.free } = s ∧ t.sent = s.sent ++ [.completion bs] ∧ bs.length = n) ∧
  -- AtomicOps of 32 and 64 bits.
  (∀ (s : State) (part : Nat) (p : Part) (addr : DWord) (bits : Nat) (cmp v : QWord),
    s.parts.find? (fun p => p.base == part) = some p →
    let key := p.hbm addr.toNat
    let n := bits / 8
    let fits : Prop := (bits = 32 ∨ bits = 64) ∧ addr.toNat % n = 0 ∧ addr.toNat + n ≤ p.size * 2 ^ 36
    let old := Memory.num s.mem key n
    let does (i : Instr) (new : Nat) : Prop :=
      (¬fits → exec i s = .next (s.send .unsupported)) ∧
      (fits → s.isBad key n = true → exec i s = .next ((s.send (.msix 0)).send .aborted)) ∧
      (fits → s.isBad key n = false → (∀ a, key ≤ a → a < key + n → NoPartial s a) → ∃ t, exec i s = .next t ∧
        t.sent = s.sent ++ [.completion (leBytes n old)] ∧ Memory.num t.mem key n = new % 2 ^ bits ∧
        ∀ a, NoPartial s a → Outside a key n → Memory.get t.mem a = Memory.get s.mem a)
    does (.atomicopFetchadd part addr bits v) (old + v.toNat) ∧ does (.atomicopSwap part addr bits v) v.toNat ∧
    does (.atomicopCas part addr bits cmp v) (if old = cmp.toNat % 2 ^ bits then v.toNat else old)) ∧
  (∀ (s : State) (lanes : Nat), exec (.linkDegrade lanes) s =
    .next (if (lanes = 8 ∨ lanes = 4) ∧ lanes < s.linkLanes then { s with linkLanes := lanes } else s)) ∧
  -- The moves of a TDI are the model's (log entry 34); a request changes nothing else.
  ∀ (s : State) (part : Nat) (req : TdispReq), exec (.tdispRequest part req) s =
    .next { s with parts := s.parts.map fun p => if p.base = part then { p with tdi := p.tdi.next req } else p }

/-- R405 to R408. Boot and recovery, SPDM, the management endpoint, and power. The contents of the answers are the
model's (log entry 35). -/
def Obligations.BootAndManagement : Prop :=
  (∀ (s : State) (images : List BootImage),
    let i := Instr.boot images
    let good : Prop := images.length = 2 ∧
      ∀ x ∈ images, x.ed25519 = true ∧ x.mldsa = true ∧ s.sec.fuse ≤ x.version
    (s.sec.booted = true → s.power.down = false → exec i s = .next s) ∧
    (s.sec.booted = false ∨ s.power.down = true → ∃ t, exec i s = .next t ∧ t.mem = s.mem ∧ t.queues = s.queues ∧
      t.power = { s.power with down := false } ∧ t.sec.fuse = s.sec.fuse ∧ t.sec.sessions = [] ∧
      -- Device time starts again where the module was down (R12).
      t.now = (if s.power.down then 0 else s.now) ∧
      (good → t.sec.booted = true ∧ t.sec.recovery = false ∧ tget 0 t.sec.meas 5 = 0 ∧
        ∀ k x, images[k]? = some x → tget 0 t.sec.meas (k + 1) = x.digest) ∧
      (¬good → t.sec.booted = false ∧ t.sec.recovery = true))) ∧
  -- SPDM: a request in its turn is answered, one out of turn with an error.
  (∀ (s : State) (a b c : Nat),
    let up : Prop := s.sec.booted = true ∨ s.sec.recovery = true
    let agreed : Prop := s.sec.spdm = .algs
    let asks (i : Instr) (turn : Prop) (sec : Sec) (answer : String) : Prop :=
      (¬up → exec i s = .next s) ∧ (up → ¬turn → exec i s = .next (s.send .errorAnswer)) ∧
      (up → turn → ∃ t nums bytes, exec i s = .next t ∧ { t with sec := s.sec, sent := s.sent } = s ∧ t.sec = sec ∧
        t.sent = s.sent ++ [.answer answer nums bytes])
    asks .getVersion True { s.sec with spdm := .version } "VERSION" ∧
    asks .getCapabilities (s.sec.spdm = .version) { s.sec with spdm := .caps } "CAPABILITIES" ∧
    asks (.negotiateAlgorithms a) (s.sec.spdm = .caps) { s.sec with spdm := .algs } "ALGORITHMS" ∧
    asks .getDigests agreed s.sec "DIGESTS" ∧ asks (.getCertificate a b c) agreed s.sec "CERTIFICATE" ∧
    asks (.challenge a b) agreed s.sec "CHALLENGE_AUTH" ∧
    asks (.getMeasurements a b) (agreed ∧ (a ≤ 6 ∨ a = 255)) s.sec "MEASUREMENTS" ∧
    asks (.keyExchange a b) (agreed ∧ ∀ x ∈ s.sec.sessions, x.1 ≠ a)
      { s.sec with sessions := s.sec.sessions ++ [(a, false)] } "KEY_EXCHANGE_RSP" ∧
    asks (.finish a) ((a, false) ∈ s.sec.sessions)
      { s.sec with sessions := s.sec.sessions.map fun x => if x.1 = a then (a, true) else x } "FINISH_RSP" ∧
    asks (.endSession a) ((a, true) ∈ s.sec.sessions)
      { s.sec with sessions := s.sec.sessions.filter fun x => x.1 != a } "END_SESSION_ACK" ∧
    -- The measurement blocks, one by its index or all, are under both signatures.
    (up → agreed → ∀ i blocks, (i, blocks) ∈ ((0, [6]) :: (255, (List.range 6).map fun k => tget 0 s.sec.meas k) ::
        (List.range 6).map fun k => (k + 1, [tget 0 s.sec.meas k])) →
      ∃ h, exec (.getMeasurements i b) s = .next (s.send
        (.answer "MEASUREMENTS" (b :: blocks ++ [Config.signature 0 h, Config.signature 1 h]) [])))) ∧
  -- Management.
  (∀ (s : State) (cmd : Nat), ∃ nums bytes, exec (.mctpControl cmd) s = .next (s.send (.answer "MCTP" nums bytes))) ∧
  (∀ s : State,
    let reports (what : Telemetry) (kind : String) (nums : List Nat) : Prop :=
      exec (.telemetryReport what) s = .next (s.send (.answer kind nums []))
    (∃ n, reports .temperatures "TEMPERATURES" [n]) ∧ (∃ n, reports .rails "RAILS" (n :: s.power.below)) ∧
    (∀ a, reports (.corrected a) "CORRECTED" [tget 0 s.power.total a]) ∧
    (∀ c, reports (.sigKills c) "SIGKILLS" [(s.core c).sigKills]) ∧
    reports .errorLog "ERRORLOG" (s.power.errLog.flatMap fun e => [e.1, e.2]) ∧
    reports .powerLimit "POWERLIMIT" [s.power.cap]) ∧
  (∀ (s : State) (watts : Nat), exec (.setPowerLimit watts) s =
    .next (if 800 ≤ watts ∧ watts ≤ 3200 then { s with power := { s.power with cap := watts } } else s)) ∧
  (∀ (s : State) (rail : Nat) (pin : Option Nat), ∃ t, exec (.railPinning rail pin) s = .next t ∧
    { t with power := { t.power with pinned := s.power.pinned, below := s.power.below } } = s ∧
    (∀ k, tget none t.power.pinned k = if k = rail then pin else tget none s.power.pinned k) ∧
    ∀ k, tget 0 t.power.below k = match pin with
      | some n => if k = rail then n else tget 0 s.power.below k
      | none => tget 0 s.power.below k) ∧
  -- Power.
  (∀ (s : State) (drawn inlet : Nat), exec (.powerThrottle drawn inlet) s = .next { s with power := { s.power with
    clock := if s.power.cap < drawn ∨ 45 < inlet then max 500 (s.power.clock - 50) else min 1000 (s.power.clock + 50) } }) ∧
  ∀ (s : State) (junction : Nat),
    let dark (t : State) : Prop := t.power.down = true ∧ t.sec.booted = false ∧ t.sec.fuse = s.sec.fuse ∧ t.warps = [] ∧
      t.crews = [] ∧ t.launches = [] ∧ t.queues = [] ∧ t.cores = [] ∧ t.cmds = [] ∧ t.monitors = [] ∧
      (∀ a < 2 ^ 52, Memory.get t.mem a = 0)
    (∃ t, exec .mainRailsDown s = .next t ∧ dark t ∧ t.sent = s.sent ∧
      ∀ a, 2 ^ 52 ≤ a → Memory.get t.mem a = Memory.get s.mem a) ∧
    (junction ≤ Config.junctionLimit → exec (.thermalShutdown junction) s = .next s) ∧
    (Config.junctionLimit < junction → ∃ t, exec (.thermalShutdown junction) s = .next t ∧ dark t ∧ .msix 0 ∈ t.sent)

/-! ### Decoding, steps, and what every step keeps -/

/-- The worked encodings of the spec decode to what they encode. -/
def Obligations.SpecWordsDecode : Prop :=
  let pt : Guard := ⟨false, 15⟩
  let z : Fields := ⟨0, pt, pt, .none, .none, .none, .none, .none, 0, .u32, .weak, .none, .dflt, .same, 0⟩
  let c : CFields := ⟨0, pt, pt, 0, 0, 0, 0, false, 0, 0, false, false⟩
  let reads (high low : BitVec 64) (i : Instr) : Prop :=
    decodeBytes (leBytes 8 low.toNat ++ leBytes 8 high.toNat) = .ok (i, [])
  let pilot (w : Word) (i : Instr) : Prop := decodePilotBytes (leBytes 4 w.toNat) = .ok (i, [])
  reads 0x0BFE 0xFF4080101DE30000 (.add { z with g1 := ⟨false, 3⟩, d := .v 7, a := .v 1, b := .s 2 }) ∧
  reads 0x00001FFFFFFFBBFE 0xFFC0003809E10822
    (.cmp { z with sub := 2, g1 := ⟨false, 1⟩, d := .p 2, a := .v 3, b := .imm, imm := 0xFFFFFFFB, ty := .i32 }) ∧
  reads 0x0000100000004BFE 0xFFBFC02005EF1480 (.cvt { z with sub := 5, d := .v 1, a := .v 2, imm := 4, ty := .i32 }) ∧
  reads 0 0x0C00000001EF00C0 (.bra { c with ofs1 := 3 }) ∧
  reads 0x00000400000C0000 0x0800000001EF00C2 (.fork { c with ofs1 := 2, ofs2 := 3, cp := 1 }) ∧
  reads 0x001A000000010BFE 0xFF0090401DEF08E0
    (.ld { z with sub := 2, d := .v 7, a := .s 4, b := .v 2, imm := 16, ord := .acq, scope := .dev }) ∧
  reads 0x1BFE 0xFFC000200DEF4500 (.nbr { z with sub := 17, d := .v 3, a := .v 2, b := .imm, imm := 1 }) ∧
  reads 0x0BFE 0xFFBFF0080DE20518 (.rzaw { z with sub := 1, g1 := ⟨false, 2⟩, d := .p 3, a := .imm }) ∧
  reads 0x0BFC 0x08BFD04BFDEF0123 (.irel { z with a := .s 4, c := .v 8 }) ∧
  reads 0x0BFE 0xFFBFC02805EF0130 (.hlock { z with d := .p 1, a := .v 2 }) ∧
  reads 0x00000000D0D09BFE 0xFF03008849EF0140 (.mma { z with d := .t 2, a := .v 8, b := .v 12, imm := 0x000D0D09 }) ∧
  reads 0x000050000000001A 0xFF00A21011EF0157
    (.eeval { z with d := .v 4, a := .e 1, b := .v 2, e := .v 6, ty := .f64 }) ∧
  reads 0x0BFE 0xFFBFD008A1EF0160 (.qpush { z with d := .q 0, a := .s 0 }) ∧
  reads 0x0000000000041BFE 0xFFBFC10809EF0171 (.svc { z with d := .p 2, a := .v 16, imm := 0x41 }) ∧
  pilot 0x00800010 (.ldp 2 2) ∧ pilot 0x60010000 (.launch 0 0) ∧ pilot 0x70C28000 (.wait 3 1 0 0) ∧
  pilot 0x19000001 (.ldi 4 1) ∧ pilot 0x69048000 (.signalStore 4 2 0) ∧ pilot 0x80000000 .done

/-- R37 to R49, R355, R357. Encoding loses no bit of an instruction, and decoding none of a word: every well-formed
instruction is read back from its bytes (`qpush` to a pipe is one word with `qpush`, and the warp's binding tells them
apart), every word is the encoding of what it decodes to, and a pilot-code word that decodes is well-formed. -/
def Obligations.DecodeEncode : Prop :=
  (∀ (i : Instr) (w : QWord) (rest : List Byte), i.WellFormed → i.encode = some w →
    decodeBytes (leBytes 16 w.toNat ++ rest) = .ok (match i with | .qpushPipe f => .qpush f | _ => i, rest)) ∧
  (∀ w : QWord, (decodeWord w).encode = some w) ∧
  (∀ (i : Instr) (w : Word) (rest : List Byte), i.WellFormed → i.pilotEncode = some w →
    decodePilotBytes (leBytes 4 w.toNat ++ rest) = .ok (i, rest)) ∧
  ∀ (w : Word) (i : Instr), decodePilot w = .ok i → i.WellFormed ∧ i.pilotEncode = some w

/-- The module after reset: time 0, every queue disabled, no chart entry rewritten, every assist word and vector 0, no
image booted, memory in its canonical form. That one partition owns every slice and copy group is the model's (log
entry 7), and so is what a byte that nothing has written reads as (log entry 3). -/
def Obligations.ResetState : Prop :=
  let s := State.reset
  s.memOk ∧ s.now = 0 ∧ (∀ a, Memory.get s.mem a = 0) ∧ s.warps = [] ∧ s.crews = [] ∧ s.launches = [] ∧
  (∀ q, (s.queue q).st = .disabled ∧ (s.queue q).rdx = 0 ∧ (s.queue q).wrx = 0 ∧ (s.queue q).gen = 0) ∧
  (∀ p ∈ s.parts, ∀ i, (p.entry i).st = 0 ∧ (p.entry i).new = 0) ∧
  (∀ p ∈ s.parts, (∀ i < 0x300, (p.entry i).phys.toNat = i) ∧ (∀ i < 0x30, (p.entry (0x300 + i)).phys.toNat = i) ∧
    ∀ i < 12, (p.entry (0x330 + i)).phys.toNat = i ∧ (p.entry (0x340 + i)).phys.toNat = i) ∧
  (∀ p ∈ s.parts, s.assist p = 0 ∧ p.chartErr = 0) ∧
  (∀ k, tget 0 s.mapper.devVec k = 0 ∧ tget 0 s.mapper.qVec k = 0 ∧ tget false s.mapper.qPend k = false) ∧
  s.mapper.devPend = 0 ∧ s.power.threshold = 16 ∧ s.power.down = false ∧ s.sec.booted = false ∧ s.linkLanes = 16 ∧
  s.sent = []

/-- Every step keeps memory, and every crew's local memory, in canonical form: equal memories are equal data. -/
def Obligations.MemoryForm : Prop := ∀ s t : State, s.memOk → step s = .next t → t.memOk

/-- Every step answers a next state: no instruction and no event ends a run. -/
def Obligations.StepContinues : Prop := ∀ s : State, ∃ t, step s = .next t

/-- A step runs the instruction that the bytes at its mover's place decode to, and what it adds around it: time passes,
and with it a cycle of the issue ports, the turn is taken off the agenda, a warp that is not ready is ready from now on at the
earliest, a vector that was due is delivered in the instruction's place unless the instruction has trapped, the stacks go to
memory and come from there, and a cluster that its lanes' deaths mark fails. -/
def Obligations.StepRunsDecoded : Prop :=
  (∀ (s : State) (dt : Nat) (act : Act) (rest : List Turn),
    (s.agenda = { dt := dt, act := act } :: rest ∨ (s.agenda = [] ∧ s.choose = { dt := dt, act := act } ∧ rest = [])) →
    let t : State := { s with
      now := s.now + dt, agenda := rest, turn := some act, cycle := if dt = 0 then s.cycle else [],
      warps := s.warps.map fun w => if s.runnable w then w else { w with readySince := s.now + dt } }
    -- What the turn comes to: an instruction, or a state.
    let runs (i : Instr) (u : State) : Prop :=
      match exec i u with
      | .next r => step s = .next (u.after r)
      | .fault f => step s = .fault f
      | .refused f => step s = .refused f
    let comes (u : State) : Prop := step s = .next (t.close u)
    (act = .idle → comes t) ∧
    (t.power.down = true → (∀ x, act ≠ .event (.boot x)) → comes t) ∧
    -- A step of the device or its surroundings.
    (∀ i, act = .event i → isEvent i = false → comes t) ∧
    (∀ i, act = .event i → isEvent i = true → (t.power.down = false ∨ ∃ x, i = .boot x) → runs i t) ∧
    -- A slot of a warp, on the port of its instruction.
    (∀ uid side, act = .slot uid side → t.power.down = false → t.warp? uid = none → comes t) ∧
    (∀ uid side w, act = .slot uid side → t.power.down = false → t.warp? uid = some w →
      let pasid := t.pasidOf w
      let pc := (w.slot side).pc
      let issued (p : Port) : State := { t.setWarp { w with readySince := t.now, promoted := false } with
        cycle := t.cycle ++ [⟨w.core, p, uid, side⟩] }
      let turn (p : Port) (does : Prop) : Prop := (t.mayIssue w side p = false → comes t) ∧ (t.mayIssue w side p = true → does)
      -- The word with these bytes runs.
      let goes (bs : List Byte) : Prop := ∀ i, decodeBytes bs = .ok (i, []) →
        let u := issued (portOf i)
        let r := u.fetched w.core pasid pc (BitVec.ofNat 128 (leNat bs))
        let j : Instr := match i with
          | .qpush f => if (t.launch w.launch).lrec.binds.toNat / 16 ^ (queueNo f.d) % 16 = 4 then .qpushPipe f else .qpush f
          | _ => i
        turn (portOf i) (runs j r) ∧
        { r with tlb := u.tlb, cores := u.cores } = u ∧ ∀ c, { r.core c with code := (u.core c).code } = u.core c
      (∀ ps, (w.slot side).unfetchable = false → pc.toNat + 16 ≤ 2 ^ 57 → t.run pasid pc 16 { x := true } = .ok ps →
        (∀ p ∈ ps, t.isBad p.1.key p.2 = false) →
        -- The core may hold the word as it was before memory changed under it (R54).
        let new := runBytes t.mem ps
        let held := t.codeAt w.core pasid (codeKey ps)
        (held = none ∨ held = some (BitVec.ofNat 128 (leNat new)) → goes new) ∧
        ∀ old, held = some old → goes new ∨ goes (leBytes 16 old.toNat)) ∧
      -- A fetch that fails, or meets a bad line that the core does not hold.
      (2 ^ 57 < pc.toNat + 16 → (w.slot side).unfetchable = false →
        turn .second (runs (.instructionFetchFault false) (issued .second))) ∧
      (((w.slot side).unfetchable = true ∨
          (pc.toNat + 16 ≤ 2 ^ 57 ∧ ∃ va, t.run pasid pc 16 { x := true } = .bad va .refused)) →
        turn .second (runs (.instructionFetchFault true) (issued .second))) ∧
      ((w.slot side).unfetchable = false → t.fetch w.core pasid pc = .bad → t.deliverDue w side = none →
        turn .second (comes ((t.send (.msix 0)).errorKill w (w.active side) pc)))) ∧
    -- A queue's interpreter.
    (∀ q, act = .pilot q → t.power.down = false → t.interprets q = false → comes t) ∧
    ∀ q, act = .pilot q → t.power.down = false → t.interprets q = true →
      let u : State := if (t.queue q).busy then t else t.setQueue q (t.queue q).begin
      let x := u.queue q
      ((t.queue q).busy = false → (t.queue q).wrx.toNat ≤ (t.queue q).rdx.toNat → comes (t.idleQueue q)) ∧
      ((t.queue q).busy = true ∨ (t.queue q).rdx.toNat < (t.queue q).wrx.toNat →
        (x.code.length ≤ x.pc → comes (u.faultQueue q 4 0)) ∧
        (x.pc < x.code.length → x.budget = 0 → runs (.budgetExceeded q) u) ∧
        (x.pc < x.code.length → x.budget ≠ 0 →
          (∀ i, decodePilot (x.code.getD x.pc 0) = .ok i → runs i u) ∧
          ∀ e, decodePilot (x.code.getD x.pc 0) = .error e → comes (u.faultQueue q 1 (BitVec.ofNat 64 (x.pc + 2 ^ 16)))))) ∧
  -- A vector that was due comes in the place of an instruction that has not trapped (R322).
  (∀ u r : State,
    ((∀ uid side, u.turn ≠ some (.slot uid side)) → u.after r = u.close r) ∧
    ∀ uid side w, u.turn = some (.slot uid side) → u.warp? uid = some w →
      (u.deliverDue w side = none → u.after r = u.close r) ∧
      ∀ d, u.deliverDue w side = some d → u.after r = u.close (match r.warp? uid with
        | some y => if y.handler.isSome then r else d
        | none => d)) ∧
  -- After every step (R21, R388, R391).
  (∀ u r : State,
    ((∀ w ∈ r.warps, u.stackBad w = false) → u.close r = u.syncStacks r.checkClusters) ∧
    ((∀ w ∈ r.warps, w.entries = []) → u.syncStacks r = r)) ∧
  -- A stack entry that the step has left alone is as memory has it; one that it has pushed is written (R21).
  ∀ (u r : State) (w y : Warp), u.warp? w.uid = some y → r.warp? w.uid = some w →
    let pasid := r.pasidOf w
    (w.entries = y.entries → ∃ t w', u.syncStack r w = t ∧ t.mem = r.mem ∧ t.warp? w.uid = some w' ∧
      w'.entries.length = w.entries.length ∧
      ∀ i e va bs, w.entries[i]? = some e → r.entryVa w i = some va → r.entryBytes pasid va = some bs →
        w'.entries[i]? = some (e.reread w.live bs)) ∧
    ∀ e va l, w.entries = y.entries ++ [e] → r.entryVa w y.entries.length = some va → (r.ctx pasid).late = [] →
      r.run pasid va 16 { w := true } = .ok [(l, 16)] →
        ∀ b < 16, Memory.get (u.syncStack r w).mem (l.key + b) = e.bytes.getD b 0
end

