-- ==== Sys2Proof/Laws/State.lean ====
section
/-! SUPPORT. Laws/State.lean: what each update of the state leaves alone, one lemma per field. -/

namespace Sys2Proof.Machine

/-! ### The module -/

@[simp] theorem State.setWarp_now (s : State) (w : Warp) : (s.setWarp w).now = s.now := rfl
@[simp] theorem State.setWarp_mem (s : State) (w : Warp) : (s.setWarp w).mem = s.mem := rfl
@[simp] theorem State.setWarp_bad (s : State) (w : Warp) : (s.setWarp w).bad = s.bad := rfl
@[simp] theorem State.setWarp_crews (s : State) (w : Warp) : (s.setWarp w).crews = s.crews := rfl
@[simp] theorem State.setWarp_cores (s : State) (w : Warp) : (s.setWarp w).cores = s.cores := rfl
@[simp] theorem State.setWarp_launches (s : State) (w : Warp) : (s.setWarp w).launches = s.launches := rfl
@[simp] theorem State.setWarp_ctxs (s : State) (w : Warp) : (s.setWarp w).ctxs = s.ctxs := rfl
@[simp] theorem State.setWarp_queues (s : State) (w : Warp) : (s.setWarp w).queues = s.queues := rfl
@[simp] theorem State.setWarp_parts (s : State) (w : Warp) : (s.setWarp w).parts = s.parts := rfl
@[simp] theorem State.setWarp_copyGroups (s : State) (w : Warp) : (s.setWarp w).copyGroups = s.copyGroups := rfl
@[simp] theorem State.setWarp_outLimits (s : State) (w : Warp) : (s.setWarp w).outLimits = s.outLimits := rfl
@[simp] theorem State.setWarp_mapper (s : State) (w : Warp) : (s.setWarp w).mapper = s.mapper := rfl
@[simp] theorem State.setWarp_monitors (s : State) (w : Warp) : (s.setWarp w).monitors = s.monitors := rfl
@[simp] theorem State.setWarp_pends (s : State) (w : Warp) : (s.setWarp w).pends = s.pends := rfl
@[simp] theorem State.setWarp_l2 (s : State) (w : Warp) : (s.setWarp w).l2 = s.l2 := rfl
@[simp] theorem State.setWarp_cxlLines (s : State) (w : Warp) : (s.setWarp w).cxlLines = s.cxlLines := rfl
@[simp] theorem State.setWarp_pageReqs (s : State) (w : Warp) : (s.setWarp w).pageReqs = s.pageReqs := rfl
@[simp] theorem State.setWarp_tlb (s : State) (w : Warp) : (s.setWarp w).tlb = s.tlb := rfl
@[simp] theorem State.setWarp_atsReqs (s : State) (w : Warp) : (s.setWarp w).atsReqs = s.atsReqs := rfl
@[simp] theorem State.setWarp_cmds (s : State) (w : Warp) : (s.setWarp w).cmds = s.cmds := rfl
@[simp] theorem State.setWarp_served (s : State) (w : Warp) : (s.setWarp w).served = s.served := rfl
@[simp] theorem State.setWarp_watches (s : State) (w : Warp) : (s.setWarp w).watches = s.watches := rfl
@[simp] theorem State.setWarp_acks (s : State) (w : Warp) : (s.setWarp w).acks = s.acks := rfl
@[simp] theorem State.setWarp_laneDeaths (s : State) (w : Warp) : (s.setWarp w).laneDeaths = s.laneDeaths := rfl
@[simp] theorem State.setWarp_failed (s : State) (w : Warp) : (s.setWarp w).failed = s.failed := rfl
@[simp] theorem State.setWarp_sparesUsed (s : State) (w : Warp) : (s.setWarp w).sparesUsed = s.sparesUsed := rfl
@[simp] theorem State.setWarp_power (s : State) (w : Warp) : (s.setWarp w).power = s.power := rfl
@[simp] theorem State.setWarp_sec (s : State) (w : Warp) : (s.setWarp w).sec = s.sec := rfl
@[simp] theorem State.setWarp_linkLanes (s : State) (w : Warp) : (s.setWarp w).linkLanes = s.linkLanes := rfl
@[simp] theorem State.setWarp_sent (s : State) (w : Warp) : (s.setWarp w).sent = s.sent := rfl
@[simp] theorem State.setWarp_serial (s : State) (w : Warp) : (s.setWarp w).serial = s.serial := rfl
@[simp] theorem State.setWarp_free (s : State) (w : Warp) : (s.setWarp w).free = s.free := rfl
@[simp] theorem State.setWarp_agenda (s : State) (w : Warp) : (s.setWarp w).agenda = s.agenda := rfl
@[simp] theorem State.setWarp_turn (s : State) (w : Warp) : (s.setWarp w).turn = s.turn := rfl
@[simp] theorem State.setWarp_cycle (s : State) (w : Warp) : (s.setWarp w).cycle = s.cycle := rfl
@[simp] theorem State.setCrew_now (s : State) (c : Crew) : (s.setCrew c).now = s.now := rfl
@[simp] theorem State.setCrew_mem (s : State) (c : Crew) : (s.setCrew c).mem = s.mem := rfl
@[simp] theorem State.setCrew_bad (s : State) (c : Crew) : (s.setCrew c).bad = s.bad := rfl
@[simp] theorem State.setCrew_warps (s : State) (c : Crew) : (s.setCrew c).warps = s.warps := rfl
@[simp] theorem State.setCrew_cores (s : State) (c : Crew) : (s.setCrew c).cores = s.cores := rfl
@[simp] theorem State.setCrew_launches (s : State) (c : Crew) : (s.setCrew c).launches = s.launches := rfl
@[simp] theorem State.setCrew_ctxs (s : State) (c : Crew) : (s.setCrew c).ctxs = s.ctxs := rfl
@[simp] theorem State.setCrew_queues (s : State) (c : Crew) : (s.setCrew c).queues = s.queues := rfl
@[simp] theorem State.setCrew_parts (s : State) (c : Crew) : (s.setCrew c).parts = s.parts := rfl
@[simp] theorem State.setCrew_copyGroups (s : State) (c : Crew) : (s.setCrew c).copyGroups = s.copyGroups := rfl
@[simp] theorem State.setCrew_outLimits (s : State) (c : Crew) : (s.setCrew c).outLimits = s.outLimits := rfl
@[simp] theorem State.setCrew_mapper (s : State) (c : Crew) : (s.setCrew c).mapper = s.mapper := rfl
@[simp] theorem State.setCrew_monitors (s : State) (c : Crew) : (s.setCrew c).monitors = s.monitors := rfl
@[simp] theorem State.setCrew_pends (s : State) (c : Crew) : (s.setCrew c).pends = s.pends := rfl
@[simp] theorem State.setCrew_l2 (s : State) (c : Crew) : (s.setCrew c).l2 = s.l2 := rfl
@[simp] theorem State.setCrew_cxlLines (s : State) (c : Crew) : (s.setCrew c).cxlLines = s.cxlLines := rfl
@[simp] theorem State.setCrew_pageReqs (s : State) (c : Crew) : (s.setCrew c).pageReqs = s.pageReqs := rfl
@[simp] theorem State.setCrew_tlb (s : State) (c : Crew) : (s.setCrew c).tlb = s.tlb := rfl
@[simp] theorem State.setCrew_atsReqs (s : State) (c : Crew) : (s.setCrew c).atsReqs = s.atsReqs := rfl
@[simp] theorem State.setCrew_cmds (s : State) (c : Crew) : (s.setCrew c).cmds = s.cmds := rfl
@[simp] theorem State.setCrew_served (s : State) (c : Crew) : (s.setCrew c).served = s.served := rfl
@[simp] theorem State.setCrew_watches (s : State) (c : Crew) : (s.setCrew c).watches = s.watches := rfl
@[simp] theorem State.setCrew_acks (s : State) (c : Crew) : (s.setCrew c).acks = s.acks := rfl
@[simp] theorem State.setCrew_laneDeaths (s : State) (c : Crew) : (s.setCrew c).laneDeaths = s.laneDeaths := rfl
@[simp] theorem State.setCrew_failed (s : State) (c : Crew) : (s.setCrew c).failed = s.failed := rfl
@[simp] theorem State.setCrew_sparesUsed (s : State) (c : Crew) : (s.setCrew c).sparesUsed = s.sparesUsed := rfl
@[simp] theorem State.setCrew_power (s : State) (c : Crew) : (s.setCrew c).power = s.power := rfl
@[simp] theorem State.setCrew_sec (s : State) (c : Crew) : (s.setCrew c).sec = s.sec := rfl
@[simp] theorem State.setCrew_linkLanes (s : State) (c : Crew) : (s.setCrew c).linkLanes = s.linkLanes := rfl
@[simp] theorem State.setCrew_sent (s : State) (c : Crew) : (s.setCrew c).sent = s.sent := rfl
@[simp] theorem State.setCrew_serial (s : State) (c : Crew) : (s.setCrew c).serial = s.serial := rfl
@[simp] theorem State.setCrew_free (s : State) (c : Crew) : (s.setCrew c).free = s.free := rfl
@[simp] theorem State.setCrew_agenda (s : State) (c : Crew) : (s.setCrew c).agenda = s.agenda := rfl
@[simp] theorem State.setCrew_turn (s : State) (c : Crew) : (s.setCrew c).turn = s.turn := rfl
@[simp] theorem State.setCrew_cycle (s : State) (c : Crew) : (s.setCrew c).cycle = s.cycle := rfl
@[simp] theorem State.setLaunch_now (s : State) (l : Launch) : (s.setLaunch l).now = s.now := rfl
@[simp] theorem State.setLaunch_mem (s : State) (l : Launch) : (s.setLaunch l).mem = s.mem := rfl
@[simp] theorem State.setLaunch_bad (s : State) (l : Launch) : (s.setLaunch l).bad = s.bad := rfl
@[simp] theorem State.setLaunch_warps (s : State) (l : Launch) : (s.setLaunch l).warps = s.warps := rfl
@[simp] theorem State.setLaunch_crews (s : State) (l : Launch) : (s.setLaunch l).crews = s.crews := rfl
@[simp] theorem State.setLaunch_cores (s : State) (l : Launch) : (s.setLaunch l).cores = s.cores := rfl
@[simp] theorem State.setLaunch_ctxs (s : State) (l : Launch) : (s.setLaunch l).ctxs = s.ctxs := rfl
@[simp] theorem State.setLaunch_queues (s : State) (l : Launch) : (s.setLaunch l).queues = s.queues := rfl
@[simp] theorem State.setLaunch_parts (s : State) (l : Launch) : (s.setLaunch l).parts = s.parts := rfl
@[simp] theorem State.setLaunch_copyGroups (s : State) (l : Launch) : (s.setLaunch l).copyGroups = s.copyGroups := rfl
@[simp] theorem State.setLaunch_outLimits (s : State) (l : Launch) : (s.setLaunch l).outLimits = s.outLimits := rfl
@[simp] theorem State.setLaunch_mapper (s : State) (l : Launch) : (s.setLaunch l).mapper = s.mapper := rfl
@[simp] theorem State.setLaunch_monitors (s : State) (l : Launch) : (s.setLaunch l).monitors = s.monitors := rfl
@[simp] theorem State.setLaunch_pends (s : State) (l : Launch) : (s.setLaunch l).pends = s.pends := rfl
@[simp] theorem State.setLaunch_l2 (s : State) (l : Launch) : (s.setLaunch l).l2 = s.l2 := rfl
@[simp] theorem State.setLaunch_cxlLines (s : State) (l : Launch) : (s.setLaunch l).cxlLines = s.cxlLines := rfl
@[simp] theorem State.setLaunch_pageReqs (s : State) (l : Launch) : (s.setLaunch l).pageReqs = s.pageReqs := rfl
@[simp] theorem State.setLaunch_tlb (s : State) (l : Launch) : (s.setLaunch l).tlb = s.tlb := rfl
@[simp] theorem State.setLaunch_atsReqs (s : State) (l : Launch) : (s.setLaunch l).atsReqs = s.atsReqs := rfl
@[simp] theorem State.setLaunch_cmds (s : State) (l : Launch) : (s.setLaunch l).cmds = s.cmds := rfl
@[simp] theorem State.setLaunch_served (s : State) (l : Launch) : (s.setLaunch l).served = s.served := rfl
@[simp] theorem State.setLaunch_watches (s : State) (l : Launch) : (s.setLaunch l).watches = s.watches := rfl
@[simp] theorem State.setLaunch_acks (s : State) (l : Launch) : (s.setLaunch l).acks = s.acks := rfl
@[simp] theorem State.setLaunch_laneDeaths (s : State) (l : Launch) : (s.setLaunch l).laneDeaths = s.laneDeaths := rfl
@[simp] theorem State.setLaunch_failed (s : State) (l : Launch) : (s.setLaunch l).failed = s.failed := rfl
@[simp] theorem State.setLaunch_sparesUsed (s : State) (l : Launch) : (s.setLaunch l).sparesUsed = s.sparesUsed := rfl
@[simp] theorem State.setLaunch_power (s : State) (l : Launch) : (s.setLaunch l).power = s.power := rfl
@[simp] theorem State.setLaunch_sec (s : State) (l : Launch) : (s.setLaunch l).sec = s.sec := rfl
@[simp] theorem State.setLaunch_linkLanes (s : State) (l : Launch) : (s.setLaunch l).linkLanes = s.linkLanes := rfl
@[simp] theorem State.setLaunch_sent (s : State) (l : Launch) : (s.setLaunch l).sent = s.sent := rfl
@[simp] theorem State.setLaunch_serial (s : State) (l : Launch) : (s.setLaunch l).serial = s.serial := rfl
@[simp] theorem State.setLaunch_free (s : State) (l : Launch) : (s.setLaunch l).free = s.free := rfl
@[simp] theorem State.setLaunch_agenda (s : State) (l : Launch) : (s.setLaunch l).agenda = s.agenda := rfl
@[simp] theorem State.setLaunch_turn (s : State) (l : Launch) : (s.setLaunch l).turn = s.turn := rfl
@[simp] theorem State.setLaunch_cycle (s : State) (l : Launch) : (s.setLaunch l).cycle = s.cycle := rfl
@[simp] theorem State.setCtx_now (s : State) (c : Ctx) : (s.setCtx c).now = s.now := rfl
@[simp] theorem State.setCtx_mem (s : State) (c : Ctx) : (s.setCtx c).mem = s.mem := rfl
@[simp] theorem State.setCtx_bad (s : State) (c : Ctx) : (s.setCtx c).bad = s.bad := rfl
@[simp] theorem State.setCtx_warps (s : State) (c : Ctx) : (s.setCtx c).warps = s.warps := rfl
@[simp] theorem State.setCtx_crews (s : State) (c : Ctx) : (s.setCtx c).crews = s.crews := rfl
@[simp] theorem State.setCtx_cores (s : State) (c : Ctx) : (s.setCtx c).cores = s.cores := rfl
@[simp] theorem State.setCtx_launches (s : State) (c : Ctx) : (s.setCtx c).launches = s.launches := rfl
@[simp] theorem State.setCtx_queues (s : State) (c : Ctx) : (s.setCtx c).queues = s.queues := rfl
@[simp] theorem State.setCtx_parts (s : State) (c : Ctx) : (s.setCtx c).parts = s.parts := rfl
@[simp] theorem State.setCtx_copyGroups (s : State) (c : Ctx) : (s.setCtx c).copyGroups = s.copyGroups := rfl
@[simp] theorem State.setCtx_outLimits (s : State) (c : Ctx) : (s.setCtx c).outLimits = s.outLimits := rfl
@[simp] theorem State.setCtx_mapper (s : State) (c : Ctx) : (s.setCtx c).mapper = s.mapper := rfl
@[simp] theorem State.setCtx_monitors (s : State) (c : Ctx) : (s.setCtx c).monitors = s.monitors := rfl
@[simp] theorem State.setCtx_pends (s : State) (c : Ctx) : (s.setCtx c).pends = s.pends := rfl
@[simp] theorem State.setCtx_l2 (s : State) (c : Ctx) : (s.setCtx c).l2 = s.l2 := rfl
@[simp] theorem State.setCtx_cxlLines (s : State) (c : Ctx) : (s.setCtx c).cxlLines = s.cxlLines := rfl
@[simp] theorem State.setCtx_pageReqs (s : State) (c : Ctx) : (s.setCtx c).pageReqs = s.pageReqs := rfl
@[simp] theorem State.setCtx_tlb (s : State) (c : Ctx) : (s.setCtx c).tlb = s.tlb := rfl
@[simp] theorem State.setCtx_atsReqs (s : State) (c : Ctx) : (s.setCtx c).atsReqs = s.atsReqs := rfl
@[simp] theorem State.setCtx_cmds (s : State) (c : Ctx) : (s.setCtx c).cmds = s.cmds := rfl
@[simp] theorem State.setCtx_served (s : State) (c : Ctx) : (s.setCtx c).served = s.served := rfl
@[simp] theorem State.setCtx_watches (s : State) (c : Ctx) : (s.setCtx c).watches = s.watches := rfl
@[simp] theorem State.setCtx_acks (s : State) (c : Ctx) : (s.setCtx c).acks = s.acks := rfl
@[simp] theorem State.setCtx_laneDeaths (s : State) (c : Ctx) : (s.setCtx c).laneDeaths = s.laneDeaths := rfl
@[simp] theorem State.setCtx_failed (s : State) (c : Ctx) : (s.setCtx c).failed = s.failed := rfl
@[simp] theorem State.setCtx_sparesUsed (s : State) (c : Ctx) : (s.setCtx c).sparesUsed = s.sparesUsed := rfl
@[simp] theorem State.setCtx_power (s : State) (c : Ctx) : (s.setCtx c).power = s.power := rfl
@[simp] theorem State.setCtx_sec (s : State) (c : Ctx) : (s.setCtx c).sec = s.sec := rfl
@[simp] theorem State.setCtx_linkLanes (s : State) (c : Ctx) : (s.setCtx c).linkLanes = s.linkLanes := rfl
@[simp] theorem State.setCtx_sent (s : State) (c : Ctx) : (s.setCtx c).sent = s.sent := rfl
@[simp] theorem State.setCtx_serial (s : State) (c : Ctx) : (s.setCtx c).serial = s.serial := rfl
@[simp] theorem State.setCtx_free (s : State) (c : Ctx) : (s.setCtx c).free = s.free := rfl
@[simp] theorem State.setCtx_agenda (s : State) (c : Ctx) : (s.setCtx c).agenda = s.agenda := rfl
@[simp] theorem State.setCtx_turn (s : State) (c : Ctx) : (s.setCtx c).turn = s.turn := rfl
@[simp] theorem State.setCtx_cycle (s : State) (c : Ctx) : (s.setCtx c).cycle = s.cycle := rfl
@[simp] theorem State.setQueue_now (s : State) (q : Nat) (x : Queue) : (s.setQueue q x).now = s.now := rfl
@[simp] theorem State.setQueue_mem (s : State) (q : Nat) (x : Queue) : (s.setQueue q x).mem = s.mem := rfl
@[simp] theorem State.setQueue_bad (s : State) (q : Nat) (x : Queue) : (s.setQueue q x).bad = s.bad := rfl
@[simp] theorem State.setQueue_warps (s : State) (q : Nat) (x : Queue) : (s.setQueue q x).warps = s.warps := rfl
@[simp] theorem State.setQueue_crews (s : State) (q : Nat) (x : Queue) : (s.setQueue q x).crews = s.crews := rfl
@[simp] theorem State.setQueue_cores (s : State) (q : Nat) (x : Queue) : (s.setQueue q x).cores = s.cores := rfl
@[simp] theorem State.setQueue_launches (s : State) (q : Nat) (x : Queue) : (s.setQueue q x).launches = s.launches :=
  rfl
@[simp] theorem State.setQueue_ctxs (s : State) (q : Nat) (x : Queue) : (s.setQueue q x).ctxs = s.ctxs := rfl
@[simp] theorem State.setQueue_parts (s : State) (q : Nat) (x : Queue) : (s.setQueue q x).parts = s.parts := rfl
@[simp] theorem State.setQueue_copyGroups (s : State) (q : Nat) (x : Queue) : (s.setQueue q x).copyGroups = s.copyGroups :=
  rfl
@[simp] theorem State.setQueue_outLimits (s : State) (q : Nat) (x : Queue) : (s.setQueue q x).outLimits = s.outLimits :=
  rfl
@[simp] theorem State.setQueue_mapper (s : State) (q : Nat) (x : Queue) : (s.setQueue q x).mapper = s.mapper := rfl
@[simp] theorem State.setQueue_monitors (s : State) (q : Nat) (x : Queue) : (s.setQueue q x).monitors = s.monitors :=
  rfl
@[simp] theorem State.setQueue_pends (s : State) (q : Nat) (x : Queue) : (s.setQueue q x).pends = s.pends := rfl
@[simp] theorem State.setQueue_l2 (s : State) (q : Nat) (x : Queue) : (s.setQueue q x).l2 = s.l2 := rfl
@[simp] theorem State.setQueue_cxlLines (s : State) (q : Nat) (x : Queue) : (s.setQueue q x).cxlLines = s.cxlLines :=
  rfl
@[simp] theorem State.setQueue_pageReqs (s : State) (q : Nat) (x : Queue) : (s.setQueue q x).pageReqs = s.pageReqs :=
  rfl
@[simp] theorem State.setQueue_tlb (s : State) (q : Nat) (x : Queue) : (s.setQueue q x).tlb = s.tlb := rfl
@[simp] theorem State.setQueue_atsReqs (s : State) (q : Nat) (x : Queue) : (s.setQueue q x).atsReqs = s.atsReqs := rfl
@[simp] theorem State.setQueue_cmds (s : State) (q : Nat) (x : Queue) : (s.setQueue q x).cmds = s.cmds := rfl
@[simp] theorem State.setQueue_served (s : State) (q : Nat) (x : Queue) : (s.setQueue q x).served = s.served := rfl
@[simp] theorem State.setQueue_watches (s : State) (q : Nat) (x : Queue) : (s.setQueue q x).watches = s.watches := rfl
@[simp] theorem State.setQueue_acks (s : State) (q : Nat) (x : Queue) : (s.setQueue q x).acks = s.acks := rfl
@[simp] theorem State.setQueue_laneDeaths (s : State) (q : Nat) (x : Queue) : (s.setQueue q x).laneDeaths = s.laneDeaths :=
  rfl
@[simp] theorem State.setQueue_failed (s : State) (q : Nat) (x : Queue) : (s.setQueue q x).failed = s.failed := rfl
@[simp] theorem State.setQueue_sparesUsed (s : State) (q : Nat) (x : Queue) : (s.setQueue q x).sparesUsed = s.sparesUsed :=
  rfl
@[simp] theorem State.setQueue_power (s : State) (q : Nat) (x : Queue) : (s.setQueue q x).power = s.power := rfl
@[simp] theorem State.setQueue_sec (s : State) (q : Nat) (x : Queue) : (s.setQueue q x).sec = s.sec := rfl
@[simp] theorem State.setQueue_linkLanes (s : State) (q : Nat) (x : Queue) : (s.setQueue q x).linkLanes = s.linkLanes :=
  rfl
@[simp] theorem State.setQueue_sent (s : State) (q : Nat) (x : Queue) : (s.setQueue q x).sent = s.sent := rfl
@[simp] theorem State.setQueue_serial (s : State) (q : Nat) (x : Queue) : (s.setQueue q x).serial = s.serial := rfl
@[simp] theorem State.setQueue_free (s : State) (q : Nat) (x : Queue) : (s.setQueue q x).free = s.free := rfl
@[simp] theorem State.setQueue_agenda (s : State) (q : Nat) (x : Queue) : (s.setQueue q x).agenda = s.agenda := rfl
@[simp] theorem State.setQueue_turn (s : State) (q : Nat) (x : Queue) : (s.setQueue q x).turn = s.turn := rfl
@[simp] theorem State.setQueue_cycle (s : State) (q : Nat) (x : Queue) : (s.setQueue q x).cycle = s.cycle := rfl
@[simp] theorem State.setCore_now (s : State) (c : Nat) (x : Core) : (s.setCore c x).now = s.now := rfl
@[simp] theorem State.setCore_mem (s : State) (c : Nat) (x : Core) : (s.setCore c x).mem = s.mem := rfl
@[simp] theorem State.setCore_bad (s : State) (c : Nat) (x : Core) : (s.setCore c x).bad = s.bad := rfl
@[simp] theorem State.setCore_warps (s : State) (c : Nat) (x : Core) : (s.setCore c x).warps = s.warps := rfl
@[simp] theorem State.setCore_crews (s : State) (c : Nat) (x : Core) : (s.setCore c x).crews = s.crews := rfl
@[simp] theorem State.setCore_launches (s : State) (c : Nat) (x : Core) : (s.setCore c x).launches = s.launches := rfl
@[simp] theorem State.setCore_ctxs (s : State) (c : Nat) (x : Core) : (s.setCore c x).ctxs = s.ctxs := rfl
@[simp] theorem State.setCore_queues (s : State) (c : Nat) (x : Core) : (s.setCore c x).queues = s.queues := rfl
@[simp] theorem State.setCore_parts (s : State) (c : Nat) (x : Core) : (s.setCore c x).parts = s.parts := rfl
@[simp] theorem State.setCore_copyGroups (s : State) (c : Nat) (x : Core) : (s.setCore c x).copyGroups = s.copyGroups :=
  rfl
@[simp] theorem State.setCore_outLimits (s : State) (c : Nat) (x : Core) : (s.setCore c x).outLimits = s.outLimits :=
  rfl
@[simp] theorem State.setCore_mapper (s : State) (c : Nat) (x : Core) : (s.setCore c x).mapper = s.mapper := rfl
@[simp] theorem State.setCore_monitors (s : State) (c : Nat) (x : Core) : (s.setCore c x).monitors = s.monitors := rfl
@[simp] theorem State.setCore_pends (s : State) (c : Nat) (x : Core) : (s.setCore c x).pends = s.pends := rfl
@[simp] theorem State.setCore_l2 (s : State) (c : Nat) (x : Core) : (s.setCore c x).l2 = s.l2 := rfl
@[simp] theorem State.setCore_cxlLines (s : State) (c : Nat) (x : Core) : (s.setCore c x).cxlLines = s.cxlLines := rfl
@[simp] theorem State.setCore_pageReqs (s : State) (c : Nat) (x : Core) : (s.setCore c x).pageReqs = s.pageReqs := rfl
@[simp] theorem State.setCore_tlb (s : State) (c : Nat) (x : Core) : (s.setCore c x).tlb = s.tlb := rfl
@[simp] theorem State.setCore_atsReqs (s : State) (c : Nat) (x : Core) : (s.setCore c x).atsReqs = s.atsReqs := rfl
@[simp] theorem State.setCore_cmds (s : State) (c : Nat) (x : Core) : (s.setCore c x).cmds = s.cmds := rfl
@[simp] theorem State.setCore_served (s : State) (c : Nat) (x : Core) : (s.setCore c x).served = s.served := rfl
@[simp] theorem State.setCore_watches (s : State) (c : Nat) (x : Core) : (s.setCore c x).watches = s.watches := rfl
@[simp] theorem State.setCore_acks (s : State) (c : Nat) (x : Core) : (s.setCore c x).acks = s.acks := rfl
@[simp] theorem State.setCore_laneDeaths (s : State) (c : Nat) (x : Core) : (s.setCore c x).laneDeaths = s.laneDeaths :=
  rfl
@[simp] theorem State.setCore_failed (s : State) (c : Nat) (x : Core) : (s.setCore c x).failed = s.failed := rfl
@[simp] theorem State.setCore_sparesUsed (s : State) (c : Nat) (x : Core) : (s.setCore c x).sparesUsed = s.sparesUsed :=
  rfl
@[simp] theorem State.setCore_power (s : State) (c : Nat) (x : Core) : (s.setCore c x).power = s.power := rfl
@[simp] theorem State.setCore_sec (s : State) (c : Nat) (x : Core) : (s.setCore c x).sec = s.sec := rfl
@[simp] theorem State.setCore_linkLanes (s : State) (c : Nat) (x : Core) : (s.setCore c x).linkLanes = s.linkLanes :=
  rfl
@[simp] theorem State.setCore_sent (s : State) (c : Nat) (x : Core) : (s.setCore c x).sent = s.sent := rfl
@[simp] theorem State.setCore_serial (s : State) (c : Nat) (x : Core) : (s.setCore c x).serial = s.serial := rfl
@[simp] theorem State.setCore_free (s : State) (c : Nat) (x : Core) : (s.setCore c x).free = s.free := rfl
@[simp] theorem State.setCore_agenda (s : State) (c : Nat) (x : Core) : (s.setCore c x).agenda = s.agenda := rfl
@[simp] theorem State.setCore_turn (s : State) (c : Nat) (x : Core) : (s.setCore c x).turn = s.turn := rfl
@[simp] theorem State.setCore_cycle (s : State) (c : Nat) (x : Core) : (s.setCore c x).cycle = s.cycle := rfl
@[simp] theorem State.setPart_now (s : State) (p : Part) : (s.setPart p).now = s.now := rfl
@[simp] theorem State.setPart_mem (s : State) (p : Part) : (s.setPart p).mem = s.mem := rfl
@[simp] theorem State.setPart_bad (s : State) (p : Part) : (s.setPart p).bad = s.bad := rfl
@[simp] theorem State.setPart_warps (s : State) (p : Part) : (s.setPart p).warps = s.warps := rfl
@[simp] theorem State.setPart_crews (s : State) (p : Part) : (s.setPart p).crews = s.crews := rfl
@[simp] theorem State.setPart_cores (s : State) (p : Part) : (s.setPart p).cores = s.cores := rfl
@[simp] theorem State.setPart_launches (s : State) (p : Part) : (s.setPart p).launches = s.launches := rfl
@[simp] theorem State.setPart_ctxs (s : State) (p : Part) : (s.setPart p).ctxs = s.ctxs := rfl
@[simp] theorem State.setPart_queues (s : State) (p : Part) : (s.setPart p).queues = s.queues := rfl
@[simp] theorem State.setPart_copyGroups (s : State) (p : Part) : (s.setPart p).copyGroups = s.copyGroups := rfl
@[simp] theorem State.setPart_outLimits (s : State) (p : Part) : (s.setPart p).outLimits = s.outLimits := rfl
@[simp] theorem State.setPart_mapper (s : State) (p : Part) : (s.setPart p).mapper = s.mapper := rfl
@[simp] theorem State.setPart_monitors (s : State) (p : Part) : (s.setPart p).monitors = s.monitors := rfl
@[simp] theorem State.setPart_pends (s : State) (p : Part) : (s.setPart p).pends = s.pends := rfl
@[simp] theorem State.setPart_l2 (s : State) (p : Part) : (s.setPart p).l2 = s.l2 := rfl
@[simp] theorem State.setPart_cxlLines (s : State) (p : Part) : (s.setPart p).cxlLines = s.cxlLines := rfl
@[simp] theorem State.setPart_pageReqs (s : State) (p : Part) : (s.setPart p).pageReqs = s.pageReqs := rfl
@[simp] theorem State.setPart_tlb (s : State) (p : Part) : (s.setPart p).tlb = s.tlb := rfl
@[simp] theorem State.setPart_atsReqs (s : State) (p : Part) : (s.setPart p).atsReqs = s.atsReqs := rfl
@[simp] theorem State.setPart_cmds (s : State) (p : Part) : (s.setPart p).cmds = s.cmds := rfl
@[simp] theorem State.setPart_served (s : State) (p : Part) : (s.setPart p).served = s.served := rfl
@[simp] theorem State.setPart_watches (s : State) (p : Part) : (s.setPart p).watches = s.watches := rfl
@[simp] theorem State.setPart_acks (s : State) (p : Part) : (s.setPart p).acks = s.acks := rfl
@[simp] theorem State.setPart_laneDeaths (s : State) (p : Part) : (s.setPart p).laneDeaths = s.laneDeaths := rfl
@[simp] theorem State.setPart_failed (s : State) (p : Part) : (s.setPart p).failed = s.failed := rfl
@[simp] theorem State.setPart_sparesUsed (s : State) (p : Part) : (s.setPart p).sparesUsed = s.sparesUsed := rfl
@[simp] theorem State.setPart_power (s : State) (p : Part) : (s.setPart p).power = s.power := rfl
@[simp] theorem State.setPart_sec (s : State) (p : Part) : (s.setPart p).sec = s.sec := rfl
@[simp] theorem State.setPart_linkLanes (s : State) (p : Part) : (s.setPart p).linkLanes = s.linkLanes := rfl
@[simp] theorem State.setPart_sent (s : State) (p : Part) : (s.setPart p).sent = s.sent := rfl
@[simp] theorem State.setPart_serial (s : State) (p : Part) : (s.setPart p).serial = s.serial := rfl
@[simp] theorem State.setPart_free (s : State) (p : Part) : (s.setPart p).free = s.free := rfl
@[simp] theorem State.setPart_agenda (s : State) (p : Part) : (s.setPart p).agenda = s.agenda := rfl
@[simp] theorem State.setPart_turn (s : State) (p : Part) : (s.setPart p).turn = s.turn := rfl
@[simp] theorem State.setPart_cycle (s : State) (p : Part) : (s.setPart p).cycle = s.cycle := rfl
@[simp] theorem State.send_now (s : State) (o : Out) : (s.send o).now = s.now := rfl
@[simp] theorem State.send_mem (s : State) (o : Out) : (s.send o).mem = s.mem := rfl
@[simp] theorem State.send_bad (s : State) (o : Out) : (s.send o).bad = s.bad := rfl
@[simp] theorem State.send_warps (s : State) (o : Out) : (s.send o).warps = s.warps := rfl
@[simp] theorem State.send_crews (s : State) (o : Out) : (s.send o).crews = s.crews := rfl
@[simp] theorem State.send_cores (s : State) (o : Out) : (s.send o).cores = s.cores := rfl
@[simp] theorem State.send_launches (s : State) (o : Out) : (s.send o).launches = s.launches := rfl
@[simp] theorem State.send_ctxs (s : State) (o : Out) : (s.send o).ctxs = s.ctxs := rfl
@[simp] theorem State.send_queues (s : State) (o : Out) : (s.send o).queues = s.queues := rfl
@[simp] theorem State.send_parts (s : State) (o : Out) : (s.send o).parts = s.parts := rfl
@[simp] theorem State.send_copyGroups (s : State) (o : Out) : (s.send o).copyGroups = s.copyGroups := rfl
@[simp] theorem State.send_outLimits (s : State) (o : Out) : (s.send o).outLimits = s.outLimits := rfl
@[simp] theorem State.send_mapper (s : State) (o : Out) : (s.send o).mapper = s.mapper := rfl
@[simp] theorem State.send_monitors (s : State) (o : Out) : (s.send o).monitors = s.monitors := rfl
@[simp] theorem State.send_pends (s : State) (o : Out) : (s.send o).pends = s.pends := rfl
@[simp] theorem State.send_l2 (s : State) (o : Out) : (s.send o).l2 = s.l2 := rfl
@[simp] theorem State.send_cxlLines (s : State) (o : Out) : (s.send o).cxlLines = s.cxlLines := rfl
@[simp] theorem State.send_pageReqs (s : State) (o : Out) : (s.send o).pageReqs = s.pageReqs := rfl
@[simp] theorem State.send_tlb (s : State) (o : Out) : (s.send o).tlb = s.tlb := rfl
@[simp] theorem State.send_atsReqs (s : State) (o : Out) : (s.send o).atsReqs = s.atsReqs := rfl
@[simp] theorem State.send_cmds (s : State) (o : Out) : (s.send o).cmds = s.cmds := rfl
@[simp] theorem State.send_served (s : State) (o : Out) : (s.send o).served = s.served := rfl
@[simp] theorem State.send_watches (s : State) (o : Out) : (s.send o).watches = s.watches := rfl
@[simp] theorem State.send_acks (s : State) (o : Out) : (s.send o).acks = s.acks := rfl
@[simp] theorem State.send_laneDeaths (s : State) (o : Out) : (s.send o).laneDeaths = s.laneDeaths := rfl
@[simp] theorem State.send_failed (s : State) (o : Out) : (s.send o).failed = s.failed := rfl
@[simp] theorem State.send_sparesUsed (s : State) (o : Out) : (s.send o).sparesUsed = s.sparesUsed := rfl
@[simp] theorem State.send_power (s : State) (o : Out) : (s.send o).power = s.power := rfl
@[simp] theorem State.send_sec (s : State) (o : Out) : (s.send o).sec = s.sec := rfl
@[simp] theorem State.send_linkLanes (s : State) (o : Out) : (s.send o).linkLanes = s.linkLanes := rfl
@[simp] theorem State.send_serial (s : State) (o : Out) : (s.send o).serial = s.serial := rfl
@[simp] theorem State.send_free (s : State) (o : Out) : (s.send o).free = s.free := rfl
@[simp] theorem State.send_agenda (s : State) (o : Out) : (s.send o).agenda = s.agenda := rfl
@[simp] theorem State.send_turn (s : State) (o : Out) : (s.send o).turn = s.turn := rfl
@[simp] theorem State.send_cycle (s : State) (o : Out) : (s.send o).cycle = s.cycle := rfl

/-! ### A warp -/

@[simp] theorem Warp.mapLanes_uid (w : Warp) (m : Word) (f : Nat → Lane → Lane) : (w.mapLanes m f).uid = w.uid := rfl
@[simp] theorem Warp.mapLanes_core (w : Warp) (m : Word) (f : Nat → Lane → Lane) : (w.mapLanes m f).core = w.core :=
  rfl
@[simp] theorem Warp.mapLanes_wid (w : Warp) (m : Word) (f : Nat → Lane → Lane) : (w.mapLanes m f).wid = w.wid := rfl
@[simp] theorem Warp.mapLanes_crew (w : Warp) (m : Word) (f : Nat → Lane → Lane) : (w.mapLanes m f).crew = w.crew :=
  rfl
@[simp] theorem Warp.mapLanes_launch (w : Warp) (m : Word) (f : Nat → Lane → Lane) : (w.mapLanes m f).launch = w.launch :=
  rfl
@[simp] theorem Warp.mapLanes_role (w : Warp) (m : Word) (f : Nat → Lane → Lane) : (w.mapLanes m f).role = w.role :=
  rfl
@[simp] theorem Warp.mapLanes_vN (w : Warp) (m : Word) (f : Nat → Lane → Lane) : (w.mapLanes m f).vN = w.vN := rfl
@[simp] theorem Warp.mapLanes_sN (w : Warp) (m : Word) (f : Nat → Lane → Lane) : (w.mapLanes m f).sN = w.sN := rfl
@[simp] theorem Warp.mapLanes_sregs (w : Warp) (m : Word) (f : Nat → Lane → Lane) : (w.mapLanes m f).sregs = w.sregs :=
  rfl
@[simp] theorem Warp.mapLanes_soiled (w : Warp) (m : Word) (f : Nat → Lane → Lane) : (w.mapLanes m f).soiled = w.soiled :=
  rfl
@[simp] theorem Warp.mapLanes_port (w : Warp) (m : Word) (f : Nat → Lane → Lane) : (w.mapLanes m f).port = w.port :=
  rfl
@[simp] theorem Warp.mapLanes_star (w : Warp) (m : Word) (f : Nat → Lane → Lane) : (w.mapLanes m f).star = w.star :=
  rfl
@[simp] theorem Warp.mapLanes_last (w : Warp) (m : Word) (f : Nat → Lane → Lane) : (w.mapLanes m f).last = w.last :=
  rfl
@[simp] theorem Warp.mapLanes_stack (w : Warp) (m : Word) (f : Nat → Lane → Lane) : (w.mapLanes m f).stack = w.stack :=
  rfl
@[simp] theorem Warp.mapLanes_parked (w : Warp) (m : Word) (f : Nat → Lane → Lane) : (w.mapLanes m f).parked = w.parked :=
  rfl
@[simp] theorem Warp.mapLanes_flags (w : Warp) (m : Word) (f : Nat → Lane → Lane) : (w.mapLanes m f).flags = w.flags :=
  rfl
@[simp] theorem Warp.mapLanes_rmode (w : Warp) (m : Word) (f : Nat → Lane → Lane) : (w.mapLanes m f).rmode = w.rmode :=
  rfl
@[simp] theorem Warp.mapLanes_trapv (w : Warp) (m : Word) (f : Nat → Lane → Lane) : (w.mapLanes m f).trapv = w.trapv :=
  rfl
@[simp] theorem Warp.mapLanes_trappc (w : Warp) (m : Word) (f : Nat → Lane → Lane) : (w.mapLanes m f).trappc = w.trappc :=
  rfl
@[simp] theorem Warp.mapLanes_trapinfo (w : Warp) (m : Word) (f : Nat → Lane → Lane) : (w.mapLanes m f).trapinfo = w.trapinfo :=
  rfl
@[simp] theorem Warp.mapLanes_trapmask (w : Warp) (m : Word) (f : Nat → Lane → Lane) : (w.mapLanes m f).trapmask = w.trapmask :=
  rfl
@[simp] theorem Warp.mapLanes_mqp (w : Warp) (m : Word) (f : Nat → Lane → Lane) : (w.mapLanes m f).mqp = w.mqp := rfl
@[simp] theorem Warp.mapLanes_handler (w : Warp) (m : Word) (f : Nat → Lane → Lane) : (w.mapLanes m f).handler = w.handler :=
  rfl
@[simp] theorem Warp.mapLanes_due (w : Warp) (m : Word) (f : Nat → Lane → Lane) : (w.mapLanes m f).due = w.due := rfl
@[simp] theorem Warp.mapLanes_custDue (w : Warp) (m : Word) (f : Nat → Lane → Lane) : (w.mapLanes m f).custDue = w.custDue :=
  rfl
@[simp] theorem Warp.mapLanes_place (w : Warp) (m : Word) (f : Nat → Lane → Lane) : (w.mapLanes m f).place = w.place :=
  rfl
@[simp] theorem Warp.mapLanes_region (w : Warp) (m : Word) (f : Nat → Lane → Lane) : (w.mapLanes m f).region = w.region :=
  rfl
@[simp] theorem Warp.mapLanes_age (w : Warp) (m : Word) (f : Nat → Lane → Lane) : (w.mapLanes m f).age = w.age := rfl
@[simp] theorem Warp.mapLanes_readySince (w : Warp) (m : Word) (f : Nat → Lane → Lane) : (w.mapLanes m f).readySince = w.readySince :=
  rfl
@[simp] theorem Warp.mapLanes_promoted (w : Warp) (m : Word) (f : Nat → Lane → Lane) : (w.mapLanes m f).promoted = w.promoted :=
  rfl
@[simp] theorem Warp.setSreg_uid (w : Warp) (n : Nat) (b : Word) : (w.setSreg n b).uid = w.uid := rfl
@[simp] theorem Warp.setSreg_core (w : Warp) (n : Nat) (b : Word) : (w.setSreg n b).core = w.core := rfl
@[simp] theorem Warp.setSreg_wid (w : Warp) (n : Nat) (b : Word) : (w.setSreg n b).wid = w.wid := rfl
@[simp] theorem Warp.setSreg_crew (w : Warp) (n : Nat) (b : Word) : (w.setSreg n b).crew = w.crew := rfl
@[simp] theorem Warp.setSreg_launch (w : Warp) (n : Nat) (b : Word) : (w.setSreg n b).launch = w.launch := rfl
@[simp] theorem Warp.setSreg_role (w : Warp) (n : Nat) (b : Word) : (w.setSreg n b).role = w.role := rfl
@[simp] theorem Warp.setSreg_vN (w : Warp) (n : Nat) (b : Word) : (w.setSreg n b).vN = w.vN := rfl
@[simp] theorem Warp.setSreg_sN (w : Warp) (n : Nat) (b : Word) : (w.setSreg n b).sN = w.sN := rfl
@[simp] theorem Warp.setSreg_lanes (w : Warp) (n : Nat) (b : Word) : (w.setSreg n b).lanes = w.lanes := rfl
@[simp] theorem Warp.setSreg_port (w : Warp) (n : Nat) (b : Word) : (w.setSreg n b).port = w.port := rfl
@[simp] theorem Warp.setSreg_star (w : Warp) (n : Nat) (b : Word) : (w.setSreg n b).star = w.star := rfl
@[simp] theorem Warp.setSreg_last (w : Warp) (n : Nat) (b : Word) : (w.setSreg n b).last = w.last := rfl
@[simp] theorem Warp.setSreg_stack (w : Warp) (n : Nat) (b : Word) : (w.setSreg n b).stack = w.stack := rfl
@[simp] theorem Warp.setSreg_parked (w : Warp) (n : Nat) (b : Word) : (w.setSreg n b).parked = w.parked := rfl
@[simp] theorem Warp.setSreg_flags (w : Warp) (n : Nat) (b : Word) : (w.setSreg n b).flags = w.flags := rfl
@[simp] theorem Warp.setSreg_rmode (w : Warp) (n : Nat) (b : Word) : (w.setSreg n b).rmode = w.rmode := rfl
@[simp] theorem Warp.setSreg_trapv (w : Warp) (n : Nat) (b : Word) : (w.setSreg n b).trapv = w.trapv := rfl
@[simp] theorem Warp.setSreg_trappc (w : Warp) (n : Nat) (b : Word) : (w.setSreg n b).trappc = w.trappc := rfl
@[simp] theorem Warp.setSreg_trapinfo (w : Warp) (n : Nat) (b : Word) : (w.setSreg n b).trapinfo = w.trapinfo := rfl
@[simp] theorem Warp.setSreg_trapmask (w : Warp) (n : Nat) (b : Word) : (w.setSreg n b).trapmask = w.trapmask := rfl
@[simp] theorem Warp.setSreg_mqp (w : Warp) (n : Nat) (b : Word) : (w.setSreg n b).mqp = w.mqp := rfl
@[simp] theorem Warp.setSreg_handler (w : Warp) (n : Nat) (b : Word) : (w.setSreg n b).handler = w.handler := rfl
@[simp] theorem Warp.setSreg_due (w : Warp) (n : Nat) (b : Word) : (w.setSreg n b).due = w.due := rfl
@[simp] theorem Warp.setSreg_custDue (w : Warp) (n : Nat) (b : Word) : (w.setSreg n b).custDue = w.custDue := rfl
@[simp] theorem Warp.setSreg_place (w : Warp) (n : Nat) (b : Word) : (w.setSreg n b).place = w.place := rfl
@[simp] theorem Warp.setSreg_region (w : Warp) (n : Nat) (b : Word) : (w.setSreg n b).region = w.region := rfl
@[simp] theorem Warp.setSreg_age (w : Warp) (n : Nat) (b : Word) : (w.setSreg n b).age = w.age := rfl
@[simp] theorem Warp.setSreg_readySince (w : Warp) (n : Nat) (b : Word) : (w.setSreg n b).readySince = w.readySince :=
  rfl
@[simp] theorem Warp.setSreg_promoted (w : Warp) (n : Nat) (b : Word) : (w.setSreg n b).promoted = w.promoted := rfl
@[simp] theorem Warp.orFlags_uid (w : Warp) (f : Word) : (w.orFlags f).uid = w.uid := rfl
@[simp] theorem Warp.orFlags_core (w : Warp) (f : Word) : (w.orFlags f).core = w.core := rfl
@[simp] theorem Warp.orFlags_wid (w : Warp) (f : Word) : (w.orFlags f).wid = w.wid := rfl
@[simp] theorem Warp.orFlags_crew (w : Warp) (f : Word) : (w.orFlags f).crew = w.crew := rfl
@[simp] theorem Warp.orFlags_launch (w : Warp) (f : Word) : (w.orFlags f).launch = w.launch := rfl
@[simp] theorem Warp.orFlags_role (w : Warp) (f : Word) : (w.orFlags f).role = w.role := rfl
@[simp] theorem Warp.orFlags_vN (w : Warp) (f : Word) : (w.orFlags f).vN = w.vN := rfl
@[simp] theorem Warp.orFlags_sN (w : Warp) (f : Word) : (w.orFlags f).sN = w.sN := rfl
@[simp] theorem Warp.orFlags_lanes (w : Warp) (f : Word) : (w.orFlags f).lanes = w.lanes := rfl
@[simp] theorem Warp.orFlags_sregs (w : Warp) (f : Word) : (w.orFlags f).sregs = w.sregs := rfl
@[simp] theorem Warp.orFlags_soiled (w : Warp) (f : Word) : (w.orFlags f).soiled = w.soiled := rfl
@[simp] theorem Warp.orFlags_port (w : Warp) (f : Word) : (w.orFlags f).port = w.port := rfl
@[simp] theorem Warp.orFlags_star (w : Warp) (f : Word) : (w.orFlags f).star = w.star := rfl
@[simp] theorem Warp.orFlags_last (w : Warp) (f : Word) : (w.orFlags f).last = w.last := rfl
@[simp] theorem Warp.orFlags_stack (w : Warp) (f : Word) : (w.orFlags f).stack = w.stack := rfl
@[simp] theorem Warp.orFlags_parked (w : Warp) (f : Word) : (w.orFlags f).parked = w.parked := rfl
@[simp] theorem Warp.orFlags_rmode (w : Warp) (f : Word) : (w.orFlags f).rmode = w.rmode := rfl
@[simp] theorem Warp.orFlags_trapv (w : Warp) (f : Word) : (w.orFlags f).trapv = w.trapv := rfl
@[simp] theorem Warp.orFlags_trappc (w : Warp) (f : Word) : (w.orFlags f).trappc = w.trappc := rfl
@[simp] theorem Warp.orFlags_trapinfo (w : Warp) (f : Word) : (w.orFlags f).trapinfo = w.trapinfo := rfl
@[simp] theorem Warp.orFlags_trapmask (w : Warp) (f : Word) : (w.orFlags f).trapmask = w.trapmask := rfl
@[simp] theorem Warp.orFlags_mqp (w : Warp) (f : Word) : (w.orFlags f).mqp = w.mqp := rfl
@[simp] theorem Warp.orFlags_handler (w : Warp) (f : Word) : (w.orFlags f).handler = w.handler := rfl
@[simp] theorem Warp.orFlags_due (w : Warp) (f : Word) : (w.orFlags f).due = w.due := rfl
@[simp] theorem Warp.orFlags_custDue (w : Warp) (f : Word) : (w.orFlags f).custDue = w.custDue := rfl
@[simp] theorem Warp.orFlags_place (w : Warp) (f : Word) : (w.orFlags f).place = w.place := rfl
@[simp] theorem Warp.orFlags_region (w : Warp) (f : Word) : (w.orFlags f).region = w.region := rfl
@[simp] theorem Warp.orFlags_age (w : Warp) (f : Word) : (w.orFlags f).age = w.age := rfl
@[simp] theorem Warp.orFlags_readySince (w : Warp) (f : Word) : (w.orFlags f).readySince = w.readySince := rfl
@[simp] theorem Warp.orFlags_promoted (w : Warp) (f : Word) : (w.orFlags f).promoted = w.promoted := rfl
@[simp] theorem Warp.setSlot_uid (w : Warp) (side : Side) (x : Slot) : (w.setSlot side x).uid = w.uid :=
  by cases side <;> rfl
@[simp] theorem Warp.setSlot_core (w : Warp) (side : Side) (x : Slot) : (w.setSlot side x).core = w.core :=
  by cases side <;> rfl
@[simp] theorem Warp.setSlot_wid (w : Warp) (side : Side) (x : Slot) : (w.setSlot side x).wid = w.wid :=
  by cases side <;> rfl
@[simp] theorem Warp.setSlot_crew (w : Warp) (side : Side) (x : Slot) : (w.setSlot side x).crew = w.crew :=
  by cases side <;> rfl
@[simp] theorem Warp.setSlot_launch (w : Warp) (side : Side) (x : Slot) : (w.setSlot side x).launch = w.launch :=
  by cases side <;> rfl
@[simp] theorem Warp.setSlot_role (w : Warp) (side : Side) (x : Slot) : (w.setSlot side x).role = w.role :=
  by cases side <;> rfl
@[simp] theorem Warp.setSlot_vN (w : Warp) (side : Side) (x : Slot) : (w.setSlot side x).vN = w.vN :=
  by cases side <;> rfl
@[simp] theorem Warp.setSlot_sN (w : Warp) (side : Side) (x : Slot) : (w.setSlot side x).sN = w.sN :=
  by cases side <;> rfl
@[simp] theorem Warp.setSlot_lanes (w : Warp) (side : Side) (x : Slot) : (w.setSlot side x).lanes = w.lanes :=
  by cases side <;> rfl
@[simp] theorem Warp.setSlot_sregs (w : Warp) (side : Side) (x : Slot) : (w.setSlot side x).sregs = w.sregs :=
  by cases side <;> rfl
@[simp] theorem Warp.setSlot_soiled (w : Warp) (side : Side) (x : Slot) : (w.setSlot side x).soiled = w.soiled :=
  by cases side <;> rfl
@[simp] theorem Warp.setSlot_last (w : Warp) (side : Side) (x : Slot) : (w.setSlot side x).last = w.last :=
  by cases side <;> rfl
@[simp] theorem Warp.setSlot_stack (w : Warp) (side : Side) (x : Slot) : (w.setSlot side x).stack = w.stack :=
  by cases side <;> rfl
@[simp] theorem Warp.setSlot_parked (w : Warp) (side : Side) (x : Slot) : (w.setSlot side x).parked = w.parked :=
  by cases side <;> rfl
@[simp] theorem Warp.setSlot_flags (w : Warp) (side : Side) (x : Slot) : (w.setSlot side x).flags = w.flags :=
  by cases side <;> rfl
@[simp] theorem Warp.setSlot_rmode (w : Warp) (side : Side) (x : Slot) : (w.setSlot side x).rmode = w.rmode :=
  by cases side <;> rfl
@[simp] theorem Warp.setSlot_trapv (w : Warp) (side : Side) (x : Slot) : (w.setSlot side x).trapv = w.trapv :=
  by cases side <;> rfl
@[simp] theorem Warp.setSlot_trappc (w : Warp) (side : Side) (x : Slot) : (w.setSlot side x).trappc = w.trappc :=
  by cases side <;> rfl
@[simp] theorem Warp.setSlot_trapinfo (w : Warp) (side : Side) (x : Slot) : (w.setSlot side x).trapinfo = w.trapinfo :=
  by cases side <;> rfl
@[simp] theorem Warp.setSlot_trapmask (w : Warp) (side : Side) (x : Slot) : (w.setSlot side x).trapmask = w.trapmask :=
  by cases side <;> rfl
@[simp] theorem Warp.setSlot_mqp (w : Warp) (side : Side) (x : Slot) : (w.setSlot side x).mqp = w.mqp :=
  by cases side <;> rfl
@[simp] theorem Warp.setSlot_handler (w : Warp) (side : Side) (x : Slot) : (w.setSlot side x).handler = w.handler :=
  by cases side <;> rfl
@[simp] theorem Warp.setSlot_due (w : Warp) (side : Side) (x : Slot) : (w.setSlot side x).due = w.due :=
  by cases side <;> rfl
@[simp] theorem Warp.setSlot_custDue (w : Warp) (side : Side) (x : Slot) : (w.setSlot side x).custDue = w.custDue :=
  by cases side <;> rfl
@[simp] theorem Warp.setSlot_place (w : Warp) (side : Side) (x : Slot) : (w.setSlot side x).place = w.place :=
  by cases side <;> rfl
@[simp] theorem Warp.setSlot_region (w : Warp) (side : Side) (x : Slot) : (w.setSlot side x).region = w.region :=
  by cases side <;> rfl
@[simp] theorem Warp.setSlot_age (w : Warp) (side : Side) (x : Slot) : (w.setSlot side x).age = w.age :=
  by cases side <;> rfl
@[simp] theorem Warp.setSlot_readySince (w : Warp) (side : Side) (x : Slot) : (w.setSlot side x).readySince = w.readySince :=
  by cases side <;> rfl
@[simp] theorem Warp.setSlot_promoted (w : Warp) (side : Side) (x : Slot) : (w.setSlot side x).promoted = w.promoted :=
  by cases side <;> rfl
@[simp] theorem Warp.push_uid (w : Warp) (e : SEntry) : (w.push e).uid = w.uid := rfl
@[simp] theorem Warp.push_core (w : Warp) (e : SEntry) : (w.push e).core = w.core := rfl
@[simp] theorem Warp.push_wid (w : Warp) (e : SEntry) : (w.push e).wid = w.wid := rfl
@[simp] theorem Warp.push_crew (w : Warp) (e : SEntry) : (w.push e).crew = w.crew := rfl
@[simp] theorem Warp.push_launch (w : Warp) (e : SEntry) : (w.push e).launch = w.launch := rfl
@[simp] theorem Warp.push_role (w : Warp) (e : SEntry) : (w.push e).role = w.role := rfl
@[simp] theorem Warp.push_vN (w : Warp) (e : SEntry) : (w.push e).vN = w.vN := rfl
@[simp] theorem Warp.push_sN (w : Warp) (e : SEntry) : (w.push e).sN = w.sN := rfl
@[simp] theorem Warp.push_lanes (w : Warp) (e : SEntry) : (w.push e).lanes = w.lanes := rfl
@[simp] theorem Warp.push_sregs (w : Warp) (e : SEntry) : (w.push e).sregs = w.sregs := rfl
@[simp] theorem Warp.push_soiled (w : Warp) (e : SEntry) : (w.push e).soiled = w.soiled := rfl
@[simp] theorem Warp.push_port (w : Warp) (e : SEntry) : (w.push e).port = w.port := rfl
@[simp] theorem Warp.push_star (w : Warp) (e : SEntry) : (w.push e).star = w.star := rfl
@[simp] theorem Warp.push_last (w : Warp) (e : SEntry) : (w.push e).last = w.last := rfl
@[simp] theorem Warp.push_parked (w : Warp) (e : SEntry) : (w.push e).parked = w.parked := rfl
@[simp] theorem Warp.push_flags (w : Warp) (e : SEntry) : (w.push e).flags = w.flags := rfl
@[simp] theorem Warp.push_rmode (w : Warp) (e : SEntry) : (w.push e).rmode = w.rmode := rfl
@[simp] theorem Warp.push_trapv (w : Warp) (e : SEntry) : (w.push e).trapv = w.trapv := rfl
@[simp] theorem Warp.push_trappc (w : Warp) (e : SEntry) : (w.push e).trappc = w.trappc := rfl
@[simp] theorem Warp.push_trapinfo (w : Warp) (e : SEntry) : (w.push e).trapinfo = w.trapinfo := rfl
@[simp] theorem Warp.push_trapmask (w : Warp) (e : SEntry) : (w.push e).trapmask = w.trapmask := rfl
@[simp] theorem Warp.push_mqp (w : Warp) (e : SEntry) : (w.push e).mqp = w.mqp := rfl
@[simp] theorem Warp.push_handler (w : Warp) (e : SEntry) : (w.push e).handler = w.handler := rfl
@[simp] theorem Warp.push_due (w : Warp) (e : SEntry) : (w.push e).due = w.due := rfl
@[simp] theorem Warp.push_custDue (w : Warp) (e : SEntry) : (w.push e).custDue = w.custDue := rfl
@[simp] theorem Warp.push_place (w : Warp) (e : SEntry) : (w.push e).place = w.place := rfl
@[simp] theorem Warp.push_region (w : Warp) (e : SEntry) : (w.push e).region = w.region := rfl
@[simp] theorem Warp.push_age (w : Warp) (e : SEntry) : (w.push e).age = w.age := rfl
@[simp] theorem Warp.push_readySince (w : Warp) (e : SEntry) : (w.push e).readySince = w.readySince := rfl
@[simp] theorem Warp.push_promoted (w : Warp) (e : SEntry) : (w.push e).promoted = w.promoted := rfl
@[simp] theorem Warp.addNc_uid (w : Warp) (m : Word) (d : Byte) : (w.addNc m d).uid = w.uid := rfl
@[simp] theorem Warp.addNc_core (w : Warp) (m : Word) (d : Byte) : (w.addNc m d).core = w.core := rfl
@[simp] theorem Warp.addNc_wid (w : Warp) (m : Word) (d : Byte) : (w.addNc m d).wid = w.wid := rfl
@[simp] theorem Warp.addNc_crew (w : Warp) (m : Word) (d : Byte) : (w.addNc m d).crew = w.crew := rfl
@[simp] theorem Warp.addNc_launch (w : Warp) (m : Word) (d : Byte) : (w.addNc m d).launch = w.launch := rfl
@[simp] theorem Warp.addNc_role (w : Warp) (m : Word) (d : Byte) : (w.addNc m d).role = w.role := rfl
@[simp] theorem Warp.addNc_vN (w : Warp) (m : Word) (d : Byte) : (w.addNc m d).vN = w.vN := rfl
@[simp] theorem Warp.addNc_sN (w : Warp) (m : Word) (d : Byte) : (w.addNc m d).sN = w.sN := rfl
@[simp] theorem Warp.addNc_sregs (w : Warp) (m : Word) (d : Byte) : (w.addNc m d).sregs = w.sregs := rfl
@[simp] theorem Warp.addNc_soiled (w : Warp) (m : Word) (d : Byte) : (w.addNc m d).soiled = w.soiled := rfl
@[simp] theorem Warp.addNc_port (w : Warp) (m : Word) (d : Byte) : (w.addNc m d).port = w.port := rfl
@[simp] theorem Warp.addNc_star (w : Warp) (m : Word) (d : Byte) : (w.addNc m d).star = w.star := rfl
@[simp] theorem Warp.addNc_last (w : Warp) (m : Word) (d : Byte) : (w.addNc m d).last = w.last := rfl
@[simp] theorem Warp.addNc_stack (w : Warp) (m : Word) (d : Byte) : (w.addNc m d).stack = w.stack := rfl
@[simp] theorem Warp.addNc_parked (w : Warp) (m : Word) (d : Byte) : (w.addNc m d).parked = w.parked := rfl
@[simp] theorem Warp.addNc_flags (w : Warp) (m : Word) (d : Byte) : (w.addNc m d).flags = w.flags := rfl
@[simp] theorem Warp.addNc_rmode (w : Warp) (m : Word) (d : Byte) : (w.addNc m d).rmode = w.rmode := rfl
@[simp] theorem Warp.addNc_trapv (w : Warp) (m : Word) (d : Byte) : (w.addNc m d).trapv = w.trapv := rfl
@[simp] theorem Warp.addNc_trappc (w : Warp) (m : Word) (d : Byte) : (w.addNc m d).trappc = w.trappc := rfl
@[simp] theorem Warp.addNc_trapinfo (w : Warp) (m : Word) (d : Byte) : (w.addNc m d).trapinfo = w.trapinfo := rfl
@[simp] theorem Warp.addNc_trapmask (w : Warp) (m : Word) (d : Byte) : (w.addNc m d).trapmask = w.trapmask := rfl
@[simp] theorem Warp.addNc_mqp (w : Warp) (m : Word) (d : Byte) : (w.addNc m d).mqp = w.mqp := rfl
@[simp] theorem Warp.addNc_handler (w : Warp) (m : Word) (d : Byte) : (w.addNc m d).handler = w.handler := rfl
@[simp] theorem Warp.addNc_due (w : Warp) (m : Word) (d : Byte) : (w.addNc m d).due = w.due := rfl
@[simp] theorem Warp.addNc_custDue (w : Warp) (m : Word) (d : Byte) : (w.addNc m d).custDue = w.custDue := rfl
@[simp] theorem Warp.addNc_place (w : Warp) (m : Word) (d : Byte) : (w.addNc m d).place = w.place := rfl
@[simp] theorem Warp.addNc_region (w : Warp) (m : Word) (d : Byte) : (w.addNc m d).region = w.region := rfl
@[simp] theorem Warp.addNc_age (w : Warp) (m : Word) (d : Byte) : (w.addNc m d).age = w.age := rfl
@[simp] theorem Warp.addNc_readySince (w : Warp) (m : Word) (d : Byte) : (w.addNc m d).readySince = w.readySince :=
  rfl
@[simp] theorem Warp.addNc_promoted (w : Warp) (m : Word) (d : Byte) : (w.addNc m d).promoted = w.promoted := rfl
@[simp] theorem Warp.advance_uid (w : Warp) (side : Side) (i : Instr) : (w.advance side i).uid = w.uid :=
  by cases side <;> rfl
@[simp] theorem Warp.advance_core (w : Warp) (side : Side) (i : Instr) : (w.advance side i).core = w.core :=
  by cases side <;> rfl
@[simp] theorem Warp.advance_wid (w : Warp) (side : Side) (i : Instr) : (w.advance side i).wid = w.wid :=
  by cases side <;> rfl
@[simp] theorem Warp.advance_crew (w : Warp) (side : Side) (i : Instr) : (w.advance side i).crew = w.crew :=
  by cases side <;> rfl
@[simp] theorem Warp.advance_launch (w : Warp) (side : Side) (i : Instr) : (w.advance side i).launch = w.launch :=
  by cases side <;> rfl
@[simp] theorem Warp.advance_role (w : Warp) (side : Side) (i : Instr) : (w.advance side i).role = w.role :=
  by cases side <;> rfl
@[simp] theorem Warp.advance_vN (w : Warp) (side : Side) (i : Instr) : (w.advance side i).vN = w.vN :=
  by cases side <;> rfl
@[simp] theorem Warp.advance_sN (w : Warp) (side : Side) (i : Instr) : (w.advance side i).sN = w.sN :=
  by cases side <;> rfl
@[simp] theorem Warp.advance_lanes (w : Warp) (side : Side) (i : Instr) : (w.advance side i).lanes = w.lanes :=
  by cases side <;> rfl
@[simp] theorem Warp.advance_sregs (w : Warp) (side : Side) (i : Instr) : (w.advance side i).sregs = w.sregs :=
  by cases side <;> rfl
@[simp] theorem Warp.advance_soiled (w : Warp) (side : Side) (i : Instr) : (w.advance side i).soiled = w.soiled :=
  by cases side <;> rfl
@[simp] theorem Warp.advance_stack (w : Warp) (side : Side) (i : Instr) : (w.advance side i).stack = w.stack :=
  by cases side <;> rfl
@[simp] theorem Warp.advance_parked (w : Warp) (side : Side) (i : Instr) : (w.advance side i).parked = w.parked :=
  by cases side <;> rfl
@[simp] theorem Warp.advance_flags (w : Warp) (side : Side) (i : Instr) : (w.advance side i).flags = w.flags :=
  by cases side <;> rfl
@[simp] theorem Warp.advance_rmode (w : Warp) (side : Side) (i : Instr) : (w.advance side i).rmode = w.rmode :=
  by cases side <;> rfl
@[simp] theorem Warp.advance_trapv (w : Warp) (side : Side) (i : Instr) : (w.advance side i).trapv = w.trapv :=
  by cases side <;> rfl
@[simp] theorem Warp.advance_trappc (w : Warp) (side : Side) (i : Instr) : (w.advance side i).trappc = w.trappc :=
  by cases side <;> rfl
@[simp] theorem Warp.advance_trapinfo (w : Warp) (side : Side) (i : Instr) : (w.advance side i).trapinfo = w.trapinfo :=
  by cases side <;> rfl
@[simp] theorem Warp.advance_trapmask (w : Warp) (side : Side) (i : Instr) : (w.advance side i).trapmask = w.trapmask :=
  by cases side <;> rfl
@[simp] theorem Warp.advance_mqp (w : Warp) (side : Side) (i : Instr) : (w.advance side i).mqp = w.mqp :=
  by cases side <;> rfl
@[simp] theorem Warp.advance_handler (w : Warp) (side : Side) (i : Instr) : (w.advance side i).handler = w.handler :=
  by cases side <;> rfl
@[simp] theorem Warp.advance_due (w : Warp) (side : Side) (i : Instr) : (w.advance side i).due = w.due :=
  by cases side <;> rfl
@[simp] theorem Warp.advance_custDue (w : Warp) (side : Side) (i : Instr) : (w.advance side i).custDue = w.custDue :=
  by cases side <;> rfl
@[simp] theorem Warp.advance_place (w : Warp) (side : Side) (i : Instr) : (w.advance side i).place = w.place :=
  by cases side <;> rfl
@[simp] theorem Warp.advance_region (w : Warp) (side : Side) (i : Instr) : (w.advance side i).region = w.region :=
  by cases side <;> rfl
@[simp] theorem Warp.advance_age (w : Warp) (side : Side) (i : Instr) : (w.advance side i).age = w.age :=
  by cases side <;> rfl
@[simp] theorem Warp.advance_readySince (w : Warp) (side : Side) (i : Instr) : (w.advance side i).readySince = w.readySince :=
  by cases side <;> rfl
@[simp] theorem Warp.await_uid (w : Warp) (side : Side) (why : Why) (now : Nat) : (w.await side why now).uid = w.uid :=
  by cases side <;> rfl
@[simp] theorem Warp.await_core (w : Warp) (side : Side) (why : Why) (now : Nat) : (w.await side why now).core = w.core :=
  by cases side <;> rfl
@[simp] theorem Warp.await_wid (w : Warp) (side : Side) (why : Why) (now : Nat) : (w.await side why now).wid = w.wid :=
  by cases side <;> rfl
@[simp] theorem Warp.await_crew (w : Warp) (side : Side) (why : Why) (now : Nat) : (w.await side why now).crew = w.crew :=
  by cases side <;> rfl
@[simp] theorem Warp.await_launch (w : Warp) (side : Side) (why : Why) (now : Nat) : (w.await side why now).launch = w.launch :=
  by cases side <;> rfl
@[simp] theorem Warp.await_role (w : Warp) (side : Side) (why : Why) (now : Nat) : (w.await side why now).role = w.role :=
  by cases side <;> rfl
@[simp] theorem Warp.await_vN (w : Warp) (side : Side) (why : Why) (now : Nat) : (w.await side why now).vN = w.vN :=
  by cases side <;> rfl
@[simp] theorem Warp.await_sN (w : Warp) (side : Side) (why : Why) (now : Nat) : (w.await side why now).sN = w.sN :=
  by cases side <;> rfl
@[simp] theorem Warp.await_lanes (w : Warp) (side : Side) (why : Why) (now : Nat) : (w.await side why now).lanes = w.lanes :=
  by cases side <;> rfl
@[simp] theorem Warp.await_sregs (w : Warp) (side : Side) (why : Why) (now : Nat) : (w.await side why now).sregs = w.sregs :=
  by cases side <;> rfl
@[simp] theorem Warp.await_soiled (w : Warp) (side : Side) (why : Why) (now : Nat) : (w.await side why now).soiled = w.soiled :=
  by cases side <;> rfl
@[simp] theorem Warp.await_stack (w : Warp) (side : Side) (why : Why) (now : Nat) : (w.await side why now).stack = w.stack :=
  by cases side <;> rfl
@[simp] theorem Warp.await_parked (w : Warp) (side : Side) (why : Why) (now : Nat) : (w.await side why now).parked = w.parked :=
  by cases side <;> rfl
@[simp] theorem Warp.await_flags (w : Warp) (side : Side) (why : Why) (now : Nat) : (w.await side why now).flags = w.flags :=
  by cases side <;> rfl
@[simp] theorem Warp.await_rmode (w : Warp) (side : Side) (why : Why) (now : Nat) : (w.await side why now).rmode = w.rmode :=
  by cases side <;> rfl
@[simp] theorem Warp.await_trapv (w : Warp) (side : Side) (why : Why) (now : Nat) : (w.await side why now).trapv = w.trapv :=
  by cases side <;> rfl
@[simp] theorem Warp.await_trappc (w : Warp) (side : Side) (why : Why) (now : Nat) : (w.await side why now).trappc = w.trappc :=
  by cases side <;> rfl
@[simp] theorem Warp.await_trapinfo (w : Warp) (side : Side) (why : Why) (now : Nat) : (w.await side why now).trapinfo = w.trapinfo :=
  by cases side <;> rfl
@[simp] theorem Warp.await_trapmask (w : Warp) (side : Side) (why : Why) (now : Nat) : (w.await side why now).trapmask = w.trapmask :=
  by cases side <;> rfl
@[simp] theorem Warp.await_mqp (w : Warp) (side : Side) (why : Why) (now : Nat) : (w.await side why now).mqp = w.mqp :=
  by cases side <;> rfl
@[simp] theorem Warp.await_handler (w : Warp) (side : Side) (why : Why) (now : Nat) : (w.await side why now).handler = w.handler :=
  by cases side <;> rfl
@[simp] theorem Warp.await_due (w : Warp) (side : Side) (why : Why) (now : Nat) : (w.await side why now).due = w.due :=
  by cases side <;> rfl
@[simp] theorem Warp.await_custDue (w : Warp) (side : Side) (why : Why) (now : Nat) : (w.await side why now).custDue = w.custDue :=
  by cases side <;> rfl
@[simp] theorem Warp.await_place (w : Warp) (side : Side) (why : Why) (now : Nat) : (w.await side why now).place = w.place :=
  by cases side <;> rfl
@[simp] theorem Warp.await_region (w : Warp) (side : Side) (why : Why) (now : Nat) : (w.await side why now).region = w.region :=
  by cases side <;> rfl
@[simp] theorem Warp.await_age (w : Warp) (side : Side) (why : Why) (now : Nat) : (w.await side why now).age = w.age :=
  by cases side <;> rfl
@[simp] theorem Warp.await_readySince (w : Warp) (side : Side) (why : Why) (now : Nat) : (w.await side why now).readySince = w.readySince :=
  by cases side <;> rfl

/-! ### A lane -/

@[simp] theorem Lane.setReg_st (x : Lane) (n : Nat) (b : Word) : (x.setReg n b).st = x.st :=
  by unfold Lane.setReg; split <;> rfl
@[simp] theorem Lane.setReg_p (x : Lane) (n : Nat) (b : Word) : (x.setReg n b).p = x.p :=
  by unfold Lane.setReg; split <;> rfl
@[simp] theorem Lane.setReg_nc (x : Lane) (n : Nat) (b : Word) : (x.setReg n b).nc = x.nc :=
  by unfold Lane.setReg; split <;> rfl
@[simp] theorem Lane.setReg_tid (x : Lane) (n : Nat) (b : Word) : (x.setReg n b).tid = x.tid :=
  by unfold Lane.setReg; split <;> rfl
@[simp] theorem Lane.setReg_iflow (x : Lane) (n : Nat) (b : Word) : (x.setReg n b).iflow = x.iflow :=
  by unfold Lane.setReg; split <;> rfl
@[simp] theorem Lane.setReg_iclass (x : Lane) (n : Nat) (b : Word) : (x.setReg n b).iclass = x.iclass :=
  by unfold Lane.setReg; split <;> rfl
@[simp] theorem Lane.setReg_iseq (x : Lane) (n : Nat) (b : Word) : (x.setReg n b).iseq = x.iseq :=
  by unfold Lane.setReg; split <;> rfl
@[simp] theorem Lane.setReg_iid (x : Lane) (n : Nat) (b : Word) : (x.setReg n b).iid = x.iid :=
  by unfold Lane.setReg; split <;> rfl
@[simp] theorem Lane.setReg_ipay (x : Lane) (n : Nat) (b : Word) : (x.setReg n b).ipay = x.ipay :=
  by unfold Lane.setReg; split <;> rfl
@[simp] theorem Lane.setReg_heir (x : Lane) (n : Nat) (b : Word) : (x.setReg n b).heir = x.heir :=
  by unfold Lane.setReg; split <;> rfl
@[simp] theorem Lane.setReg_inher (x : Lane) (n : Nat) (b : Word) : (x.setReg n b).inher = x.inher :=
  by unfold Lane.setReg; split <;> rfl
@[simp] theorem Lane.setReg_teams (x : Lane) (n : Nat) (b : Word) : (x.setReg n b).teams = x.teams :=
  by unfold Lane.setReg; split <;> rfl
@[simp] theorem Lane.setReg_posted (x : Lane) (n : Nat) (b : Word) : (x.setReg n b).posted = x.posted :=
  by unfold Lane.setReg; split <;> rfl
@[simp] theorem Lane.setReg_replay (x : Lane) (n : Nat) (b : Word) : (x.setReg n b).replay = x.replay :=
  by unfold Lane.setReg; split <;> rfl
@[simp] theorem Lane.setReg_arrival (x : Lane) (n : Nat) (b : Word) : (x.setReg n b).arrival = x.arrival :=
  by unfold Lane.setReg; split <;> rfl
@[simp] theorem Lane.setPred_st (x : Lane) (n : BitVec 4) (b : Bool) : (x.setPred n b).st = x.st :=
  by unfold Lane.setPred; split <;> rfl
@[simp] theorem Lane.setPred_v (x : Lane) (n : BitVec 4) (b : Bool) : (x.setPred n b).v = x.v :=
  by unfold Lane.setPred; split <;> rfl
@[simp] theorem Lane.setPred_nc (x : Lane) (n : BitVec 4) (b : Bool) : (x.setPred n b).nc = x.nc :=
  by unfold Lane.setPred; split <;> rfl
@[simp] theorem Lane.setPred_tid (x : Lane) (n : BitVec 4) (b : Bool) : (x.setPred n b).tid = x.tid :=
  by unfold Lane.setPred; split <;> rfl
@[simp] theorem Lane.setPred_iflow (x : Lane) (n : BitVec 4) (b : Bool) : (x.setPred n b).iflow = x.iflow :=
  by unfold Lane.setPred; split <;> rfl
@[simp] theorem Lane.setPred_iclass (x : Lane) (n : BitVec 4) (b : Bool) : (x.setPred n b).iclass = x.iclass :=
  by unfold Lane.setPred; split <;> rfl
@[simp] theorem Lane.setPred_iseq (x : Lane) (n : BitVec 4) (b : Bool) : (x.setPred n b).iseq = x.iseq :=
  by unfold Lane.setPred; split <;> rfl
@[simp] theorem Lane.setPred_iid (x : Lane) (n : BitVec 4) (b : Bool) : (x.setPred n b).iid = x.iid :=
  by unfold Lane.setPred; split <;> rfl
@[simp] theorem Lane.setPred_ipay (x : Lane) (n : BitVec 4) (b : Bool) : (x.setPred n b).ipay = x.ipay :=
  by unfold Lane.setPred; split <;> rfl
@[simp] theorem Lane.setPred_heir (x : Lane) (n : BitVec 4) (b : Bool) : (x.setPred n b).heir = x.heir :=
  by unfold Lane.setPred; split <;> rfl
@[simp] theorem Lane.setPred_inher (x : Lane) (n : BitVec 4) (b : Bool) : (x.setPred n b).inher = x.inher :=
  by unfold Lane.setPred; split <;> rfl
@[simp] theorem Lane.setPred_teams (x : Lane) (n : BitVec 4) (b : Bool) : (x.setPred n b).teams = x.teams :=
  by unfold Lane.setPred; split <;> rfl
@[simp] theorem Lane.setPred_posted (x : Lane) (n : BitVec 4) (b : Bool) : (x.setPred n b).posted = x.posted :=
  by unfold Lane.setPred; split <;> rfl
@[simp] theorem Lane.setPred_replay (x : Lane) (n : BitVec 4) (b : Bool) : (x.setPred n b).replay = x.replay :=
  by unfold Lane.setPred; split <;> rfl
@[simp] theorem Lane.setPred_arrival (x : Lane) (n : BitVec 4) (b : Bool) : (x.setPred n b).arrival = x.arrival :=
  by unfold Lane.setPred; split <;> rfl
@[simp] theorem Lane.setTeam_st (x : Lane) (k : Nat) (h : Word) : (x.setTeam k h).st = x.st := rfl
@[simp] theorem Lane.setTeam_v (x : Lane) (k : Nat) (h : Word) : (x.setTeam k h).v = x.v := rfl
@[simp] theorem Lane.setTeam_p (x : Lane) (k : Nat) (h : Word) : (x.setTeam k h).p = x.p := rfl
@[simp] theorem Lane.setTeam_nc (x : Lane) (k : Nat) (h : Word) : (x.setTeam k h).nc = x.nc := rfl
@[simp] theorem Lane.setTeam_tid (x : Lane) (k : Nat) (h : Word) : (x.setTeam k h).tid = x.tid := rfl
@[simp] theorem Lane.setTeam_iflow (x : Lane) (k : Nat) (h : Word) : (x.setTeam k h).iflow = x.iflow := rfl
@[simp] theorem Lane.setTeam_iclass (x : Lane) (k : Nat) (h : Word) : (x.setTeam k h).iclass = x.iclass := rfl
@[simp] theorem Lane.setTeam_iseq (x : Lane) (k : Nat) (h : Word) : (x.setTeam k h).iseq = x.iseq := rfl
@[simp] theorem Lane.setTeam_iid (x : Lane) (k : Nat) (h : Word) : (x.setTeam k h).iid = x.iid := rfl
@[simp] theorem Lane.setTeam_ipay (x : Lane) (k : Nat) (h : Word) : (x.setTeam k h).ipay = x.ipay := rfl
@[simp] theorem Lane.setTeam_heir (x : Lane) (k : Nat) (h : Word) : (x.setTeam k h).heir = x.heir := rfl
@[simp] theorem Lane.setTeam_inher (x : Lane) (k : Nat) (h : Word) : (x.setTeam k h).inher = x.inher := rfl
@[simp] theorem Lane.setTeam_posted (x : Lane) (k : Nat) (h : Word) : (x.setTeam k h).posted = x.posted := rfl
@[simp] theorem Lane.setTeam_replay (x : Lane) (k : Nat) (h : Word) : (x.setTeam k h).replay = x.replay := rfl
@[simp] theorem Lane.setTeam_arrival (x : Lane) (k : Nat) (h : Word) : (x.setTeam k h).arrival = x.arrival := rfl

end Sys2Proof.Machine
end

