-- ==== Sys2Proof/Laws/Tables.lean ====
section
/-! SUPPORT. Laws/Tables.lean: sparse tables, masks of lanes, and lists in which a part is replaced. -/

namespace Sys2Proof

/-! ### Tables -/

@[simp] theorem tget_nil {α : Type} (d : α) (i : Nat) : tget d [] i = d := by simp [tget]

@[simp] theorem tget_cons_zero {α : Type} (d x : α) (l : List α) : tget d (x :: l) 0 = x := by simp [tget]

@[simp] theorem tget_cons_succ {α : Type} (d x : α) (l : List α) (i : Nat) : tget d (x :: l) (i + 1) = tget d l i := by
  simp [tget]

theorem tget_tset {α : Type} (d x : α) (l : List α) (i j : Nat) :
    tget d (tset d l i x) j = if j = i then x else tget d l j := by
  induction l generalizing i j with
  | nil =>
    induction i generalizing j with
    | zero => cases j <;> simp [tset]
    | succ i ih => cases j <;> simp [tset, ih]
  | cons y l ih => cases i <;> cases j <;> simp [tset, ih]

@[simp] theorem tget_tset_self {α : Type} (d x : α) (l : List α) (i : Nat) : tget d (tset d l i x) i = x := by
  simp [tget_tset]

theorem tget_map_range {α : Type} (d : α) (g : Nat → α) (n i : Nat) :
    tget d ((List.range n).map g) i = if i < n then g i else d := by
  by_cases h : i < n
  · simp [tget, List.getD, h]
  · simp [tget, List.getD, h]

/-! ### Masks -/

theorem getLsbD_one_shift (i l : Nat) : (1#32 <<< i).getLsbD l = (decide (l = i) && decide (i < 32)) := by
  by_cases h : l = i
  · subst h; by_cases h2 : l < 32 <;> simp [h2, BitVec.getLsbD_shiftLeft]
  · simp only [BitVec.getLsbD_shiftLeft, h]
    by_cases h2 : l < i
    · simp [h2]
    · have : l - i ≠ 0 := by omega
      simp [BitVec.getLsbD_one, this]

theorem getLsbD_fold (p : Nat → Bool) (m : Word) (ls : List Nat) (l : Nat) :
    (ls.foldl (fun m l => if p l then m ||| (1#32 <<< l) else m) m).getLsbD l =
      (m.getLsbD l || (ls.contains l && p l && decide (l < 32))) := by
  induction ls generalizing m with
  | nil => simp
  | cons k ls ih =>
    simp only [List.foldl_cons, ih, List.contains_cons]
    by_cases hp : p k
    · simp only [hp, if_true, BitVec.getLsbD_or, getLsbD_one_shift]
      by_cases hk : l = k
      · subst hk; by_cases h : l < 32 <;> simp [h, hp]
      · have hb : (l == k) = false := by simpa using hk
        simp [hk, hb]
    · simp only [hp]
      by_cases hk : l = k
      · subst hk; simp [hp]
      · have hb : (l == k) = false := by simpa using hk
        simp [hb]

/-- A mask holds exactly the lanes that its test accepts. -/
@[simp] theorem getLsbD_maskOf (p : Nat → Bool) (l : Nat) : (maskOf p).getLsbD l = (decide (l < 32) && p l) := by
  rw [maskOf, getLsbD_fold]
  by_cases h : l < 32 <;> simp [h]

@[simp] theorem getLsbD_bitOf (i l : Nat) : (bitOf i).getLsbD l = (decide (l = i) && decide (i < 32)) :=
  getLsbD_one_shift i l

@[simp] theorem mem_lanesOf (m : Word) (l : Nat) : l ∈ lanesOf m ↔ l < 32 ∧ m.getLsbD l = true := by
  simp [lanesOf]

theorem mask_ext {a b : Word} (h : ∀ l < 32, a.getLsbD l = b.getLsbD l) : a = b := by
  apply BitVec.eq_of_getLsbD_eq; intro i hi; exact h i hi

/-- A mask is the one of its own lanes. -/
@[simp] theorem maskOf_getLsbD (m : Word) : (maskOf fun l => m.getLsbD l) = m :=
  mask_ext fun l h => by rw [getLsbD_maskOf]; simp [h]

theorem mask_ne_zero {m : Word} {l : Nat} (h : m.getLsbD l = true) : m ≠ 0 := by
  intro h0; simp [h0] at h

theorem mask_eq_zero {m : Word} (h : ∀ l < 32, m.getLsbD l = false) : m = 0 :=
  mask_ext fun l hl => by simp [h l hl]

theorem exists_lane {m : Word} (h : m ≠ 0) : ∃ l < 32, m.getLsbD l = true := by
  apply Classical.byContradiction; intro hn
  exact h (mask_eq_zero fun l hl => by
    cases hb : m.getLsbD l
    · rfl
    · exact absurd ⟨l, hl, hb⟩ hn)

theorem lanesOf_zero : lanesOf 0 = [] := by decide

theorem nodup_lanesOf (m : Word) : (lanesOf m).Nodup := List.Pairwise.filter _ List.nodup_range

theorem lowFrom_spec (m : Word) (k i : Nat) :
    match lowFrom m k i with
    | some l => i ≤ l ∧ l < i + k ∧ m.getLsbD l = true ∧ ∀ j, i ≤ j → j < l → m.getLsbD j = false
    | none => ∀ j, i ≤ j → j < i + k → m.getLsbD j = false := by
  induction k generalizing i with
  | zero => simp [lowFrom]; intro j h1 h2; omega
  | succ k ih =>
    unfold lowFrom
    by_cases hb : m.getLsbD i = true
    · simp [hb]; intro j h1 h2; omega
    · simp only [hb]
      have := ih (i + 1)
      revert this
      cases lowFrom m k (i + 1) with
      | none =>
        intro h j h1 h2
        by_cases hj : j = i
        · subst hj; simpa using hb
        · exact h j (by omega) (by omega)
      | some l =>
        rintro ⟨h1, h2, h3, h4⟩
        refine ⟨by omega, by omega, h3, ?_⟩
        intro j h5 h6
        by_cases hj : j = i
        · subst hj; simpa using hb
        · exact h4 j (by omega) h6

/-- The lowest lane of a mask is in it, and no lane below it is. -/
theorem lowLane_some {m : Word} {l : Nat} (h : lowLane m = some l) :
    l < 32 ∧ m.getLsbD l = true ∧ ∀ j < l, m.getLsbD j = false := by
  have := lowFrom_spec m 32 0
  rw [show lowFrom m 32 0 = some l from h] at this
  exact ⟨by omega, this.2.2.1, fun j hj => this.2.2.2 j (by omega) hj⟩

theorem lowLane_none {m : Word} (h : lowLane m = none) : m = 0 := by
  have := lowFrom_spec m 32 0
  rw [show lowFrom m 32 0 = none from h] at this
  exact mask_eq_zero fun l hl => this l (by omega) (by omega)

/-! ### Parts replaced -/

namespace Machine

theorem find?_putBy {α : Type} (same : α → Bool) (x : α) (l : List α) (h : same x = true) :
    (putBy same x l).find? same = some x := by
  induction l with
  | nil => simp [putBy, h]
  | cons y l ih =>
    unfold putBy
    by_cases hy : same y = true
    · simp [hy, h]
    · simp [hy, ih]

theorem find?_putBy_ne {α : Type} (same p : α → Bool) (x : α) (l : List α) (hx : p x = false)
    (hp : ∀ y, same y = true → p y = false) : (putBy same x l).find? p = l.find? p := by
  induction l with
  | nil => simp [putBy, hx]
  | cons y l ih =>
    unfold putBy
    by_cases hy : same y = true
    · simp [hy, hx, hp y hy]
    · by_cases hpy : p y = true
      · simp [hy, hpy]
      · simp [hy, hpy, ih]

end Machine

end Sys2Proof
end

