-- ==== Sys2Proof/Laws/Issue.lean ====
section
/-! SUPPORT. Laws/Issue.lean: finding a warp again, reading lanes and registers after they are written, and what the
issue of an instruction that only computes comes to. -/

namespace Sys2Proof.Machine

/-! ### Warps found -/

theorem State.warp?_uid {s : State} {uid : Nat} {w : Warp} (h : s.warp? uid = some w) : w.uid = uid := by
  have := List.find?_some h; simpa using this

theorem State.warp?_mem {s : State} {uid : Nat} {w : Warp} (h : s.warp? uid = some w) : w ∈ s.warps :=
  List.mem_of_find?_eq_some h

theorem find?_map_if {α : Type} (key : α → Nat) (x : α) (l : List α) (k : Nat) :
    (l.map fun y => if key y = key x then x else y).find? (fun y => key y == k) =
      if k = key x then (l.find? fun y => key y == k).map (fun _ => x) else l.find? fun y => key y == k := by
  induction l with
  | nil => simp
  | cons y l ih =>
    simp only [List.map_cons, List.find?_cons]
    by_cases hy : key y = key x
    · by_cases hk : k = key x
      · simp [hy, hk]
      · have h1 : (key x == k) = false := by simpa using fun h => hk h.symm
        have h2 : (key y == k) = false := by rw [hy]; exact h1
        simp [hy, hk, h1, ih]
    · by_cases hk : k = key x
      · have h2 : (key y == key x) = false := by simpa using hy
        simp only [hy, if_false]
        subst hk
        simp [h2, ih]
      · simp only [hy, if_false, ih, hk]

/-- The warp that was replaced is found where the old one was. -/
theorem State.warp?_setWarp {s : State} {w : Warp} (x : Warp) (h : s.warp? x.uid = some w) :
    (s.setWarp x).warp? x.uid = some x := by
  have := find?_map_if Warp.uid x s.warps x.uid
  simp only [State.warp?, State.setWarp, beq_iff_eq] at h ⊢
  rw [this, h]; simp

/-- Every other warp is as it was. -/
theorem State.warp?_setWarp_ne {s : State} {x : Warp} {uid : Nat} (h : uid ≠ x.uid) :
    (s.setWarp x).warp? uid = s.warp? uid := by
  have := find?_map_if Warp.uid x s.warps uid
  simp only [State.warp?, State.setWarp, beq_iff_eq]
  rw [this, if_neg h]

/-! ### Slots -/

@[simp] theorem Warp.slot_setSlot (w : Warp) (side : Side) (x : Slot) : (w.setSlot side x).slot side = x := by
  cases side <;> rfl

@[simp] theorem Warp.slot_setSlot_other (w : Warp) (side : Side) (x : Slot) :
    (w.setSlot side x).slot (otherSide side) = w.slot (otherSide side) := by cases side <;> rfl

theorem completes_advance (w v : Warp) (side : Side) (i : Instr) (hp : v.port = w.port) (hs : v.star = w.star)
    (hr : { v with lanes := w.lanes, sregs := w.sregs, soiled := w.soiled, flags := w.flags, port := w.port, star := w.star, last := w.last,
                   promoted := w.promoted } = w) : Completes i side w (v.advance side i) := by
  cases side <;> constructor <;> simp_all [Warp.advance, Warp.slot, Warp.setSlot, Slot.past, otherSide]

/-! ### Lanes and registers -/

theorem Warp.lane_mapLanes (w : Warp) (m : Word) (f : Nat → Lane → Lane) {l : Nat} (h : l < 32) :
    (w.mapLanes m f).lane l = if m.getLsbD l then f l (w.lane l) else w.lane l := by
  simp [Warp.mapLanes, Warp.lane, tget_map_range, h]

@[simp] theorem Warp.lane_advance (w : Warp) (side : Side) (i : Instr) (l : Nat) :
    (w.advance side i).lane l = w.lane l := by simp [Warp.lane]

@[simp] theorem Warp.sreg_advance (w : Warp) (side : Side) (i : Instr) (r : Nat) :
    (w.advance side i).sreg r = w.sreg r := by simp [Warp.sreg]

@[simp] theorem Warp.lane_orFlags (w : Warp) (f : Word) (l : Nat) : (w.orFlags f).lane l = w.lane l := rfl

@[simp] theorem Warp.sreg_orFlags (w : Warp) (f : Word) (r : Nat) : (w.orFlags f).sreg r = w.sreg r := rfl

@[simp] theorem Warp.sreg_mapLanes (w : Warp) (m : Word) (f : Nat → Lane → Lane) (r : Nat) :
    (w.mapLanes m f).sreg r = w.sreg r := rfl

theorem Warp.sreg_setSreg (w : Warp) (n r : Nat) (b : Word) :
    (w.setSreg n b).sreg r = if r = n then b else w.sreg r := by simp [Warp.sreg, Warp.setSreg, tget_tset]

@[simp] theorem Warp.lane_setSreg (w : Warp) (n l : Nat) (b : Word) : (w.setSreg n b).lane l = w.lane l := rfl

theorem Lane.reg_setReg (x : Lane) (n r : Nat) (b : Word) (h : r ≠ 255) :
    (x.setReg n b).reg r = if r = n then b else x.reg r := by
  unfold Lane.setReg Lane.reg
  by_cases hn : n = 255
  · subst hn; simp [h]
  · simp [hn, h, tget_tset]

@[simp] theorem Lane.pred_setReg (x : Lane) (n : Nat) (b : Word) (q : BitVec 4) : (x.setReg n b).pred q = x.pred q := by
  simp [Lane.pred]

/-- A register of a lane after a value of `k` registers is put. -/
theorem Lane.reg_put (x : Lane) (n k val r : Nat) (h : r < 255) :
    (x.put n k val).reg r =
      if n ≤ r ∧ r < n + k then BitVec.ofNat 32 (val / 2 ^ (32 * (r - n))) else x.reg r := by
  induction k generalizing x n val with
  | zero => simp only [Lane.put]; rw [if_neg (by omega)]
  | succ k ih =>
    unfold Lane.put
    by_cases hn : n = 255
    · simp only [hn, beq_self_eq_true, if_true]; rw [if_neg (by omega)]
    · have hn' : (n == 255) = false := by simpa using hn
      simp only [hn', Bool.false_eq_true, if_false]
      rw [ih, Lane.reg_setReg _ _ _ _ (by omega)]
      by_cases h1 : n + 1 ≤ r ∧ r < n + 1 + k
      · rw [if_pos h1, if_pos (by omega), Nat.div_div_eq_div_mul, ← Nat.pow_add]
        congr 3
        omega
      · rw [if_neg h1]
        by_cases h2 : r = n
        · subst h2; simp
        · rw [if_neg h2, if_neg (by omega)]

/-- A put changes the vector registers alone. -/
theorem Lane.put_rest (x y : Lane) (n k val : Nat) (h : { x with v := y.v, p := y.p } = y) :
    { x.put n k val with v := y.v, p := y.p } = y := by
  induction k generalizing x n val with
  | zero => exact h
  | succ k ih =>
    unfold Lane.put
    split
    · exact h
    · apply ih
      unfold Lane.setReg
      split <;> exact h

theorem Lane.p_put (x : Lane) (n k val : Nat) : (x.put n k val).p = x.p := by
  induction k generalizing x n val with
  | zero => rfl
  | succ k ih =>
    unfold Lane.put
    split
    · rfl
    · rw [ih]; simp

theorem Lane.pred_put (x : Lane) (n k val : Nat) (q : BitVec 4) : (x.put n k val).pred q = x.pred q := by
  simp [Lane.pred, Lane.p_put]

theorem Lane.put_255 (x : Lane) (k val : Nat) : x.put 255 k val = x := by cases k <;> simp [Lane.put]

theorem bit16_set (a : BitVec 16) (n q : Nat) (hn : n < 16) (hq : q < 16) :
    (a ||| (1#16 <<< n)).getLsbD q = (a.getLsbD q || decide (q = n)) := by
  rw [BitVec.getLsbD_or]
  congr 1
  by_cases h : q = n
  · subst h; simp [hq]
  · simp only [BitVec.getLsbD_shiftLeft, h]
    by_cases h2 : q < n
    · simp [h2]
    · have : q - n ≠ 0 := by omega
      simp [BitVec.getLsbD_one, this]

theorem bit16_clear (a : BitVec 16) (n q : Nat) (hn : n < 16) (hq : q < 16) :
    (a &&& ~~~(1#16 <<< n)).getLsbD q = (a.getLsbD q && !decide (q = n)) := by
  rw [BitVec.getLsbD_and, BitVec.getLsbD_not]
  by_cases h : q = n
  · subst h; simp [hq]
  · simp only [BitVec.getLsbD_shiftLeft, h]
    by_cases h2 : q < n
    · simp [h2, hq]
    · have : q - n ≠ 0 := by omega
      simp [BitVec.getLsbD_one, this, hq]

theorem Lane.setPred_p (x : Lane) (n : BitVec 4) (b : Bool) (h : n ≠ 15) :
    (x.setPred n b).p = if b then x.p ||| (1#16 <<< n.toNat) else x.p &&& ~~~(1#16 <<< n.toNat) := by
  have h' : (n == (15 : BitVec 4)) = false := by simpa using h
  simp only [Lane.setPred, h', Bool.false_eq_true, if_false]

/-- A predicate read after one is written. -/
theorem Lane.pred_setPred (x : Lane) (n q : BitVec 4) (b : Bool) :
    (x.setPred n b).pred q = if n != 15 && q == n then b else x.pred q := by
  by_cases hn : n = 15#4
  · subst hn; simp [Lane.setPred]
  · have h1 := n.isLt
    have h2 := q.isLt
    have hn' : (n == 15#4) = false := by simpa using hn
    unfold Lane.pred
    rw [Lane.setPred_p _ _ _ hn]
    by_cases hq : q = n
    · subst hq
      cases b
      · simp [bit16_clear _ _ _ h1 h2, hn, hn']
      · simp [bit16_set _ _ _ h1 h2, hn]
    · have hne : q.toNat ≠ n.toNat := fun h => hq (BitVec.eq_of_toNat_eq h)
      cases b
      · simp [bit16_clear _ _ _ h1 h2, hne, hq]
      · simp [bit16_set _ _ _ h1 h2, hne, hq]

@[simp] theorem Lane.reg_setPred (x : Lane) (n : BitVec 4) (b : Bool) (r : Nat) : (x.setPred n b).reg r = x.reg r := by
  simp [Lane.reg]

theorem Lane.setPred_rest (x y : Lane) (n : BitVec 4) (b : Bool) (h : { x with v := y.v, p := y.p } = y) :
    { x.setPred n b with v := y.v, p := y.p } = y := by
  unfold Lane.setPred
  split <;> exact h

theorem Warp.sreg_sput (w : Warp) (n k val r : Nat) :
    (w.sput n k val).sreg r =
      if n ≤ r ∧ r < n + k then BitVec.ofNat 32 (val / 2 ^ (32 * (r - n))) else w.sreg r := by
  induction k generalizing w n val with
  | zero => simp only [Warp.sput]; rw [if_neg (by omega)]
  | succ k ih =>
    unfold Warp.sput
    rw [ih, Warp.sreg_setSreg]
    by_cases h1 : n + 1 ≤ r ∧ r < n + 1 + k
    · rw [if_pos h1, if_pos (by omega), Nat.div_div_eq_div_mul, ← Nat.pow_add]
      congr 3
      omega
    · rw [if_neg h1]
      by_cases h2 : r = n
      · subst h2; simp
      · rw [if_neg h2, if_neg (by omega)]

theorem Warp.soiled_setSreg (w : Warp) (n r : Nat) (b : Word) (h : r < 8) :
    (w.setSreg n b).soiled.getLsbD r = (w.soiled.getLsbD r || (w.handler.isNone && decide (n = 120 + r))) := by
  simp only [Warp.setSreg]
  cases w.handler.isNone
  · simp
  · by_cases hn : 120 ≤ n
    · simp only [hn, decide_true, Bool.true_and, if_true, BitVec.getLsbD_or, BitVec.getLsbD_shiftLeft, h]
      refine congrArg (fun x => (w.soiled.getLsbD r || x)) ?_
      by_cases hr : r < n - 120
      · simp only [hr, decide_true, Bool.not_true, Bool.false_and]
        exact (decide_eq_false (by omega)).symm
      · by_cases he : n = 120 + r
        · have : r - (n - 120) = 0 := by omega
          rw [decide_eq_true he, this, BitVec.getLsbD_one, decide_eq_false hr]
          rfl
        · rw [decide_eq_false he]
          have : r - (n - 120) ≠ 0 := by omega
          simp [BitVec.getLsbD_one, this]
    · have : ¬ n = 120 + r := by omega
      simp [hn, this]

/-- Which of s120 to s127 have been written, after a value of `k` registers is put. -/
theorem Warp.soiled_sput (w : Warp) (n k val r : Nat) (h : r < 8) :
    (w.sput n k val).soiled.getLsbD r =
      (w.soiled.getLsbD r || (w.handler.isNone && decide (n ≤ 120 + r ∧ 120 + r < n + k))) := by
  induction k generalizing w n val with
  | zero =>
    have : ¬(n ≤ 120 + r ∧ 120 + r < n + 0) := by omega
    simp only [Warp.sput, this, decide_false, Bool.and_false, Bool.or_false]
  | succ k ih =>
    unfold Warp.sput
    rw [ih, Warp.soiled_setSreg _ _ _ _ h, Warp.setSreg_handler, Bool.or_assoc, ← Bool.and_or_distrib_left]
    congr 2
    rw [← Bool.decide_or]
    exact decide_eq_decide.mpr (by omega)

theorem Warp.sput_rest (w : Warp) (n k val : Nat) : { w.sput n k val with sregs := w.sregs, soiled := w.soiled } = w := by
  suffices ∀ v : Warp, { v with sregs := w.sregs, soiled := w.soiled } = w → { v.sput n k val with sregs := w.sregs, soiled := w.soiled } = w from this w rfl
  induction k generalizing n val with
  | zero => intro v h; exact h
  | succ k ih => intro v h; exact ih (n + 1) _ _ h

theorem Warp.sput_lanes (w : Warp) (n k val : Nat) : (w.sput n k val).lanes = w.lanes := by
  induction k generalizing w n val with
  | zero => rfl
  | succ k ih => unfold Warp.sput; rw [ih]; rfl

@[simp] theorem Warp.lane_sput (w : Warp) (n k val l : Nat) : (w.sput n k val).lane l = w.lane l := by
  simp [Warp.lane, Warp.sput_lanes]

/-- A write changes the lanes and the scalar registers alone. -/
theorem Warp.write_rest (w : Warp) (tp : Word) (d : Opnd) (k : Nat) (val : Nat → Nat) :
    { w.write tp d k val with lanes := w.lanes, sregs := w.sregs, soiled := w.soiled } = w := by
  cases d with
  | s n =>
    simp only [Warp.write]
    split
    · rfl
    · have := Warp.sput_rest w n.toNat k (val 0)
      have h2 := Warp.sput_lanes w n.toNat k (val 0)
      simp only [← h2]; exact this
  | _ => rfl

/-- The registers after a write (R48). -/
theorem Warp.write_regs (w : Warp) (tp : Word) (d : Opnd) (k : Nat) (val : Nat → Nat) :
    Wrote w (w.write tp d k val) tp d k val := by
  cases d with
  | v n =>
    refine ⟨fun l hl r hr => ?_, fun l hl q => ?_, fun r => rfl, fun r _ => rfl, fun l hl => ?_⟩
    · simp only [Warp.write, Warp.lane_mapLanes _ _ _ hl, vAfter]
      by_cases ht : tp.getLsbD l
      · simp only [ht, if_true, Bool.true_and]
        by_cases hn : n = 255#8
        · subst hn; simp [Lane.put_255]
        · have hn' : (n != 255#8) = true := by simpa using hn
          rw [Lane.reg_put _ _ _ _ _ hr]
          by_cases h : n.toNat ≤ r ∧ r < n.toNat + k <;> simp [h, hn]
      · simp [ht]
    · simp only [Warp.write, Warp.lane_mapLanes _ _ _ hl, pAfter]
      split
      · exact Lane.pred_put _ _ _ _ _
      · rfl
    · simp only [Warp.write, Warp.lane_mapLanes _ _ _ hl]
      split
      · exact Lane.put_rest _ _ _ _ _ rfl
      · rfl
  | p n =>
    refine ⟨fun l hl r hr => ?_, fun l hl q => ?_, fun r => rfl, fun r _ => rfl, fun l hl => ?_⟩
    · simp only [Warp.write, Warp.lane_mapLanes _ _ _ hl, vAfter]
      split <;> simp
    · simp only [Warp.write, Warp.lane_mapLanes _ _ _ hl, pAfter]
      by_cases ht : tp.getLsbD l
      · simp [ht, Lane.pred_setPred]
      · simp [ht]
    · simp only [Warp.write, Warp.lane_mapLanes _ _ _ hl]
      split
      · exact Lane.setPred_rest _ _ _ _ rfl
      · rfl
  | s n =>
    refine ⟨fun l hl r hr => ?_, fun l hl q => ?_, fun r => ?_, fun r hr => ?_, fun l hl => ?_⟩
    · simp only [Warp.write, vAfter]; split <;> simp
    · simp only [Warp.write, pAfter]; split <;> simp [Lane.pred]
    · simp only [Warp.write, sAfter]
      cases ht : tp == 0
      · simp only [bne, ht, Bool.false_eq_true, if_false, Warp.sreg_sput, Bool.not_false, Bool.true_and,
          decide_eq_true_eq]
      · simp only [bne, ht, if_true, Bool.not_true, Bool.false_and, Bool.false_eq_true, if_false]
    · simp only [Warp.write, soiledAfter]
      cases ht : tp == 0
      · simp only [bne, ht, Bool.false_eq_true, if_false, Warp.soiled_sput _ _ _ _ _ hr, Bool.not_false, Bool.true_and]
      · simp only [bne, ht, if_true, Bool.not_true, Bool.false_and, Bool.or_false]
    · simp only [Warp.write]; split <;> simp
  | _ => exact ⟨fun _ _ _ _ => rfl, fun _ _ _ => rfl, fun _ => rfl, fun _ _ => rfl, fun _ _ => rfl⟩

@[simp] theorem Warp.write_flags (w : Warp) (tp : Word) (d : Opnd) (k : Nat) (val : Nat → Nat) :
    (w.write tp d k val).flags = w.flags := by
  have := congrArg Warp.flags (Warp.write_rest w tp d k val); exact this

@[simp] theorem Warp.write_uid (w : Warp) (tp : Word) (d : Opnd) (k : Nat) (val : Nat → Nat) :
    (w.write tp d k val).uid = w.uid := by
  have := congrArg Warp.uid (Warp.write_rest w tp d k val); exact this

@[simp] theorem Warp.write_port (w : Warp) (tp : Word) (d : Opnd) (k : Nat) (val : Nat → Nat) :
    (w.write tp d k val).port = w.port := by
  have := congrArg Warp.port (Warp.write_rest w tp d k val); exact this

@[simp] theorem Warp.write_star (w : Warp) (tp : Word) (d : Opnd) (k : Nat) (val : Nat → Nat) :
    (w.write tp d k val).star = w.star := by
  have := congrArg Warp.star (Warp.write_rest w tp d k val); exact this

/-! ### Issue -/

/-- An instruction whose checks pass acts. -/
theorem issue_eq {i : Instr} {s : State} {uid : Nat} {side : Side} {w : Warp} (h : Issues i s uid side w)
    (act : Issue → State) :
    issue i s act = .next (act (issueOf i s side w)) := by
  simp [issue, h.turn, h.warp, h.ok, issueOf, partOf]

/-- An instruction whose word fails a check takes trap 0x02 (R51), or trap 0x01 where that is the fault's. -/
theorem issue_fault {i : Instr} {s : State} {uid : Nat} {side : Side} {w : Warp} {f : Fld}
    (ht : s.turn = some (.slot uid side)) (hw : s.warp? uid = some w) (hf : i.fault (s.allotOf w) = some f)
    (act : Issue → State) : issue i s act = .next (s.trapField w side i f (w.active side)) := by
  simp [issue, ht, hw, hf]

/-- What `Issue.alu` does: the instruction completes, its destination receives the value of each lane, FLAGS gain the
results' flags, and nothing else changes. -/
theorem alu_spec {i : Instr} {s : State} {uid : Nat} {side : Side} {w : Warp} (h : Issues i s uid side w) (d : Opnd)
    (k : Nat) (op : Nat → Nat × Word) :
    let tp := partOf i w side
    ∃ w', (Issue.alu { s := s, w := w, side := side, i := i, tp := tp } d k op) = s.setWarp w' ∧
      (s.setWarp w').warp? uid = some w' ∧ Completes i side w w' ∧ Wrote w w' tp d k (fun l => (op l).1) ∧
      w'.flags = w.flags ||| resultFlags tp d fun l => (op l).2 := by
  intro tp
  refine ⟨_, rfl, ?_, ?_, ?_, ?_⟩
  · have hu := State.warp?_uid h.warp
    have : s.warp? ((((w.write tp d k fun l => (op l).1).orFlags
        (resultFlags tp d fun l => (op l).2)).advance side i).uid) = some w := by simp [hu, h.warp]
    simpa [hu] using State.warp?_setWarp _ this
  · apply completes_advance
    · simp
    · simp
    · have := Warp.write_rest w tp d k fun l => (op l).1
      generalize w.write tp d k (fun l => (op l).1) = v at this
      cases v; cases w; simp_all [Warp.orFlags]
  · have := Warp.write_regs w tp d k fun l => (op l).1
    exact ⟨by simpa using this.vreg, by simpa using this.preg, by simpa using this.sreg, by simpa using this.soiled,
      by simpa using this.lane⟩
  · simp [Warp.orFlags]

/-- A `Computes` claim for an instruction that is an `Issue.alu`. -/
theorem computes_of_alu {i : Instr} {d : Opnd} {k : Nat} {ok : Issue → Nat → Nat → Prop} {fl : Issue → Word}
    (op : Issue → Nat → Nat × Word) (he : ∀ s, exec i s = issue i s fun x => x.alu d k (op x))
    (hv : ∀ s uid side w, Issues i s uid side w → ∀ l < 32, ok (issueOf i s side w) l (op (issueOf i s side w) l).1)
    (hf : ∀ s uid side w, Issues i s uid side w →
      resultFlags (partOf i w side) d (fun l => (op (issueOf i s side w) l).2) = fl (issueOf i s side w)) :
    Computes i d k ok fl := by
  intro s uid side w h
  obtain ⟨w', h1, h2, h3, h4, h5⟩ := alu_spec h d k (op (issueOf i s side w))
  refine ⟨w', _, ?_, h2, h3, h4, hv s uid side w h, ?_⟩
  · rw [he, issue_eq h]
    exact congrArg _ h1
  · rw [h5, hf s uid side w h]

end Sys2Proof.Machine
end

