-- ==== Sys2Proof/Laws/Elements.lean ====
section
/-! SUPPORT. Laws/Elements.lean: values cut into elements and joined again, and integers of a width. -/

namespace Sys2Proof.Machine

/-! ### Sums of elements -/

theorem join_lt (w : Nat) (h : Nat → Nat) (hh : ∀ i, h i < 2 ^ w) (n : Nat) :
    (List.range n).foldl (fun acc i => acc + h i * 2 ^ (w * i)) 0 < 2 ^ (w * n) := by
  induction n with
  | zero => simp
  | succ n ih =>
    rw [List.range_succ, List.foldl_append]
    simp only [List.foldl_cons, List.foldl_nil]
    have h1 : h n + 1 ≤ 2 ^ w := hh n
    calc _ < 2 ^ (w * n) + h n * 2 ^ (w * n) := by omega
      _ = (h n + 1) * 2 ^ (w * n) := by rw [Nat.add_mul, Nat.one_mul, Nat.add_comm]
      _ ≤ 2 ^ w * 2 ^ (w * n) := Nat.mul_le_mul_right _ h1
      _ = 2 ^ (w * (n + 1)) := by rw [← Nat.pow_add]; congr 1; rw [Nat.mul_succ, Nat.add_comm]

theorem element_join (w : Nat) (h : Nat → Nat) (hh : ∀ i, h i < 2 ^ w) (n e : Nat) (he : e < n) :
    element w ((List.range n).foldl (fun acc i => acc + h i * 2 ^ (w * i)) 0) e = h e := by
  induction n with
  | zero => omega
  | succ n ih =>
    rw [List.range_succ, List.foldl_append]
    simp only [List.foldl_cons, List.foldl_nil]
    have hlt := join_lt w h hh n
    generalize (List.range n).foldl (fun acc i => acc + h i * 2 ^ (w * i)) 0 = x at *
    unfold element at *
    by_cases hn : e = n
    · subst hn
      rw [Nat.mul_comm (h e), Nat.add_mul_div_left _ _ (Nat.two_pow_pos _), Nat.div_eq_of_lt hlt, Nat.zero_add,
        Nat.mod_eq_of_lt (hh e)]
    · obtain ⟨k, rfl⟩ : ∃ k, n = e + 1 + k := ⟨n - e - 1, by omega⟩
      have h1 : w * (e + 1 + k) = w * e + (w + w * k) := by
        simp only [Nat.mul_add, Nat.mul_one, Nat.add_assoc]
      have h2 : h (e + 1 + k) * 2 ^ (w * (e + 1 + k)) = 2 ^ (w * e) * (2 ^ w * (h (e + 1 + k) * 2 ^ (w * k))) := by
        rw [h1, Nat.pow_add, Nat.pow_add, Nat.mul_left_comm, Nat.mul_left_comm (h _)]
      rw [h2, Nat.add_mul_div_left _ _ (Nat.two_pow_pos _), Nat.add_mul_mod_self_left]
      exact ih (by omega)

/-- An element of a value that is computed element by element. -/
theorem element_mapElems (ty : DType) (args : List Nat) (g : List Nat → Nat) (e : Nat) (he : e < DType.count ty) :
    element ty.elem (mapElems ty args g) e = g (args.map fun a => element ty.elem a e) % 2 ^ ty.elem := by
  unfold mapElems
  exact element_join ty.elem (fun i => g (args.map fun a => a / 2 ^ (ty.elem * i) % 2 ^ ty.elem) % 2 ^ ty.elem)
    (fun i => Nat.mod_lt _ (Nat.two_pow_pos _)) _ e he

/-! ### Integers -/

theorem toInt_eq (w : Nat) (signed : Bool) (x : Nat) : toInt w signed x = intOf w signed x := by
  unfold toInt intOf
  simp only [Bool.and_eq_true, decide_eq_true_eq]
  split <;> simp

theorem fitInt_eq (w : Nat) (signed sat : Bool) (x : Int) :
    fitInt w signed sat x = intBits w (if sat then (clampInt w signed x).1 else x) := by
  unfold fitInt intBits clampInt intMin intMax
  cases sat <;> cases signed <;> simp only [Bool.false_eq_true, if_false, if_true] <;> push_cast
  · rfl
  · rfl
  · split
    · rfl
    · split <;> rfl
  · split
    · rfl
    · split <;> rfl

theorem fitInt_lt (w : Nat) (signed sat : Bool) (x : Int) : fitInt w signed sat x < 2 ^ w := by
  unfold fitInt
  have h : (0 : Int) < (2 ^ w : Nat) := by exact_mod_cast Nat.two_pow_pos w
  rw [Int.toNat_lt (Int.emod_nonneg _ (Int.ne_of_gt h))]
  exact Int.emod_lt_of_pos _ h

theorem fitInt_mod (w : Nat) (signed sat : Bool) (x : Int) : fitInt w signed sat x % 2 ^ w = fitInt w signed sat x :=
  Nat.mod_eq_of_lt (fitInt_lt w signed sat x)

theorem exactInt_eq (ty : DType) (sat : Bool) (g : List Int → Int) (es : List Nat) :
    exactInt ty sat g es = fitInt ty.elem ty.signed sat (g (es.map (toInt ty.elem ty.signed))) := by
  have h : es.map (toInt ty.elem ty.signed) = es.map fun e => intOf ty.elem ty.signed e :=
    List.map_congr_left fun a _ => toInt_eq _ _ a
  rw [fitInt_eq, exactInt, h]

theorem intOf_mod (w : Nat) (signed : Bool) (x : Nat) : intOf w signed (x % 2 ^ w) = intOf w signed x := by
  unfold intOf; simp

theorem intBits_lt (w : Nat) (x : Int) : intBits w x < 2 ^ w := by
  have := fitInt_lt w false false x
  rwa [fitInt_eq] at this

/-! ### Instructions that compute from registers -/

theorem resultFlags_zero (tp : Word) (d : Opnd) : resultFlags tp d (fun _ => 0) = 0 := by
  have : ∀ ls : List Nat, ls.foldl (fun (a : Word) _ => a) 0#32 = 0#32 := by
    intro ls; induction ls with
    | nil => rfl
    | cons _ _ ih => simpa using ih
  cases d <;> simp [resultFlags, orAll, this]

/-- An `Issue.arith` computes its integer function element by element. -/
theorem intOp_of_arith {i : Instr} {f : Fields} {sat : Bool} {g : Int → Int → Int → Int} (os : List Opnd)
    (g' : List Int → Int) (he : ∀ s, exec i s = issue i s fun x => x.arith f os sat g')
    (hg : ∀ a : Opnd → Int, g' (os.map a) = g (a f.a) (a f.b) (a f.c)) : IntOp i f sat g := by
  apply computes_of_alu (fun x l => (mapElems f.ty (x.srcs f l os) (exactInt f.ty sat g'), 0)) he
  · intro s uid side w h l hl e hee
    rw [element_mapElems _ _ _ _ hee, exactInt_eq, fitInt_mod]
    congr 1
    rw [← hg fun o => elemInt f (issueOf i s side w).w l e o]
    simp [Issue.srcs, elemInt, operand, operandAt, Issue.get, Function.comp_def]
  · intros; exact resultFlags_zero _ _

/-- An `Issue.alu` that sets no flag computes its value. -/
theorem valueOp_of_alu {i : Instr} {f : Fields} {k : Nat} {ok : Warp → Nat → Nat → Prop} (op : Issue → Nat → Nat × Word)
    (he : ∀ s, exec i s = issue i s fun x => x.alu f.d k (op x)) (hf : ∀ x l, (op x l).2 = 0)
    (hv : ∀ x l, ok x.w l (op x l).1) : ValueOp i f k ok := by
  apply computes_of_alu op he
  · intro s uid side w h l hl
    exact hv (issueOf i s side w) l
  · intro s uid side w h
    simp only [hf]; exact resultFlags_zero _ _

/-- An `Issue.bits` computes its function of whole operands. -/
theorem bitOp_of_bits {i : Instr} {f : Fields} {g : Nat → (Nat → Bool) → (Nat → Bool) → (Nat → Bool) → Bool}
    (os : List Opnd) (g' : List Nat → Nat) (he : ∀ s, exec i s = issue i s fun x => x.bits f os g')
    (hg : ∀ (a : Opnd → Nat) (j : Nat), j < f.ty.elem →
      (g' (os.map a)).testBit j = g j (a f.a).testBit (a f.b).testBit (a f.c).testBit) : BitOp i f g := by
  apply computes_of_alu (fun x l => (g' (x.srcs f l os) % 2 ^ f.ty.elem, 0)) he
  · intro s uid side w h l hl j
    simp only [Nat.testBit_mod_two_pow]
    by_cases hj : j < f.ty.elem
    · simp only [hj, decide_true, Bool.true_and]
      exact hg (operand f (issueOf i s side w).w l) j hj
    · simp [hj]
  · intros; exact resultFlags_zero _ _

/-- An `Issue.shift` shifts element by element. -/
theorem shiftOp_of_shift {i : Instr} {f : Fields} {g : Nat → Nat → Nat} (g' : Nat → Nat → Nat)
    (he : ∀ s, exec i s = issue i s fun x => x.shift f g')
    (hg : ∀ a n, a < 2 ^ f.ty.elem → g' a n % 2 ^ f.ty.elem = g a n) : ShiftOp i f g := by
  apply computes_of_alu (fun x l => (mapElems f.ty [x.get f l f.ty.regs f.a]
    fun v => g' (nat v 0) (x.get f l 1 f.b % 2 ^ 32), 0)) he
  · intro s uid side w h l hl e hee
    rw [element_mapElems _ _ _ _ hee]
    exact hg _ _ (Nat.mod_lt _ (Nat.two_pow_pos _))
  · intros; exact resultFlags_zero _ _

theorem testBit_ofBits (w : Nat) (p : Nat → Bool) (j : Nat) : (ofBits w p).testBit j = (decide (j < w) && p j) := by
  unfold ofBits
  induction w with
  | zero => simp
  | succ w ih =>
    have hlt : ∀ w, (List.range w).foldl (fun a i => if p i then a + 2 ^ i else a) 0 < 2 ^ w := by
      intro w
      induction w with
      | zero => simp
      | succ w ih =>
        rw [List.range_succ, List.foldl_append, Nat.pow_succ]
        simp only [List.foldl_cons, List.foldl_nil]
        split <;> omega
    rw [List.range_succ, List.foldl_append]
    simp only [List.foldl_cons, List.foldl_nil]
    have h := hlt w
    generalize (List.range w).foldl (fun a i => if p i then a + 2 ^ i else a) 0 = x at *
    by_cases hp : p w
    · simp only [hp, if_true]
      rw [Nat.add_comm]
      by_cases hj : j = w
      · subst hj
        rw [Nat.testBit_two_pow_add_eq, Nat.testBit_lt_two_pow h]; simp [hp]
      · by_cases hlt2 : j < w
        · rw [Nat.testBit_two_pow_add_gt hlt2, ih]
          have : j < w + 1 := by omega
          simp [hlt2, this]
        · rw [Nat.testBit_lt_two_pow]
          · have : ¬ j < w + 1 := by omega
            simp [this]
          · calc 2 ^ w + x < 2 ^ (w + 1) := by rw [Nat.pow_succ]; omega
              _ ≤ 2 ^ j := Nat.pow_le_pow_right (by omega) (by omega)
    · simp only [hp]
      by_cases hj : j = w
      · subst hj
        simp [ih, hp]
      · have : (j < w + 1) ↔ j < w := by omega
        simp [ih, this]

end Sys2Proof.Machine
end

