-- ==== Sys2Proof/Laws/Forms.lean ====
section
/-! SUPPORT. Laws/Forms.lean: what a word that passes the checks of R52 holds, and how wide its operands are. -/

namespace Sys2Proof

/-- What the checks of R52 establish for a word of format R or M. -/
structure Checked (F : Form) (al : Allot) (f : Fields) : Prop where
  rsv : f.rsv = 0
  sub : F.subOk = true
  g1 : F.ptOnly = true → f.g1 = .pt
  g2 : F.ptOnly = true → f.g2 = .pt
  d : F.d.ok al f.d = true
  a : F.a.ok al f.a = true
  b : F.b.ok al f.b = true
  c : F.c.ok al f.c = true
  e : F.e.ok al f.e = true
  imm : F.imm.ok f = true
  ty : F.tyOk = true
  ord : F.ordOk = true
  scope : F.scopeOk = true
  cpol : F.cpolOk = true
  evp : F.evpOk = true
  dom : F.dom = true → domFault f = none

theorem ite_none {α : Type} {c : Prop} [Decidable c] {x : α} {y : Option α} :
    (if c then some x else y) = none ↔ ¬c ∧ y = none := by split <;> simp_all

theorem Form.checked {F : Form} {al : Allot} {f : Fields} (h : F.fault al f = none) : Checked F al f := by
  simp only [Form.fault, ite_none] at h
  obtain ⟨h1, h2, h3, h4, h5, h6, h7, h8, h9, h10, h11, h12, h13, h14, h15, h16⟩ := h
  have hi : F.imm.ok f = true := by simpa using h10
  have no {o : Opnd} (ho : o = .imm → f.namesImm = true) : F.imm.later o = false := by
    cases hu : F.imm with
    | alone v =>
      cases o <;> try rfl
      rw [hu] at hi
      simp [ImmUse.ok, ho rfl] at hi
    | _ => rfl
  have nd : F.imm.later f.d = false := no fun h => by simp [Fields.namesImm, h]
  have na : F.imm.later f.a = false := no fun h => by simp [Fields.namesImm, h]
  have nb : F.imm.later f.b = false := no fun h => by simp [Fields.namesImm, h]
  have nc : F.imm.later f.c = false := no fun h => by simp [Fields.namesImm, h]
  have ne : F.imm.later f.e = false := no fun h => by simp [Fields.namesImm, h]
  refine ⟨?_, ?_, ?_, ?_, ?_, ?_, ?_, ?_, ?_, ?_, ?_, ?_, ?_, ?_, ?_, ?_⟩
  · simpa using h1
  · simpa using h2
  · intro hp; simpa [hp] using h3
  · intro hp; simpa [hp] using h4
  · simpa [nd] using h5
  · simpa [na] using h6
  · simpa [nb] using h7
  · have := by simpa [nc] using h8
    exact this.1
  · simpa [ne] using h9
  · exact hi
  · simpa using h11
  · simpa using h12
  · simpa using h13
  · simpa using h14
  · simpa using h15
  · intro hd; simpa [hd] using h16

/-- A word whose checks pass. -/
theorem Instr.checked {i : Instr} {F : Form} {f : Fields} {al : Allot} (hF : i.form = some F) (hf : i.fields = some f)
    (h : i.fault al = none) : Checked F al f := by
  simp only [Instr.fault, hF, hf] at h
  exact Form.checked h

namespace Machine

theorem regsNum_lt (get : Nat → Word) (n k : Nat) : regsNum get n k < 2 ^ (32 * k) := by
  induction k generalizing n with
  | zero => simp [regsNum]
  | succ k ih =>
    have h1 := ih (n + 1)
    have h2 := (get n).isLt
    have h3 : 2 ^ (32 * (k + 1)) = 2 ^ 32 * 2 ^ (32 * k) := by rw [← Nat.pow_add]; congr 1; omega
    rw [regsNum, h3]
    calc (get n).toNat + 2 ^ 32 * regsNum get (n + 1) k < 2 ^ 32 + 2 ^ 32 * regsNum get (n + 1) k := by omega
      _ = 2 ^ 32 * (regsNum get (n + 1) k + 1) := by rw [Nat.mul_add, Nat.mul_one, Nat.add_comm]
      _ ≤ 2 ^ 32 * 2 ^ (32 * k) := Nat.mul_le_mul_left _ h1

theorem Lane.num_lt (x : Lane) (n k : Nat) : x.num n k < 2 ^ (32 * k) := by
  unfold Lane.num
  split
  · exact Nat.two_pow_pos _
  · exact regsNum_lt _ _ _

/-- An operand other than the immediate fits its registers. -/
theorem Warp.opnd_lt (w : Warp) (l k imm : Nat) (o : Opnd) (hk : 0 < k) (h : o = .imm → imm < 2 ^ (32 * k)) :
    w.opnd l k imm o < 2 ^ (32 * k) := by
  have h1 : 1 < 2 ^ (32 * k) := Nat.one_lt_two_pow (by omega)
  cases o with
  | v n => exact Lane.num_lt _ _ _
  | s n => exact regsNum_lt _ _ _
  | p n => simp only [Warp.opnd]; split <;> omega
  | imm => exact h rfl
  | _ => exact Nat.two_pow_pos _

theorem immNum_lt_int {ty : DType} (imm : Word) (h : ty ∈ setI) : immNum ty imm < 2 ^ (32 * ty.regs) := by
  have h1 := imm.isLt
  have h2 := (imm.signExtend 64).isLt
  simp only [setI, List.mem_cons, List.not_mem_nil, or_false] at h
  rcases h with rfl | rfl | rfl | rfl <;> simp only [immNum, DType.regs] <;> omega

theorem elem_setI {ty : DType} (h : ty ∈ setI) : ty.elem = 32 * ty.regs := by
  simp only [setI, List.mem_cons, List.not_mem_nil, or_false] at h
  rcases h with rfl | rfl | rfl | rfl <;> rfl

theorem operand_lt {f : Fields} (w : Warp) (l : Nat) (o : Opnd) (h : f.ty ∈ setI) : operand f w l o < 2 ^ f.ty.elem := by
  rw [elem_setI h]
  apply Warp.opnd_lt
  · simp only [setI, List.mem_cons, List.not_mem_nil, or_false] at h
    rcases h with h | h | h | h <;> rw [h] <;> decide
  · intro _; exact immNum_lt_int _ h

/-- What a destination's specification allows. -/
theorem OSpec.ok_v {k : Nat} {al : Allot} {o : Opnd} (h : OSpec.ok ⟨[.v], k⟩ al o = true) : ∃ n, o = .v n := by
  cases o <;> simp [OSpec.ok] at h <;> exact ⟨_, rfl⟩

theorem OSpec.ok_p {al : Allot} {o : Opnd} (h : OSpec.ok oP al o = true) : ∃ n, o = .p n := by
  cases o <;> simp [OSpec.ok, oP] at h <;> exact ⟨_, rfl⟩

end Machine

end Sys2Proof
end

