-- ==== Sys2Proof/Laws/Memory.lean ====
section
/-! SUPPORT. Laws/Memory.lean: reading a byte after a write, and the canonical form that every write keeps. -/

namespace Sys2Proof.Machine

@[simp] theorem Memory.get_nil (a : Nat) : Memory.get [] a = blank := rfl

theorem Memory.get_cons (c : Host.Cell) (m : Memory) (a : Nat) :
    Memory.get (c :: m) a = if a = c.1 then c.2 else Memory.get m a := by
  simp [Memory.get]

theorem Memory.get_drop (m : Memory) (a x : Nat) :
    Memory.get (Memory.drop m a) x = if x = a then blank else Memory.get m x := by
  induction m with
  | nil => simp [Memory.drop]
  | cons c m ih =>
    by_cases h : a = c.1
    · subst h
      by_cases hx : x = c.1
      · simpa [Memory.drop, hx] using ih
      · simpa [Memory.drop, hx, Memory.get_cons] using ih
    · by_cases hx : x = c.1
      · have : x ≠ a := by omega
        simp [Memory.drop, h, Memory.get_cons, hx]; omega
      · simp [Memory.drop, h, ih, Memory.get_cons, hx]

theorem Memory.get_put {m : Memory} {a : Nat} (h : Memory.get m a = blank) (hm : Memory.drop m a = m) (x : Nat) (b : Byte) :
    Memory.get (Memory.put m a b) x = if x = a then b else Memory.get m x := by
  induction m with
  | nil => simp [Memory.put, Memory.get_cons]
  | cons c m ih =>
    have hc : a ≠ c.1 := by
      intro hc
      have h1 : (Memory.drop m a).length ≤ m.length := by
        clear ih h hm
        induction m with
        | nil => simp [Memory.drop]
        | cons d m ih => simp only [Memory.drop]; split <;> simp <;> omega
      have h2 := congrArg List.length hm
      simp [Memory.drop, hc] at h2
      rw [← hc] at h2
      omega
    have hm' : Memory.drop m a = m := by simpa [Memory.drop, hc] using hm
    have h' : Memory.get m a = blank := by simpa [Memory.get_cons, hc] using h
    by_cases hlt : a < c.1
    · simp [Memory.put, hlt, Memory.get_cons]
    · by_cases hx : x = c.1
      · have : x ≠ a := by omega
        simp [Memory.put, hlt, Memory.get_cons, hx]; omega
      · simp [Memory.put, hlt, Memory.get_cons, hx, ih h' hm']

theorem Memory.drop_drop (m : Memory) (a : Nat) : Memory.drop (Memory.drop m a) a = Memory.drop m a := by
  induction m with
  | nil => rfl
  | cons c m ih =>
    by_cases h : a = c.1
    · simp only [Memory.drop, h, beq_self_eq_true, if_true]
      rw [← h]; exact ih
    · simp [Memory.drop, h, ih]

/-- A byte read after one byte is written, whatever form the memory has. -/
theorem Memory.get_set (m : Memory) (a x : Nat) (b : Byte) :
    Memory.get (Memory.set m a b) x = if x = a then b else Memory.get m x := by
  unfold Memory.set
  by_cases hb : b = blank
  · simp [hb, Memory.get_drop]
  · simp only [beq_iff_eq, hb, if_false]
    rw [Memory.get_put (by simp [Memory.get_drop]) (Memory.drop_drop m a)]
    by_cases hx : x = a <;> simp [hx, Memory.get_drop]

theorem Memory.above_none {m : Memory} {lo : Option Nat} (h : Memory.above lo m = true) : Memory.above none m = true := by
  cases m with
  | nil => rfl
  | cons c m => simp [Memory.above] at h ⊢; exact ⟨h.1.2, h.2⟩

theorem Memory.above_weaken {m : Memory} {a b : Nat} (h : Memory.above (some b) m = true) (hab : a ≤ b) :
    Memory.above (some a) m = true := by
  cases m with
  | nil => rfl
  | cons c m => simp [Memory.above] at h ⊢; exact ⟨⟨by omega, h.1.2⟩, h.2⟩

/-- An entry before a list above it. -/
theorem Memory.above_cons {m : Memory} {lo : Option Nat} {c : Host.Cell} (hlo : ∀ x, lo = some x → x < c.1)
    (hc : c.2 ≠ blank) (hm : Memory.above (some c.1) m = true) : Memory.above lo (c :: m) = true := by
  cases lo with
  | none => simp [Memory.above, hm, hc]
  | some x => simp [Memory.above, hm, hc, hlo x rfl]

theorem Memory.above_uncons {m : Memory} {lo : Option Nat} {c : Host.Cell} (h : Memory.above lo (c :: m) = true) :
    (∀ x, lo = some x → x < c.1) ∧ c.2 ≠ blank ∧ Memory.above (some c.1) m = true := by
  cases lo with
  | none => simpa [Memory.above] using h
  | some x => simpa [Memory.above, and_assoc] using h

theorem Memory.above_drop {m : Memory} {lo : Option Nat} (a : Nat) (h : Memory.above lo m = true) :
    Memory.above lo (Memory.drop m a) = true := by
  induction m generalizing lo with
  | nil => rfl
  | cons c m ih =>
    obtain ⟨h1, h2, h3⟩ := Memory.above_uncons h
    by_cases hc : a = c.1
    · subst hc
      simp only [Memory.drop, beq_self_eq_true, if_true]
      cases lo with
      | none => exact ih (Memory.above_none h3)
      | some x => exact ih (Memory.above_weaken h3 (Nat.le_of_lt (h1 x rfl)))
    · simp only [Memory.drop, beq_iff_eq, hc, if_false]
      exact Memory.above_cons h1 h2 (ih h3)

theorem Memory.above_put {m : Memory} {lo : Option Nat} {a : Nat} {b : Byte} (h : Memory.above lo m = true)
    (hm : Memory.drop m a = m) (hb : b ≠ blank) (ha : ∀ x, lo = some x → x < a) :
    Memory.above lo (Memory.put m a b) = true := by
  induction m generalizing lo with
  | nil => exact Memory.above_cons ha hb rfl
  | cons c m ih =>
    obtain ⟨h1, h2, h3⟩ := Memory.above_uncons h
    by_cases hlt : a < c.1
    · simp only [Memory.put, hlt, if_true]
      exact Memory.above_cons ha hb (Memory.above_cons (by rintro x ⟨⟩; exact hlt) h2 h3)
    · have hc : a ≠ c.1 := by
        intro hc
        have h4 : Memory.get (Memory.drop (c :: m) a) a = blank := by simp [Memory.get_drop]
        rw [hm, Memory.get_cons, if_pos hc] at h4
        exact h2 h4
      have hm' : Memory.drop m a = m := by simpa [Memory.drop, hc] using hm
      simp only [Memory.put, hlt, if_false]
      exact Memory.above_cons h1 h2 (ih h3 hm' (by rintro x ⟨⟩; omega))

/-- A write of one byte keeps the canonical form. -/
theorem Memory.wf_set {m : Memory} (a : Nat) (b : Byte) (h : m.wf = true) : Memory.wf (Memory.set m a b) = true := by
  unfold Memory.set
  by_cases hb : b = blank
  · simp only [hb, beq_self_eq_true, if_true]
    exact Memory.above_drop a h
  · simp only [beq_iff_eq, hb, if_false]
    exact Memory.above_put (Memory.above_drop a h) (Memory.drop_drop m a) hb (by simp)

/-- A write keeps the canonical form. -/
theorem Memory.wf_write {m : Memory} (a : Nat) (bs : List Byte) (h : m.wf = true) :
    Memory.wf (Memory.write m a bs) = true := by
  induction bs generalizing m a with
  | nil => exact h
  | cons b bs ih => exact ih (a + 1) (Memory.wf_set a b h)

theorem Memory.wf_putNum {m : Memory} (a n x : Nat) (h : m.wf = true) : Memory.wf (Memory.putNum m a n x) = true :=
  Memory.wf_write a _ h

theorem Memory.above_filter {m : Memory} {lo : Option Nat} (p : Host.Cell → Bool) (h : Memory.above lo m = true) :
    Memory.above lo (m.filter p) = true := by
  induction m generalizing lo with
  | nil => rfl
  | cons c m ih =>
    have hm : Memory.above (some c.1) m = true := by simp [Memory.above] at h; exact h.2
    by_cases hp : p c
    · simp only [List.filter_cons, hp, if_true]
      simp [Memory.above] at h ⊢
      exact ⟨h.1, ih h.2⟩
    · simp only [List.filter_cons, hp]
      cases lo with
      | none => exact ih (Memory.above_none hm)
      | some x =>
        simp [Memory.above] at h
        exact ih (Memory.above_weaken hm (by omega))

/-- Bytes dropped keep the canonical form. -/
theorem Memory.wf_filter {m : Memory} (p : Host.Cell → Bool) (h : m.wf = true) : Memory.wf (m.filter p) = true :=
  Memory.above_filter p h

/-- A byte read after a write: the written one inside, the old one outside. -/
theorem Memory.get_write (m : Memory) (a : Nat) (bs : List Byte) (x : Nat) :
    Memory.get (Memory.write m a bs) x = if a ≤ x ∧ x < a + bs.length then bs.getD (x - a) 0 else Memory.get m x := by
  induction bs generalizing m a with
  | nil =>
    have h : ¬(a ≤ x ∧ x < a + ([] : List Byte).length) := by rw [List.length_nil]; omega
    rw [if_neg h]; rfl
  | cons b bs ih =>
    simp only [Memory.write, ih, Memory.get_set, List.length_cons]
    by_cases h1 : a + 1 ≤ x ∧ x < a + 1 + bs.length
    · have h2 : a ≤ x ∧ x < a + (bs.length + 1) := by omega
      have h3 : x - a = (x - (a + 1)) + 1 := by omega
      rw [if_pos h1, if_pos h2, h3]; rfl
    · by_cases h4 : x = a
      · subst h4
        rw [if_neg h1, if_pos rfl, if_pos (by omega), Nat.sub_self]; rfl
      · have h2 : ¬(a ≤ x ∧ x < a + (bs.length + 1)) := by omega
        rw [if_neg h1, if_neg h4, if_neg h2]

/-- A write leaves every byte outside it alone. -/
theorem Memory.get_write_out (m : Memory) (a : Nat) (bs : List Byte) (x : Nat) (hx : x < a ∨ a + bs.length ≤ x) :
    Memory.get (Memory.write m a bs) x = Memory.get m x := by
  rw [Memory.get_write]
  have : ¬(a ≤ x ∧ x < a + bs.length) := by omega
  simp [this]

@[simp] theorem Memory.length_read (m : Memory) (a n : Nat) : (Memory.read m a n).length = n := by simp [Memory.read]

/-- What is read back of a write. -/
theorem Memory.read_write (m : Memory) (a : Nat) (bs : List Byte) :
    Memory.read (Memory.write m a bs) a bs.length = bs := by
  apply List.ext_getElem
  · simp
  · intro i h1 h2
    simp only [Memory.read, List.getElem_map, List.getElem_range, Memory.get_write]
    simp [h2]

/-- Two memories that read the same everywhere give the same numbers. -/
theorem Memory.num_congr {m n : Memory} (h : ∀ a, Memory.get m a = Memory.get n a) (a k : Nat) :
    Memory.num m a k = Memory.num n a k := by
  simp [Memory.num, Memory.read, h]

end Sys2Proof.Machine
end

