-- ==== Sys2Proof/Laws/Space.lean ====
section
/-! SUPPORT. Laws/Space.lean: what a translation can be, and that holding its page in the TLBs changes nothing else. -/

namespace Sys2Proof.Machine

/-- The page of an address is the tables' own, or that of an entry held for it. -/
theorem oldOrNew_cases (tlb : List Tlb) (pasid : Nat) (va : DWord) (pick : Nat) (new : Walk) :
    oldOrNew tlb pasid va pick new = new ∨
      ∃ t ∈ tlb, t.covers pasid va = true ∧ oldOrNew tlb pasid va pick new = .leaf t := by
  unfold oldOrNew
  generalize ho : (tlb.filter fun t => t.covers pasid va && new != Walk.leaf t.bare) = olds
  have hold : ∀ t ∈ olds, t ∈ tlb ∧ t.covers pasid va = true := by
    intro t ht
    rw [← ho, List.mem_filter, Bool.and_eq_true] at ht
    exact ⟨ht.1, ht.2.1⟩
  cases olds with
  | nil => exact .inl rfl
  | cons a rest =>
    simp only
    rw [List.getD_eq_getElem?_getD]
    cases h : (List.map Walk.leaf (a :: rest) ++ [new])[pick % ((a :: rest).length + 1)]? with
    | none => exact .inl rfl
    | some x =>
      have hm := List.mem_of_getElem? h
      simp only [List.mem_append, List.mem_map, List.mem_singleton] at hm
      rcases hm with ⟨t, ht, rfl⟩ | rfl
      · exact .inr ⟨t, (hold t ht).1, (hold t ht).2, rfl⟩
      · exact .inl rfl

/-- Where every entry held for an address agrees with the tables, the tables' page is used. -/
theorem oldOrNew_agreed (tlb : List Tlb) (pasid : Nat) (va : DWord) (pick : Nat) (new : Walk)
    (h : ∀ t ∈ tlb, t.covers pasid va = true → new = .leaf t.bare) : oldOrNew tlb pasid va pick new = new := by
  have : (tlb.filter fun t => t.covers pasid va && new != .leaf t.bare) = [] := by
    rw [List.filter_eq_nil_iff]
    intro t ht
    simp only [Bool.and_eq_true, bne_iff_ne, ne_eq]
    exact fun hn => hn.2 (h t ht hn.1)
  unfold oldOrNew
  rw [this]

/-- The index of an address in a table. -/
theorem walk_index (va : DWord) (n : Nat) : (va.extractLsb' n 9).toNat = va.toNat / 2 ^ n % 512 := by
  simp [BitVec.extractLsb'_toNat, Nat.shiftRight_eq_div_pow]

theorem div_le_pow {a b m n : Nat} (h : a / 2 ^ m = b / 2 ^ m) (hn : m ≤ n) : a / 2 ^ n = b / 2 ^ n := by
  obtain ⟨k, rfl⟩ := Nat.exists_eq_add_of_le hn
  rw [Nat.pow_add, ← Nat.div_div_eq_div_mul, ← Nat.div_div_eq_div_mul, h]

theorem leafTlb_covers (pasid : Nat) (va vb e : DWord) (log pa : Nat) :
    (leafTlb pasid va e log pa).covers pasid vb = true ↔ va.toNat / 2 ^ log = vb.toNat / 2 ^ log := by
  have h : va.toNat / 2 ^ log * 2 ^ log < 2 ^ 64 := Nat.lt_of_le_of_lt (Nat.div_mul_le_self _ _) va.isLt
  simp only [Tlb.covers, leafTlb, BEq.rfl, Bool.true_and, beq_iff_eq, BitVec.toNat_ofNat]
  rw [Nat.mod_eq_of_lt h, Nat.mul_div_cancel _ (Nat.two_pow_pos log)]

theorem leafTlb_page (pasid : Nat) (va vb e : DWord) (log pa : Nat) (h : va.toNat / 2 ^ log = vb.toNat / 2 ^ log) :
    leafTlb pasid vb e log pa = leafTlb pasid va e log pa := by
  simp [leafTlb, h]

theorem lastLeaf_page (mem : Memory) (part : Part) (pasid : Nat) (va vb e : DWord) (table idx : Nat)
    (h : va.toNat / 2 ^ 12 = vb.toNat / 2 ^ 12) :
    lastLeaf mem part pasid vb e table idx = lastLeaf mem part pasid va e table idx := by
  have h' : va.toNat % 2 ^ 16 / 2 ^ 12 = vb.toNat % 2 ^ 16 / 2 ^ 12 := by omega
  simp only [lastLeaf, leafTlb_page pasid va vb e 12 _ h, leafTlb_page pasid va vb e 16 _ (div_le_pow h (by decide)), h']

/-- The addresses of a 4 KiB page are walked alike. -/
theorem walk_small (mem : Memory) (part : Part) (pasid : Nat) (va vb : DWord) (p : Nat)
    (h : va.toNat / 2 ^ 12 = vb.toNat / 2 ^ 12) :
    ∀ level table, walkFrom mem part pasid vb p level table = walkFrom mem part pasid va p level table := by
  intro level
  induction level with
  | zero => intro table; rfl
  | succ n ih =>
    intro table
    have hn : va.toNat / 2 ^ (12 + 9 * n) = vb.toNat / 2 ^ (12 + 9 * n) := div_le_pow h (by omega)
    simp only [walkFrom, walk_index, ← hn, lastLeaf_page mem part pasid va vb _ _ _ h, leafTlb_page pasid va vb _ _ _ hn, ih]

/-- The entries of a group of identical C64 entries map the same page. -/
theorem walk_group (mem : Memory) (part : Part) (pasid : Nat) (va vb : DWord) (p q table : Nat) (e : DWord)
    (h : va.toNat / 2 ^ 16 = vb.toNat / 2 ^ 16) (he : e.getLsbD 5 = true)
    (hg : ((groupOf mem part table (va.toNat / 2 ^ 12 % 512)).all fun g => g == e) = true) :
    walkFrom mem part pasid vb q 1 table = walkFrom mem part pasid va p 1 table := by
  have hi : va.toNat / 2 ^ 12 % 512 / 16 = vb.toNat / 2 ^ 12 % 512 / 16 := by omega
  have hsame : groupOf mem part table (vb.toNat / 2 ^ 12 % 512) = groupOf mem part table (va.toNat / 2 ^ 12 % 512) := by
    simp only [groupOf, hi]
  have hall : ∀ x : DWord, x.toNat / 2 ^ 16 = va.toNat / 2 ^ 16 → tableEntry mem part table (x.toNat / 2 ^ 12 % 512) = e := by
    intro x hx
    rw [List.all_eq_true] at hg
    have : tableEntry mem part table (x.toNat / 2 ^ 12 % 512) ∈ groupOf mem part table (va.toNat / 2 ^ 12 % 512) := by
      refine List.mem_map.mpr ⟨x.toNat / 2 ^ 12 % 16, List.mem_range.mpr (by omega), ?_⟩
      congr 1
      omega
    simpa using hg _ this
  have hl : ∀ x : DWord, ∀ r, x.toNat / 2 ^ 16 = va.toNat / 2 ^ 16 → lastEntry mem part table (x.toNat / 2 ^ 12 % 512) r = e := by
    intro x r hx
    have hgx : groupOf mem part table (x.toNat / 2 ^ 12 % 512) = groupOf mem part table (va.toNat / 2 ^ 12 % 512) := by
      have : x.toNat / 2 ^ 12 % 512 / 16 = va.toNat / 2 ^ 12 % 512 / 16 := by omega
      simp only [groupOf, this]
    simp only [lastEntry, hall x hx, hgx, hg, Bool.not_true, Bool.and_false, Bool.false_eq_true, if_false]
  have hf : ∀ x : DWord, x.toNat / 2 ^ 16 = va.toNat / 2 ^ 16 →
      lastLeaf mem part pasid x e table (x.toNat / 2 ^ 12 % 512) = leafTlb pasid va e 16 (entryPa e) := by
    intro x hx
    have hgx : groupOf mem part table (x.toNat / 2 ^ 12 % 512) = groupOf mem part table (va.toNat / 2 ^ 12 % 512) := by
      have : x.toNat / 2 ^ 12 % 512 / 16 = va.toNat / 2 ^ 12 % 512 / 16 := by omega
      simp only [groupOf, this]
    simp only [lastLeaf, he, hgx, hg, Bool.not_true, Bool.false_eq_true, if_false, if_true,
      leafTlb_page pasid va x e 16 _ hx.symm]
  simp only [walkFrom, walk_index, Nat.mul_zero, Nat.add_zero, BEq.rfl, if_true, hl vb q h.symm, hl va p rfl, hf vb h.symm,
    hf va rfl]

/-- Every address of the page that a walk finds is walked to it. -/
theorem walk_page (mem : Memory) (part : Part) (pasid : Nat) (va vb : DWord) (p q : Nat) (t : Tlb)
    (hp : va.toNat / 2 ^ 12 = vb.toNat / 2 ^ 12 → p = q) :
    ∀ level table, walkFrom mem part pasid va p level table = .leaf t → t.covers pasid vb = true →
      va.toNat / 2 ^ max 16 (12 + 9 * (level - 1)) = vb.toNat / 2 ^ max 16 (12 + 9 * (level - 1)) ∧
        walkFrom mem part pasid vb q level table = .leaf t := by
  have small : va.toNat / 2 ^ 12 = vb.toNat / 2 ^ 12 → ∀ level table, walkFrom mem part pasid va p level table = .leaf t →
      va.toNat / 2 ^ max 16 (12 + 9 * (level - 1)) = vb.toNat / 2 ^ max 16 (12 + 9 * (level - 1)) ∧
        walkFrom mem part pasid vb q level table = .leaf t := by
    intro h level table hw
    refine ⟨div_le_pow h (by omega), ?_⟩
    rw [← hp h, walk_small mem part pasid va vb p h, hw]
  intro level
  induction level with
  | zero => intro table h; cases h
  | succ n ih =>
    intro table h hc
    have h0 := h
    unfold walkFrom at h
    cases n with
    | zero =>
      simp only [walk_index, BEq.rfl, if_true, Nat.mul_zero, Nat.add_zero, Bool.true_or] at h
      split at h
      · cases h
      · split at h
        · cases h
        · cases h
          unfold lastLeaf at hc
          split at hc
          · exact small ((leafTlb_covers ..).mp hc) 1 table h0
          · split at hc
            · rename_i h5 hg
              have h16 := (leafTlb_covers ..).mp hc
              exact ⟨h16, (walk_group mem part pasid va vb p q table _ h16 (by simpa using h5) hg).trans h0⟩
            · exact small ((leafTlb_covers ..).mp hc) 1 table h0
    | succ m =>
      have hm : (m + 1 == 0) = false := rfl
      simp only [walk_index, hm, Bool.false_eq_true, if_false, Bool.false_or] at h
      have step : va.toNat / 2 ^ (12 + 9 * (m + 1)) = vb.toNat / 2 ^ (12 + 9 * (m + 1)) →
          va.toNat / 2 ^ max 16 (12 + 9 * (m + 1 + 1 - 1)) = vb.toNat / 2 ^ max 16 (12 + 9 * (m + 1 + 1 - 1)) :=
        fun e => div_le_pow e (by omega)
      split at h
      · cases h
      · rename_i hv
        split at h
        · cases h
        · rename_i hb
          split at h
          · rename_i hl
            cases h
            have hi := (leafTlb_covers ..).mp hc
            refine ⟨step hi, ?_⟩
            unfold walkFrom
            simp only [walk_index, hm, Bool.false_eq_true, if_false, Bool.false_or, ← hi, leafTlb_page pasid va vb _ _ _ hi]
            rw [if_neg hv, if_neg hb, if_pos hl]
          · rename_i hl
            obtain ⟨hi, hw⟩ := ih _ h hc
            have hi := div_le_pow (n := 12 + 9 * (m + 1)) hi (by omega)
            refine ⟨step hi, ?_⟩
            unfold walkFrom
            simp only [walk_index, hm, Bool.false_eq_true, if_false, Bool.false_or, ← hi]
            rw [if_neg hv, if_neg hb, if_neg hl]
            exact hw

theorem walk_pasid (mem : Memory) (part : Part) (pasid : Nat) (va : DWord) (p : Nat) (t : Tlb) :
    ∀ level table, walkFrom mem part pasid va p level table = .leaf t → t.pasid = pasid := by
  intro level
  induction level with
  | zero => intro table h; cases h
  | succ n ih =>
    intro table h
    unfold walkFrom at h
    simp only at h
    repeat' split at h
    all_goals first
      | exact ih _ h
      | (cases h; done)
      | (cases h; rfl)
      | (cases h; unfold lastLeaf; (repeat' split) <;> rfl)

/-- Holding a page changes the TLBs alone. -/
theorem State.cachePage_tlb (s : State) (pasid : Nat) (va : DWord) : ∃ l, s.cachePage pasid va = { s with tlb := l } := by
  unfold State.cachePage
  split
  · exact ⟨s.tlb, rfl⟩
  · split
    · exact ⟨_, rfl⟩
    · exact ⟨s.tlb, rfl⟩

theorem State.cacheRun_tlb (s : State) (pasid : Nat) (va : DWord) (k : Nat) :
    ∃ l, s.cacheRun pasid va k = { s with tlb := l } := by
  unfold State.cacheRun
  generalize chunks va k = cs
  induction cs generalizing s with
  | nil => exact ⟨s.tlb, rfl⟩
  | cons c rest ih =>
    obtain ⟨l, hl⟩ := s.cachePage_tlb pasid c.1
    obtain ⟨m, hm⟩ := ih (s.cachePage pasid c.1)
    exact ⟨m, by rw [List.foldl_cons, hm, hl]⟩

@[simp] theorem State.cacheRun_mem (s : State) (pasid : Nat) (va : DWord) (k : Nat) :
    (s.cacheRun pasid va k).mem = s.mem := by
  obtain ⟨l, h⟩ := s.cacheRun_tlb pasid va k
  rw [h]

@[simp] theorem State.cacheRun_warps (s : State) (pasid : Nat) (va : DWord) (k : Nat) :
    (s.cacheRun pasid va k).warps = s.warps := by
  obtain ⟨l, h⟩ := s.cacheRun_tlb pasid va k
  rw [h]

/-- A fetch changes nothing but the TLBs and the instruction cache of its core. -/
theorem State.fetched_caches (s : State) (core pasid : Nat) (pc : DWord) (v : QWord) :
    ∃ l c, s.fetched core pasid pc v = { s with tlb := l, cores := c } := by
  obtain ⟨l, h⟩ := s.cacheRun_tlb pasid pc 16
  unfold State.fetched
  split
  · simp only [h]
    exact ⟨l, _, rfl⟩
  · exact ⟨s.tlb, s.cores, rfl⟩

end Sys2Proof.Machine
end

