-- ==== Sys2Proof/Tests/Slice0.lean ====
section
/-! SUPPORT. Tests/Slice0.lean: small tests: legal words, words written out from the encodings and decoded, ill-formed
words refused, worked examples of the spec, and for every statement a state that meets its hypotheses. -/

open Sys2Proof Sys2Proof.Machine

namespace Sys2Proof.Tests

set_option Elab.async false

/-! ### A small module to try things on -/

/-- A word of format R or M with no operands. -/
def z : Fields := ⟨0, ⟨false, 15⟩, ⟨false, 15⟩, .none, .none, .none, .none, .none, 0, .u32, .weak, .none, .dflt, .same, 0⟩

/-- A word of format C with no operands. -/
def c0 : CFields := ⟨0, ⟨false, 15⟩, ⟨false, 15⟩, 0, 0, 0, 0, false, 0, 0, false, false⟩

/-- One warp of one crew, all lanes live in the port slot, whose turn it is; its context's page tables map the lowest
1 GiB with every right. -/
def bench : State := { State.reset.placeYeloz 0 with turn := some (.slot 2 .port) }

/-- The warp of the bench: warp 2 of crew 1 of launch 0. -/
def warp0 : Warp := placedWarp 2 1 0 0

/-- The bench with another warp, crew or launch record. -/
def withWarp (w : Warp) : State := bench.setWarp w

/-- Lanes made by their number. -/
def lanesBy (g : Nat → Lane) : List Lane := (List.range 32).map g

/-- The warp of the bench with vector registers by lane, and scalar registers. -/
def warpOf (v : Nat → List Word) (sregs : List Word) : Warp :=
  { warp0 with lanes := lanesBy fun l => { st := .live, tid := BitVec.ofNat 32 l, v := v l }, sregs := sregs }

/-- Lane 0 alone active. -/
def lone (w : Warp) : Warp := { w with port := { w.port with mask := 1, latched := 1 } }

/-- The bench under host translation: the first GiB may be used in every way, the second in none. No page table is read. -/
def flat (s : State) : State :=
  { s with mapper := { s.mapper with assist := [1] }
           ctxs := s.ctxs.map fun (c : Ctx) => { c with assist := 1 }
           tlb := [{ pasid := placedPasid, va := 0, log := 30, pa := 0, mem := 0, sysatom := false, r := true, w := true, x := true },
             { pasid := placedPasid, va := 0x40000000, log := 30, pa := 0, mem := 0, sysatom := false, r := false, w := false, x := false }] }

/-- The state after an instruction, where there is one. -/
def after (i : Instr) (s : State) : Option State :=
  match exec i s with
  | .next t => some t
  | _ => none

/-- The state after a step. -/
def stepped (s : State) : Option State :=
  match step s with
  | .next t => some t
  | _ => none

/-- The warp after an instruction on the bench with that warp. -/
def runs (w : Warp) (i : Instr) : Option Warp := (after i (withWarp w)).bind fun t => t.warp? 2

/-- A vector register of a lane after an instruction. -/
def vreg (w : Warp) (i : Instr) (l r : Nat) : Option Word := (runs w i).map fun y => (y.lane l).reg r

/-- What the trap registers say after an instruction: vector, information, mask. -/
def trapped (w : Warp) (i : Instr) : Option (Word × DWord × Word) :=
  (runs w i).bind fun y => y.handler.map fun _ => (y.trapv, y.trapinfo, y.trapmask)

/-- One legal word for each integer, logic, move and status instruction. -/
def aluWords : List Instr :=
  let d3 : Fields := { z with d := .v 1, a := .v 2, b := .v 3, c := .v 4 }
  let d2 : Fields := { z with d := .v 1, a := .v 2, b := .v 3 }
  let d1 : Fields := { z with d := .v 1, a := .v 2 }
  [.add d2, .sub d2, .addc { d2 with e := .p 1, c := .p 1 }, .subb { d2 with e := .p 1 }, .mul d2, .mulhi d2, .mad d3,
   .madw { z with d := .v 4, a := .v 2, b := .v 3, c := .v 6 }, .min d2, .max d2, .abs { d1 with ty := .i32 }, .neg d1,
   .idp4 { d3 with ty := .u8x4 }, .div d2, .rem d2, .clamp d3, .and d2, .or d2, .xor d2, .andn d2, .not d1,
   .lop3 { d3 with imm := 0xA8 }, .shl d2, .shr d2, .sra d2, .rol d2, .fsh d3, .bext d3,
   .bins { d3 with e := .v 5 }, .popc d1, .clz d1, .ctz d1, .brev d1, .bperm d3, .cmp { d2 with d := .p 1 },
   .sel { d2 with c := .p 1 }, .lea { z with d := .v 6, a := .s 4, b := .v 2, sub := 3 }, .mov d1,
   .plop { z with d := .p 3, a := .p 1, b := .p 15, c := .p 15, imm := 0x40 }, .pmask { z with d := .v 1, a := .p 1 },
   .pmaskSet { z with d := .p 1, a := .v 1, sub := 1 }, .srd { z with d := .v 1, a := .imm, imm := 1 },
   .swr { z with a := .v 1, b := .imm, imm := 1 }, .v2s { z with d := .s 3, a := .v 1, b := .imm, imm := 5 }]

/-- One legal word for each floating, special-function and conversion instruction. -/
def floatWords : List Instr :=
  let d3 : Fields := { z with d := .v 1, a := .v 2, b := .v 3, c := .v 4 }
  let d2 : Fields := { z with d := .v 1, a := .v 2, b := .v 3 }
  let d1 : Fields := { z with d := .v 1, a := .v 2 }
  let f3 : Fields := { d3 with ty := .f32 }
  let f2 : Fields := { d2 with ty := .f32 }
  let f1 : Fields := { d1 with ty := .f32 }
  [.fadd f2, .fsub f2, .fmul f2, .ffma f3, .fmin f2, .fmax f2, .fabs f1, .fcmp { f2 with d := .p 1 }, .fclass f1, .frcp f1,
   .frsq f1, .fsqrt f1, .fexp2 f1, .flog2 f1, .fsinpi f1, .fcospi f1, .ftanh f1, .fdiv f2, .fscale f2, .frnd f1,
   .fdp2 { d3 with ty := .f16x2 }, .cvt { d1 with ty := .f32, imm := 1 }, .cvtf d1, .cvtfDec { d1 with sub := 1 },
   .cvtx2 { d2 with ty := .f16x2 }, .cvtx2Unp { z with d := .v 4, a := .v 2, ty := .f16x2, sub := 8 },
   .cvt8x4 { z with d := .v 1, a := .v 4 }, .cvt8x4Unp { z with d := .v 4, a := .v 1, sub := 16 }, .bpack d1, .bunpack d1]

/-- One legal word for each memory instruction. -/
def memoryWords : List Instr :=
  [.ld { z with d := .v 1, a := .v 2 }, .st { z with a := .v 2, c := .v 4 }, .ldl { z with d := .v 1, a := .v 2 },
   .stl { z with a := .v 2, c := .v 4 },
   .atom { z with d := .v 1, a := .v 2, c := .v 4, ord := .rlx, scope := .dev },
   .atoml { z with d := .v 1, a := .v 2, c := .v 4, ord := .rlx, scope := .core },
   .red { z with a := .v 2, c := .v 4, ord := .rlx, scope := .dev },
   .fence { z with imm := 0x0101, ord := .rel, scope := .dev },
   .wcmp { z with d := .v 1, a := .v 2, c := .v 4, ord := .acq, scope := .dev },
   .prefetch { z with a := .v 2 }, .cachectlInv { z with a := .v 2 }, .cachectlSetev { z with a := .v 2, sub := 16, evp := .last },
   .cachectlInvall { z with sub := 32 }]

/-- One legal word for each cross-lane, team and rendezvous instruction. -/
def laneWords : List Instr :=
  let d2 : Fields := { z with d := .v 1, a := .v 2, b := .v 3 }
  let d1 : Fields := { z with d := .v 1, a := .v 2 }
  [.nbr { d1 with b := .imm, imm := 1 }, .xsh d2, .lred d1, .lscan d1, .vote { z with d := .p 1, a := .p 2 },
   .regroup { z with a := .p 1 }, .tnew { z with d := .v 1 }, .tjoin { z with a := .v 1 }, .tleave z, .tfree { z with a := .v 1 },
   .tinfo { z with d := .v 4, a := .v 1 }, .rzinit { z with a := .v 1, b := .v 2 }, .rzarr d1, .rzwait { d2 with d := .p 1 },
   .rzaw { z with d := .p 3, a := .imm }]

/-- One legal word for each item, flow and estate instruction. -/
def itemWords : List Instr :=
  [.ispawn { z with d := .p 1, a := .v 2, b := .v 1, c := .v 4 }, .inext { z with d := .s 4, sub := 1 },
   .relabel { z with d := .p 1, a := .v 2 }, .irel { z with a := .s 4, c := .v 8 }, .iend z, .iflowq { z with d := .v 4, a := .v 2 },
   .hlock { z with d := .p 1, a := .v 2 }, .hunlock { z with a := .v 2 }, .promise { z with d := .p 1, a := .v 2 },
   .fulfil { z with a := .v 2, c := .v 4 }, .heir { z with a := .v 1, b := .v 2 }, .convey { z with a := .v 1, b := .v 2 },
   .bereft { z with d := .v 8 }, .bereftCust { z with d := .v 8, sub := 1 }, .estqLo { z with d := .v 4, a := .v 1 },
   .estqHi { z with d := .v 4, a := .v 1, sub := 1 }, .estqFind { z with d := .v 1, a := .v 2, b := .v 4, sub := 2 }, .die z]

/-- One legal word for each matrix instruction. -/
def matrixWords : List Instr :=
  [.mma { z with d := .t 2, a := .v 8, b := .v 12, imm := 0x000D0D09 }, .mzero { z with d := .t 0, ty := .f32 },
   .mld { z with d := .t 0, a := .v 2, b := .v 1, ty := .f32 }, .mst { z with a := .v 2, b := .v 1, c := .t 0 },
   .mmov { z with d := .v 2, a := .t 0, b := .v 1 }, .mmovW { z with d := .t 0, a := .v 2, b := .v 1, sub := 1 },
   .mmask { z with d := .t 0, a := .v 2 }, .mmaskClear { z with d := .t 0 }, .mrow { z with d := .v 2, c := .t 0 },
   .mrowM { z with a := .s 16, c := .t 0, imm := 0x000D0D00, sub := 2 }, .mprog { z with d := .v 2, sub := 1 },
   .mprogSet { z with a := .v 2, sub := 5 }]

/-- One legal word for each horizon instruction. -/
def horizonWords : List Instr :=
  let y : Fields := { z with ty := .f64 }
  [.einit { y with d := .e 0, a := .v 2, b := .v 4 }, .eins { y with d := .e 0, a := .v 2, b := .v 4 },
    .esum { z with d := .e 2, a := .e 0, b := .e 1 }, .emax { z with d := .e 2, a := .e 0, b := .e 1 },
    .einf { z with d := .e 2, a := .e 0, b := .e 1 }, .econj { z with d := .e 2, a := .e 0 },
    .eshift { y with d := .e 2, a := .e 0, b := .v 2, c := .v 4, e := .v 6 },
    .eeval { y with d := .v 4, a := .e 1, b := .v 2, e := .v 6 }, .ebrk { z with d := .v 4, a := .e 0, b := .s 1 },
    .ecnt { z with d := .v 1, a := .e 0, e := .v 4 }, .eld { z with d := .e 0, a := .v 2 },
    .est { z with a := .v 2, c := .e 0 }]

/-- One legal word for each queue, tag and system instruction. -/
def systemWords : List Instr :=
  [.qpush { z with d := .q 0, a := .v 8 }, .qpushPipe { z with d := .q 0, a := .v 1 }, .qpop { z with d := .v 1, a := .q 0 },
   .qtry { z with d := .v 1, a := .q 0, e := .p 1 }, .twaitany { z with d := .v 1, a := .s 2, ty := .u64 },
   .twaitall { z with a := .s 2, ty := .u64 }, .tffr { z with d := .v 1, a := .s 2, ty := .u64 },
   .tclr { z with a := .s 2, ty := .u64 }, .trap { z with imm := 32 }, .svc { z with d := .p 2, a := .v 16, imm := 0x41 }, .rte z,
   .yield z, .rdts { z with d := .v 2, ty := .u64 }, .sleep { z with a := .s 1 }, .bkpt { z with imm := 7 }]

/-- One legal word for each format-C instruction. -/
def controlWords : List Instr :=
  [.bra c0, .brx { c0 with sreg := 2, s := true }, .fork c0, .join c0, .brk { c0 with n := 1 }, .call c0, .ret c0, .exit c0, .sigchk c0,
   .nop c0]

/-- Every one of them is well-formed, and the bench may issue it: the hypothesis `Issues` of every statement about it
can be met. -/
theorem test_words_fit :
    [aluWords, floatWords, memoryWords, laneWords, itemWords, matrixWords, horizonWords, systemWords, controlWords].all (fun ws =>
      ws.all fun i => i.wf && (i.fault (bench.allotOf warp0)).isNone) = true := by decide +kernel

theorem test_bench_turn : bench.turn = some (.slot 2 .port) ∧ bench.warp? 2 = some warp0 := by decide +kernel

/-- A word that fits issues. -/
theorem issues_bench {i : Instr} (h : i.fault (bench.allotOf warp0) = none) : Issues i bench 2 .port warp0 :=
  ⟨test_bench_turn.1, test_bench_turn.2, h⟩

/-! ### Decoding -/

/-- The words of `aluWords`, bit by bit from the layout of R37, R39 and R40 and the encoding tables. -/
def aluWordsBits : List Nat :=
  [0x0000000000000BFEFF00C02005EF0000, 0x0000000000000BFEFF00C02005EF0001, 0x00000000000008060100C02005EF0002,
   0x0000000000000806FF00C02005EF0003, 0x0000000000000BFEFF00C02005EF0004, 0x0000000000000BFEFF00C02005EF0005,
   0x0000000000000BFC0400C02005EF0006, 0x0000000000000BFC0600C02011EF0007, 0x0000000000000BFEFF00C02005EF0008,
   0x0000000000000BFEFF00C02005EF0009, 0x0000100000000BFEFFBFC02005EF000A, 0x0000000000000BFEFFBFC02005EF000B,
   0x0000A00000000BFC0400C02005EF000C, 0x0000000000000BFEFF00C02005EF000D, 0x0000000000000BFEFF00C02005EF000E,
   0x0000000000000BFC0400C02005EF000F, 0x0000000000000BFEFF00C02005EF0010, 0x0000000000000BFEFF00C02005EF0011,
   0x0000000000000BFEFF00C02005EF0012, 0x0000000000000BFEFF00C02005EF0013, 0x0000000000000BFEFFBFC02005EF0014,
   0x00000000000A8BFC0400C02005EF0015, 0x0000000000000BFEFF00C02005EF0016, 0x0000000000000BFEFF00C02005EF0017,
   0x0000000000000BFEFF00C02005EF0018, 0x0000000000000BFEFF00C02005EF0019, 0x0000000000000BFC0400C02005EF001A,
   0x0000000000000BFC0400C02005EF001B, 0x00000000000000140400C02005EF001C, 0x0000000000000BFEFFBFC02005EF001D,
   0x0000000000000BFEFFBFC02005EF001E, 0x0000000000000BFEFFBFC02005EF001F, 0x0000000000000BFEFFBFC02005EF0020,
   0x0000000000000BFC0400C02005EF0021, 0x0000000000000BFEFF00C02805EF0022, 0x0000000000000BFE0100C02005EF0023,
   0x0000000000000BFEFF00904019EF0C24, 0x0000000000000BFEFFBFC02005EF0040, 0x0000000000040BFE0F83E0180DEF0041,
   0x0000000000000BFEFFBFE01005EF0042, 0x0000000000000BFEFFBFC01805EF0442, 0x0000000000001BFEFFBFF00005EF0043,
   0x0000000000001BFEFFC0001BFDEF0044, 0x0000000000005BFEFFC000140DEF0045]

/-- The words of `floatWords`, bit by bit from the layout of R37, R39 and R40 and the encoding tables. -/
def floatWordsBits : List Nat :=
  [0x0000400000000BFEFF00C02005EF0060, 0x0000400000000BFEFF00C02005EF0061, 0x0000400000000BFEFF00C02005EF0062,
   0x0000400000000BFC0400C02005EF0063, 0x0000400000000BFEFF00C02005EF0064, 0x0000400000000BFEFF00C02005EF0065,
   0x0000400000000BFEFFBFC02005EF0066, 0x0000400000000BFEFF00C02805EF0067, 0x0000400000000BFEFFBFC02005EF0068,
   0x0000400000000BFEFFBFC02005EF0069, 0x0000400000000BFEFFBFC02005EF006A, 0x0000400000000BFEFFBFC02005EF006B,
   0x0000400000000BFEFFBFC02005EF006C, 0x0000400000000BFEFFBFC02005EF006D, 0x0000400000000BFEFFBFC02005EF006E,
   0x0000400000000BFEFFBFC02005EF006F, 0x0000400000000BFEFFBFC02005EF0070, 0x0000400000000BFEFF00C02005EF0071,
   0x0000400000000BFEFF00C02005EF0072, 0x0000400000000BFEFFBFC02005EF0073, 0x0000600000000BFC0400C02005EF0074,
   0x0000400000001BFEFFBFC02005EF0080, 0x0000000000000BFEFFBFC02005EF0081, 0x0000000000000BFEFFBFC02005EF0481,
   0x0000600000000BFEFF00C02005EF0082, 0x0000600000000BFEFFBFC02011EF2082, 0x0000000000000BFEFFBFC04005EF0083,
   0x0000000000000BFEFFBFC01011EF4083, 0x0000000000000BFEFFBFC02005EF0084, 0x0000000000000BFEFFBFC02005EF0085]

/-- The words of `memoryWords`, bit by bit from the layout of R37, R39 and R40 and the encoding tables. -/
def memoryWordsBits : List Nat :=
  [0x0000000000000BFEFFBFC02005EF00E0, 0x0000000000000BFC04BFC02BFDEF00E1, 0x0000000000000BFEFFBFC02005EF00E2,
   0x0000000000000BFC04BFC02BFDEF00E3, 0x0019000000000BFC04BFC02005EF00E4, 0x0009000000000BFC04BFC02005EF00E5,
   0x0019000000000BFC04BFC02BFDEF00E6, 0x001B000000101BFEFFBFEFFBFDEF00E7, 0x001A000000000BFC04BFC02005EF00E8,
   0x0000000000000BFEFFBFC02BFDEF00E9, 0x0000000000000BFEFFBFC02BFDEF00EA, 0x0600000000000BFEFFBFC02BFDEF40EA,
   0x0000000000000BFEFFBFEFFBFDEF80EA]

/-- The words of `laneWords`, bit by bit from the layout of R37, R39 and R40 and the encoding tables. -/
def laneWordsBits : List Nat :=
  [0x0000000000001BFEFFC0002005EF0100, 0x0000000000000BFEFF00C02005EF0101, 0x0000000000000BFEFFBFC02005EF0102,
   0x0000000000000BFEFFBFC02005EF0103, 0x0000000000000BFEFFBFE02805EF0104, 0x0000000000000BFEFFBFE01BFDEF0105,
   0x0000000000000BFEFFBFEFF005EF0110, 0x0000000000000BFEFFBFC01BFDEF0111, 0x0000000000000BFEFFBFEFFBFDEF0112,
   0x0000000000000BFEFFBFC01BFDEF0113, 0x0000000000000BFEFFBFC01011EF0114, 0x0000000000000BFEFF00801BFDEF0115,
   0x0000000000000BFEFFBFC02005EF0116, 0x0000000000000BFEFF00C02805EF0117, 0x0000000000000BFEFFBFF0080DEF0118]

/-- The words of `itemWords`, bit by bit from the layout of R37, R39 and R40 and the encoding tables. -/
def itemWordsBits : List Nat :=
  [0x0000000000000BFC0400402805EF0120, 0x0000000000000BFEFFBFEFF411EF0521, 0x0000000000000BFEFFBFC02805EF0122,
   0x0000000000000BFC08BFD04BFDEF0123, 0x0000000000000BFEFFBFEFFBFDEF0124, 0x0000000000000BFEFFBFC02011EF0125,
   0x0000000000000BFEFFBFC02805EF0130, 0x0000000000000BFEFFBFC02BFDEF0131, 0x0000000000000BFEFFBFC02805EF0132,
   0x0000000000000BFC04BFC02BFDEF0133, 0x0000000000000BFEFF00801BFDEF0134, 0x0000000000000BFEFF00801BFDEF0135,
   0x0000000000000BFEFFBFEFF021EF0136, 0x0000000000000BFEFFBFEFF021EF0536, 0x0000000000000BFEFFBFC01011EF0137,
   0x0000000000000BFEFFBFC01011EF0537, 0x0000000000000BFEFF01002005EF0937, 0x0000000000000BFEFFBFEFFBFDEF0176]

/-- The words of `matrixWords`, bit by bit from the layout of R37, R39 and R40 and the encoding tables. -/
def matrixWordsBits : List Nat :=
  [0x00000000D0D09BFEFF03008849EF0140, 0x0000400000000BFEFFBFEFF841EF0141, 0x0000400000000BFEFF00402841EF0142,
   0x0000000000000BFE1000402BFDEF0143, 0x0000000000000BFEFF00610009EF0144, 0x0000000000000BFEFF00402841EF0544,
   0x0000000000000BFEFFBFC02841EF0145, 0x0000000000000BFEFFBFEFF841EF0145, 0x0000000000000BFE10BFEFF009EF0146,
   0x00000000D0D00BFE10BFD10BFDEF0946, 0x0000000000000BFEFFBFEFF009EF0547, 0x0000000000000BFEFFBFC02BFDEF1547]

/-- The words of `horizonWords`, bit by bit from the layout of R37, R39 and R40 and the encoding tables. -/
def horizonWordsBits : List Nat :=
  [0x0000500000000BFEFF01002881EF0150, 0x0000500000000BFEFF01002881EF0151, 0x0000000000000BFEFF88620889EF0152,
   0x0000000000000BFEFF88620889EF0153, 0x0000000000000BFEFF88620889EF0154, 0x0000000000000BFEFFBFE20889EF0155,
   0x00005000000000180400A20889EF0156, 0x000050000000001AFF00A21011EF0157, 0x0000000000000BFEFF40620011EF0158,
   0x0000000000000012FFBFE20005EF0159, 0x0000000000000BFEFFBFC02881EF015A, 0x0000000000000BFE20BFC02BFDEF015B]

/-- The words of `systemWords`, bit by bit from the layout of R37, R39 and R40 and the encoding tables. -/
def systemWordsBits : List Nat :=
  [0x0000000000000BFEFFBFC088A1EF0160, 0x0000000000000BFEFFBFC018A1EF0160, 0x0000000000000BFEFFBFE28005EF0161,
   0x0000000000000806FFBFE28005EF0162, 0x0000200000000BFEFFBFD02005EF0163, 0x0000200000000BFEFFBFD02BFDEF0164,
   0x0000200000000BFEFFBFD02005EF0165, 0x0000200000000BFEFFBFD02BFDEF0166, 0x0000000000020BFEFFBFEFFBFDEF0170,
   0x0000000000041BFEFFBFC10809EF0171, 0x0000000000000BFEFFBFEFFBFDEF0172, 0x0000000000000BFEFFBFEFFBFDEF0173,
   0x0000200000000BFEFFBFEFF009EF0174, 0x0000000000000BFEFFBFD01BFDEF0175, 0x0000000000007BFEFFBFEFFBFDEF0177]

/-- The words of `controlWords`, bit by bit from R46 and R118. -/
def controlWordsBits : List Nat :=
  [0x00000000000000000000000001EF00C0, 0x40800000000000000000000001EF00C1, 0x00000000000000000000000001EF00C2,
   0x00000000000000000000000001EF00C3, 0x00008000000000000000000001EF00C4, 0x00000000000000000000000001EF00C5,
   0x00000000000000000000000001EF00C6, 0x00000000000000000000000001EF00C7, 0x00000000000000000000000001EF00C8,
   0x00000000000000000000000001EF00C9]

/-- The decoder reads each word as its instruction; the pipe form of `qpush` has the word of the other (R305). -/
theorem test_words_decode :
    [(aluWords, aluWordsBits), (floatWords, floatWordsBits), (memoryWords, memoryWordsBits), (laneWords, laneWordsBits),
     (itemWords, itemWordsBits), (matrixWords, matrixWordsBits), (horizonWords, horizonWordsBits),
     (systemWords, systemWordsBits), (controlWords, controlWordsBits)].all (fun p =>
      p.2.map (decodeTableWord 128) == p.1.map fun i => some (match i with | .qpushPipe f => .qpush f | i => i)) = true := by
  decide +kernel

/-- The words of pilot code, bit by bit from R355 and R357, with their operations. -/
def pilotWords : List (Nat × Instr) :=
  [(0x00800038, .ldp 2 7),
   (0x08448028, .ldq 1 2 1 5),
   (0x10C90048, .stq 3 4 2 9),
   (0x1941FFFF, .ldi 5 0x1FFFF),
   (0x19420003, .ldiSh 5 3),
   (0x20440000, .pilotAddReg 1 2),
   (0x20600007, .pilotAddImm 1 7),
   (0x28440000, .pilotSubReg 1 2),
   (0x28600007, .pilotSubImm 1 7),
   (0x30440000, .pilotAndReg 1 2),
   (0x30600007, .pilotAndImm 1 7),
   (0x38440000, .pilotOrReg 1 2),
   (0x38600007, .pilotOrImm 1 7),
   (0x40440000, .pilotShlReg 1 2),
   (0x40600007, .pilotShlImm 1 7),
   (0x48440000, .pilotShrReg 1 2),
   (0x48600007, .pilotShrImm 1 7),
   (0x50458003, .cmpj 1 2 6 3),
   (0x58000240, .loop 4 64),
   (0x60010000, .launch 0 0),
   (0x69048000, .signalStore 4 2 0),
   (0x69048009, .signalAdd 4 2 1),
   (0x70C28002, .wait 3 1 0 2),
   (0x78000001, .pilotFence false true),
   (0x78000002, .pilotFence true false),
   (0x80000000, .done),
   (0x89800000, .err 6)]

theorem test_pilot_words_decode :
    pilotWords.all (fun p => p.2.wf && decodeTableWord 32 p.1 == some p.2) = true := by decide +kernel

/-- Words that the spec works out in its chapters decode to what it says they are. -/
theorem test_spec_words_decode :
    -- inext.w s4; bereft v8..v11; mrow.max.m with m = n = 13; einf e2, e0, e1; wcmp.ne.acq.sys v2, [v6:v7], v1.
    decodeTableWord 128 0x0000000000000BFEFFBFEFF411EF0521 = some (.inext { z with sub := 1, d := .s 4 }) ∧
    decodeTableWord 128 0x0000000000000BFEFFBFEFF021EF0136 = some (.bereft { z with d := .v 8 }) ∧
    decodeTableWord 128 0x00000000D0D00BFE10BFD10BFDEF0946 =
      some (.mrowM { z with sub := 2, a := .s 16, c := .t 0, imm := 0x000D0D00 }) ∧
    decodeTableWord 128 0x0000000000000BFEFF88620889EF0154 = some (.einf { z with d := .e 2, a := .e 0, b := .e 1 }) ∧
    decodeTableWord 128 0x0022000000000BFC01BFC06009EF40E8 =
      some (.wcmp { z with sub := 16, d := .v 2, a := .v 6, c := .v 1, ord := .acq, scope := .sys }) := by decide +kernel

/-- An OP that no table names (R49): the word decodes to the trap it takes. -/
theorem test_unallocated_decodes :
    decodeTableWord 128 0x0000000000000BFEFFBFEFFBFDEF0025 = some (.illegalOpcode 0x0000000000000BFEFFBFEFFBFDEF0025) := by
  decide +kernel

/-- Words of pilot code that R355 and R357 reject: an OP above 17, bit 26, a field that must be zero, window 3, and a
sub-operation that is not defined. -/
theorem test_pilot_words_rejected :
    [0x90000000, 0x84000000, 0x80000001, 0x08018000, 0x58000000, 0x58000041, 0x78000000, 0x7000C004, 0x5001C000].all (fun w =>
      decodeTableWord 32 w == none) = true := by decide +kernel

/-! ### Well-formedness: a word for each check, which the check refuses -/

/-- Each field of a word is checked, and the first that does not fit is named (R51, R52). -/
theorem test_ill_formed_words :
    [(Instr.add { z with sub := 2, d := .v 1, a := .v 2, b := .v 3 }, Fld.sub), (.nop { c0 with ofs1 := 1 }, .rsv),
     (.regroup { z with g1 := ⟨false, 1⟩, a := .p 1 }, .g1), (.join { c0 with g2 := ⟨true, 15⟩ }, .g2),
     (.add { z with d := .imm, a := .v 2, b := .v 3 }, .d), (.add { z with ty := .u64, d := .v 2, a := .v 3, b := .v 4 }, .a),
     (.add { z with d := .v 1, a := .v 2, b := .rsv 0x230 }, .b), (.cmp { z with d := .p 1, a := .v 2, b := .v 3, c := .p 1 }, .c),
     (.add { z with d := .v 1, a := .v 2, b := .v 3, e := .p 0 }, .e), (.add { z with d := .v 1, a := .v 2, b := .v 3, imm := 1 }, .imm),
     (.add { z with ty := .f32, d := .v 1, a := .v 2, b := .v 3 }, .ty),
     (.ld { z with d := .v 1, a := .v 2, ord := .rel, scope := .dev }, .ord),
     (.ld { z with d := .v 1, a := .v 2, scope := .dev }, .scope),
     (.st { z with a := .v 2, c := .v 4, cpol := .rep }, .cpol),
     (.add { z with d := .v 1, a := .v 2, b := .v 3, evp := .last }, .evp),
     (.add { z with d := .v 1, a := .v 2, b := .v 3, rsv := 1 }, .rsv), (.bra { c0 with n := 1 }, .rsv),
     -- Scalar registers end at s119 but for those of R19, and a scalar destination takes no vector source (R48).
     (.add { z with d := .s 1, a := .v 2, b := .s 3 }, .a)].all (fun p => p.1.fault .widest == some p.2 && !p.1.wf) = true := by
  decide +kernel

/-- Operations of pilot code outside R357, and a term for an allocated OP that claims it is not. -/
theorem test_ill_formed_operations :
    [Instr.ldq 1 2 3 0, .stq 1 2 3 0, .cmpj 1 2 7 0, .loop 0 0, .loop 0 65, .wait 1 2 0 4, .pilotFence false false,
     .illegalOpcode 0x0BFEFFBFEFFBFDEF0000].all (fun i => !i.wf) = true := by decide +kernel

/-! ### Worked examples of the spec, one instruction each -/

/-- R66: a 64-bit sum carried through 32-bit halves. -/
theorem test_addc_carries :
    let w := warpOf (fun _ => [0xFFFFFFFF, 1, 2, 0]) []
    let lo := runs w (.addc { z with d := .v 4, e := .p 1, a := .v 0, b := .v 2 })
    lo.map (fun y => ((y.lane 7).reg 4, (y.lane 7).pred 1)) = some (1, true) ∧
    lo.bind (fun y => vreg y (.addc { z with d := .v 5, e := .p 15, a := .v 1, b := .v 3, c := .p 1 }) 7 5) = some 2 := by
  decide +kernel

/-- R67: -7 by 2 and by 0, and 7 by 0. -/
theorem test_division_examples :
    let w := warpOf (fun _ => [0xFFFFFFF9, 2, 0, 7]) []
    let f : Fields := { z with d := .v 9, a := .v 0, b := .v 1, ty := .i32 }
    vreg w (.div f) 0 9 = some 0xFFFFFFFD ∧ vreg w (.rem f) 0 9 = some 0xFFFFFFFF ∧
    vreg w (.div { f with b := .v 2 }) 0 9 = some 1 ∧ vreg w (.rem { f with b := .v 2 }) 0 9 = some 0xFFFFFFF9 ∧
    vreg w (.div { f with a := .v 3, b := .v 2, ty := .u32 }) 0 9 = some 0xFFFFFFFF := by decide +kernel

/-- R72: the bytes of a reversed, and its low half sign-extended. -/
theorem test_bperm_examples :
    let w := warpOf (fun _ => [0x1122F344, 0, 0x00010203, 0x11110100]) []
    vreg w (.bperm { z with d := .v 9, a := .v 0, b := .v 1, c := .v 2 }) 3 9 = some 0x44F32211 ∧
    vreg w (.bperm { z with d := .v 9, a := .v 0, b := .v 1, c := .v 3 }) 3 9 = some 0xFFFFF344 := by decide +kernel

/-- R65: `clamp` with its limits crossed gives the upper one, `abs` of the smallest value saturates with .sat alone, and
`idp4` sums signed byte products. -/
theorem test_arithmetic_corners :
    let w := warpOf (fun _ => [5, 9, 3, 0x80000000, 0x01FF02FE, 0x01020304, 10]) []
    vreg w (.clamp { z with d := .v 9, a := .v 0, b := .v 1, c := .v 2 }) 0 9 = some 3 ∧
    vreg w (.abs { z with d := .v 9, a := .v 3, ty := .i32 }) 0 9 = some 0x80000000 ∧
    vreg w (.abs { z with sub := 1, d := .v 9, a := .v 3, ty := .i32 }) 0 9 = some 0x7FFFFFFF ∧
    -- 10 + 1 × 1 + (-1) × 2 + 2 × 3 + (-2) × 4.
    vreg w (.idp4 { z with d := .v 9, a := .v 4, b := .v 5, c := .v 6, ty := .i8x4 }) 0 9 = some 7 := by decide +kernel

/-- R68, R77: a AND (b OR c) by its table 0xA8, and NOT p1 by 0x40. -/
theorem test_table_examples :
    let w := warpOf (fun _ => [0b11110000, 0b11001100, 0b10101010]) []
    vreg w (.lop3 { z with d := .v 9, a := .v 0, b := .v 1, c := .v 2, imm := 0xA8 }) 1 9 = some 0b11100000 ∧
    (runs w (.plop { z with d := .p 3, a := .p 1, b := .p 15, c := .p 15, imm := 0x40 })).map
      (fun y => (y.lane 4).pred 3) = some true := by decide +kernel

/-- R81: the lane read under .z gives 0 for a lane that does not take part, and without it traps. -/
theorem test_v2s_absent :
    let w := lone (warpOf (fun l => [BitVec.ofNat 32 (100 + l)]) [])
    (runs w (.v2s { z with sub := 1, d := .s 3, a := .v 0, b := .imm, imm := 5 })).map (fun y => y.sreg 3) = some 0 ∧
    trapped w (.v2s { z with d := .s 3, a := .v 0, b := .imm, imm := 5 }) = some (6, 0, 0x20) := by decide +kernel

/-- R88: 5, 2.5, 0.75 and 0.25 as E2M1 under RNE; 5 under RD and RU. -/
theorem test_e2m1_rounding :
    let r (m : RM) (x : Nat) : Nat := ((fp32.decode x).write e2m1 m false).1
    (r .rne 0x40A00000, r .rne 0x40200000, r .rne 0x3F400000, r .rne 0x3E800000, r .rd 0x40A00000, r .ru 0x40A00000) =
      (6, 4, 2, 0, 6, 7) := by decide +kernel

/-- R102, R104, R105, R106: BF16 subnormals flushed, scalings up to 1 and down to nothing, -0.4 rounded to -0. -/
theorem test_float_examples :
    let w := warpOf (fun _ => [0x00000001, 0x00004000, 149, 0xFFFFFFFF, 0xBECCCCCD, 0x00008001]) []
    vreg w (.fmul { z with d := .v 9, a := .v 0, b := .v 1, ty := .bf16x2 }) 0 9 = some 0 ∧
    vreg w (.fscale { z with d := .v 9, a := .v 0, b := .v 2, ty := .f32 }) 0 9 = some 0x3F800000 ∧
    (runs w (.fscale { z with d := .v 9, a := .v 0, b := .v 3, ty := .f32 })).map (fun y => ((y.lane 0).reg 9, y.flags)) =
      some (0, UF ||| IX) ∧
    vreg w (.frnd { z with sub := 4, d := .v 9, a := .v 4, ty := .f32 }) 0 9 = some 0x80000000 ∧
    vreg w (.fabs { z with d := .v 9, a := .v 5, ty := .bf16x2 }) 0 9 = some 0 := by decide +kernel

/-- R174, R176: under .wrap with lanes 0 to 15 taking part, lane 15 reads lane 16 and traps; .z gives 0. -/
theorem test_nbr_wrap :
    let w0 := warpOf (fun l => [BitVec.ofNat 32 l]) []
    let w := { w0 with port := { w0.port with mask := 0xFFFF, latched := 0xFFFF } }
    trapped w (.nbr { z with sub := 1, d := .v 1, a := .v 0, b := .imm, imm := 1 }) = some (6, 0x8000, 0x10000) ∧
    vreg w (.nbr { z with sub := 5, d := .v 1, a := .v 0, b := .imm, imm := 1 }) 15 1 = some 0 ∧
    vreg w (.nbr { z with sub := 5, d := .v 1, a := .v 0, b := .imm, imm := 1 }) 14 1 = some 15 := by decide +kernel

/-- R177, R178: a sum, an exclusive prefix and a count over the lanes that take part. -/
theorem test_reductions :
    let w := warpOf (fun l => [BitVec.ofNat 32 l]) []
    (runs w (.lred { z with d := .s 5, a := .v 0 })).map (fun y => y.sreg 5) = some 496 ∧
    vreg w (.lscan { z with sub := 8, d := .v 1, a := .v 0 }) 4 1 = some 6 ∧
    (runs w (.vote { z with sub := 4, d := .s 5, a := .p 15 })).map (fun y => y.sreg 5) = some 32 := by decide +kernel

/-- R125, R126: a fork on p1 sends the lanes whose p1 is 1 to the other slot, under a join entry at J. -/
theorem test_fork_divides :
    let w := { warp0 with lanes := lanesBy fun l => { st := .live, p := if l < 8 then 2 else 0 } }
    (runs w (.fork { c0 with cp := 1, ofs1 := 2, ofs2 := 3 })).any (fun y =>
      y.port.mask == 0xFFFFFF00 && y.port.pc == 0x4010 && y.star.mask == 0xFF && y.star.pc == 0x4030 &&
        y.stack == [⟨0x4040, 0xFFFFFFFF, 0, 0, 0⟩] && (y.lane 0).nc == 1) = true := by decide +kernel

/-- R145, R147: a store and a load of one lane meet in memory, little-endian (R10). -/
theorem test_store_then_load :
    let w := lone (warpOf (fun _ => [0x5000, 0, 0xA1B2C3D4]) [])
    (((after (.st { z with a := .v 0, c := .v 2, ord := .rlx, scope := .sys }) (flat (withWarp w))).bind
      (after (.ld { z with d := .v 5, a := .v 0, imm := 1, ty := .b8, ord := .rlx, scope := .sys }))).bind fun t => t.warp? 2).map
        (fun y => (y.lane 0).reg 5) = some 0xC3 := by decide +kernel

/-- R292: the conjugate of the single line 2x + 1 on [0, 4]: from slopes -1 and 8 over the domain of slopes, it is the
greater of 0·y - 1 and 4·y - 9. -/
theorem test_conjugate_line :
    let n (q : Rat) : PwlNum := ⟨q, none⟩
    let d : Dom := ⟨some (n 0), some (n 4)⟩
    (conjugate d [⟨n 2, n 1, 0⟩]).2.map (fun l => (l.a.q, l.b.q)) = [(0, -1), (4, -9)] := by decide +kernel

/-- R325: `trap 0x21` enters the handler with PC + 16 saved, and `rte` returns there. -/
theorem test_trap_and_return :
    (runs warp0 (.trap { z with imm := 0x21 })).map (fun y => (y.trapv, y.trappc, y.trapmask)) =
      some (0x21, 0x4010, 0xFFFFFFFF) ∧
    ((runs warp0 (.trap { z with imm := 0x21 })).bind fun y => runs y (.rte z)).map (fun y => (y.port.pc, y.port.mask, y.handler)) =
      some (0x4010, 0xFFFFFFFF, none) := by decide +kernel

/-- The word is the next instruction after reset (log entry 2): `LDI k0, 5` and `clz v0, v0` of a placed warp. -/
theorem test_placed_words_run :
    (stepped (State.reset.withFetchWord 32 0x18000005)).map (fun t => (t.queue 0).kreg 0) = some 5 ∧
    ((stepped (State.reset.withFetchWord 128 0x0000000000000BFEFFBFC00001EF001E)).bind fun t => t.warp? 2).map
      (fun w => ((w.lane 0).reg 0, w.port.pc)) = some (32, 0x4010) := by decide +kernel

/-- R343: sixteen identical C64 entries map 64 KiB, one 4 KiB; and an entry that a TLB still holds may be used (R344). -/
theorem test_c64_page :
    let part := bench.ctxPart placedPasid
    let tables (e : Nat) := [(0x3008, 0x6001), (0x6000, 0x7001)] ++ (List.range 16).map fun i => (0x7000 + 8 * i, e)
    let mapped (e : Nat) : State := { bench with mem := (tables e).foldl (fun (m : Memory) p => Memory.putNum m (part.hbm p.1) 8 p.2) bench.mem }
    let n : Need := { r := true }
    let key (s : State) := match s.translate placedPasid 0x40003010 n with | .ok l => some l.key | _ => none
    key (mapped 0x50023) = some (part.hbm 0x53010) ∧ key (mapped 0x50003) = some (part.hbm 0x50010) ∧
      (mapped 0x51023).translate placedPasid 0x40003010 n = .refused ∧
      ((mapped 0x50023).cachePage placedPasid 0x40003010).tlb.map (fun t => (t.at_, t.va, t.log)) =
        [(.core 0, 0x40000000, 16), (.cluster 0, 0x40000000, 16), (.die 0, 0x40000000, 16)] := by decide +kernel

/-! ### For every statement, states and operands that meet its hypotheses -/

/-- What `Issues` asks. -/
def issuesB (i : Instr) (s : State) (uid : Nat) (side : Side) (w : Warp) : Bool :=
  s.turn == some (.slot uid side) && s.warp? uid == some w && (i.fault (s.allotOf w)).isNone

theorem issues_of {i : Instr} {s : State} {uid : Nat} {side : Side} {w : Warp} (h : issuesB i s uid side w = true) :
    Issues i s uid side w := by
  simp only [issuesB, Bool.and_eq_true, beq_iff_eq, Option.isNone_iff_eq_none] at h
  exact ⟨h.1.1, h.1.2, h.2⟩

theorem issues_all {ws : List Instr} {s : State} {uid : Nat} {side : Side} {w : Warp}
    (h : (ws.all fun i => issuesB i s uid side w) = true) : ∀ i ∈ ws, Issues i s uid side w :=
  fun i hi => issues_of (List.all_eq_true.mp h i hi)

/-- A condition on lanes that a slot's path has no fault-split. -/
theorem noSplit_of {w : Warp} {side : Side}
    (h : (match w.topEntry (w.slot side).mask with | some e => e.kind != 1 | none => true) = true) : NoSplit w side := by
  intro e he
  rw [he] at h
  simpa using h

/-- Nothing is out, on its way or bad. -/
def calm (s : State) : Bool :=
  s.cores.isEmpty && s.pends.isEmpty && s.bad.isEmpty && s.parts.all fun p => p.chart.isEmpty

theorem noPartial_of {s : State} (h : calm s = true) (a : Nat) : NoPartial s a := by
  simp only [calm, Bool.and_eq_true, List.isEmpty_iff] at h
  intro c x hx
  simp [State.core, h.1.1.1, tget] at hx

theorem noPending_of {s : State} (h : calm s = true) (a : Nat) : NoPending s a := by
  simp only [calm, Bool.and_eq_true, List.isEmpty_iff] at h
  intro p hp
  simp [h.1.1.2] at hp

theorem quiet_of {s : State} (h : calm s = true) (key k : Nat) : Quiet s key k :=
  fun a _ _ => ⟨noPartial_of h a, noPending_of h a⟩

theorem good_of {s : State} (h : calm s = true) (key k : Nat) : s.isBad key k = false := by
  simp only [calm, Bool.and_eq_true, List.isEmpty_iff, List.all_eq_true] at h
  have hl : ∀ x, s.channelLost x = false := by
    intro x
    simp only [State.channelLost, List.any_eq_false]
    intro p hp
    simp [h.2 p hp]
  simp [State.isBad, h.1.2, hl]

/-- No L1 holds anything. -/
theorem noLine_of {s : State} (h : calm s = true) (core line : Nat) : s.l1At core line = none := by
  simp only [calm, Bool.and_eq_true, List.isEmpty_iff] at h
  simp [State.l1At, State.core, h.1.1.1, tget]

theorem noCopy_of {s : State} (h : calm s = true) (core line : Nat) : s.badCopy core line = none := by
  simp [State.badCopy, noLine_of h]

/-- A record of a context reaches its log at once. -/
def Logs (s : State) (pasid : Nat) : Prop :=
  (s.ctx pasid).late = [] ∧ (∃ ps, s.run pasid (s.ctx pasid).crec.log 24 { r := true } = .ok ps) ∧
    (s.ctx pasid).logW - s.ctxNum pasid ((s.ctx pasid).crec.log + 8) 8 ≠ 2 ^ (s.ctx pasid).crec.logLog

theorem logs_of {s : State} {pasid : Nat}
    (h : ((s.ctx pasid).late.isEmpty && (match s.run pasid (s.ctx pasid).crec.log 24 { r := true } with | .ok _ => true | _ => false) &&
      (s.ctx pasid).logW - s.ctxNum pasid ((s.ctx pasid).crec.log + 8) 8 != 2 ^ (s.ctx pasid).crec.logLog) = true) : Logs s pasid := by
  simp only [Bool.and_eq_true, List.isEmpty_iff, bne_iff_ne, ne_eq] at h
  refine ⟨h.1.1, ?_, h.2⟩
  have hr := h.1.2
  revert hr
  cases s.run pasid (s.ctx pasid).crec.log 24 { r := true } <;> simp

/-- The integer, logic, move, floating and conversion statements ask that their instruction issues, and no more. -/
theorem witness_computing : ∀ i ∈ aluWords ++ floatWords, Issues i bench 2 .port warp0 :=
  issues_all (by decide +kernel)

/-- The warp of the bench with lanes 0 to 15 alone active, lane 30 dead. -/
def half : Warp :=
  { warp0 with
    lanes := lanesBy fun l => { st := if l == 30 then .dead else .live, tid := BitVec.ofNat 32 l, p := 2, v := [1, 2, 3] }
    port := { warp0.port with mask := 0xFFFF, latched := 0xFFFF } }

/-- `v2s` of a lane that takes part, of a dead one, of one that does not under .z and without; and of no lane. -/
theorem witness_CompareSelectMove :
    let f (n sub : Nat) (g : BitVec 4) : Fields :=
      { z with sub := BitVec.ofNat 6 sub, g1 := ⟨false, g⟩, d := .s 3, a := .v 1, b := .imm, imm := BitVec.ofNat 32 n }
    ∀ x ∈ [(15, 0, (15 : BitVec 4)), (30, 0, 15), (16, 1, 15), (16, 0, 15), (0, 0, 0)],
      Issues (.v2s (f x.1 x.2.1 x.2.2)) (withWarp half) 2 .port half ∧
      ((partOf (.v2s (f x.1 x.2.1 x.2.2)) half .port = 0) ↔ x.2.2 = 0) ∧
      ((partOf (.v2s (f x.1 x.2.1 x.2.2)) half .port).getLsbD x.1 = true ↔ x.1 = 15) ∧
      ((half.lane x.1).st = .dead ↔ x.1 = 30) := by
  intro f x hx
  refine ⟨issues_of ?_, ?_⟩ <;> revert x <;> decide +kernel

/-- Status registers: none of that number, a lane register with a scalar destination, a wide one with an odd pair, and
those that give; written: none, not writable, an odd pair, no lane, the last value that FLAGS takes and the first that it
does not. -/
theorem witness_StatusAccess :
    (∀ x ∈ [(0xFF, Opnd.v 2), (0x33, .v 2), (0x01, .s 2), (0x08, .v 3), (0x08, .v 2), (0x00, .s 2)],
      Issues (.srd { z with d := x.2, a := .imm, imm := BitVec.ofNat 32 x.1 }) bench 2 .port warp0) ∧
    (∀ x ∈ [(0xFF, Opnd.v 2, (15 : BitVec 4)), (0x01, .v 2, 15), (0x11, .v 3, 15), (0x0D, .v 2, 0), (0x0D, .v 2, 15), (0x1B, .s 2, 15)],
      Issues (.swr { z with g1 := ⟨false, x.2.2⟩, a := x.2.1, b := .imm, imm := BitVec.ofNat 32 x.1 }) (withWarp half) 2 .port half) ∧
    (bench.crew? warp0.crew).isSome = true ∧
    (srInfo 0xFF).isNone = true ∧ (srInfo 0x33).isNone = true ∧ (srInfo 0x32).isSome = true ∧
    (srInfo 0x01).map (fun r => (r.lane, r.rw)) = some (true, false) ∧
    (srInfo 0x08).map (fun r => (r.lane, r.wide)) = some (false, true) ∧
    wideOk (bench.allotOf warp0) (.v 3) = false ∧ wideOk (bench.allotOf warp0) (.v 2) = true ∧
    srAccepts 0x0D 255 = true ∧ srAccepts 0x0D 256 = false := by
  refine ⟨?_, ?_, ?_⟩
  · intro x hx; exact issues_of (by revert x; decide +kernel)
  · intro x hx; exact issues_of (by revert x; decide +kernel)
  · decide +kernel

/-- A magnitude to round: `m` units of 2^e, with something more or nothing, as `N / D` in units of 2^q. -/
structure Exact where
  fm : Fmt
  m : Nat
  e : Int
  sticky : Bool
  q : Int
  N : Nat
  D : Nat
  deriving DecidableEq, Repr

/-- Ties, values just beside them, the smallest subnormal's half, the largest finite value, zero; and one third of 2^66 with
what is left of it. -/
theorem witness_RoundingIsCorrect :
    ∀ x ∈ [Exact.mk e2m1 5 (-1) false (-1) 5 1, ⟨e2m1, 6, 0, false, -1, 12, 1⟩, ⟨e2m1, 0, 0, false, -1, 0, 1⟩,
        ⟨e4m3, 1, -10, false, -10, 1, 1⟩, ⟨e4m3, 448, 0, false, -9, 448 * 2 ^ 9, 1⟩, ⟨e5m2, 9, -1, false, -16, 9 * 2 ^ 15, 1⟩,
        ⟨fp16, 2049, 0, false, -24, 2049 * 2 ^ 24, 1⟩, ⟨fp32, 2 ^ 66 / 3, -66, true, -149, 2 ^ 149, 3⟩,
        ⟨fp64, 2 ^ 66 / 3, -66, true, -1074, 2 ^ 1074, 3⟩],
      let unit := 2 ^ (x.e - x.q).toNat * x.D
      x.fm ∈ [fp64, fp32, fp16, e5m2, e4m3, e2m1] ∧ 0 < x.D ∧ x.q ≤ x.e ∧ x.q ≤ x.fm.emin - x.fm.fb ∧ x.m * unit ≤ x.N ∧
        x.N < (x.m + 1) * unit ∧ (x.sticky = true ↔ x.N ≠ x.m * unit) ∧ (x.sticky = true → 2 ^ 64 ≤ x.m) ∧
        ∀ r ∈ [RM.rne, .rz, .rd, .ru], (x.fm.round r false true x.m x.e x.sticky).2 &&& OF = 0 := by decide +kernel

/-- Numbers of both signs, infinities of both, a zero times an infinity, and the operands of the other clauses. -/
theorem witness_ExactArithmetic :
    (∀ v ∈ [Val.num true 3 (-2), .num false 0 0, .num true 0 5], ∃ n m e, v = .num n m e ∧ (-2 : Int) ≤ e) ∧
    (∃ p ∈ [(Val.num false 0 0, Val.inf true)], (p.1.isZero = true ∧ ∃ n, p.2 = .inf n) ∨ (p.2.isZero = true ∧ ∃ n, p.1 = .inf n)) ∧
    (Val.inf false ∈ [Val.inf true, .inf false] ∧ Val.inf true ∈ [Val.inf true, .inf false]) ∧ (1 : Nat) ≠ 0 := by
  refine ⟨?_, ⟨_, List.mem_singleton.mpr rfl, Or.inl ⟨rfl, _, rfl⟩⟩, by decide, by decide⟩
  intro v hv
  simp only [List.mem_cons, List.not_mem_nil, or_false] at hv
  rcases hv with rfl | rfl | rfl
  · exact ⟨_, _, _, rfl, by decide⟩
  · exact ⟨_, _, _, rfl, by decide⟩
  · exact ⟨_, _, _, rfl, by decide⟩

/-- NaNs of both kinds, the first and the last code below zero, and the first and the last power of two. -/
theorem witness_SpecialFunctions :
    (∀ c ∈ [0x7FC00000, 0x7F800001, 0xFFBFFFFF], (fp32.decode (BitVec.ofNat 32 c).toNat).isNan = true) ∧
    (∀ c ∈ [0x80000001, 0xFF800000], 0x80000000 < (BitVec.ofNat 32 c).toNat ∧ (BitVec.ofNat 32 c).toNat ≤ 0xFF800000) ∧
    (∀ e ∈ [1, 253, 254], 1 ≤ e ∧ e ≤ 254) := by decide +kernel

/-- The bench with a format slot 0. -/
def withFormat (fs : Nat) : State :=
  { bench with launches := bench.launches.map fun l => { l with lrec := { l.lrec with fslots := [BitVec.ofNat 64 fs] } } }

/-- The special byte of scaled E2M1, a format without one, one that is refused, and one that does not fit `bpack`; a
block that is finite, and one with an infinity. -/
theorem witness_BlockQuantisation :
    (∀ fs ∈ [0x57, 0x15, 0, 0x07], Issues (.bpack { z with d := .v 1, a := .v 2 }) (withFormat fs) 2 .port warp0) ∧
    (slotFault 0x57).isNone = true ∧ slotScaled 0x57 = true ∧ slotSpecial 0x57 = true ∧ (slotFault 0x15).isNone = true ∧
    slotSpecial 0x15 = false ∧ slotFault 0 = some 2 ∧ (slotFault 0x07).isNone = true ∧ slotScaled 0x07 = false ∧
    (∀ l < 32, fp32.decode (operandAt 1 { z with a := .v 2 } warp0 l (.v 2)) = .num false 0 (-149)) ∧
    fp32.decode 0x7F800000 = .inf false := by
  refine ⟨?_, by decide +kernel⟩
  intro fs hfs
  exact issues_of (by revert fs; decide +kernel)

/-- The formats of the slots that each conversion takes, and one that it does not. -/
theorem witness_Conversions :
    (∀ i ∈ [Instr.cvtf { z with d := .v 1, a := .v 2 }, .cvtfDec { z with d := .v 1, a := .v 2, sub := 1 },
        .bunpack { z with d := .v 1, a := .v 2 }], ∀ fs ∈ [7, 8, 1, 0x57, 0], Issues i (withFormat fs) 2 .port warp0) ∧
    (∀ fs ∈ [7, 8, 1, 0x57], (slotFault (BitVec.ofNat 64 fs)).isNone = true) := by
  refine ⟨?_, by decide +kernel⟩
  intro i hi fs hfs
  exact issues_of (by revert i fs; decide +kernel)

/-- A slot whose SIG is not SIGX, one whose mask has changed in its block, and one that is fine. -/
theorem witness_SignatureChecks :
    let w : Warp := { warp0 with port := { warp0.port with sig := 7 } }
    let v : Warp := { warp0 with port := { warp0.port with sig := 7, latched := 0xF } }
    (∀ i ∈ [Instr.bra { c0 with sigx := 9 }, .exit { c0 with sigx := 9 }], Issues i (withWarp w) 2 .port w) ∧
    ¬SigFine w .port 9 ∧ (∀ i ∈ [Instr.join { c0 with sigx := 7 }], Issues i (withWarp v) 2 .port v) ∧ ¬SigFine v .port 7 ∧
    SigFine w .port 7 ∧ SigFine w .port 0 ∧ SigFine { w with port := { w.port with resumed := true } } .port 9 := by
  refine ⟨issues_all (by decide +kernel), ?_, issues_all (by decide +kernel), ?_, ?_, ?_, ?_⟩ <;>
    (unfold SigFine; decide +kernel)

/-! Paths. -/

/-- The bench's warp with a scalar pair at s2. -/
def paired (lo : Nat) : Warp := { warp0 with sregs := [0, 0, BitVec.ofNat 32 lo, 0] }

/-- No lane taking part, some, all; a target that is not a multiple of 16 and one that is; a return with its entry on top,
with another on top, with none. -/
theorem witness_UniformTransfers :
    let p0 : Guard := ⟨false, 0⟩
    let deep : Warp := { warp0 with stack := List.replicate 512 ⟨0, 0, 2, 0, 0⟩ }
    let called (k : Byte) : Warp := { warp0 with stack := [⟨0x5000, 0xFFFFFFFF, k, 0, 0⟩] }
    (∀ i ∈ [Instr.bra { c0 with g1 := p0 }, .bra c0, .ret c0, .call c0, .sigchk c0, .nop c0], Issues i bench 2 .port warp0) ∧
    partOf (.bra { c0 with g1 := p0 }) warp0 .port = 0 ∧ partOf (.bra c0) warp0 .port = warp0.active .port ∧
    Issues (.bra { c0 with g1 := ⟨false, 1⟩ })
      (withWarp { warp0 with lanes := lanesBy fun l => { st := .live, p := if l < 3 then 2 else 0 } }) 2 .port
      { warp0 with lanes := lanesBy fun l => { st := .live, p := if l < 3 then 2 else 0 } } ∧
    Issues (.brx { c0 with sreg := 2, s := true }) (withWarp (paired 0x5008)) 2 .port (paired 0x5008) ∧
    Issues (.brx { c0 with sreg := 2, s := true }) (withWarp (paired 0x5010)) 2 .port (paired 0x5010) ∧
    Issues (.call c0) (withWarp deep) 2 .port deep ∧ 512 ≤ deep.depth ∧
    (∀ k ∈ [2, 0], Issues (.ret c0) (withWarp (called (BitVec.ofNat 8 k))) 2 .port (called (BitVec.ofNat 8 k)) ∧
      NoSplit (called (BitVec.ofNat 8 k)) .port) ∧
    NoSplit warp0 .port ∧ SigFine warp0 .port 0 := by
  refine ⟨issues_all (by decide +kernel), by decide +kernel, by decide +kernel, issues_of (by decide +kernel),
    issues_of (by decide +kernel), issues_of (by decide +kernel), issues_of (by decide +kernel), by decide +kernel, ?_,
    noSplit_of (by decide +kernel), Or.inl rfl⟩
  intro k hk
  exact ⟨issues_of (by revert k; decide +kernel), noSplit_of (by revert k; decide +kernel)⟩

/-- Lanes with p1 by their number, a nesting counter, a stack. -/
def forking (p1 : Nat → Bool) (nc : Byte) (stack : List SEntry) : Warp :=
  { warp0 with lanes := lanesBy fun l => { st := .live, nc := nc, p := if p1 l then 2 else 0 }, stack := stack }

/-- A fork whose lanes all fall through, all jump, divide; one at the last nesting level; one whose stack has 511 entries. -/
theorem witness_Fork :
    let f : CFields := { c0 with cp := 1, ofs1 := 2, ofs2 := 3 }
    let deep := List.replicate 511 (SEntry.mk 0 0 2 0 0)
    (∀ w ∈ [forking (fun _ => false) 0 [], forking (fun _ => true) 0 [], forking (fun l => l == 0) 0 [],
        forking (fun l => l == 0) 254 [], forking (fun l => l == 0) 255 [], forking (fun l => l == 0) 0 deep,
        forking (fun l => l == 0) 0 (⟨0, 0, 2, 0, 0⟩ :: deep)],
      Issues (.fork f) (withWarp w) 2 .port w) ∧ SigFine warp0 .port f.sigx := by
  refine ⟨?_, Or.inl rfl⟩
  intro w hw
  exact issues_of (List.all_eq_true.mp (by decide +kernel : [forking (fun _ => false) 0 [], forking (fun _ => true) 0 [],
    forking (fun l => l == 0) 0 [], forking (fun l => l == 0) 254 [], forking (fun l => l == 0) 255 [],
    forking (fun l => l == 0) 0 (List.replicate 511 ⟨0, 0, 2, 0, 0⟩),
    forking (fun l => l == 0) 0 (⟨0, 0, 2, 0, 0⟩ :: List.replicate 511 ⟨0, 0, 2, 0, 0⟩)].all (fun w =>
      issuesB (.fork { c0 with cp := 1, ofs1 := 2, ofs2 := 3 }) (withWarp w) 2 .port w) = true) w hw)

/-- A warp inside one region: the join entry over all lanes, the lanes of the port slot at a PC. -/
def inRegion (mask : Word) (kind : Byte) (star : Word) : Warp :=
  { warp0 with
    lanes := lanesBy fun _ => { st := .live, nc := 1 }
    stack := [⟨0x4000, 0xFFFFFFFF, kind, 0, 0⟩]
    port := { warp0.port with mask := mask, latched := mask }
    star := { mask := star, latched := star, pc := 0x4100 } }

/-- `join` by the last lanes of a region, by the first, at a place that is not its own; against an open split, the other
path waiting or not; `brk` of no lane, of all, of some, out of more regions than there are. -/
theorem witness_JoinAndBreak :
    let waits (w : Warp) : Warp := { w with star := { w.star with wait := some ⟨.split, 0⟩ } }
    (∀ w ∈ [inRegion 0xFFFFFFFF 0 0, inRegion 0xFF 0 0xFFFFFF00, { inRegion 0xFF 0 0 with stack := [] }],
      issuesB (.join c0) (withWarp w) 2 .port w = true ∧ NoSplit w .port) ∧
    (∀ w ∈ [inRegion 0xFF 1 0xFFFFFF00, waits (inRegion 0xFF 1 0xFFFFFF00)],
      issuesB (.join c0) (withWarp w) 2 .port w = true ∧ (w.topEntry w.port.mask).map SEntry.kind = some 1) ∧
    (∀ w ∈ [inRegion 0xFFFFFFFF 0 0, inRegion 0xFF 0 0xFFFFFF00],
      issuesB (.brk { c0 with n := 1 }) (withWarp w) 2 .port w = true ∧ issuesB (.brk { c0 with n := 2 }) (withWarp w) 2 .port w = true ∧
        issuesB (.brk { c0 with n := 1, g1 := ⟨false, 0⟩ }) (withWarp w) 2 .port w = true) ∧
    SigFine warp0 .port 0 := by
  refine ⟨?_, ?_, ?_, Or.inl rfl⟩
  · intro w hw
    simp only [List.mem_cons, List.not_mem_nil, or_false] at hw
    rcases hw with rfl | rfl | rfl <;> exact ⟨by decide +kernel, noSplit_of (by decide +kernel)⟩
  · intro w hw
    simp only [List.mem_cons, List.not_mem_nil, or_false] at hw
    rcases hw with rfl | rfl <;> exact ⟨by decide +kernel, by decide +kernel⟩
  · intro w hw
    simp only [List.mem_cons, List.not_mem_nil, or_false] at hw
    rcases hw with rfl | rfl <;> exact ⟨by decide +kernel, by decide +kernel, by decide +kernel⟩

/-! Memory. -/

/-- The warp of the bench with an address in the pair v2, v3 of every lane. -/
def aimed (addr : Nat → Nat) : Warp :=
  warpOf (fun l => [0, 0, BitVec.ofNat 32 (addr l), BitVec.ofNat 32 (addr l / 2 ^ 32), 7, 0]) []

/-- The bench with the second GiB readable and not writable. -/
def guarded (w : Warp) : State := { withWarp w with mem := Memory.set (withWarp w).mem ((withWarp w).ctxPart placedPasid |>.hbm 0x3008) 0x1B }

def soundB (i : Instr) (s : State) (side : Side) (w : Warp) (n : Need) (k : Nat) (addr : Nat → DWord) : Bool :=
  (w.slot side).denied.isEmpty && (List.range 32).all fun l => !(partOf i w side).getLsbD l ||
    (decide ((addr l).toNat + k ≤ 2 ^ 57) && (addr l).toNat % k == 0 &&
      (match s.translate (s.pasidOf w) (addr l) n with | .ok _ => true | _ => false))

theorem sound_of {i : Instr} {s : State} {side : Side} {w : Warp} {n : Need} {k : Nat} {addr : Nat → DWord}
    (h : soundB i s side w n k addr = true) : Sound i s side w n k addr := by
  intro l hl ht
  simp only [soundB, Bool.and_eq_true, List.isEmpty_iff] at h
  have := List.all_eq_true.mp h.2 l (List.mem_range.mpr hl)
  rw [ht] at this
  simp only [Bool.not_true, Bool.false_or, Bool.and_eq_true, decide_eq_true_eq, beq_iff_eq] at this
  refine ⟨this.1.1, this.1.2, ?_, by simp [h.1]⟩
  have ht := this.2
  revert ht
  cases s.translate (s.pasidOf w) (addr l) n <;> simp

/-- The last word of the space, the last word but misaligned, the first byte past the space, a misaligned address, a page
without the right, one that is absent. -/
theorem witness_AddressChecks :
    let f : Fields := { z with a := .v 2, c := .v 4 }
    let n : Need := { w := true }
    (∀ a ∈ [2 ^ 57 - 4, 2 ^ 57 - 3, 2 ^ 57, 2 ^ 30 - 4, 0x5002, 2 ^ 30, 2 ^ 31],
      Issues (.st f) (guarded (aimed fun _ => a)) 2 .port (aimed fun _ => a)) ∧ warp0.port.denied = [] ∧
    (guarded (aimed fun _ => 0)).translate placedPasid 0x40000000 n = .refused ∧
    (guarded (aimed fun _ => 0)).translate placedPasid 0x80000000 n = .absent ∧
    laneAddr f (aimed fun _ => 2 ^ 57 - 3) 0 = 0x1FFFFFFFFFFFFFD ∧ laneAddr f (aimed fun _ => 2 ^ 57) 0 = 0x200000000000000 := by
  refine ⟨?_, by decide +kernel⟩
  intro a ha
  exact issues_of (by revert a; decide +kernel)

/-- Lanes that meet in memory and lanes that do not, at the L1 and at the home. -/
theorem witness_GlobalAccesses :
    let f : Fields := { z with a := .v 2 }
    let w : Warp := { aimed fun l => 0x5000 + 4 * l with sregs := [0, 0, 0x5000, 0] }
    (∀ f' ∈ [{ f with d := .v 1 }, { f with d := .v 1, ord := .rlx, scope := .sys }, { f with d := .s 1, a := .s 2 }],
      issuesB (.ld f') (withWarp w) 2 .port w = true ∧ Sound (.ld f') (withWarp w) .port w { r := true } 4 (laneAddr f' w)) ∧
    (∀ f' ∈ [{ f with c := .v 4 }, { f with c := .v 4, ord := .rlx, scope := .sys }],
      issuesB (.st f') (withWarp w) 2 .port w = true ∧ Sound (.st f') (withWarp w) .port w { w := true } 4 (laneAddr f' w)) ∧
    (∀ key k core line, (withWarp w).isBad key k = false ∧ (withWarp w).badCopy core line = none ∧ NoPartial (withWarp w) key ∧
      NoPending (withWarp w) key) ∧
    (∀ l < 32, keyOf (withWarp w) w { w := true } (laneAddr f w l) = keyOf (withWarp w) w { w := true } (laneAddr f w 0) + 4 * l ∧
      lineOf (keyOf (withWarp w) w { r := true } (laneAddr f w l)) = lineOf (keyOf (withWarp w) w { r := true } (laneAddr f w 0)) ∧
      l1Of (withWarp w) w { r := true } (laneAddr f w l) = 0 ∧ hbmOf (withWarp w) w { r := true } (laneAddr f w l) = true) ∧
    (∀ o ∈ [(f, Level.l1), ({ f with cpol := .l2 }, .home), ({ f with ord := .rlx, scope := .dev }, .home),
      ({ f with ord := .rlx, scope := .sys }, .point)], levelOf false true (attOf o.1) = o.2) := by
  have hc : calm (withWarp { aimed fun l => 0x5000 + 4 * l with sregs := [0, 0, 0x5000, 0] }) = true := by decide +kernel
  refine ⟨?_, ?_, fun key k core line => ⟨good_of hc key k, noCopy_of hc core line, noPartial_of hc key, noPending_of hc key⟩,
    by decide +kernel, by decide +kernel⟩
  · intro f' hf
    simp only [List.mem_cons, List.not_mem_nil, or_false] at hf
    rcases hf with rfl | rfl | rfl <;> exact ⟨by decide +kernel, sound_of (by decide +kernel)⟩
  · intro f' hf
    simp only [List.mem_cons, List.not_mem_nil, or_false] at hf
    rcases hf with rfl | rfl <;> exact ⟨by decide +kernel, sound_of (by decide +kernel)⟩

/-- The bench with a role of 1 KiB of local memory. -/
def local1 (w : Warp) : State :=
  { withWarp w with launches := bench.launches.map fun l => { l with lrec := { l.lrec with roles := [{ entry := 0, lanes := 32, v8 := 32, s8 := 15, tiles := 0, envs := 0, kib := 1 }] } } }

/-- Local offsets: within, the last byte and the first beyond it, misaligned. -/
theorem witness_LocalMemory :
    (∀ a ∈ [0, 1020, 1024, 2], ∀ i ∈ [Instr.ldl { z with d := .v 1, a := .v 2 }, .stl { z with a := .v 2, c := .v 4 },
        .atoml { z with d := .v 1, a := .v 2, c := .v 4, ord := .rlx, scope := .core }],
      issuesB i (local1 (aimed fun _ => a)) 2 .port (aimed fun _ => a) = true) ∧
    ((local1 (aimed fun _ => 0)).crew? 1).map Crew.locBad = some [] ∧
    1024 * (((local1 (aimed fun _ => 0)).launch 0).lrec.roles.map Role.kib).sum = 1024 := by decide +kernel

/-- Atomics on words of their own, one lane's reduction. -/
theorem witness_Atomics :
    let w := aimed fun l => 0x5000 + 4 * l
    let f : Fields := { z with a := .v 2, c := .v 4, ord := .rlx, scope := .dev }
    (issuesB (.atom { f with d := .v 1 }) (withWarp w) 2 .port w = true ∧
      Sound (.atom { f with d := .v 1 }) (withWarp w) .port w { r := true, w := true } 4 (laneAddr f w)) ∧
    (issuesB (.red f) (withWarp (lone w)) 2 .port (lone w) = true ∧
      Sound (.red f) (withWarp (lone w)) .port (lone w) { w := true } 4 (laneAddr f (lone w)) ∧
      partOf (.red f) (lone w) .port = bitOf 0) ∧
    hbmOf (withWarp w) w { w := true } (laneAddr f w 0) = true ∧ hbmOf (withWarp w) w { r := true, w := true } (laneAddr f w 0) = true ∧
    (∀ key, Quiet (withWarp w) key 4 ∧ (withWarp w).isBad key 4 = false) ∧
    (∀ key, Quiet (withWarp (lone w)) key 4 ∧ (withWarp (lone w)).isBad key 4 = false) ∧
    ∀ c line, (withWarp (lone w)).l1At c line = none := by
  have hc : calm (withWarp (aimed fun l => 0x5000 + 4 * l)) = true := by decide +kernel
  have hd : calm (withWarp (lone (aimed fun l => 0x5000 + 4 * l))) = true := by decide +kernel
  exact ⟨⟨by decide +kernel, sound_of (by decide +kernel)⟩, ⟨by decide +kernel, sound_of (by decide +kernel), by decide +kernel⟩,
    by decide +kernel, by decide +kernel, fun key => ⟨quiet_of hc key 4, good_of hc key 4⟩,
    fun key => ⟨quiet_of hd key 4, good_of hd key 4⟩, fun c line => noLine_of hd c line⟩

/-- A line in the space, mapped and good, of one lane. -/
theorem witness_FencesAndCaches : (∀ i ∈ memoryWords, Issues i bench 2 .port warp0) ∧
    (let f : Fields := { z with a := .v 2 }
     let w := lone (aimed fun _ => 0x5000)
     (∀ i ∈ [Instr.cachectlInv f, .cachectlSetev { f with sub := 16, evp := .first }],
       Issues i (withWarp w) 2 .port w ∧ partOf i w .port = bitOf 0) ∧
     inSpace (laneAddr f w 0) ∧
     (∃ p, (withWarp w).translate placedPasid (laneAddr f w 0) { r := true } = .ok p) ∧ ∀ key k, (withWarp w).isBad key k = false) := by
  refine ⟨issues_all (by decide +kernel), ?_, by decide +kernel, ?_, fun key k => good_of (by decide +kernel) key k⟩
  · intro i hi
    exact ⟨issues_of (by revert i; decide +kernel), by revert i; decide +kernel⟩
  · have h := (sound_of (i := .ld { z with d := .v 1, a := .v 2 }) (s := withWarp (lone (aimed fun _ => 0x5000))) (side := .port)
      (w := lone (aimed fun _ => 0x5000)) (n := { r := true }) (k := 4) (addr := laneAddr { z with a := .v 2 } (lone (aimed fun _ => 0x5000)))
      (by decide +kernel)) 0 (by decide) (by decide +kernel)
    exact h.2.2.1

/-- A comparison that holds (memory is 0, C is 7, not equal) and one that does not; a waiting lane that has been hit. -/
theorem witness_MonitorWaits :
    let w := lone (aimed fun _ => 0x5000)
    let f (cmp : Nat) : Fields :=
      { z with sub := BitVec.ofNat 6 (16 * cmp), d := .v 1, a := .v 2, c := .v 4, ord := .acq, scope := .dev }
    (∀ cmp ∈ [0, 1], issuesB (.wcmp (f cmp)) (withWarp w) 2 .port w = true ∧
      Sound (.wcmp (f cmp)) (withWarp w) .port w { r := true } 4 (laneAddr (f cmp) w)) ∧
    (withWarp w).monitors.length ≤ 4000 ∧ hbmOf (withWarp w) w { r := true } (laneAddr (f 0) w 0) = true ∧
    (∀ key k, (withWarp w).isBad key k = false ∧ NoPartial (withWarp w) key) ∧
    (let v := w.setSlot .port { w.port with wait := some ⟨.monitor (f 1) [] 1, 0⟩ }
     let s : State := { withWarp v with monitors := [{ who := .lane 2 .port 0, line := 0, home := 0, hit := true }] }
     s.warp? 2 = some v ∧ v.why .port = some (.monitor (f 1) [] 1) ∧ v.takesPart .port (f 1).g1 (f 1).g2 = bitOf 0 ∧
       s.hits 2 .port = bitOf 0 ∧ hbmOf s v { r := true } (laneAddr (f 1) v 0) = true ∧ calm s = true) := by
  have hc : calm (withWarp (lone (aimed fun _ => 0x5000))) = true := by decide +kernel
  refine ⟨?_, by decide +kernel, by decide +kernel, fun key k => ⟨good_of hc key k, noPartial_of hc key⟩, by decide +kernel⟩
  intro cmp h
  simp only [List.mem_cons, List.not_mem_nil, or_false] at h
  rcases h with rfl | rfl <;> exact ⟨by decide +kernel, sound_of (by decide +kernel)⟩

/-- A load whose page is there for lane 0 alone; at the last nesting level. -/
theorem witness_FaultSplits :
    let w := aimed fun l => if l = 0 then 0x5000 else 2 ^ 31
    let f : Fields := { z with d := .v 1, a := .v 2 }
    (∀ nc ∈ [0, 254, 255],
      let v : Warp := { w with lanes := w.lanes.map fun (x : Lane) => { x with nc := BitVec.ofNat 8 nc } }
      issuesB (.ld f) (withWarp v) 2 .port v = true ∧ v.port.denied = [] ∧ calm (withWarp v) = true ∧
        (match (withWarp v).translate placedPasid (laneAddr f v 0) { r := true } with | .ok _ => true | _ => false) = true ∧
        (maskOf fun l => (withWarp v).translate placedPasid (laneAddr f v l) { r := true } == .absent) = 0xFFFFFFFE) := by
  decide +kernel

/-! Across lanes, teams and rendezvous. -/

theorem witness_CrossLane : (∀ i ∈ laneWords, Issues i bench 2 .port warp0) ∧ NoSplit warp0 .port :=
  ⟨issues_all (by decide +kernel), noSplit_of (by decide +kernel)⟩

/-- The last arrival of a warp alone; a warp of a crew of two, the other not there, there with another tag, with the same;
a warp whose other slot runs. -/
theorem witness_Regroup :
    let f : Fields := { z with a := .p 1, imm := 5 }
    let other (n : Nat) (wait : Option Waiting) : Warp :=
      { placedWarp 3 1 0 0 with wid := 1, port := { warp0.port with wait := wait, pc := BitVec.ofNat 64 n } }
    let two (y : Warp) : State := { bench with warps := [warp0, y] }
    let split : Warp := { warp0 with star := { mask := 1 } }
    issuesB (.regroup f) bench 2 .port warp0 = true ∧ issuesB (.regroup f) (withWarp split) 2 .port split = true ∧
    (∀ y ∈ [other 0x4000 none, other 0x4000 (some ⟨.regroup { f with imm := 6 }, 0⟩), other 0x4000 (some ⟨.regroup f, 0⟩)],
      issuesB (.regroup f) (two y) 2 .port warp0 = true ∧ ((two y).warps.map Warp.uid).Nodup) ∧ NoSplit warp0 .port := by
  refine ⟨by decide +kernel, by decide +kernel, by decide +kernel, noSplit_of (by decide +kernel)⟩

/-- A point with two participants due; one of them arrived; a thread that joined in the phase, and one that arrived early. -/
theorem witness_PhaseAccounting :
    let p : Point := { init := true, x := 2 }
    p.state 5 = .due ∧ (p.a : Int) + 1 ≠ p.x ∧ (p.x ≠ 0 ∧ ¬(0 < p.x ∧ (p.a : Int) = p.x)) ∧
    ((p.arrive 5).map fun q => (q.1.state 5, q.1.state 6, decide ((q.1.a : Int) + 1 = q.1.x))) = some (.arrived, .due, true) ∧
    (p.join 7).state 7 = .new ∧ (((p.join 7).arrive 7).map fun q => q.1.state 7) = some .early ∧
    (({ init := true } : Point).x = 0 ∧ ({ init := true } : Point).a = 0) := by decide +kernel

/-- Where a byte of the bench's first GiB lies. -/
def placeOf (a : Nat) : Nat := (bench.ctxPart placedPasid).hbm a

/-- The bench with its context changed. -/
def inCtx (s : State) (g : Ctx → Ctx) : State := s.setCtx (g (s.ctx placedPasid))

/-- The bench with its launch record changed. -/
def inRecord (s : State) (g : LRec → LRec) : State :=
  { s with launches := s.launches.map fun (l : Launch) => { l with lrec := g l.lrec } }

/-- The context with teams 0 and 1 in use, lane 0's thread in team 0; point 3 of team 0 initialised for two. -/
def teamed (s : State) (p : Point) : State :=
  inCtx s fun c => { c with teams := [{ used := true, members := [0], points := List.replicate 23 {} ++ [p] }, { used := true }] }

/-- Lane 0 alone, a handle in its v1 and as its team 0. -/
def member (h : Nat) (v1 v2 : Nat) : Warp :=
  lone { warp0 with lanes := lanesBy fun l =>
    { st := .live, tid := BitVec.ofNat 32 l, teams := [BitVec.ofNat 32 h], v := [0, BitVec.ofNat 32 v1, BitVec.ofNat 32 v2] } }

/-- A team joined by a lane that is not in it, by one that is; freed while it has members and when it has none; left; read.
Handles that are valid and not. -/
theorem witness_Teams :
    let s (w : Warp) : State := teamed (withWarp w) {}
    (∀ x ∈ [(0xFFFFFFFF, 1), (0xFFFFFFFF, 2), (0, 0), (1, 1)], ∀ i ∈ [Instr.tjoin { z with a := .v 1 }, .tfree { z with a := .v 1 },
        .tleave z, .tinfo { z with d := .v 4, a := .v 1 }, .tinfo { z with d := .v 4, a := .v 1, sub := 4 }, .tnew { z with d := .v 1 }],
      issuesB i (s (member x.1 x.2 0)) 2 .port (member x.1 x.2 0) = true ∧ partOf i (member x.1 x.2 0) .port = bitOf 0) ∧
    ((s warp0).team placedPasid 0).used = true ∧ ((s warp0).team placedPasid 1).used = true ∧
    ((s warp0).team placedPasid 2).used = false := by decide +kernel

/-- A point initialised, arrived at, waited for: with no team, point 23 and 24, a phase that is over, one that is not. -/
theorem witness_Rendezvous :
    let p : Point := { init := true, x := 2, p := 1 }
    let s (w : Warp) : State := teamed (withWarp w) p
    (∀ x ∈ [(0, 23, 0), (0, 23, 1), (0, 24, 0), (0, 5, 0), (0xFFFFFFFF, 23, 0)],
      ∀ i ∈ [Instr.rzinit { z with a := .v 1, b := .v 2 }, .rzarr { z with d := .v 3, a := .v 1 },
          .rzwait { z with d := .p 1, a := .v 1, b := .v 2 }, .rzaw { z with d := .p 1, a := .v 1 }],
        issuesB i (s (member x.1 x.2.1 x.2.2)) 2 .port (member x.1 x.2.1 x.2.2) = true ∧
        partOf i (member x.1 x.2.1 x.2.2) .port = bitOf 0) ∧
    NoSplit (member 0 23 0) .port ∧ (member 0 23 0).port.wait = none ∧
    ((s warp0).team placedPasid 0).point 23 = p ∧ (p.p - 0 : Word).toNat = 1 ∧ (p.p - 1 : Word).toNat = 0 ∧
    (p.arrive 0).isSome = true := by
  refine ⟨by decide +kernel, noSplit_of (by decide +kernel), by decide +kernel⟩

/-! Items and flows. -/

/-- A ring at 0x6000 of 2^4 slots with so many items, the first of class U on flow 9, and these flags: 1 CLOSED, 2 DEVFED. -/
def ringOn (items flags : Nat) (s : State) : State :=
  let part := s.ctxPart placedPasid
  let put (m : Memory) (p : Nat × Nat) : Memory := m.putNum (part.hbm p.1) 8 p.2
  inRecord { s with mem := [(0x6000, items), (0x6008, 0), (0x6010, 4 + flags * 2 ^ 32), (0x6040, 9), (0x6048, 77)].foldl put s.mem }
    fun l => { l with item := true, ring := 0x6000, count := 1, roles := [{ entry := 0, lanes := 32, v8 := 32, s8 := 15, tiles := 0, envs := 0, kib := 0 }] }

/-- One item in a ring that is closed. -/
def ringed (s : State) : State := ringOn 1 3 s

/-- The bench's launch with items held. -/
def holds (hs : List Held) (s : State) : State := { s with launches := s.launches.map fun (l : Launch) => { l with held := hs } }

/-- The fill of an `inext` in slot 2's port, and of a warp at the packer. -/
def inextFilled (s : State) (w : Warp) (tp : Word) : Option Filled :=
  let gone := s.endThreads w w.port.pc tp
  (gone.warp? 2).map fun w₁ =>
    ((gone.dropMonitors 2 tp).setWarp (w₁.mapLanes tp fun _ y => { y with st := .vacant })).fill 2 (w.lane ((lowLane w.port.mask).getD 0)).nc

/-- The threads of a warp ended, all or some; in an item launch and not; an `inext` that places the ring's item, and one that
places a replayed one too; a warp at the packer that gets an item, and one to which none can come; held items of the three
classes, granted and replayed; flows that are owned and free; the ring's first item. -/
theorem witness_ItemEndsAndTakes :
    let f (l : Nat) : Fields := { z with g1 := ⟨false, if l = 0 then 0 else if l = 1 then 1 else 15⟩ }
    (∀ l < 3, ∀ s ∈ [withWarp half, ringed (withWarp half)],
      issuesB (.iend (f l)) s 2 .port half = true ∧ issuesB (.inext { f l with d := .s 4, sub := 1 }) s 2 .port half = true ∧
      issuesB (.exit { c0 with g1 := (f l).g1 }) s 2 .port half = true) ∧
    partOf (.iend (f 0)) half .port = 0 ∧ SigFine half .port 0 ∧ NoSplit half .port ∧ half.port.wait = none ∧
    (∀ x ∈ [([], (1 : Nat), (0 : Nat)), ([Held.mk 5 0 true 0 1 0 0 (.replayed false true)], 2, 1)],
      (inextFilled (holds x.1 (flat (ringed (withWarp half)))) half (partOf (.inext (f 2)) half .port)).map (fun r =>
        (countOf r.placed, countOf r.again, (r.s.warp? 2).isSome)) = some (x.2.1, x.2.2, true)) ∧
    (let w : Warp := { warp0 with lanes := lanesBy fun _ => {}, port := { wait := some ⟨.packer, 0⟩ } }
     ∀ n ∈ [0, 1], (ringOn n 3 (flat (withWarp w))).warp? 2 = some w ∧ w.why .port = some .packer ∧ w.live = 0 ∧
       (let r := (ringOn n 3 (flat (withWarp w))).fill 2 0
        countOf r.placed = n ∧ (r.s.warp? 2).isSome = true ∧ (r.s.launch? 0).isSome = true ∧
          ((r.s.launch? 0).map r.s.itemsDone) = some true)) ∧
    (let s := flat (ringed bench)
     let r := s.ringAt placedPasid 0x6000
     (s.launch? 0).isSome = true ∧ (s.launch 0).held = [] ∧ r.isSome = true ∧ (r.map fun r => decide (r.t ≠ r.w)) = some true ∧
       (s.ctxRead placedPasid (0x6000 + 64) 32).map (fun x => (leNat (x.2.take 4), leNat (x.2.drop 4 |>.take 4), leNat ((x.2.drop 16).take 16))) =
         some (9, 0, 0)) ∧
    (∀ c ∈ [0, 1, 2], ∀ st ∈ [HeldSt.granted false 0, .replayed false true],
      (readyHeld [Held.mk 5 (BitVec.ofNat 2 c) false 0 1 0 0 st]).isSome = true) ∧
    (let s (owner : Word) : State := inCtx bench fun c => { c with flows := [{ id := 5, owner := owner }] }
     ((s 3).flow placedPasid 5).owner = 3 ∧ ((s 0xFFFFFFFF).flow placedPasid 5).owner = 0xFFFFFFFF) := by
  refine ⟨?_, by decide +kernel, by unfold SigFine; decide +kernel, noSplit_of (by decide +kernel), by decide +kernel,
    by decide +kernel, by decide +kernel, by decide +kernel, by decide +kernel, by decide +kernel⟩
  intro l hl s hs
  simp only [List.mem_cons, List.not_mem_nil, or_false] at hs
  rcases hs with rfl | rfl <;> (revert l; decide +kernel)

/-- Lane 0 alone, of class O on flow 9 with sequence number 0, or unordered. -/
def labelled (cls : Nat) : Warp :=
  lone { warp0 with
    sregs := [0, 0, 0, 0, 0x5000, 0]
    lanes := lanesBy fun l => { st := .live, tid := BitVec.ofNat 32 l, iclass := BitVec.ofNat 32 cls, iflow := if cls = 0 then 0 else 9,
                                v := [0, 0, 9, 0, 0x6000, 0] } }

/-- A lane of class O, one that is not; a label of its own, a new one; a ring that takes an item, and those that do not: not
device-fed, closed. -/
theorem witness_Flows :
    (∀ c ∈ [0, 1], ∀ i ∈ [Instr.irel { z with a := .s 4, c := .v 8 }, .relabel { z with sub := 1, d := .p 1, a := .v 2 },
        .relabel { z with d := .p 1, a := .v 2 }, .iflowq { z with d := .v 4, a := .v 2 },
        .ispawn { z with d := .p 1, a := .v 4, b := .v 1, c := .v 6 }],
      issuesB i (ringed (withWarp (labelled c))) 2 .port (labelled c) = true ∧ partOf i (labelled c) .port = bitOf 0) ∧
    (labelled 0).port.wait = none ∧ (labelled 0).port.denied = [] ∧
    (∀ items ∈ [0, 1], ∀ flags ∈ [0, 2, 3],
      let s := flat (ringOn items flags (withWarp (labelled 0)))
      let hdr : DWord := 0x6000
      let n : Need := { r := true, w := true }
      let drained := (s.cacheRun placedPasid hdr 64).drainWarp 2
      (match s.translate placedPasid hdr n with | .ok _ => true | _ => false) = true ∧ calm s = true ∧
        (s.ringAt placedPasid hdr).isSome = true ∧ drained.ringAt placedPasid hdr = s.ringAt placedPasid hdr ∧
        (match s.translate placedPasid (hdr + 64 + BitVec.ofNat 64 (32 * items)) n with | .ok _ => true | _ => false) = true ∧
        (((s.cacheRun placedPasid hdr 64).cacheRun placedPasid (hdr + 64 + BitVec.ofNat 64 (32 * items)) 32).drainWarp 2).ringAt
          placedPasid hdr = s.ringAt placedPasid hdr ∧
        ((s.ringAt placedPasid hdr).map fun r => (r.w, r.t, r.n, r.devfed, r.closed)) =
          some (items, 0, 4, decide (2 ≤ flags), decide (flags = 3))) ∧
    (match (withWarp (labelled 1)).translate placedPasid 0x5000 { r := true, w := true } with | .ok _ => true | _ => false) = true ∧
    (((withWarp (labelled 1)).flow placedPasid 9).release = ((labelled 1).lane 0).iseq ∧
      ((withWarp (labelled 1)).flow placedPasid 9).recs = [] ∧ calm (withWarp (labelled 1)) = true) ∧
    (ringed (withWarp (labelled 0))).threadLane placedPasid 0 = some ((labelled 0).lane 0) ∧
    (ringed (withWarp (labelled 0))).slotOpen placedPasid ((labelled 0).lane 0) = false ∧
    (inCtx (ringed (withWarp (labelled 1))) fun c => { c with estate := [{ object := slotObj 9 0, holder := 0, kind := 4 }] }).slotOpen
      placedPasid ((labelled 1).lane 0) = true ∧
    (ringed (withWarp (labelled 0))).flowRoom placedPasid 9 = true ∧
    ((ringed bench).flow placedPasid 9).release = 0 := by
  refine ⟨by decide +kernel, by decide +kernel, by decide +kernel, by decide +kernel, by decide +kernel, by decide +kernel,
    by decide +kernel⟩

/-! Holdings. -/

/-- Under host translation nothing in memory is read for a translation, and no page of the tables is cached; and where
device memory lies does not depend on what is on its way. -/
theorem steady_of {s : State} {exempt : Nat → Prop}
    (hs : (s.walkAts placedPasid && s.tlb.all fun t => t.mem == 0) = true) : Steady s placedPasid exempt := by
  simp only [Bool.and_eq_true, List.all_eq_true, beq_iff_eq] at hs
  obtain ⟨h, hm⟩ := hs
  intro vas m b ps _ _ _
  have hc : vas.foldl (fun (u : State) va => u.cachePage placedPasid va) s = s := by
    induction vas with
    | nil => rfl
    | cons a l ih => rw [List.foldl_cons, State.cachePage, if_pos h]; exact ih
  rw [hc]
  intro u va n
  have h' : ({ u with mem := m, bad := b, pends := ps } : State).walkAts placedPasid = true := h
  simp only [State.translate, h', h, if_true]
  cases e : u.tlb.find? fun t => t.covers placedPasid va with
  | none => simp only [u] at e; simp only [e]
  | some t =>
    have hz := hm t (List.mem_of_find?_eq_some e)
    simp only [u] at e
    simp only [e, State.through, hz, State.place]
    rfl

/-- The entries of a context's estate table lie apart from a run. -/
theorem apart_of {s : State} {key k : Nat}
    (h : ((List.range (max (2 ^ (s.ctx placedPasid).crec.estateLog) (s.ctx placedPasid).estate.length)).all fun idx =>
      match s.run placedPasid ((s.ctx placedPasid).crec.estate + BitVec.ofNat 64 (32 * idx)) 32 { w := true } with
      | .ok ps => ps.all fun p => decide (p.1.key + p.2 ≤ key) || decide (key + k ≤ p.1.key)
      | .bad _ _ => true) = true) :
    ∀ a, InEstate s placedPasid a → Outside a key k := by
  rintro a ⟨idx, hi, ps, hr, p, hp, h1, h2⟩
  have := List.all_eq_true.mp h idx (List.mem_range.mpr hi)
  rw [hr] at this
  have := List.all_eq_true.mp this p hp
  simp only [Bool.or_eq_true, decide_eq_true_eq] at this
  unfold Outside
  omega

/-- An estate of 2^4 entries: lane 0's thread holds the lock at 0x5000, whose word says so, and the promise at 0x5008, and an
obligation in custody; the rest is free. -/
def owning (s : State) : State :=
  inCtx { s with mem := Memory.putNum s.mem ((s.ctxPart placedPasid).hbm 0x5000) 4 1 } fun c => { c with
    crec := { c.crec with estateLog := 4 }
    estate := [{ object := 0x5000, holder := 0, heir := 0, kind := 1 }, { object := 0x5008, holder := 0, heir := 0, kind := 2 },
      { object := 5, holder := 0x7FFFFFFF, kind := 3, state := 1, unack := true }, { object := 6, holder := 0, kind := 4, unack := true }] }

/-- Lane 0 alone with an object's address in v2, v3, an index in v4 and an heir in v5. -/
def holder (obj idx heir : Nat) : Warp :=
  lone { warp0 with lanes := lanesBy fun l =>
    { st := .live, tid := BitVec.ofNat 32 l, v := [0, 0, BitVec.ofNat 32 obj, 0, BitVec.ofNat 32 idx, BitVec.ofNat 32 heir] } }

/-- Objects held and free, heirs that are in range (the last) and that are not (the first); entries held, of the table
and past it. -/
theorem witness_Holdings :
    (∀ x ∈ [(0x5000, 0, 0), (0x5008, 0, 0), (0x5010, 15, 0x8000FFFF), (0x5010, 16, 0x80010000), (0x5010, 0, 0xFFFFFFFF)],
      ∀ i ∈ [Instr.hlock { z with d := .p 1, a := .v 2, b := .v 5 }, .promise { z with d := .p 1, a := .v 2, b := .v 5 },
          .hunlock { z with a := .v 2 }, .fulfil { z with a := .v 2, c := .v 4 }, .heir { z with a := .v 4, b := .v 5 },
          .estqLo { z with d := .v 8, a := .v 4 }, .estqHi { z with d := .v 8, a := .v 4, sub := 1 },
          .estqFind { z with d := .v 8, a := .v 2, b := .v 4, sub := 2 }, .die z],
        issuesB i (owning (withWarp (holder x.1 x.2.1 x.2.2))) 2 .port (holder x.1 x.2.1 x.2.2) = true ∧
        partOf i (holder x.1 x.2.1 x.2.2) .port = bitOf 0) ∧
    (let s (o : Nat) : State := owning (flat (withWarp (holder o 0 0)))
     let obj (o : Nat) (l : Nat) : DWord := BitVec.ofNat 64 (operandAt 2 { z with a := .v 2 } (holder o 0 0) l (.v 2))
     let n : Need := { r := true, w := true }
     (∀ x ∈ [(Instr.hlock { z with d := .p 1, a := .v 2, b := .v 5 }, 4, 0x5010), (.promise { z with d := .p 1, a := .v 2, b := .v 5 }, 8, 0x5010),
         (.hunlock { z with a := .v 2 }, 4, 0x5000), (.fulfil { z with a := .v 2, c := .v 4 }, 8, 0x5008)],
       Sound x.1 (s x.2.2) .port (holder x.2.2 0 0) n x.2.1 (obj x.2.2) ∧
         (match (s x.2.2).translate placedPasid (obj x.2.2 0) n with | .ok p => p.hbm && p.key == placeOf x.2.2 | _ => false) = true ∧
         ∀ a, InEstate (s x.2.2) placedPasid a → Outside a (placeOf x.2.2) 8) ∧
     (∀ o ∈ [0x5000, 0x5008, 0x5010], ∀ exempt, Steady (s o) placedPasid exempt) ∧ Memory.num (s 0x5000).mem (placeOf 0x5000) 4 = 1) ∧
    (∀ w ∈ [warp0, { warp0 with lanes := lanesBy fun l => { st := .live, p := if l < 3 then 2 else 0 } }],
      Issues (.die { z with g1 := ⟨false, 1⟩ }) (withWarp w) 2 .port w ∧ Issues (.die z) (withWarp w) 2 .port w) ∧
    (partOf (.die z) warp0 .port = warp0.live ∧
      partOf (.die { z with g1 := ⟨false, 1⟩ }) { warp0 with lanes := lanesBy fun l => { st := .live, p := if l < 3 then 2 else 0 } } .port = 7) ∧
    (let s := owning (withWarp (holder 0x5000 0 0))
     calm s = true ∧ (s.holding placedPasid 0 1 0x5000 = some 0) ∧ s.holding placedPasid 0 1 0x5010 = none ∧
       s.holding placedPasid 0 2 0x5008 = some 1 ∧ (s.ctx placedPasid).reserved < (s.ctx placedPasid).freeEntries.length ∧
       2 ^ (s.ctx placedPasid).crec.estateLog = 16) ∧
    (∀ o ∈ [0x5000, 0x5008, 0x5010], ∀ key k, Quiet (owning (flat (withWarp (holder o 0 0)))) key k ∧
      (owning (flat (withWarp (holder o 0 0)))).isBad key k = false) := by
  have hq : ∀ o ∈ [0x5000, 0x5008, 0x5010], calm (owning (flat (withWarp (holder o 0 0)))) = true := by decide +kernel
  refine ⟨by decide +kernel, ⟨?_, fun o ho exempt => steady_of (by revert o; decide +kernel), by decide +kernel⟩, ?_, by decide +kernel, by decide +kernel,
    fun o ho key k => ⟨quiet_of (hq o ho) key k, good_of (hq o ho) key k⟩⟩
  · intro x hx
    refine ⟨sound_of (by revert x; decide +kernel), by revert x; decide +kernel, apart_of (by revert x; decide +kernel)⟩
  · intro w hw
    exact ⟨issues_of (by revert w; decide +kernel), issues_of (by revert w; decide +kernel)⟩

/-- Holders, heirs and object words; entries passed; one lane's `convey` and `bereft`; a death event before its fence,
with a holding and at its end. -/
theorem witness_Conveyances :
    ((5 : Word) ≠ 0x7FFFFFFF ∧ (5 : Word).toNat < 0x7FFFFFFE ∧ (0x80000006 : Nat) < 2 ^ 32 ∧ 0x80000006 % 2 ^ 31 = (5 : Word).toNat + 1 ∧
      (7 : Nat) % 2 ^ 31 ≠ (5 : Word).toNat + 1 ∧ (2 ^ 62 : Nat).testBit 62 = true) ∧
    (∀ x ∈ [(2, 0), (3, 0), (3, 5), (16, 5), (0, 0xFFFFFFFF)], ∀ i ∈ [Instr.convey { z with a := .v 4, b := .v 5 }, .bereft { z with d := .v 8 },
        .bereftCust { z with d := .v 8, sub := 1 }],
      issuesB i (owning (withWarp (holder 0 x.1 x.2))) 2 .port (holder 0 x.1 x.2) = true ∧ partOf i (holder 0 x.1 x.2) .port = bitOf 0 ∧
      issuesB i (inRecord (owning (withWarp (holder 0 x.1 x.2))) fun l => { l with custodian := true }) 2 .port (holder 0 x.1 x.2) = true) ∧
    ((owning bench).threadLive placedPasid 0 = true ∧ (owning bench).threadLive placedPasid 40 = false ∧
      ((owning bench).oldestRecord placedPasid 0).isSome = true ∧ ((owning bench).oldestRecord placedPasid 0x7FFFFFFF).isSome = true ∧
      (bench.oldestRecord placedPasid 0).isSome = false) ∧
    (let d (fenced : Bool) (tid : Word) : Death := { dead := [⟨tid, 0, [], 0, 2, 0, 0, true⟩], fenced := fenced }
     let s (d : Death) : State := inCtx (owning bench) fun c => { c with deaths := [d] }
     ((s (d false 0)).ctx placedPasid).deaths = [d false 0] ∧
       ((s (d true 9)).nextHolding placedPasid [9]) = none ∧ ((s (d true 0)).nextHolding placedPasid [0]).isSome = true ∧
       (d true 0).groups = [] ∧
       (let s := inCtx (s (d true 0)) fun c => { c with estate := [{ object := 6, holder := 0, kind := 4 }] }
        (s.nextHolding placedPasid [0]).map (fun x => (x.1, x.2.kind, x.2.holder)) = some (0, 4, 0))) ∧
    -- The lock of the estate, whose word matches, and one whose word does not.
    (∀ word ∈ [1, 7],
      let s := owning (flat (withWarp (holder 0 0 5)))
      let t : State := { s with mem := Memory.putNum s.mem (placeOf 0x5000) 4 word }
      (holder 0 0 5).port.denied = [] ∧ (t.entry placedPasid 0).kind = 1 ∧ calm t = true ∧
        (match t.run placedPasid (t.entry placedPasid 0).object 4 { r := true, w := true } with
          | .ok [(p, n)] => p.hbm && n == 4 && Memory.num t.mem p.key 4 == word | _ => false) = true) := by
  refine ⟨by decide +kernel, by decide +kernel, by decide +kernel, by decide +kernel, by decide +kernel⟩

/-! The matrix and horizon units. -/

/-- A run that translates, on a bench where nothing is bad or out. -/
theorem reach_of {s : State} {va : DWord} {n align : Nat} {need : Need} {ps : List (Loc × Nat)} (hc : calm s = true)
    (hn : 0 < n) (ha : va.toNat % align = 0) (hv : va.toNat + n ≤ 2 ^ 57)
    (h : s.run placedPasid va n need = .ok ps) : Reach s placedPasid va n align need ps :=
  ⟨hn, ha, hv, h, fun _ _ => ⟨good_of hc _ _, fun a _ _ => noPartial_of hc a⟩⟩

def ranB (s : State) (va : Nat) (n align : Nat) (need : Need) : Bool :=
  decide (0 < n) && va % align == 0 && decide (va + n ≤ 2 ^ 57) &&
    match s.run placedPasid (BitVec.ofNat 64 va) n need with | .ok _ => true | _ => false

theorem ran_of {s : State} {va n align : Nat} {need : Need} (hc : calm s = true) (h : ranB s va n align need = true) (hv : va < 2 ^ 64) :
    ∃ ps, Reach s placedPasid (BitVec.ofNat 64 va) n align need ps := by
  simp only [ranB, Bool.and_eq_true, decide_eq_true_eq, beq_iff_eq] at h
  have e : (BitVec.ofNat 64 va).toNat = va := by rw [BitVec.toNat_ofNat, Nat.mod_eq_of_lt hv]
  revert h
  cases hr : s.run placedPasid (BitVec.ofNat 64 va) n need <;> intro h
  · exact ⟨_, reach_of hc h.1.1.1 (by rw [e]; exact h.1.1.2) (by rw [e]; exact h.1.2) hr⟩
  · simp at h

/-- The flat bench with FP32 slots 0 and 1 and the pointers of A and B in v8 to v11 and v12 to v15. -/
def rowsAt (a b : Nat) : Warp :=
  warpOf (fun _ => List.replicate 8 0 ++ [BitVec.ofNat 32 a, 0, 64, 0, BitVec.ofNat 32 b, 0, 64, 0]) []

def multiplying (w : Warp) (fa fb : DWord) : State := inRecord (flat (withWarp w)) fun l => { l with fslots := [fa, fb] }

/-- One row by one column of FP32 (a tile that fits, and tile 15 past those a crew of 15 owns); slots that are refused, that
do not go together; a row whose page is not there. -/
theorem witness_MatrixMultiply :
    let f : Fields := { z with d := .t 2, a := .v 8, b := .v 12, imm := 0x00010108 }
    let w := rowsAt 0x10000 0x20000
    let v : Warp := { rowsAt 0x40000000 0x20000 with port := { warp0.port with mask := 0xFF, latched := 0xFF } }
    (∀ x ∈ [(2, 2), (0, 2), (2, 15), (2, 3)],
      issuesB (.mma f) (multiplying w (BitVec.ofNat 64 x.1) (BitVec.ofNat 64 x.2)) 2 .port w = true) ∧
    issuesB (.mma { f with g1 := ⟨false, 0⟩ }) (multiplying w 2 2) 2 .port w = true ∧
    issuesB (.mma f) (multiplying v 2 2) 2 .port v = true ∧ partOf (.mma f) v .port = 0xFF ∧
    ((multiplying w 2 2).crew? 1).map (fun c => (c.nT, (c.tile 2).kind, c.badTile 2)) = some (16, .f32, false) ∧ w.port.denied = [] ∧
    v.port.denied = [] ∧
    slotFault 2 = none ∧ slotFault 0 = some 2 ∧ slotFault 15 = some 1 ∧ mmaShape 2 2 = some (16, .f32) ∧ mmaShape 2 3 = none ∧
    (∃ ps, Reach (multiplying w 2 2) placedPasid 0x10000 64 1 { r := true } ps) ∧
    (∃ ps, Reach (multiplying w 2 2) placedPasid 0x20000 64 1 { r := true } ps) ∧
    (multiplying v 2 2).run placedPasid 0x40000000 64 { r := true } = .bad 0x40000000 .absent ∧
    (∃ ps, Reach (multiplying v 2 2) placedPasid 0x20000 64 1 { r := true } ps) ∧
    Steady (multiplying w 2 2) placedPasid (fun _ => False) ∧ Steady (multiplying v 2 2) placedPasid (fun _ => False) := by
  refine ⟨by decide +kernel, by decide +kernel, by decide +kernel, by decide +kernel, by decide +kernel, by decide +kernel,
    by decide +kernel, by decide +kernel, by decide +kernel, by decide +kernel, by decide +kernel, by decide +kernel,
    ran_of (by decide +kernel) (by decide +kernel) (by decide),
    ran_of (by decide +kernel) (by decide +kernel) (by decide), by decide +kernel,
    ran_of (by decide +kernel) (by decide +kernel) (by decide), steady_of (by decide +kernel), steady_of (by decide +kernel)⟩

/-- The bench with tiles of the crew. -/
def tiled (w : Warp) (ts : List Tile) : State := { withWarp w with crews := bench.crews.map fun c => { c with tiles := ts } }

/-- Tiles of every kind, even and odd; no lane; rows in memory; a tile with no mask, and one whose mask block hides what
lies past its last row. -/
theorem witness_MatrixTiles :
    let w := rowsAt 0x10000 0x40
    let s := tiled w [{ kind := .f64 }, { kind := .f64 }, { kind := .i32 }, { wide := true }]
    (∀ i ∈ matrixWords.drop 1, issuesB i s 2 .port w = true) ∧
    (∀ i ∈ [Instr.mzero { z with d := .t 1, ty := .f32 }, .mmaskClear { z with d := .t 1 }, .mzero { z with d := .t 0, ty := .f64 },
        .mzero { z with d := .t 3, ty := .i32, g1 := ⟨false, 0⟩ }, .mmov { z with d := .v 2, a := .t 0, b := .v 1 }],
      issuesB i s 2 .port w = true) ∧
    (s.crew? 1).map (fun c => ((c.tile 1).kind, (c.tile 2).kind, (c.tile 3).wide)) = some (.f64, .i32, true) ∧
    ((s.crew? 1).map fun c => (List.range 16).all fun n => !c.badTile n) = some true ∧ w.port.denied = [] ∧
    (∀ n < 64, ∃ ps, Reach s placedPasid (BitVec.ofNat 64 (0x10000 + n * 0x200)) 512 8 { r := true, w := true } ps) ∧
    Shown s placedPasid none (fun _ _ => True) (fun _ _ => false) ∧
    Shown s placedPasid (some ([0, 0, 0, 0, 1, 0, 64, 0] ++ List.replicate 56 0)) (fun _ _ => True) (fun i _ => decide (1 ≤ i)) := by
  refine ⟨by decide +kernel, by decide +kernel, by decide +kernel, by decide +kernel, by decide +kernel, ?_, ?_, ?_⟩
  · intro n hn
    exact ran_of (by decide +kernel) (by revert n; decide +kernel) (by omega)
  · intro i _ j _ _; rfl
  · intro i _ j hj _
    have e1 : leNat ((([0, 0, 0, 0, 1, 0, 64, 0] ++ List.replicate 56 0 : List Byte).drop 4).take 2) = 1 := by decide
    have e2 : leNat ((([0, 0, 0, 0, 1, 0, 64, 0] ++ List.replicate 56 0 : List Byte).drop 6).take 2) = 64 := by decide
    have e3 : leNat ((([0, 0, 0, 0, 1, 0, 64, 0] ++ List.replicate 56 0 : List Byte).drop 0).take 4) = 0 := by decide
    simp only [e1, e2, e3]
    by_cases h : 1 ≤ i
    · simp [h]
    · have : ¬(1 ≤ i ∨ 64 ≤ j) := by omega
      simp only [this, if_false]
      simp [h]

/-- x and 2x - 2 on [0, 4], which meet at 2; a point; an infinite domain. -/
theorem witness_EnvelopeForms :
    let n (q : Rat) : PwlNum := ⟨q, none⟩
    let d : Dom := ⟨some (n 0), some (n 4)⟩
    let ls : List Line := [⟨n 1, n 0, 0⟩, ⟨n 2, n (-2), 0⟩]
    d.long ∧ (⟨none, none⟩ : Dom).long ∧ Canon d ls ∧ ls ≠ [] ∧ d.empty = false ∧ (d.meet d).empty = false ∧ d.has 0 = true ∧
      d.has 4 = true ∧ (0 : Rat) ≤ 0 := by
  intro n d ls
  refine ⟨?_, ?_, ⟨by decide, by decide +kernel, by decide +kernel, ?_⟩, by decide, by decide +kernel⟩
  · intro lo hi h h'
    simp only [d, n, Dom.loQ, Dom.hiQ, Option.map_some, Option.some.injEq] at h h'
    subst h h'
    decide
  · intro lo hi h h'
    simp [Dom.loQ] at h
  · intro x hx
    have e : breaks ls = [2] := by decide +kernel
    rw [e] at hx
    simp only [List.mem_singleton] at hx
    subst hx
    constructor <;> intro b hb <;>
      (simp only [d, n, Dom.loQ, Dom.hiQ, Option.map_some, Option.some.injEq] at hb; subst hb; decide)

/-- The bench with envelope registers of the crew. -/
def enveloped (w : Warp) (es : List Env) : State := { withWarp w with crews := bench.crews.map fun c => { c with envs := es } }

/-- Envelopes with lines and without; ends that are NaNs and infinities of the wrong sign, in order and out of it; an image in
memory. -/
theorem witness_Horizon :
    let e : Env := { lo := 0, hi := 0x4010000000000000, lines := [(0x3FF0000000000000, 0)] }
    let v (lo hi : Nat) : Warp := warpOf (fun _ => [0, 0, BitVec.ofNat 32 lo, BitVec.ofNat 32 (lo / 2 ^ 32), BitVec.ofNat 32 hi,
      BitVec.ofNat 32 (hi / 2 ^ 32), 0, 0]) []
    (∀ es ∈ [[], [e, e]], ∀ i ∈ horizonWords, issuesB i (enveloped (v 0 0x4010000000000000) es) 2 .port (v 0 0x4010000000000000) = true) ∧
    (∀ x ∈ [(0x7FF8000000000000, 0), (0x7FF0000000000000, 0), (0, 0xFFF0000000000000), (0x4010000000000000, 0), (0, 0)],
      issuesB (.einit { z with ty := .f64, d := .e 0, a := .v 2, b := .v 4 }) (enveloped (v x.1 x.2) []) 2 .port (v x.1 x.2) = true ∧
      issuesB (.eins { z with ty := .f64, d := .e 0, a := .v 2, b := .v 4 }) (enveloped (v x.1 x.2) []) 2 .port (v x.1 x.2) = true) ∧
    fp64.decode 0x7FF0000000000000 = .inf false ∧ ratOf 0 = some 0 ∧ ratOf 0x4010000000000000 = some 4 ∧
    (e.dom.has 0 = true ∧ e.dom.has 5 = false ∧ e.dom.empty = false ∧ e.bad = false ∧ ({} : Env).bad = false ∧ warp0.port.denied = []) ∧
    (∃ ps, Reach (enveloped warp0 [e]) placedPasid 0x8000 32 16 { r := true } ps) ∧
    (∃ ps, Reach (enveloped warp0 [e]) placedPasid 0x8020 16 16 { w := true } ps) ∧
    ((enveloped warp0 [e]).crew? 1).isSome = true ∧ Steady (flat (enveloped warp0 [e])) placedPasid (fun _ => False) := by
  refine ⟨by decide +kernel, by decide +kernel, by decide +kernel, by decide +kernel, by decide +kernel, by decide +kernel,
    ran_of (by decide +kernel) (by decide +kernel) (by decide),
    ran_of (by decide +kernel) (by decide +kernel) (by decide), by decide +kernel,
    steady_of (by decide +kernel)⟩

/-! Queue registers, tags and engines. -/

/-- The bench with queue register 0 bound, a pipe's content, and tags 0 (done), 1 (in flight) and 2 (done with an error). -/
def bound (w : Warp) (b : Nat) (pipe : List PipeEnt) : State :=
  let s := inRecord (withWarp w) fun l => { l with binds := BitVec.ofNat 32 b }
  { s with crews := s.crews.map fun c => { c with pipes := [pipe], tags := [{ n := 0, done := true }, { n := 1 }, { n := 2, done := true, err := true }] } }

/-- Lane 0 alone with a command of eight words in v8 to v15, and a tag mask in s2, s3. -/
def commanding (c0 c1 c2 c3 mask : Nat) : Warp :=
  lone (warpOf (fun _ => List.replicate 8 0 ++ ([c0, c1, c2, c3].flatMap fun x => [BitVec.ofNat 32 x, BitVec.ofNat 32 (x / 2 ^ 32)]))
    [0, 0, BitVec.ofNat 32 mask, BitVec.ofNat 32 (mask / 2 ^ 32)])

/-- Queue registers that are unbound, bound to each engine and to a pipe that is empty, holds an entry, is full; commands that
are good, past the space, misaligned, malformed, with a tag in use; tag masks: none, owned, done, not owned. -/
theorem witness_QueuesAndTags :
    let i : Instr := .qpush { z with d := .q 0, a := .v 8 }
    let ent : PipeEnt := ⟨1, [5]⟩
    let pops : List Instr := [.qpop { z with d := .v 1, a := .q 0 }, .qtry { z with d := .v 1, a := .q 0, e := .p 1 }]
    let tags : List Instr := [.twaitany { z with d := .v 1, a := .s 2, ty := .u64 }, .twaitall { z with a := .s 2, ty := .u64 },
      .tffr { z with d := .v 1, a := .s 2, ty := .u64 }, .tclr { z with a := .s 2, ty := .u64 }]
    let good := commanding 0x8000 0x9000 (16 + 2 ^ 32 + 3 * 2 ^ 48) 0 0
    (∀ b ∈ [0, 1, 2, 3, 4], ∀ p ∈ [[], [ent], List.replicate 15 ent, List.replicate 16 ent], (∀ j ∈ pops,
      issuesB j (bound warp0 b p) 2 .port warp0 = true) ∧
      issuesB (.qpushPipe { z with d := .q 0, a := .v 1 }) (bound warp0 b p) 2 .port warp0 = true) ∧
    (∀ w ∈ [good, commanding (2 ^ 57) 0x9000 (16 + 2 ^ 32 + 3 * 2 ^ 48) 0 0, commanding (2 ^ 57 - 1) 0x9000 (2 ^ 48) 0 0,
        commanding 0x8000 0x9000 (16 + 2 ^ 32) 0 0], issuesB i (bound w 1 []) 2 .port w = true ∧ partOf i w .port = bitOf 0) ∧
    (∀ w ∈ [commanding 0x8000 0xA002 0x9000 (1 + 2 ^ 32) 0], issuesB i (bound w 2 []) 2 .port w = true) ∧
    (∀ m ∈ [0, 1, 2, 3, 4, 6, 8], ∀ j ∈ tags, issuesB j (bound (commanding 0 0 0 0 m) 0 []) 2 .port (commanding 0 0 0 0 m) = true) ∧
    ((bound good 1 []).tagFree 0 3 = true ∧ (bound good 1 []).tagFree 0 1 = false ∧ (bound good 1 []).heldCmds 2 0 = 0 ∧
      good.port.wait = none ∧ ((bound good 1 []).crew? 1).isSome = true) := by decide +kernel

/-- A command of the bench, accepted or not. -/
def ordered (s : State) (c : Cmd) : State := { s with cmds := [c] }

def copying (c0 c1 c2 : Nat) (at_ : Option Nat) : Cmd :=
  { id := 9, eng := .copy, words := [BitVec.ofNat 64 c0, BitVec.ofNat 64 c1, BitVec.ofNat 64 c2, 0], tag := 1, crew := 1, core := 0,
    uid := 2, qreg := 0, tid := 0, queue := 0, gen := 0, pasid := placedPasid, at_ := at_ }

theorem byteAt_of {s : State} {va : DWord} {need : Need} {key : Nat} (h : calm s = true)
    (ht : (match s.translate placedPasid va need with | .ok p => va.toNat < 2 ^ 57 && p.key == key | _ => false) = true) :
    ByteAt s placedPasid va need key := by
  revert ht
  cases e : s.translate placedPasid va need <;> intro ht
  · simp only [Bool.and_eq_true, decide_eq_true_eq, beq_iff_eq] at ht
    exact ⟨ht.1, noPartial_of h _, good_of h _ _, _, e, ht.2⟩
  all_goals simp at ht

/-- One row of one byte copied, or gathered by the index 0; a copy from past the space, and from a page that is not there; a
collective of a team whose phase is over, and is not. -/
theorem witness_Engines :
    let s (c : Cmd) : State := ordered (flat bench) c
    let c := copying 0x8000 0x9000 (1 + 2 ^ 32) (some 0)
    let g : Cmd := { c with eng := .gather, words := [0x8000, 0xA000, 0x9000, 1 + 2 ^ 32] }
    let m : Cmd := { c with eng := .coll, words := [0, 0xB000, 1, 0], phase := 0, tid := 0 }
    ((s c).cmd? 9 = some c ∧ (s { c with at_ := none }).cmd? 9 = some { c with at_ := none } ∧
      tget none (s c).copyGroups 0 = some ((s c).ctxPart placedPasid).base ∧ (((s c).ctxPart placedPasid).entry 0x340).st ≠ 3 ∧
      copyOverlaps c = false ∧ ((s c).crew? 1).isSome = true) ∧
    ByteAt (s c) placedPasid 0x8000 { r := true } (placeOf 0x8000) ∧ ByteAt (s c) placedPasid 0x9000 { w := true } (placeOf 0x9000) ∧
    (∀ b < 4, ByteAt (s g) placedPasid (BitVec.ofNat 64 (0xA000 + b)) { r := true } (placeOf (0xA000 + b)) ∧
      Memory.get (s g).mem (placeOf (0xA000 + b)) = 0 ∧ placeOf (0xA000 + b) ≠ placeOf 0x9000) ∧
    Steady (s c) placedPasid (fun a => a = placeOf 0x9000) ∧
    (BitVec.ofNat 64 (2 ^ 57)).toNat ≥ 2 ^ 57 ∧ (s c).translate placedPasid 0x40000000 { r := true } = .absent ∧
    (let u (p : Point) : State := inCtx (s m) fun x => { x with teams := [{ used := true, members := [0], points := List.replicate 23 {} ++ [p] }] }
     (u { init := true, x := 1, p := 1 }).validHandle placedPasid 0 = true ∧ (s m).validHandle placedPasid 0 = false ∧
       ((u { init := true, x := 1, p := 1 }).pointOf placedPasid 0 23).completed 0 = true ∧
       ((u { init := true, x := 1 }).pointOf placedPasid 0 23).completed 0 = false ∧
       ((s m).cmds.map Cmd.id).Nodup) ∧ Logs (s c) placedPasid := by
  refine ⟨by decide +kernel, byteAt_of (by decide +kernel) (by decide +kernel), byteAt_of (by decide +kernel) (by decide +kernel), ?_,
    steady_of (by decide +kernel), by decide +kernel, by decide +kernel, by decide +kernel, logs_of (by decide +kernel)⟩
  intro b hb
  exact ⟨byteAt_of (by decide +kernel) (by revert b; decide +kernel), by revert b; decide +kernel⟩

/-! Traps and the system instructions. -/

/-- A warp in its handler, entered with a vector. -/
def handling (vec : Nat) (stack : List SEntry) : Warp :=
  { warp0 with handler := some { port := warp0.port, star := {}, ncs := [], stack := [], parked := [], side := .port, vec := vec, last := .port },
               stack := stack }

/-- A word that does not fit; a trap outside and inside the handler; a return with a clean stack and with an entry left, and
outside; no lane and some. -/
theorem witness_Traps :
    (Instr.add { z with d := .t 0, a := .v 2, b := .s 1 }).fault (bench.allotOf warp0) ≠ none ∧
    bench.turn = some (.slot 2 .port) ∧ bench.warp? 2 = some warp0 ∧ warp0.handler = none ∧ (handling 0x21 []).handler ≠ none ∧
    (∀ w ∈ [warp0, handling 0x21 [], handling 0x10 [], handling 0x21 [⟨0, 1, 0, 0, 0⟩]], ∀ i ∈ [Instr.rte z, .trap { z with imm := 32 }, .bkpt { z with imm := 7 },
        .trap { z with imm := 32, g1 := ⟨false, 0⟩ }, .illegalOpcode 0x3FF, .instructionFetchFault true], issuesB i (withWarp w) 2 .port w = true) ∧
    (∀ w ∈ [handling 0x21 [], handling 0x10 []], w.handler.map (fun h => h.port.pc == w.trappc) = some false) ∧
    (let w : Warp := { handling 0x10 [] with trappc := warp0.port.pc }; w.handler.map (fun h => h.port.pc == w.trappc) = some true) ∧
    Logs bench placedPasid := by
  refine ⟨by decide +kernel, by decide +kernel, by decide +kernel, by decide +kernel, by decide +kernel, by decide +kernel,
    by decide +kernel, by decide +kernel, logs_of (by decide +kernel)⟩

/-- A `yield` with a vector due, in its handler, and of no concern; `svc` with room and none; a call that the host has
resumed; a sleep that is over and one that is not. -/
theorem witness_SystemInstructions :
    let svc : Instr := .svc { z with d := .p 2, a := .v 16, imm := 0x41 }
    let asleep (t : Nat) : Warp := { warp0 with port := { warp0.port with wait := some ⟨.sleep t, 0⟩ } }
    let calling : Warp := { warp0 with port := { warp0.port with wait := some ⟨.svcCall 0, 0⟩ } }
    let ring (w : Warp) : State := { withWarp w with mem := Memory.putNum (withWarp w).mem ((withWarp w).ctxPart placedPasid |>.hbm 0x7010) 8 6 }
    let s (w : Warp) : State := inCtx (ring w) fun c => { c with crec := { c.crec with service := 0x7000 } }
    let call : Call := { id := 0, uid := 2, side := .port, entries := [(0, 0x7040)], ready := true, results := [] }
    (∀ w ∈ [warp0, { warp0 with due := some 9 }, handling 0x10 []], issuesB (.yield z) (withWarp w) 2 .port w = true) ∧
    (∀ i ∈ [Instr.rdts { z with d := .v 2, ty := .u64 }, .rdts { z with d := .v 2, ty := .u64, sub := 1 }, .sleep { z with a := .s 1 }],
      issuesB i bench 2 .port warp0 = true) ∧
    (∀ w ∈ [warp0, lone warp0, calling], issuesB svc (s w) 2 .port w = true) ∧
    ((s warp0).svcRing placedPasid).2.2 = 64 ∧ (bench.svcRing placedPasid).2.2 = 1 ∧
    (((inCtx (s calling) fun c => { c with calls := [call] }).ctx placedPasid).calls.find? fun c => c.id == 0 && c.ready) = some call ∧
    -- A posting of one lane of a crew of two.
    (let u := flat (s (lone warp0))
     let v : State := { u with warps := u.warps ++ [placedWarp 3 1 0 0] }
     let d := v.performIf fun p => p.uid == 2
     issuesB svc v 2 .port (lone warp0) = true ∧ (v.crewWarps 1).length = 2 ∧ (v.svcRing placedPasid).2.2 = 64 ∧
       v.ctxNum placedPasid 0x7000 8 = 0 ∧ v.ctxNum placedPasid 0x7008 8 = 0 ∧ d.svcRing placedPasid = v.svcRing placedPasid ∧
       d.ctxNum placedPasid 0x7000 8 = 0 ∧ d.ctxNum placedPasid 0x7008 8 = 0) ∧
    (∀ t ∈ [0, 1], (withWarp (asleep t)).warp? 2 = some (asleep t) ∧ (asleep t).port.wait = some ⟨.sleep t, 0⟩) ∧
    bench.now = 0 ∧ bench.warp? 3 = none := by decide +kernel

/-! Queues. -/

/-- Queue 0 inside a packet: two packets, a ring at 0x8000, signals at 0x9000 to 0x903F, a launch record at 0xA000; k1 is
an offset. -/
def packet (ofs : Nat) : Queue :=
  { ring := 0x8000, logSize := 2, pasid := 0xFFFFF, sigBase := 0x9000, sigLen := 64, launchBase := 0xA000, launchLen := 256,
    st := .mapped, slot := some 0, busy := true, wrx := 2, code := [0x80000000], k := [5, BitVec.ofNat 64 ofs] }

def piloting (x : Queue) : State := { flat bench with queues := [x], turn := some (.pilot 0) }

/-- Offsets at the first word of a window, at its last, before its start, past its end, misaligned; the next word past a
loop's body; a budget that is used up; a WAIT that has been hit. -/
theorem witness_PilotCode :
    (∀ o ∈ [0, 56, 64, 4, 2 ^ 64 - 8], (piloting (packet o)).turn = some (.pilot 0) ∧ (piloting (packet o)).queue 0 = packet o) ∧
    (∀ o ∈ [0, 56], ((0x9000 : DWord) + BitVec.ofNat 64 o).toNat % 8 = 0 ∧ 0x9000 ≤ ((0x9000 : DWord) + BitVec.ofNat 64 o).toNat ∧
      ((0x9000 : DWord) + BitVec.ofNat 64 o).toNat + 8 ≤ 0x9000 + 64) ∧
    calm (piloting (packet 0)) = true ∧ (packet 0).denied = false ∧ Logs (piloting (packet 0)) 0xFFFFF ∧
    (match (piloting (packet 0)).translate 0xFFFFF 0x9000 { r := true, w := true } with | .ok _ => true | _ => false) = true ∧
    (piloting (packet 0)).translate 0xFFFFF 0x40000000 { r := true } = .absent ∧
    (guarded warp0).translate 0xFFFFF 0x40000000 { w := true } = .refused ∧
    (∃ ps, Reach (piloting (packet 0)) 0xFFFFF 0xA000 256 256 { r := true } ps) ∧
    (let l : Loop := { first := 1, past := 3, left := 2 }
     let x : Queue := { packet 0 with pc := 2, loops := [l] }
     x.loops = [l] ∧ l.past = x.pc + 1 ∧ 1 < l.left ∧ ({ l with left := 1 } : Loop).left ≤ 1) ∧
    ({ packet 0 with budget := 0 }.budget = 0 ∧ (packet 0).page = [] ∧ (packet 0).pc < (packet 0).code.length) ∧
    decodePilot 0x70C28000 = .ok (.wait 3 1 0 0) ∧
    (let m : Monitor := { who := .queue 0, line := 0, hit := true }
     m ∈ ({ piloting { packet 0 with st := .waiting, code := [0x70C28000] } with monitors := [m] } : State).monitors) := by
  refine ⟨by decide +kernel, by decide +kernel, by decide +kernel, by decide +kernel, logs_of (by decide +kernel), by decide +kernel,
    by decide +kernel, by decide +kernel,
    ran_of (va := 0xA000) (by decide +kernel) (by decide +kernel) (by decide), by decide +kernel, by decide +kernel, rfl, by decide +kernel⟩

/-- A context record that is accepted. -/
def goodRec : List Byte := List.replicate 16 0 ++ [0, 10] ++ List.replicate 0x36 0 ++ [4] ++ List.replicate 183 0

/-- A disabled queue with one word of pilot code at 0xC000. -/
def offQueue : Queue := { pasid := 0xFFFFF, ctx := 0xB000, pilot := 0xC000, pilotLen := 1 }

/-- Queues under an assist word. -/
def assisted (bits : Nat) (qs : List Queue) : State :=
  let s := { piloting offQueue with queues := qs }
  { s with mapper := { s.mapper with assist := [BitVec.ofNat 32 bits] } }

/-- A module that has booted with that queue, and the same with its context open. -/
def enabling (bits : Nat) : State :=
  { assisted bits [offQueue] with
    sec := { bench.sec with booted := true }
    mem := [(0xB010, 10 * 256), (0xB048, 4), (0xC000, 0x80000000)].foldl (fun (m : Memory) p => Memory.putNum m (placeOf p.1) 8 p.2) bench.mem }

def opened (bits : Nat) : State := ((enabling bits).openCtx placedPasid offQueue.ctx (.of goodRec)).takeModes placedPasid

/-- A queue that waits for a slot. -/
def waiting (p t : Nat) : Queue := { packet 0 with st := .pending, slot := none, busy := false, prio := BitVec.ofNat 3 p, pend := some t }

/-- A context record that is accepted and one that is not; code that passes; pending queues with a slot free and none, with
queues that may be pre-empted and with none that may; notifies at the last place and past it; the two times. -/
theorem witness_QueueMapping :
    let s (qs : List Queue) : State := { piloting offQueue with queues := qs }
    let low (yields : Bool) (k : Nat) : Queue := { packet 0 with slot := some k, prio := 0, preemptible := yields }
    let full (yields : Bool) : State := s ((List.range 128).map (low yields) ++ [waiting 1 5])
    goodRec.length = 256 ∧ ctxOk goodRec = true ∧ ctxOk [] = false ∧ codeFault [0x80000000] = none ∧
    (s [waiting 1 5, waiting 1 4, waiting 2 9]).nextPending 0 = some 2 ∧ (s [offQueue]).nextPending 0 = none ∧
    (s [waiting 1 5]).nextPendings = [0] ∧ (s [waiting 1 5]).freeSlot = some 0 ∧
    ((full true).freeSlot = none ∧ (full true).nextPendings = [128] ∧ (full true).victim 128 = some 0 ∧
      (∃ c ∈ (full true).crews, (∃ l ∈ (full true).launches, l.queue = 0 ∧ l.uid = c.launch) ∧ c.pre = none ∧
        ∃ w ∈ (full true).warps, w.crew = c.uid ∧ w.place = .resident)) ∧
    (∀ x ∈ (full false).queues, x.slot ≠ none → x.preemptible = false) ∧
    (let x : Queue := { packet 0 with rdx := 0, wrx := 2 }
     ¬(5 : DWord).toNat - x.rdx.toNat ≤ 2 ^ x.logSize.toNat ∧
       (4 : DWord).toNat - x.rdx.toNat ≤ 2 ^ x.logSize.toNat ∧ x.wrx.toNat < (4 : DWord).toNat) ∧
    (let late : State := { s [waiting 1 0, { packet 0 with slot := some 1, preemptible := true, prio := 1 }] with now := 2000000 }
     ((late.queue 0).told = false ∧ late.packetMode 0 = false ∧ 1000000 ≤ late.now - (late.queue 0).pend.getD late.now) ∧
       ((late.queue 1).slot ≠ none ∧ (late.queue 1).sliced = false ∧ 2000000 ≤ late.now - (late.queue 1).mappedAt ∧
         (late.queue 0).prio = (late.queue 1).prio ∧ (late.queuePart 0).base = (late.queuePart 1).base)) := by decide +kernel

/-- A disabled queue that may be enabled (if the TDI lets it: that is a free value of Config, log entry 34), for pilot code and
for packets of the host. -/
theorem witness_QueueMapping_enable : ∀ bits ∈ [1, 5],
    ((enabling bits).queue 0).st = .disabled ∧ offQueue.ctx.toNat % 256 = 0 ∧ (enabling bits).sec.booted = true ∧
      (enabling bits).sec.recovery = false ∧ (enabling bits).isBad (placeOf 0xB000) 256 = false ∧
      Memory.read (enabling bits).mem (((enabling bits).queuePart 0).hbm offQueue.ctx.toNat) 256 = goodRec ∧
      (opened bits).packetMode 0 = decide (bits = 5) ∧ ∃ ps, Reach (opened bits) placedPasid 0xC000 4 1 { r := true } ps := by
  intro bits hb
  have h : ∀ bits ∈ [1, 5], calm (opened bits) = true ∧ ranB (opened bits) 0xC000 4 1 { r := true } = true := by decide +kernel
  refine ⟨?_, ?_, ?_, ?_, ?_, ?_, ?_, ran_of (h bits hb).1 (h bits hb).2 (by decide)⟩ <;> revert bits <;> decide +kernel

/-- A host's launch and read index. -/
theorem witness_QueueMapping_host :
    (assisted 5 [waiting 1 0]).packetMode 0 = true ∧ ((assisted 5 [waiting 1 0]).queue 0).st = .pending ∧
    ((assisted 5 [waiting 1 0]).queue 0).rdx.toNat < 1 ∧ 2 ≤ ((assisted 5 [waiting 1 0]).queue 0).wrx.toNat ∧
    ((assisted 5 [waiting 1 0]).queue 0).launchBase = 0xA000 ∧ ((assisted 5 [waiting 1 0]).queue 0).launchLen = 256 ∧
    ∃ ps, Reach (assisted 5 [waiting 1 0]) placedPasid 0xA000 256 256 { r := true } ps :=
  ⟨by decide +kernel, by decide +kernel, by decide +kernel, by decide +kernel, by decide +kernel, by decide +kernel,
    ran_of (va := 0xA000) (by decide +kernel) (by decide +kernel) (by decide)⟩

/-- Commands that name queue 0 and slot 0. The queue is pending, and the host does not map it, or does; the host performs its
packets; its code is not checked yet; the slot is taken. A queue in the slot that may be pre-empted and one that may not. -/
theorem witness_QueueMapping_commands :
    let low (yields : Bool) (k : Nat) : Queue := { packet 0 with slot := some k, prio := 0, preemptible := yields }
    (∀ bits ∈ [1, 3, 7], ∀ load ∈ [false, true],
      let t := assisted bits [{ waiting 1 0 with loading := load }]
      (t.queue 0).st = .pending ∧ t.held 0 = false ∧ t.slotMap 0 = decide (bits ≠ 1) ∧ t.packetMode 0 = decide (bits = 7) ∧
        (t.queue 0).loading = load ∧ t.queues.map Queue.slot = [none]) ∧
    ((assisted 3 [waiting 1 0, low true 0]).queues.map Queue.slot = [none, some 0]) ∧
    (∀ bits ∈ [1, 3], ∀ yields ∈ [false, true],
      let t := assisted bits [low yields 0]
      (t.queue 0).slot = some 0 ∧ t.slotMap 0 = decide (bits = 3) ∧ (t.queue 0).preemptible = yields) := by decide +kernel

/-! Launches, pages, saves. -/

def role1 : Role := { entry := 0, lanes := 32, v8 := 1, s8 := 1, tiles := 0, envs := 0, kib := 0 }

/-- A count launch of a full warp and one thread more, on a queue that runs; nothing placed. -/
def launching (g : LRec → LRec) : State :=
  let l : Launch := { uid := 0, queue := 0, gen := 0, pasid := placedPasid, recAddr := 0,
                      lrec := g { LRec.zero with count := 33, roles := [role1], crewSize := 1 } }
  { flat State.reset with queues := [packet 0], ctxs := [{ pasid := placedPasid, assist := 1 }], launches := [l], serial := 1 }

/-- The same, with every crew placed and gone, a signal, and a signal page that the host has refused or not. -/
def ended (sig : Nat) (denied : Bool) : State :=
  let s := launching id
  { s with launches := s.launches.map fun l =>
      { l with tidBase := some 0, nextCrew := 2, denied := denied, lrec := { l.lrec with signal := BitVec.ofNat 64 sig } } }

/-- A record of one warp that is accepted, and one of no warp; count and item launches whose crew may be placed; an end that is
due (no crew left, signal 0, one that fails, is not there, or is), and one that is not; a slot that may issue, on its port, and
one that may not. -/
theorem witness_Launches :
    let rcd (lanes : Byte) : List Byte :=
      [0, 0, 0, 0, 1, 0, 0, 0] ++ List.replicate 8 0 ++ [0, 0, 0, 0, lanes, 0, 1, 1] ++ List.replicate 0x58 0 ++ [1, 0] ++ List.replicate 142 0
    let s := launching id
    let items : State := launching fun r => { r with item := true, count := 1 }
    (rcd 32).length = 256 ∧ recordOk (rcd 32) true = true ∧ recordOk (rcd 0) true = false ∧
    (∀ t ∈ [s, items], (t.launch? 0).isSome = true ∧ t.mayRun 0 = true ∧ t.warps = [] ∧
      ∀ l ∈ t.launches, t.fits (t.ctxPart l.pasid) 0 l.needs = true ∧ 0 < l.lrec.crewSize ∧ l.lrec.warps.length ≤ l.lrec.crewSize ∧
        l.lrec.chain = false ∧ l.ending = false ∧ l.nextCrew * (32 * l.lrec.crewSize) < max l.lrec.count 1) ∧
    (s.tidBlock placedPasid 33) = some 0 ∧ (∀ l ∈ items.launches, items.itemsDone l = false) ∧ items.crews = [] ∧
    (∀ x ∈ [(0, false), (4, false), (2 ^ 57, false), (0x40000000, false), (0x9000, true), (0x9000, false)],
      ((ended x.1 x.2).launch? 0).isSome = true ∧ (ended x.1 x.2).warps = [] ∧ (ended x.1 x.2).cores = [] ∧
        ((ended x.1 x.2).queue 0).st = .mapped ∧
        (∀ l ∈ (ended x.1 x.2).launches, l.crews ≤ l.nextCrew ∧ l.tidBase ≠ none ∧ l.ending = false ∧
          calm ((ended x.1 x.2).settleLaunch l) = true ∧
          ((x.1 = 0x9000) → (match ((ended x.1 x.2).settleLaunch l).translate placedPasid 0x9000 { r := true, w := true } with
            | .ok _ => true | _ => false) = true) ∧
          (((ended x.1 x.2).settleLaunch l).translate placedPasid 0x40000000 { r := true, w := true } = .absent))) ∧
    (∀ l ∈ (ended 4 false).launches, Logs ((ended 4 false).settleLaunch l) placedPasid) ∧
    bench.warp? 2 = some warp0 ∧ 0 < bench.power.clock ∧ bench.issueChoice = some (2, .port) ∧ State.reset.issueChoice = none ∧
    (bench.runnable warp0 = true ∧ bench.mayIssue warp0 .port .second = true ∧ bench.mayIssue warp0 .port .vector = true ∧
      bench.portAt warp0 .port = .vector ∧ bench.portChoice 0 .vector = some (2, .port) ∧ bench.portChoice 0 .second = none) ∧
    (let c : State := { bench with cycle := [⟨0, .second, 7, .port⟩] }
     c.mayIssue warp0 .port .second = false ∧ c.mayIssue warp0 .port .vector = true) := by
  refine ⟨by decide +kernel, by decide +kernel, by decide +kernel, by decide +kernel, by decide +kernel, by decide +kernel,
    by decide +kernel, by decide +kernel, ?_, by decide +kernel, by decide +kernel, by decide +kernel, by decide +kernel,
    by decide +kernel, by decide +kernel⟩
  intro l hl
  exact logs_of (by revert l; decide +kernel)

/-- Walks that end at every level: absent, with a reserved bit or a leaf where there is none, and at a page of each size;
and a page that a TLB still holds. -/
theorem witness_PageWalk :
    let part := bench.ctxPart placedPasid
    let mapped (es : List (Nat × Nat)) : State :=
      { bench with mem := es.foldl (fun (m : Memory) p => Memory.putNum m (part.hbm p.1) 8 p.2) bench.mem }
    let ent (s : State) (table ofs : Nat) : DWord := BitVec.ofNat 64 (Memory.num s.mem (part.hbm (table + 8 * ofs)) 8)
    let l2 := (0x3008, 0x6001)
    let l1 := (0x6000, 0x7001)
    let group := (List.range 16).map fun i => (0x7000 + 8 * i, 0x50023)
    (bench.ctx placedPasid).assist.getLsbD 0 = false ∧ bench.tlb = [] ∧
    (∀ es ∈ [[], [l2], [l2, l1], [l2, l1] ++ group], calm (mapped es) = true) ∧ (bench.ctx placedPasid).crec.root.toNat = 0x1000 ∧
    -- A table at L5 and at L4, a 1 GiB leaf at L3 for the first GiB, nothing for the second, a table for it.
    ent bench 0x1000 0 = 0x2001 ∧ ent bench 0x2000 0 = 0x3001 ∧ ent bench 0x3000 0 = 0x1F ∧ ent bench 0x3000 1 = 0 ∧
    ent (mapped [l2]) 0x3000 1 = 0x6001 ∧ ent (mapped [l2]) 0x6000 0 = 0 ∧
    -- A 2 MiB leaf; a table of L1 entries: absent, of 4 KiB, a group of 64 KiB.
    ent (mapped [l2, (0x6000, 0x400013)]) 0x6000 0 = 0x400013 ∧ 0x400000 % 2 ^ 21 = 0 ∧
    ent (mapped [l2, l1]) 0x6000 0 = 0x7001 ∧ ent (mapped [l2, l1]) 0x7000 0 = 0 ∧
    ent (mapped [l2, l1, (0x7000, 0x50003)]) 0x7000 0 = 0x50003 ∧
    (∀ i < 16, ent (mapped ([l2, l1] ++ group)) 0x7000 (3 / 16 * 16 + i) = 0x50023) ∧
    -- C64 at L3, a reserved bit at L2, LEAF at L5.
    ent (mapped [(0x3008, 0x3F)]) 0x3000 1 = 0x3F ∧ ent (mapped [l2, (0x6000, 0x7081)]) 0x6000 0 = 0x7081 ∧
    ent (mapped [(0x1000, 0x2011)]) 0x1000 0 = 0x2011 ∧
    (let t : Tlb := { pasid := placedPasid, va := 0, log := 12, pa := 0x9000, mem := 0, sysatom := false, r := true, w := false, x := false }
     ({ bench with tlb := [t] } : State).tlb = [t] ∧ t.va.toNat / 2 ^ t.log = (8 : DWord).toNat / 2 ^ t.log) := by decide +kernel

/-- A warp that waits for page group 3 and a request of that group, current and not; a translation asked for and answered;
an invalidation posted, of everything and of one page. -/
theorem witness_PagesAndTranslations :
    let w : Warp := { warp0 with port := { warp0.port with wait := some ⟨.page [3, grpRoom], 0⟩ } }
    let r (gen : Nat) : PageReq := { pasid := placedPasid, group := 3, queue := 0, gen := BitVec.ofNat 16 gen, page := 0x40000000, r := true, w := false, x := false }
    let s (gen : Nat) : State := { withWarp w with pageReqs := [r gen] }
    (∀ g ∈ [0, 1], (s g).warp? 2 = some w ∧ ((s g).warps.map Warp.uid).Nodup ∧ (s g).reqOf placedPasid 3 = some (r g) ∧ (s g).queues = [] ∧
      ((s g).pageReqs.map fun r => (r.pasid, r.group)).Nodup ∧ w.port.mask ≠ 0 ∧ w.port.fetch = none) ∧
    (s 0).current (r 0) = true ∧ (s 1).current (r 1) = false ∧ Logs (s 0) placedPasid ∧
    (let q : AtsReq := { pasid := placedPasid, page := 0x5000, core := 0 }
     let a : State := { flat bench with atsReqs := [q] }
     q ∈ a.atsReqs ∧ (a.ctx placedPasid).assist.getLsbD 0 = true) ∧
    (let v (len : Nat) : Inval := { seq := 7, base := 0, len := BitVec.ofNat 64 len, who := 0x80000000 }
     let p (len : Nat) : Part := { base := 0, size := 12, invals := [v len] }
     ∀ len ∈ [0, 4096], ({ flat bench with parts := [p len] } : State).parts.find? (fun x => x.base == 0) = some (p len)) := by
  refine ⟨by decide +kernel, by decide +kernel, by decide +kernel, logs_of (by decide +kernel), by decide +kernel, by decide +kernel⟩

/-- The bench with that warp and a park area of so many pages, its crew asked to yield or not and standing on its core or none. -/
def parking (w : Warp) (pages : Nat) (pre : Option Preempt) (core : Nat) : State :=
  let s := inRecord (inCtx (withWarp w) fun c => { c with crec := { c.crec with parkSize := BitVec.ofNat 64 (4096 * pages) } })
    fun l => { l with crewSize := 1 }
  { s with now := 4000, queues := [packet 0], crews := s.crews.map fun c => { c with pre := pre, core := core } }

/-- A warp asleep, where it stands or put away. -/
def sleeper (p : Place) : Warp := { warp0 with place := p, port := { warp0.port with wait := some ⟨.sleep 9000, 0⟩ } }

/-- The bench's warp asleep, with room in the park area and none; the same parked and saved; pre-emption asked for, in its
grace and past it, a point half arrived; a vector due, inside the handler and outside; a custodian. -/
theorem witness_SavesAndResumes :
    (∀ x ∈ [(Place.resident, 0), (.parked, 768), (.savedFull, 768), (.savedControl, 768)], ∀ pages ∈ [0, 128],
      ∀ pre ∈ [none, some (.deferred 0), some (.grace 4000), some (.grace 4001)],
        let t := parking (sleeper x.1) pages pre x.2
        (t.crew? 1).isSome = true ∧ t.warp? 2 = some (sleeper x.1) ∧ (t.warps.map Warp.uid).Nodup ∧
        (t.crews.map Crew.uid).Nodup ∧ (sleeper x.1).launch = 0 ∧ (sleeper x.1).wid < 64 ∧ (∀ c ∈ t.crews, c.launch = 0 ∧ c.core = x.2)) ∧
    (let s := parking (sleeper .resident) 128 none 0
     (sleeper .resident).port.parkSince = some 0 ∧ s.warpReady (sleeper .resident) = false ∧ s.runnable (sleeper .resident) = false ∧
       (sleeper .resident).star.mask = 0 ∧ (sleeper .resident).star.wait = none ∧
       ∀ c ∈ s.crews, s.parkUsed placedPasid + ((sleeper .resident).savePages true + s.crewPages c) ≤ 128 ∧
         ¬(sleeper .resident).savePages true + s.crewPages c ≤ 0) ∧
    Logs (parking (sleeper .resident) 128 (some (.grace 4000)) 0) placedPasid ∧
    (let s := parking { sleeper .parked with port := { warp0.port with wait := some ⟨.sleep 1, 0⟩ } } 128 none 768
     ∀ w ∈ s.warps, s.parkOver w = true) ∧
    (∀ x ∈ [Place.parked, .savedFull, .savedControl],
      let s := parking (sleeper x) 128 none 768
      s.mayRun 0 = true ∧ (s.warps.filter fun w => w.crew == 1).length ≤ (s.launch 0).lrec.crewSize ∧ (s.launch 0).lrec.item = false ∧
        ∀ c ∈ s.crews, s.fits (s.ctxPart placedPasid) 0 { s.crewNeeds c with slots := (s.launch 0).lrec.crewSize } = true) ∧
    (∀ w ∈ [warp0, sleeper .resident], (parking w 128 (some (.deferred 0)) 0).partlyArrived 1 = none ∧
      (parking w 128 (some (.deferred 0)) 0).runnable w = decide (w = warp0)) ∧
    (let s := teamed { parking (member 0 0 0) 128 (some (.deferred 0)) 0 with now := 500000 }
        { init := true, x := 2, a := 1, st := [(5, .arrived)] }
     (s.partlyArrived 1).isSome = true ∧ 0 + 1000 * (s.ctx placedPasid).crec.deferral ≤ s.now) ∧
    (withWarp { warp0 with due := some 5 }).warp? 2 = some { warp0 with due := some 5 } ∧ warp0.handler = none ∧ (handling 0x10 []).handler ≠ none ∧
    (let c := inRecord (inCtx bench fun c => { c with heirless := [1] }) fun l => { l with custodian := true }
     (c.ctx placedPasid).heirless = [1] ∧ c.runnable warp0 = true ∧ warp0.custDue = none) := by
  refine ⟨by decide +kernel, by decide +kernel, logs_of (by decide +kernel), by decide +kernel, by decide +kernel, by decide +kernel,
    by decide +kernel, by decide +kernel⟩

/-- A queue that is disabled, enabled, resetting with and without an event of its threads. -/
theorem witness_QueueReset :
    let s (st : QSt) (ds : List Death) : State := inCtx { bench with queues := [{ packet 0 with st := st }] } fun c => { c with deaths := ds }
    (∀ st ∈ [QSt.disabled, .mapped, .faulted, .resetting], ((s st []).queue 0).st = st) ∧
    ((s .resetting [{ dead := [], reset := some 0 }]).ctx placedPasid).deaths = [{ dead := [], reset := some 0 }] ∧
    (bench.queueOf warp0 = 0 ∧ warp0.live ≠ 0) := by decide +kernel

/-! The hypervisor, errors, the host. -/

/-- A queue that is disabled and one that is not; an assist word of a partition that is calm, and of one that is not. -/
theorem witness_DeviceRegisters :
    (State.reset.queue 0).st = .disabled ∧ ((piloting (packet 0)).queue 0).st = .mapped ∧
    (∃ p ∈ State.reset.parts, p.base = 0) ∧ (∀ q < State.reset.queues.length, (State.reset.queue q).st = .disabled) ∧
    ((piloting (packet 0)).queuePart 0).base = 0 ∧ (BitVec.ofNat 64 2047).toNat % 2 ^ 16 ≤ 2047 ∧
    ¬(BitVec.ofNat 64 2048).toNat % 2 ^ 16 ≤ 2047 := by
  refine ⟨by decide +kernel, by decide +kernel, ⟨{ base := 0, size := 12 }, by decide +kernel, rfl⟩, by decide +kernel, by decide +kernel, by decide +kernel⟩

/-- A partition of the whole module; an entry in every state; writes of a core's, a cluster's and a channel group's entry on a
module where nothing runs, one that names a spare among them; a request that waits in a port, an older one, and a store
outstanding under an entry; the two layouts, and one that overlaps. -/
theorem witness_ChartsAndPartitions :
    let whole : Part := { base := 0, size := 12 }
    (State.reset.parts.find? (fun x => x.base == 0)) = some whole ∧
    (∀ st ∈ [0, 1, 2, 3], (whole.setEntry 0x400 { st := BitVec.ofNat 2 st, phys := 5 }).entry 0x400 =
      { st := BitVec.ofNat 2 st, phys := 5 }) ∧
    -- Unit 5 for core 0, cluster 0 and channel group 0, in states 0 and 3; spare 0 for cluster 3, which has failed.
    (State.reset.warps = [] ∧ State.reset.queues.all (fun x => x.slot.isNone) = true ∧ whole.base ≤ 0 ∧ 0 < whole.base + whole.size ∧
      (∀ st ∈ [0, 3], ((BitVec.ofNat 64 (st * 2 ^ 62 + 5) : DWord).extractLsb' 62 2).toNat = st ∧
        ((BitVec.ofNat 64 (st * 2 ^ 62 + 5) : DWord).extractLsb' 0 24).toNat = 5) ∧
      (let s : State := { State.reset with failed := [3] }
       3 ∈ s.failed ∧ 48 + (whole.entry 0x303).phys.toNat / 12 = 48 ∧ 0 ∉ s.sparesUsed)) ∧
    (let part := bench.ctxPart placedPasid
     let held (t : Nat) (side : Side) : State :=
       withWarp (warp0.setSlot side { warp0.slot side with wait := some ⟨.stall 0x400, t⟩ })
     let far : Pend :=
       { core := 0, uid := 2, side := .port, pasid := placedPasid, queue := 0, key := 2 ^ 54, bytes := [1], peer := some 0x400 }
     let sent : State := { bench with turn := none, pends := [far] }
     (held 3 .port).inPort part 0x400 = [(3, 2, .port)] ∧ (held 3 .port).turnBehind part 0x400 = false ∧
       (held 3 .star).turnBehind part 0x400 = true ∧ bench.turnBehind part 0x400 = false ∧ bench.inPort part 0x400 = [] ∧
       (∃ q ∈ sent.pends, q.peer = some 0x400 ∧ q.key / 128 = (2 ^ 54 + (0 : BitVec 24).toNat * 2 ^ 43 + 0 % 2 ^ 43) / 128)) ∧
    (∀ r ∈ [(0, 6), (6, 6)], r.2 ∈ [1, 2, 3, 4, 6, 12] ∧ r.1 % r.2 = 0 ∧ r.1 + r.2 ≤ 12) ∧
    ([(0, 6), (6, 6)] : List (Nat × Nat)).Pairwise (fun a b => a.1 + a.2 ≤ b.1 ∨ b.1 + b.2 ≤ a.1) ∧
    (∀ q < State.reset.queues.length, (State.reset.queue q).st = .disabled) ∧ State.reset.pends = [] ∧
    ¬([(0, 12), (6, 6)] : List (Nat × Nat)).Pairwise (fun a b => a.1 + a.2 ≤ b.1 ∨ b.1 + b.2 ≤ a.1) := by
  refine ⟨by decide +kernel, by decide +kernel, by decide +kernel, by decide +kernel, by decide +kernel, by decide +kernel,
    by decide +kernel, by decide +kernel, by decide +kernel⟩

/-- A context that runs, is being suspended and is suspended, with one watch. -/
theorem witness_Suspension :
    let s (suspending suspended : Bool) : State :=
      inCtx (flat { bench with queues := [packet 0], watches := [{ ofs := 0, val := 1, cmp := 0, queue := 0 }] }) fun c =>
        { c with suspending := suspending, suspended := suspended, crec := { c.crec with parkSize := 0x100000 } }
    (∀ b ∈ [false, true], ((s b (!b)).warps.map Warp.uid).Nodup ∧ ((s b (!b)).crews.map Crew.uid).Nodup ∧
      (∀ w ∈ (s b (!b)).warps, ∃ c ∈ (s b (!b)).crews, c.uid = w.crew ∧ w.launch = c.launch)) ∧
    ((s false false).parkUsed placedPasid + ((s false false).crews.map fun y =>
      (((s false false).warps.filter fun w => w.crew == y.uid).map fun w => w.savePages true).sum + (s false false).crewPages y).sum ≤
        ((s false false).ctx placedPasid).crec.parkSize.toNat / 4096) ∧
    ((s false false).warps.map Warp.uid).Nodup ∧ ((s false false).crews.map Crew.uid).Nodup ∧
    (s false true).watches.filter (fun w => ((s false true).queue w.queue).pasid.toNat == placedPasid) =
      [{ ofs := 0, val := 1, cmp := 0, queue := 0 }] ∧ (s false true).monitors = [] ∧ calm (s false true) = true ∧
    (match (s false true).translate placedPasid 0x9000 { r := true } with | .ok _ => true | _ => false) = true := by decide +kernel

/-- A store on its way behind another to the same bytes; a line near a context, one of a core's with partials, and a clean one;
what a crew holds and does not; a lane that lives and one that is vacant; a rail above its threshold and at it, pinned and not. -/
theorem witness_ErrorHandling :
    let p (b : Byte) : Pend := { core := 0, uid := 2, side := .port, pasid := placedPasid, queue := 0, key := 0x5000, bytes := [b] }
    let line := lineOf (placeOf 0x5000)
    let s (st : L1St) : State := { bench with queues := [packet 0], cores := [{ l1 := [{ line := line, pasid := placedPasid, st := st }] }] }
    ({ bench with pends := [p 1, p 2] } : State).pends[1]? = some (p 2) ∧
    ((s (.clean [])).ctxNear line = some placedPasid ∧ bench.ctxNear line = none) ∧
    (∀ st ∈ [L1St.upd .add .u32 [(0, 5)], .clean []], ((s st).l1At 0 line).map L1Line.st = some st) ∧
    Logs ((s (.clean [])).markBad line) placedPasid ∧ Logs ((s (.upd .add .u32 [(0, 5)])).dropL1 0 line) placedPasid ∧
    ((bench.crew? 1).map fun c => (c.nT, c.nE, c.nL, c.locBad)) = some (16, 8, 0, []) ∧
    ((local1 warp0).crew? 1).isSome = true ∧
    (∀ w ∈ [warp0, { warp0 with lanes := lanesBy fun l => { st := if l = 30 then .vacant else .live } }],
      (withWarp w).warp? 2 = some w ∧ w.live ≠ 0 ∧ (w.lane 0).st ≠ .vacant ∧ ((w.lane 30).st = .vacant ↔ w ≠ warp0)) ∧
    Logs bench placedPasid ∧
    (let s : State := { bench with now := 1000000000, power := { bench.power with window := [17, 16] } }
     s.power.nextWindow ≤ s.now ∧ s.power.threshold < tget 0 s.power.window 0 ∧ tget 0 s.power.window 1 ≤ s.power.threshold) := by
  refine ⟨by decide +kernel, by decide +kernel, by decide +kernel, logs_of (by decide +kernel), logs_of (by decide +kernel),
    by decide +kernel, by decide +kernel, by decide +kernel, logs_of (by decide +kernel), by decide +kernel⟩

/-- A cluster in use, one that has failed, one past the last; an item that is relaunched and one that is not; three deaths in a
second; a spare that is free and one that is used. -/
theorem witness_ClusterFailures :
    let w : Warp := lone { warp0 with lanes := lanesBy fun l => { st := .live, tid := BitVec.ofNat 32 l, replay := l == 0 } }
    let s := ringed (withWarp w)
    (∃ v ∈ s.warps, v.place = .resident ∧ v.core / 16 = 0) ∧ (∃ l ∈ s.launches, l.uid = w.launch) ∧
    (∃ c ∈ s.ctxs, c.pasid = s.pasidOf w) ∧ (0 : Nat) ∉ s.failed ∧ (s.warps.map Warp.uid).Nodup ∧ s.replays w 0 = true ∧ s.replays w 1 = false ∧
    ({ bench with laneDeaths := [(3, 0), (3, 0), (3, 0)] } : State).failing = some 3 ∧ bench.failing = none ∧
    (let f (used : List Nat) : State := { bench with failed := [47], sparesUsed := used }
     (f []).parts.find? (fun p => p.has (47 / 4)) = some { base := 0, size := 12 } ∧ ((f []).parts.map Part.base).Nodup ∧
       47 ∈ (f [3]).failed ∧ (({ base := 0, size := 12 } : Part).entry (0x300 + 47)).phys.toNat / 12 ∈ (f [3]).sparesUsed ∧
       (({ base := 0, size := 12 } : Part).entry (0x300 + 47)).st ≠ 3 ∧ 3 ∉ (f []).sparesUsed ∧
       ((f []).assist { base := 0, size := 12 }).getLsbD 4 = false) ∧
    ({ base := 0, size := 12, chart := [(0x300 + 47, { st := 0, phys := 51 })] } : Part).entry (0x300 + 47) = { st := 0, phys := 51 } := by
  refine ⟨⟨_, List.mem_singleton.mpr rfl, by decide +kernel⟩, ⟨_, List.mem_singleton.mpr rfl, by decide +kernel⟩,
    ⟨_, List.mem_singleton.mpr rfl, by decide +kernel⟩, by decide +kernel, by decide +kernel, by decide +kernel, by decide +kernel,
    by decide +kernel, by decide +kernel, by decide +kernel, by decide +kernel⟩

/-- The last bytes of the module and one past them, good and bad; an AtomicOp that fits and one that does not. -/
theorem witness_HostAccesses :
    bench.parts.find? (fun p => p.base == 0) = some { base := 0, size := 12 } ∧ calm bench = true ∧
    (12 * 2 ^ 36 - 4) + 4 ≤ (12 : Nat) * 2 ^ 36 ∧ (12 : Nat) * 2 ^ 36 < (12 * 2 ^ 36 - 3) + 4 ∧
    ({ bench with bad := [lineOf (placeOf 0x5000)] } : State).isBad (placeOf 0x5000) 1 = true ∧
    (bench.partOf 0).base = 0 ∧ (∀ b < 4, ∀ c < 4, placeOf (0x5000 + b) = placeOf (0x5000 + c) → b = c) ∧
    (0x5004 % 4 = 0 ∧ 0x5002 % 4 ≠ 0) := by decide +kernel

/-- Nothing booted, booted and powered down; two good images and one; every stage of SPDM. -/
theorem witness_BootAndManagement :
    State.reset.sec.booted = false ∧ State.reset.power.down = false ∧ State.reset.sec.recovery = false ∧
    (let x : BootImage := { version := 0, ed25519 := true, mldsa := true, digest := 5 }
     [x, x].length = 2 ∧ (∀ y ∈ [x, x], y.ed25519 = true ∧ y.mldsa = true ∧ State.reset.sec.fuse ≤ y.version)) ∧
    (∀ st ∈ [Spdm.start, .version, .caps, .algs], ({ State.reset.sec with booted := true, spdm := st } : Sec).spdm = st) := by decide +kernel

/-- A well-formed word of each format, and one that `encode` takes and that does not decode to itself but to `qpush`. -/
theorem witness_DecodeEncode :
    (∀ i ∈ aluWords ++ controlWords ++ [Instr.qpushPipe { z with d := .q 0, a := .v 1 }], i.WellFormed ∧ i.encode.isSome = true) ∧
    (∀ i ∈ [Instr.ldi 4 1, .done, .wait 3 1 0 0], i.WellFormed ∧ i.pilotEncode.isSome = true) := by decide +kernel

/-- A park area, its stack region mapped. -/
def stacked (l : List SEntry) : State :=
  inCtx (flat (withWarp { warp0 with stack := l })) fun c => { c with crec := { c.crec with parkSize := 0x100000 } }

/-- A state whose memory is canonical; and turns of every kind: a slot's that may issue and may not, whose word is in memory, held
by the core, past the space, not executable, in a bad line or refused by the host; a queue's, an event's, no one's; a vector that
is due; and a stack that has grown and one that has not. -/
theorem witness_steps :
    Memory.wf bench.mem = true ∧ (∀ c ∈ bench.crews, Memory.wf c.loc = true) ∧
    (bench.agenda = [⟨1, .slot 2 .port⟩] ∧ bench.warp? 2 = some warp0 ∧ bench.mayIssue warp0 .port .vector = true ∧ bench.power.down = false ∧
      ({ bench with cycle := [⟨0, .vector, 7, .port⟩] } : State).mayIssue warp0 .port .vector = false ∧ warp0.port.unfetchable = false) ∧
    (match bench.run placedPasid warp0.port.pc 16 { x := true } with | .ok _ => true | _ => false) = true ∧ calm bench = true ∧
    (({ bench with cores := [{ code := [⟨placedPasid, placeOf 0x4000, 5⟩] }] } : State).codeAt 0 placedPasid (placeOf 0x4000) = some 5 ∧
      bench.codeAt 0 placedPasid (placeOf 0x4000) = none) ∧
    (2 ^ 57 < ((BitVec.ofNat 64 (2 ^ 57 - 8) : DWord)).toNat + 16) ∧
    (({ bench with mem := Memory.set bench.mem ((bench.ctxPart placedPasid).hbm 0x3008) 0x17 } : State).run placedPasid 0x40000000 16
      { x := true } = .bad 0x40000000 .refused) ∧
    (let y : Slot := { warp0.port with denied := [BitVec.ofNat 64 0x4000], fetch := some ⟨.page [], 0⟩ }
     y.unfetchable = true) ∧
    (let s : State := { bench with bad := [lineOf (placeOf 0x4000)] }
     s.fetch 0 placedPasid warp0.port.pc = .bad ∧ (s.deliverDue warp0 .port).isNone = true) ∧
    (∃ d, ({ bench with warps := [{ warp0 with due := some 5 }] } : State).deliverDue { warp0 with due := some 5 } .port = some d) ∧
    ((piloting (packet 0)).interprets 0 = true ∧ (packet 0).pc < (packet 0).code.length ∧ (packet 0).budget ≠ 0) ∧
    State.reset.agenda = [] ∧
    (∀ w ∈ bench.warps, bench.stackBad w = false ∧ w.entries = []) ∧
    (let e : SEntry := ⟨0x4000, 1, 0, 0, 0⟩
     let w : Warp := { warp0 with stack := [e] }
     (stacked []).warp? 2 = some warp0 ∧ (stacked [e]).warp? 2 = some w ∧ w.entries = warp0.entries ++ [e] ∧ w.entries = w.entries ∧
       ((stacked [e]).ctx placedPasid).late = [] ∧ (stacked [e]).entryVa w 0 = some 0x13000000 ∧
       ((stacked [e]).entryBytes placedPasid 0x13000000).isSome = true ∧
       (match (stacked [e]).run placedPasid 0x13000000 16 { w := true } with | .ok [(_, 16)] => true | _ => false) = true) := by
  refine ⟨by decide +kernel, by decide +kernel, by decide +kernel, by decide +kernel, by decide +kernel, by decide +kernel, by decide +kernel,
    by decide +kernel, by decide +kernel, by decide +kernel, Option.isSome_iff_exists.mp (by decide +kernel), by decide +kernel, by decide +kernel,
    by decide +kernel, by decide +kernel⟩

end Sys2Proof.Tests
end

section
/-! SUPPORT. Instructions that complete without being an `Issue.alu`: their warp, and two destinations of one word. -/

namespace Sys2Proof.Machine

/-- An instruction that is done has its warp in the next state, past it. -/
theorem done_completes {i : Instr} {s : State} {uid : Nat} {side : Side} {w : Warp} (h : Issues i s uid side w)
    (v : Warp) (hv : { v with lanes := w.lanes, sregs := w.sregs, soiled := w.soiled, flags := w.flags } = w) :
    (issueOf i s side w).done v = s.setWarp (v.advance side i) ∧
      (s.setWarp (v.advance side i)).warp? uid = some (v.advance side i) ∧ Completes i side w (v.advance side i) := by
  have hp : v.port = w.port := by simpa using congrArg Warp.port hv
  have hs : v.star = w.star := by simpa using congrArg Warp.star hv
  have hu : v.uid = uid := (congrArg Warp.uid hv).trans (State.warp?_uid h.warp)
  refine ⟨rfl, ?_, completes_advance w v side i hp hs ?_⟩
  · have hw : s.warp? (v.advance side i).uid = some w := by rw [Warp.advance_uid, hu]; exact h.warp
    simpa [hu] using State.warp?_setWarp _ hw
  · cases v; cases w; simp_all

/-- The step past an instruction touches no register. -/
theorem Regs.advance {w v : Warp} {r : Nat → Nat → Word} {p : Nat → BitVec 4 → Bool} {a : Nat → Word} {q : Nat → Bool}
    (h : Regs w v r p a q) (side : Side) (i : Instr) : Regs w (v.advance side i) r p a q := by
  obtain ⟨hv, hp, hs, hq, hl⟩ := h
  exact ⟨by simpa using hv, by simpa using hp, by simpa using hs, by simpa using hq, by simpa using hl⟩

theorem SameRegs.refl (w : Warp) : SameRegs w w :=
  ⟨fun _ _ _ _ => rfl, fun _ _ _ => rfl, fun _ => rfl, fun _ _ => rfl, fun _ _ => rfl⟩

/-- An instruction that is skipped has no effect but its own issue. -/
theorem skips_of_skip {i : Instr} {s : State} {uid : Nat} {side : Side} {w : Warp} (h : Issues i s uid side w)
    (he : exec i s = .next (issueOf i s side w).skip) : Skips i s uid side w := by
  obtain ⟨hd, hu, hc⟩ := done_completes h w rfl
  exact ⟨w.advance side i, he.trans (congrArg _ hd), hu, hc, (SameRegs.refl w).advance side i, by simp⟩

/-- A word that writes vector registers and a predicate. -/
theorem regs_write_vector_predicate (w : Warp) (tp : Word) (n : BitVec 8) (m : BitVec 4) (k : Nat)
    (val out : Nat → Nat) :
    Regs w ((w.write tp (.v n) k val).write tp (.p m) 1 out) (vAfter w tp (.v n) k val) (pAfter w tp (.p m) out) w.sreg
      w.soiled.getLsbD := by
  have h1 := Warp.write_regs w tp (.v n) k val
  generalize w.write tp (.v n) k val = v at h1
  have h2 := Warp.write_regs v tp (.p m) 1 out
  refine ⟨fun l hl r hr => (h2.vreg l hl r hr).trans (h1.vreg l hl r hr), fun l hl q => ?_,
    fun r => (h2.sreg r).trans (h1.sreg r), fun r hr => (h2.soiled r hr).trans (h1.soiled r hr), fun l hl => ?_⟩
  · rw [h2.preg l hl q, pAfter, h1.preg l hl q]; rfl
  · exact (congrArg (fun y : Lane => { y with v := (w.lane l).v, p := (w.lane l).p }) (h2.lane l hl)).trans (h1.lane l hl)

end Sys2Proof.Machine
end

section
/-! SUPPORT. Integer arithmetic (R65): the values of the operations as the statements write them. Here and below
`show execMadw f s = _ from rfl` names the meaning that `exec` gives the instruction, in whose body the operation is found. -/

namespace Sys2Proof.Machine

theorem intBits_eq_fitInt (w : Nat) (signed : Bool) (x : Int) : intBits w x = fitInt w signed false x := by
  simp [fitInt_eq]

/-- An element cut out of a number, read as an integer. -/
theorem intOf_element (w : Nat) (signed : Bool) (x e : Nat) :
    intOf w signed (element w x e) = intOf w signed (x / 2 ^ (w * e)) := intOf_mod _ _ _

/-- R65: the widening product is exact in 64 bits. -/
theorem valueOp_madw (f : Fields) : ValueOp (.madw f) f 2 (fun w l v =>
    v = fitInt 64 f.ty.signed false
      (toInt 32 f.ty.signed (operandAt 1 f w l f.a) * toInt 32 f.ty.signed (operandAt 1 f w l f.b) +
        operandAt 2 f w l f.c)) := by
  refine valueOp_of_alu _ (fun s => show execMadw f s = _ from rfl) (fun _ _ => rfl) fun x l => ?_
  rw [toInt_eq, toInt_eq, ← intBits_eq_fitInt]
  rfl

/-- R65: the sum of four byte products and c. -/
theorem valueOp_idp4 (f : Fields) : ValueOp (.idp4 f) f 1 (fun w l v =>
    let byte (o : Opnd) (k : Nat) : Int := toInt 8 f.ty.signed (element 8 (operandAt 1 f w l o) k)
    v = fitInt 32 f.ty.signed false
      (toInt 32 f.ty.signed (operandAt 1 f w l f.c) + (byte f.a 0 * byte f.b 0 + byte f.a 1 * byte f.b 1 +
        byte f.a 2 * byte f.b 2 + byte f.a 3 * byte f.b 3))) := by
  refine valueOp_of_alu _ (fun s => show execIdp4 f s = _ from rfl) (fun _ _ => rfl) fun x l => ?_
  simp only [toInt_eq, intOf_element, ← intBits_eq_fitInt]
  rfl

end Sys2Proof.Machine

open Sys2Proof Sys2Proof.Machine

/-- Settles O1: each instruction is an `Issue.arith` whose integer function is the one of R65. -/
theorem integerArithmetic : Obligations.IntegerArithmetic := by
  intro f
  refine ⟨intOp_of_arith [f.a, f.b] _ (fun _ => rfl) fun _ => rfl,
    intOp_of_arith [f.a, f.b] _ (fun _ => rfl) fun _ => rfl,
    intOp_of_arith [f.a, f.b] _ (fun _ => rfl) fun _ => rfl,
    intOp_of_arith [f.a, f.b] _ (fun _ => rfl) fun a => ?mulhi,
    intOp_of_arith [f.a, f.b, f.c] _ (fun _ => rfl) fun _ => rfl,
    intOp_of_arith [f.a, f.b] _ (fun _ => rfl) fun a => ?min,
    intOp_of_arith [f.a, f.b] _ (fun _ => rfl) fun a => ?max,
    intOp_of_arith [f.a] _ (fun _ => rfl) fun a => ?abs,
    intOp_of_arith [f.a] _ (fun _ => rfl) fun a => ?neg,
    intOp_of_arith [f.a, f.b, f.c] _ (fun _ => rfl) fun _ => rfl,
    valueOp_madw f, valueOp_idp4 f⟩
  case mulhi => simp [arg]
  case min => simp only [arg, List.map, List.getD_cons_zero, List.getD_cons_succ]; omega
  case max => simp only [arg, List.map, List.getD_cons_zero, List.getD_cons_succ]; omega
  case abs => simp only [arg, List.map, List.getD_cons_zero]; omega
  case neg => exact (Int.zero_sub _).symm
end

section
/-! SUPPORT. Carry, borrow, quotient and remainder (R66, R67) as exact integers. -/

namespace Sys2Proof.Machine

/-! ### Carry and borrow (R66) -/

/-- The exact sum or difference of R66. -/
def carryInt (minus : Bool) (a b c : Nat) : Int := if minus then (a : Int) - b - c else a + b + c

theorem carryOp_fst {w a b c : Nat} (minus : Bool) (hb : b < 2 ^ w) (hc : c ≤ 1) :
    (carryOp w minus a b c).1 = (carryInt minus a b c % (2 ^ w : Nat)).toNat := by
  cases minus with
  | false => simp only [carryOp, carryInt, Bool.false_eq_true, if_false]; exact (Int.toNat_natCast _).symm
  | true =>
    have hx : (a : Int) - b - c = (a + 2 ^ (w + 1) - b - c : Nat) + (-2) * (2 ^ w : Nat) := by
      rw [Nat.pow_succ]; omega
    simp only [carryOp, carryInt, if_true]
    rw [hx, Int.add_mul_emod_self_right]
    exact (Int.toNat_natCast _).symm

theorem carryOp_snd {w a b c : Nat} (minus : Bool) (ha : a < 2 ^ w) :
    (carryOp w minus a b c).2 = decide ((2 ^ w : Nat) ≤ carryInt minus a b c ∨ carryInt minus a b c < 0) := by
  cases minus <;> simp only [carryOp, carryInt, Bool.false_eq_true, if_false, if_true, decide_eq_decide] <;> omega

/-- A predicate or none reads 0 or 1. -/
theorem operandAt_le_one {f : Fields} {al : Allot} {o : Opnd} (ho : OSpec.ok oPN al o = true) (w : Warp) (l : Nat) :
    operandAt 1 f w l o ≤ 1 := by
  cases o with
  | p n => simp only [operandAt, Warp.opnd]; split <;> omega
  | none => exact Nat.zero_le 1
  | _ => simp [OSpec.ok, oPN] at ho

/-- What `Issue.carry` does: the result in D, the carry or borrow in E, and nothing else. -/
theorem carry_completes {i : Instr} {f : Fields} {s : State} {uid : Nat} {side : Side} {w : Warp} (minus : Bool)
    (h : Issues i s uid side w) (he : exec i s = issue i s fun x => x.carry f minus) {n : BitVec 8} (hn : f.d = .v n)
    {m : BitVec 4} (hm : f.e = .p m) :
    let r (l : Nat) : Nat × Bool :=
      carryOp f.ty.elem minus (operand f w l f.a) (operand f w l f.b) (operandAt 1 f w l f.c)
    ∃ w', exec i s = .next (s.setWarp w') ∧ (s.setWarp w').warp? uid = some w' ∧ Completes i side w w' ∧
      Regs w w' (vAfter w (partOf i w side) f.d f.ty.regs fun l => (r l).1)
        (pAfter w (partOf i w side) f.e fun l => if (r l).2 then 1 else 0) w.sreg w.soiled.getLsbD ∧
      w'.flags = w.flags := by
  intro r
  have hr := regs_write_vector_predicate w (partOf i w side) n m f.ty.regs (fun l => (r l).1) fun l => if (r l).2 then 1 else 0
  rw [hn, hm]
  obtain ⟨hw, hu, hc⟩ := done_completes h ((w.write (partOf i w side) (.v n) f.ty.regs fun l => (r l).1).write
    (partOf i w side) (.p m) 1 fun l => if (r l).2 then 1 else 0) rfl
  refine ⟨_, ?_, hu, hc, hr.advance side i, by simp⟩
  rw [he, issue_eq h, ← hw, Issue.carry, hn, hm]
  rfl

/-- The same in the integers of R66. -/
theorem carry_computes {i : Instr} {f : Fields} {s : State} {uid : Nat} {side : Side} {w : Warp} (minus : Bool)
    (h : Issues i s uid side w) (he : exec i s = issue i s fun x => x.carry f minus) (hty : f.ty ∈ setI)
    (hd : ∃ n, f.d = .v n) (hp : ∃ m, f.e = .p m) (hc : OSpec.ok oPN (s.allotOf w) f.c = true) :
    let x (l : Nat) : Int := carryInt minus (operand f w l f.a) (operand f w l f.b) (operandAt 1 f w l f.c)
    ∃ w', exec i s = .next (s.setWarp w') ∧ (s.setWarp w').warp? uid = some w' ∧ Completes i side w w' ∧
      Regs w w' (vAfter w (partOf i w side) f.d f.ty.regs fun l => (x l % (2 ^ f.ty.elem : Nat)).toNat)
        (pAfter w (partOf i w side) f.e fun l => if (2 ^ f.ty.elem : Nat) ≤ x l ∨ x l < 0 then 1 else 0)
        w.sreg w.soiled.getLsbD ∧ w'.flags = w.flags := by
  intro x
  obtain ⟨n, hn⟩ := hd
  obtain ⟨m, hm⟩ := hp
  have hcin (l : Nat) : operandAt 1 f w l f.c ≤ 1 := operandAt_le_one hc w l
  have hfst (l : Nat) := carryOp_fst (a := operand f w l f.a) minus (operand_lt w l f.b hty) (hcin l)
  have hsnd (l : Nat) := carryOp_snd (b := operand f w l f.b) (c := operandAt 1 f w l f.c) minus (operand_lt w l f.a hty)
  simpa only [hfst, hsnd, decide_eq_true_eq] using carry_completes minus h he hn hm

/-! ### Quotient and remainder (R67) -/

theorem quot_eq (signed : Bool) (a b : Int) :
    quot signed a b = if b = 0 then (if signed ∧ a < 0 then 1 else -1) else Int.tdiv a b := by
  simp [quot]

theorem remainder_eq (a b : Int) : remainder a b = if b = 0 then a else a - b * Int.tdiv a b := by
  simp [remainder, Int.tmod_def]

end Sys2Proof.Machine

open Sys2Proof Sys2Proof.Machine

/-- Settles O2: `addc` and `subb` by the shared `Issue.carry`, `div` and `rem` element by element. -/
theorem integerCarryAndDivision : Obligations.IntegerCarryAndDivision := by
  refine ⟨fun f s uid side w => ⟨fun h => ?addc, fun h => ?subb⟩, fun f =>
    ⟨intOp_of_arith [f.a, f.b] _ (fun _ => rfl) fun _ => quot_eq ..,
      intOp_of_arith [f.a, f.b] _ (fun _ => rfl) fun _ => remainder_eq ..⟩⟩
  case addc =>
    have hk := Instr.checked (i := .addc f) rfl rfl h.ok
    exact carry_computes false h rfl (List.contains_iff_mem.mp hk.ty) (OSpec.ok_v hk.d) (OSpec.ok_p hk.e) hk.c
  case subb =>
    have hk := Instr.checked (i := .subb f) rfl rfl h.ok
    exact carry_computes true h rfl (List.contains_iff_mem.mp hk.ty) (OSpec.ok_v hk.d) (OSpec.ok_p hk.e) hk.c
end

section
/-! SUPPORT. Logic, shifts, bit fields, counts and bytes (R68 to R72): the bits of the operations. -/

namespace Sys2Proof.Machine

/-! ### Logic (R68) -/

theorem testBit_notBits (w a j : Nat) : (notBits w a).testBit j = (decide (j < w) && !a.testBit j) := by
  have h := Nat.testBit_two_pow_sub_succ (Nat.mod_lt a (Nat.two_pow_pos w)) j
  rw [Nat.add_comm, ← Nat.sub_sub] at h
  rw [notBits, h, Nat.testBit_mod_two_pow]
  by_cases hj : j < w <;> simp [hj]

theorem lutBit_eq (lut : Nat) (a b c : Bool) : lutBit lut a b c =
    lut.testBit ((if a then 1 else 0) + 2 * (if b then 1 else 0) + 4 * (if c then 1 else 0)) := by
  cases a <;> cases b <;> cases c <;> rfl

/-! ### Shifts (R69) -/

theorem shlBits_mod (w a n : Nat) : shlBits w a n % 2 ^ w = if n < w then a * 2 ^ n % 2 ^ w else 0 := by
  unfold shlBits
  by_cases h : n < w
  · rw [if_neg (by omega), if_pos h, Nat.mod_mod]
  · rw [if_pos (by omega), if_neg h, Nat.zero_mod]

theorem shrBits_mod {w a : Nat} (n : Nat) (ha : a < 2 ^ w) :
    shrBits w a n % 2 ^ w = if n < w then a / 2 ^ n else 0 := by
  unfold shrBits
  by_cases h : n < w
  · rw [if_neg (by omega), if_pos h, Nat.mod_eq_of_lt (Nat.lt_of_le_of_lt (Nat.div_le_self _ _) ha)]
  · rw [if_pos (by omega), if_neg h, Nat.zero_mod]

theorem sraBits_mod (w a n : Nat) : sraBits w a n % 2 ^ w =
    fitInt w true false (toInt w true a / (2 ^ (if n < w then n else w) : Nat)) := by
  have hm : min n w = if n < w then n else w := by split <;> omega
  rw [sraBits, Nat.mod_eq_of_lt (intBits_lt _ _), intBits_eq_fitInt w true, toInt_eq, hm]
  push_cast
  rfl

theorem rolBits_mod (w a n : Nat) :
    rolBits w a n % 2 ^ w = (a * 2 ^ (n % w) + a / 2 ^ (w - n % w)) % 2 ^ w := Nat.mod_mod _ _

/-! ### Bit fields (R70) -/

theorem testBit_bextBits (w : Nat) (signed : Bool) (a p k j : Nat) :
    let bit (i : Nat) : Bool := if i < w then a.testBit i else signed && a.testBit (w - 1)
    (bextBits w signed a p k).testBit j = (decide (j < w) &&
      if j < min k w then bit (p + j) else signed && decide (0 < min k w) && bit (p + min k w - 1)) := by
  intro bit
  rw [bextBits, testBit_ofBits]
  by_cases hj : j < min k w
  · simp only [hj, if_true]; rfl
  · simp only [hj, if_false]
    by_cases hk : 0 < min k w
    · rw [Nat.add_sub_assoc hk]
    · simp only [hk, decide_false, Bool.and_false, Bool.false_and]

theorem testBit_binsBits (w a b p k j : Nat) :
    (binsBits w a b p k).testBit j = (decide (j < w) &&
      if p ≤ j ∧ j < p + min k w then b.testBit (j - p) else a.testBit j) := by
  rw [binsBits, testBit_ofBits]
  simp only [Bool.and_eq_true, decide_eq_true_eq]

/-! ### Counts (R71) -/

theorem length_filter_testBit (w a : Nat) :
    ((List.range w).filter fun i => a.testBit i).length = ((List.range w).map fun i => a.testBit i).count true := by
  rw [List.count, List.countP_map, List.countP_eq_length_filter]
  congr 2
  funext i
  simp

theorem bitLen_of_ne_zero {a : Nat} (ha : a ≠ 0) : bitLen a = Nat.log2 a + 1 := by simp [bitLen, ha]

theorem lt_two_pow_bitLen (a : Nat) : a < 2 ^ bitLen a := by
  by_cases ha : a = 0
  · simp [ha, bitLen]
  · rw [bitLen_of_ne_zero ha]; exact Nat.lt_log2_self

theorem bitLen_le {a w : Nat} (h : a < 2 ^ w) : bitLen a ≤ w := by
  by_cases ha : a = 0
  · simp [ha, bitLen]
  · rw [bitLen_of_ne_zero ha]; exact (Nat.log2_lt ha).mpr h

theorem testBit_bitLen_pred {a : Nat} (h : 0 < bitLen a) : a.testBit (bitLen a - 1) = true := by
  by_cases ha : a = 0
  · simp [ha, bitLen] at h
  · rw [bitLen_of_ne_zero ha]; exact Nat.testBit_log2 ha

/-- Above its length a number has no bit, and the bit below is its top one. -/
theorem clz_spec {a w : Nat} (h : a < 2 ^ w) :
    w - bitLen a ≤ w ∧ (∀ i, w - (w - bitLen a) ≤ i → i < w → a.testBit i = false) ∧
      (w - bitLen a < w → a.testBit (w - 1 - (w - bitLen a)) = true) := by
  have hl := bitLen_le h
  refine ⟨Nat.sub_le _ _, fun i hi _ => Nat.testBit_lt_two_pow ?_, fun hv => ?_⟩
  · exact Nat.lt_of_lt_of_le (lt_two_pow_bitLen a) (Nat.pow_le_pow_right (by omega) (by omega))
  · rw [show w - 1 - (w - bitLen a) = bitLen a - 1 by omega]
    exact testBit_bitLen_pred (by omega)

/-- The count of trailing zero bits of `w` bits. -/
def ctzBits (w a : Nat) : Nat :=
  match (List.range w).find? fun i => a.testBit i with
  | some i => i
  | none => w

theorem ctz_spec (w a : Nat) :
    ctzBits w a ≤ w ∧ (∀ i < ctzBits w a, a.testBit i = false) ∧ (ctzBits w a < w → a.testBit (ctzBits w a) = true) := by
  unfold ctzBits
  cases hf : (List.range w).find? fun i => a.testBit i with
  | none =>
    rw [List.find?_range_eq_none] at hf
    exact ⟨Nat.le_refl w, fun i hi => by simpa using hf i hi, fun h => absurd h (Nat.lt_irrefl w)⟩
  | some k =>
    obtain ⟨hk, hw, hlow⟩ := List.find?_range_eq_some.mp hf
    exact ⟨Nat.le_of_lt (List.mem_range.mp hw), fun i hi => by simpa using hlow i hi, fun _ => hk⟩

/-! ### Bytes (R72) -/

theorem bpermByte_lt (y c : Nat) : bpermByte y c < 2 ^ 8 := by
  unfold bpermByte
  simp only
  split
  · exact Nat.mod_lt _ (by decide)
  · decide
  · split <;> decide
  · decide

/-- The sign of a byte is its top bit. -/
theorem le_iff_testBit_seven {b : Nat} (h : b < 256) : 128 ≤ b ↔ b.testBit 7 = true := by
  rw [Nat.testBit_eq_decide_div_mod_eq, decide_eq_true_eq]
  omega

theorem bpermByte_eq (y c : Nat) :
    bpermByte y c = match c / 8 % 4 with
      | 0 => element 8 y (c % 8)
      | 1 => 0
      | 2 => if (element 8 y (c % 8)).testBit 7 then 255 else 0
      | _ => 255 := by
  simp only [← le_iff_testBit_seven (show element 8 y (c % 8) < 256 from Nat.mod_lt _ (by decide))]
  rfl

/-- R72: every byte of the result by its own byte of `c`. -/
theorem element_bperm (y c k : Nat) (hk : k < 4) :
    element 8 ((List.range 4).foldl (fun acc k => acc + bpermByte y (c / 2 ^ (8 * k) % 256) * 2 ^ (8 * k)) 0) k =
      bpermByte y (element 8 c k) :=
  element_join 8 (fun k => bpermByte y (c / 2 ^ (8 * k) % 256)) (fun _ => bpermByte_lt _ _) 4 k hk

end Sys2Proof.Machine

open Sys2Proof Sys2Proof.Machine

/-- Settles O3: the logic instructions bit by bit, the shifts element by element. -/
theorem logicAndShifts : Obligations.LogicAndShifts := by
  refine ⟨fun f => ⟨
      bitOp_of_bits [f.a, f.b] _ (fun _ => rfl) fun _ _ _ => Nat.testBit_and _ _ _,
      bitOp_of_bits [f.a, f.b] _ (fun _ => rfl) fun _ _ _ => Nat.testBit_or _ _ _,
      bitOp_of_bits [f.a, f.b] _ (fun _ => rfl) fun _ _ _ => Nat.testBit_xor _ _ _,
      bitOp_of_bits [f.a, f.b] _ (fun _ => rfl) fun a j hj => ?andn,
      bitOp_of_bits [f.a] _ (fun _ => rfl) fun a j hj => ?not,
      bitOp_of_bits [f.a, f.b, f.c] _ (fun _ => rfl) fun a j hj => ?lop3,
      bitOp_of_bits [f.a] _ (fun _ => rfl) fun a j hj => ?brev⟩,
    fun f => ⟨
      shiftOp_of_shift _ (fun _ => rfl) fun _ _ _ => shlBits_mod _ _ _,
      shiftOp_of_shift _ (fun _ => rfl) fun _ n ha => shrBits_mod n ha,
      shiftOp_of_shift _ (fun _ => rfl) fun _ _ _ => sraBits_mod _ _ _,
      shiftOp_of_shift _ (fun _ => rfl) fun _ _ _ => rolBits_mod _ _ _,
      valueOp_of_alu _ (fun s => show execFsh f s = _ from rfl) (fun _ _ => rfl) fun _ _ => rfl⟩⟩
  case andn => simp [nat, Nat.testBit_and, testBit_notBits, hj]
  case not => simp [nat, testBit_notBits, hj]
  case lop3 => simp [nat, testBit_ofBits, lutBit_eq, hj]
  case brev => simp [nat, testBit_ofBits, hj]

/-- Settles O4: each value is that of the model's function, whose bits, bytes or bounds the lemmas above give. -/
theorem integerBits : Obligations.IntegerBits := by
  intro f
  refine ⟨
    valueOp_of_alu _ (fun s => show execBext f s = _ from rfl) (fun _ _ => rfl) fun _ _ j => testBit_bextBits _ _ _ _ _ j,
    valueOp_of_alu _ (fun s => show execBins f s = _ from rfl) (fun _ _ => rfl) fun _ _ j => testBit_binsBits _ _ _ _ _ j,
    valueOp_of_alu _ (fun s => show execPopc f s = _ from rfl) (fun _ _ => rfl) fun _ _ => length_filter_testBit _ _,
    computes_of_alu _ (fun s => show execClz f s = _ from rfl) (fun s uid side w h l _ => ?clz) fun _ _ _ _ _ => resultFlags_zero _ _,
    valueOp_of_alu _ (fun s => show execCtz f s = _ from rfl) (fun _ _ => rfl) fun _ _ => ctz_spec _ _,
    valueOp_of_alu _ (fun s => show execBperm f s = _ from rfl) (fun _ _ => rfl) fun x l => ?bperm⟩
  case clz =>
    have hk := Instr.checked (i := .clz f) rfl rfl h.ok
    exact clz_spec (operand_lt w l f.a (List.contains_iff_mem.mp hk.ty))
  case bperm =>
    intro y k hk
    exact (element_bperm y (operandAt 1 f x.w l f.c) k hk).trans (bpermByte_eq _ _)
end

section
/-! SUPPORT. Comparison, address sums, masks and the lane read (R73 to R81). -/

namespace Sys2Proof.Machine

/-! ### Comparison and predicate tables (R73, R77) -/

/-- A truth value written as 0 or 1 reads as it was. -/
@[simp] theorem ite_one_zero_bne (b : Bool) : ((if b then 1 else 0 : Nat) != 0) = b := by cases b <;> rfl

theorem intRel_eq (cc : Nat) (a b : Int) : intRel cc a b = match cc with
    | 0 => decide (a = b)
    | 1 => decide (a ≠ b)
    | 2 => decide (a < b)
    | 3 => decide (a ≤ b)
    | 4 => decide (b < a)
    | _ => decide (b ≤ a) := by
  match cc with
  | 1 => exact decide_not.symm
  | 0 | 2 | 3 | 4 | _ + 5 => rfl

/-! ### The address sum (R75) -/

/-- A 32-bit operand fits its register, the immediate too. -/
theorem operandAt_one_lt {f : Fields} (hty : f.ty = .u32) (w : Warp) (l : Nat) (o : Opnd) :
    operandAt 1 f w l o < 2 ^ 32 := by
  refine Warp.opnd_lt w l 1 _ o Nat.one_pos fun _ => ?_
  rw [hty]
  exact f.imm.isLt

/-- The model reads an index that is there; the statement reads `indexOf`. -/
theorem addrSum_toNat {f : Fields} (hty : f.ty = .u32) (w : Warp) (l : Nat) (base : Nat) (ofs : Int) :
    (addrSum f.sub base (operandAt 1 f w l f.b) (f.b != .none) ofs).toNat =
      fitInt 64 false false (base + indexOf f w l + ofs) := by
  have hi : (if !(f.b != .none) then (0 : Int)
      else if f.sub.getLsbD 3 then ((operandAt 1 f w l f.b % 2 ^ 32 : Nat) : Int)
      else intOf 32 true (operandAt 1 f w l f.b)) * 2 ^ (f.sub.toNat % 8) = indexOf f w l := by
    have hs : f.subBits 0 3 = f.sub.toNat % 8 := by simp [Fields.subBits]
    rw [indexOf, hs, toInt_eq, Nat.mod_eq_of_lt (operandAt_one_lt hty w l f.b)]
    by_cases hb : f.b = .none
    · simp [hb]
    · simp [hb]
  rw [addrSum, BitVec.toNat_ofNat, Nat.mod_eq_of_lt (intBits_lt _ _), ← intBits_eq_fitInt]
  simp only [hi]

/-! ### One lane read (R81) -/

theorem OSpec.ok_s {k : Nat} {al : Allot} {o : Opnd} (h : OSpec.ok (oS k) al o = true) : ∃ n, o = .s n := by
  cases o with
  | s n => exact ⟨n, rfl⟩
  | _ => simp [OSpec.ok, oS] at h

/-- A result that every lane shares, with flags of its own, in a scalar destination. -/
theorem gives_scalar {i : Instr} {s : State} {uid : Nat} {side : Side} {w : Warp} (h : Issues i s uid side w)
    (n : BitVec 7) (k v : Nat) (fl : Word) (ht : partOf i w side ≠ 0)
    (he : exec i s = .next ((issueOf i s side w).done
      ((w.write (partOf i w side) (.s n) k fun _ => v).orFlags fl))) :
    Gives i s uid side w (.s n) k (fun _ => v) fl := by
  obtain ⟨w', h1, h2, h3, h4, h5⟩ := alu_spec h (.s n) k fun _ => (v, fl)
  have hfl : resultFlags (partOf i w side) (.s n) (fun _ => fl) = fl := by
    show (if partOf i w side == 0 then 0 else fl) = fl
    rw [if_neg (by simpa using ht)]
  rw [hfl] at h5
  refine ⟨w', ?_, h2, h3, h4, h5⟩
  rw [he, ← h1, Issue.alu, hfl]
  rfl

/-- R81: the four outcomes of the lane read, and the skip when no lane takes part. -/
theorem v2s_spec (f : Fields) {s : State} {uid : Nat} {side : Side} {w : Warp} (h : Issues (.v2s f) s uid side w) :
    let tp := partOf (.v2s f) w side
    let lane := operandAt 1 f w 0 f.b % 32
    let gives (v : Nat) (fl : Word) : Prop := Gives (.v2s f) s uid side w f.d f.ty.regs (fun _ => v) fl
    if tp = 0 then Skips (.v2s f) s uid side w
    else if tp.getLsbD lane then gives (operand f w lane f.a) 0
    else if (w.lane lane).st = .dead then gives 0 DEADREAD
    else if f.sub = 1 then gives 0 0
    else exec (.v2s f) s = .next (s.trap w side 6 0 (bitOf lane)) := by
  intro tp lane gives
  have hk := Instr.checked (i := .v2s f) rfl rfl h.ok
  obtain ⟨n, hn⟩ := OSpec.ok_s hk.d
  let x := issueOf (.v2s f) s side w
  have he : exec (.v2s f) s = .next (
      if tp = 0 then x.skip
      else if tp.getLsbD lane then x.done ((w.write tp f.d f.ty.regs fun _ => operand f w lane f.a).orFlags 0)
      else if (w.lane lane).st = .dead then x.done ((w.write tp f.d f.ty.regs fun _ => 0).orFlags DEADREAD)
      else if f.sub = 1 then x.done ((w.write tp f.d f.ty.regs fun _ => 0).orFlags 0)
      else s.trap w side 6 0 (bitOf lane)) := by
    rw [show exec (.v2s f) s = execV2s f s from rfl, execV2s, issue_eq h]
    simp only [beq_iff_eq]
    rfl
  have hgives {v : Nat} {fl : Word} (ht : tp ≠ 0)
      (hx : exec (.v2s f) s = .next (x.done ((w.write tp f.d f.ty.regs fun _ => v).orFlags fl))) : gives v fl := by
    simp only [gives, hn] at hx ⊢
    exact gives_scalar h n _ _ _ ht hx
  by_cases ht : tp = 0
  · rw [if_pos ht] at he ⊢; exact skips_of_skip h he
  rw [if_neg ht] at he ⊢
  by_cases hl : tp.getLsbD lane = true
  · rw [if_pos hl] at he ⊢; exact hgives ht he
  rw [if_neg hl] at he ⊢
  by_cases hdead : (w.lane lane).st = .dead
  · rw [if_pos hdead] at he ⊢; exact hgives ht he
  rw [if_neg hdead] at he ⊢
  by_cases hz : f.sub = 1
  · rw [if_pos hz] at he ⊢; exact hgives ht he
  · rw [if_neg hz] at he ⊢; exact he

end Sys2Proof.Machine

open Sys2Proof Sys2Proof.Machine

/-- Settles O5: the values of the model's operations, and the lane read case by case. -/
theorem compareSelectMove : Obligations.CompareSelectMove := by
  refine ⟨fun f => ⟨?cmp, ?sel, ?lea⟩, fun f => ⟨?mov, ?plop, ?pmask, ?pmaskSet, fun s uid side w h => v2s_spec f h⟩⟩
  case cmp =>
    refine valueOp_of_alu _ (fun s => show execCmp f s = _ from rfl) (fun _ _ => rfl) fun x l => ?_
    simp only [ite_one_zero_bne, intRel_eq, toInt_eq]
    rfl
  case sel =>
    refine valueOp_of_alu _ (fun s => show execSel f s = _ from rfl) (fun _ _ => rfl) fun x l => ?_
    simp only [bne_iff_ne]
    rfl
  case lea =>
    refine computes_of_alu _ (fun s => show execLea f s = _ from rfl) (fun s uid side w h l _ => ?_)
      fun _ _ _ _ _ => resultFlags_zero _ _
    have hk := Instr.checked (i := .lea f) rfl rfl h.ok
    have hty : f.ty = .u32 := by simpa using List.contains_iff_mem.mp hk.ty
    simp only [toInt_eq]
    exact addrSum_toNat hty w l _ _
  case mov =>
    exact valueOp_of_alu _ (fun s => show execMov f s = _ from rfl) (fun _ _ => rfl) fun _ _ => rfl
  case plop =>
    refine valueOp_of_alu _ (fun s => show execPlop f s = _ from rfl) (fun _ _ => rfl) fun x l => ?_
    simp only [ite_one_zero_bne, lutBit_eq, bne_iff_ne]
    rfl
  case pmask =>
    refine computes_of_alu _ (fun s => show execPmask f s = _ from rfl) (fun s uid side w h l _ j => ?_)
      fun _ _ _ _ _ => resultFlags_zero _ _
    rw [BitVec.testBit_toNat, getLsbD_maskOf, Bool.and_assoc]
    rfl
  case pmaskSet =>
    refine valueOp_of_alu _ (fun s => show execPmaskSet f s = _ from rfl) (fun _ _ => rfl) fun x l => ?_
    simp only [ite_one_zero_bne]
    rfl
end

section
/-! SUPPORT. Status writes (R26, R79): what they leave alone, and what every status register reads after them. -/

namespace Sys2Proof.Machine

/-! ### The status registers that a write reaches -/

/-- The indices that `swr` may write (R25). -/
def rwRegs : List Nat := [0x0D, 0x0E, 0x11, 0x12, 0x13, 0x14, 0x15, 0x1B]

/-- A writable register is of lane scope for HEIR alone, and 64 bits wide for ETOL and MQP0 to MQP3. -/
theorem srInfo_rw {n : Nat} (hn : n < 256) {r : SrInfo} (h : srInfo n = some r) (hr : r.rw = true) :
    n ∈ rwRegs ∧ r.lane = (n == 0x1B) ∧ r.wide = (decide (0x11 ≤ n) && decide (n ≤ 0x15)) := by
  have hall : ∀ n < 256, (srInfo n).all (fun r => !r.rw ||
      (decide (n ∈ rwRegs) && r.lane == (n == 0x1B) && r.wide == (decide (0x11 ≤ n) && decide (n ≤ 0x15)))) = true := by
    decide +kernel
  have hx := hall n hn
  rw [h] at hx
  simpa [hr, and_assoc] using hx

/-- What a status write leaves alone of the machine `s` and the warp `w`: `s'` and `v` differ from them in the
registers of `rwRegs` at most. -/
structure StatusWrite (s s' : State) (w v : Warp) : Prop where
  warps : s'.warps = s.warps
  mem : s'.mem = s.mem
  now : s'.now = s.now
  launches : s'.launches = s.launches
  parts : s'.parts = s.parts
  tags : ∀ core err, s'.tagsOf core err = s.tagsOf core err
  warp : ∃ lanes flags rmode mqp, v = { w with lanes := lanes, flags := flags, rmode := rmode, mqp := mqp }
  lanes : ∀ l < 32, ∃ heir, v.lane l = { w.lane l with heir := heir }

theorem maskOf_congr {p q : Nat → Bool} (h : ∀ l < 32, p l = q l) : maskOf p = maskOf q :=
  mask_ext fun l hl => by simp [h l hl]

@[simp] theorem Warp.slot_advance_mask (v : Warp) (side : Side) (i : Instr) :
    ((v.advance side i).slot side).mask = (v.slot side).mask := by cases side <;> rfl

@[simp] theorem Warp.slot_advance_pc (v : Warp) (side : Side) (i : Instr) :
    ((v.advance side i).slot side).pc = (v.slot side).pc + 16 := by cases side <;> rfl

@[simp] theorem Warp.live_advance (v : Warp) (side : Side) (i : Instr) : (v.advance side i).live = v.live := by
  simp [Warp.live]

@[simp] theorem Warp.deadMask_advance (v : Warp) (side : Side) (i : Instr) :
    (v.advance side i).deadMask = v.deadMask := by
  simp [Warp.deadMask]

section
variable {s s' : State} {w v : Warp} (h : StatusWrite s s' w v)
include h

theorem StatusWrite.st {l : Nat} (hl : l < 32) : (v.lane l).st = (w.lane l).st := by
  obtain ⟨heir, he⟩ := h.lanes l hl
  rw [he]

theorem StatusWrite.live : v.live = w.live := maskOf_congr fun _ hl => by rw [h.st hl]

theorem StatusWrite.deadMask : v.deadMask = w.deadMask := maskOf_congr fun _ hl => by rw [h.st hl]

theorem StatusWrite.active (side : Side) : v.active side = w.active side := by
  obtain ⟨_, _, _, _, rfl⟩ := h.warp
  rw [Warp.active, h.live]
  cases side <;> rfl

/-- Every register but SIG and those that a write may reach reads as before. -/
theorem StatusWrite.srValue (i : Instr) (side : Side) {l m : Nat} (hl : l < 32) (hsig : m ≠ 0x0C) (hm : m ∉ rwRegs) :
    (issueOf i (s'.setWarp (v.advance side i)) side (v.advance side i)).srValue m l =
      (issueOf i s side w).srValue m l := by
  have hactive : (v.advance side i).active side = w.active side := by
    rw [← h.active, Warp.active, Warp.active, Warp.slot_advance_mask, Warp.live_advance]
  have hdead : (v.advance side i).deadMask = w.deadMask := by rw [Warp.deadMask_advance, h.deadMask]
  have hlaunch (u : Nat) : (s'.setWarp (v.advance side i)).launch u = s.launch u := by
    simp only [State.launch, State.launch?, State.setWarp_launches, h.launches]
  have hpart (u : Nat) : (s'.setWarp (v.advance side i)).partOf u = s.partOf u := by
    simp only [State.partOf, State.setWarp_parts, h.parts]
  have htags (c : Nat) (e : Bool) : (s'.setWarp (v.advance side i)).tagsOf c e = s.tagsOf c e := h.tags c e
  have htime : (s'.setWarp (v.advance side i)).time = s.time := by simp only [State.time, State.setWarp_now, h.now]
  obtain ⟨heir, hlane⟩ := h.lanes l hl
  obtain ⟨_, _, _, _, rfl⟩ := h.warp
  simp only [rwRegs, List.mem_cons, List.not_mem_nil, or_false, not_or] at hm
  simp only [Issue.srValue, issueOf, Issue.fslot, Warp.lane_advance, hlane, hactive, hdead, hlaunch, hpart, htags, htime,
    Warp.advance_wid, Warp.advance_core, Warp.advance_launch, Warp.advance_trapv, Warp.advance_trappc, Warp.advance_trapinfo,
    Warp.advance_trapmask]
  split
  -- The arms of SIG and of `rwRegs` are excluded; every other one reads the same on both sides.
  any_goals omega
  all_goals rfl

end

/-! ### Tags of a core, when a crew's tolerance changes -/

theorem crew_eq_of_uid_eq {l : List Crew} (hn : (l.map Crew.uid).Nodup) {x c : Crew} (hx : x ∈ l) (hc : c ∈ l)
    (hu : x.uid = c.uid) : x = c := by
  induction l with
  | nil => exact absurd hx List.not_mem_nil
  | cons y l ih =>
    obtain ⟨hy, hl⟩ := List.nodup_cons.mp hn
    have hne {z : Crew} (hz : z ∈ l) : z.uid ≠ y.uid := fun h => hy (h ▸ List.mem_map_of_mem hz)
    rcases List.mem_cons.mp hx with rfl | hxl <;> rcases List.mem_cons.mp hc with rfl | hcl
    · rfl
    · exact absurd hu.symm (hne hcl)
    · exact absurd hu (hne hxl)
    · exact ih hl hxl hcl

/-- One crew replaced by itself with another tolerance: no crew's core or tags change, if the serial numbers are distinct. -/
theorem tagsOf_setCrew_etol {s : State} (hn : (s.crews.map Crew.uid).Nodup) {c : Crew} (hc : c ∈ s.crews) (etol : DWord)
    (core : Nat) (err : Bool) : (s.setCrew { c with etol := etol }).tagsOf core err = s.tagsOf core err := by
  have hmap : (s.setCrew { c with etol := etol }).crews =
      s.crews.map fun x => if x.uid == c.uid then { x with etol := etol } else x := by
    refine List.map_congr_left fun x hx => ?_
    by_cases hu : x.uid = c.uid
    · rw [crew_eq_of_uid_eq hn hx hc hu]
    · simp [hu]
  have hflat (l : List Crew) (g : Crew → Crew) (hcore : ∀ x, (g x).core = x.core) (htags : ∀ x, (g x).tags = x.tags) :
      ((l.map g).filter fun x => x.core == core).flatMap Crew.tags = (l.filter fun x => x.core == core).flatMap Crew.tags := by
    simp [List.filter_map, List.flatMap_map, Function.comp_def, hcore, htags]
  unfold State.tagsOf
  rw [hmap, hflat _ _ (fun x => by split <;> rfl) fun x => by split <;> rfl]

theorem State.crew?_setCrew {s : State} {c d : Crew} (h : s.crew? c.uid = some d) : (s.setCrew c).crew? c.uid = some c := by
  have hf := find?_map_if Crew.uid c s.crews c.uid
  simp only [State.crew?, State.setCrew, beq_iff_eq] at h ⊢
  rw [hf, h]; simp

/-! ### What the registers read after a write -/

theorem mem_rwRegs {m : Nat} :
    m ∈ rwRegs ↔ m = 0x0D ∨ m = 0x0E ∨ m = 0x11 ∨ (∃ q < 4, m = 0x12 + q) ∨ m = 0x1B := by
  constructor
  · intro h
    simp only [rwRegs, List.mem_cons, List.not_mem_nil, or_false] at h
    by_cases hq : 0x12 ≤ m ∧ m ≤ 0x15
    · exact .inr (.inr (.inr (.inl ⟨m - 0x12, by omega, by omega⟩)))
    · omega
  · rintro (rfl | rfl | rfl | ⟨q, hq, rfl⟩ | rfl)
    case inr.inr.inr.inl => simp only [rwRegs, List.mem_cons, List.not_mem_nil, or_false]; omega
    all_goals decide

theorem srValue_mqp (x : Issue) {q : Nat} (hq : q < 4) (l : Nat) : x.srValue (0x12 + q) l = (x.w.mqpAt q).toNat := by
  match q with
  | 0 | 1 | 2 | 3 => rfl

/-- Writable registers read alike in two issues that agree on what the register shows. -/
theorem srValue_congr_rw {x y : Issue} {l m : Nat} (hm : m ∈ rwRegs) (hflags : m = 0x0D → y.w.flags = x.w.flags)
    (hrmode : m = 0x0E → y.w.rmode = x.w.rmode)
    (hetol : m = 0x11 → (y.s.crew y.w.crew).etol = (x.s.crew x.w.crew).etol)
    (hmqp : ∀ q, m = 0x12 + q → y.w.mqpAt q = x.w.mqpAt q)
    (hheir : m = 0x1B → (y.w.lane l).heir = (x.w.lane l).heir) : y.srValue m l = x.srValue m l := by
  rcases mem_rwRegs.mp hm with rfl | rfl | rfl | ⟨q, hq, rfl⟩ | rfl
  · exact congrArg BitVec.toNat (hflags rfl)
  · exact congrArg BitVec.toNat (hrmode rfl)
  · exact congrArg BitVec.toNat (hetol rfl)
  · rw [srValue_mqp _ hq, srValue_mqp _ hq, hmqp q rfl]
  · exact congrArg BitVec.toNat (hheir rfl)

/-- What register `m` reads in lane `l` after the write of `value` to register `n`, as the statement says it. -/
def swrReads (x : Issue) (r : SrInfo) (n : Nat) (value : Nat → Nat) (m l : Nat) : Nat :=
  if m ≠ n then x.srValue m l
  else if r.lane ∧ ¬x.tp.getLsbD l then x.srValue m l
  else
    let k := if r.lane then l else (lowLane x.tp).getD 0
    if n = 0x11 ∧ value k = 2 ^ 63 then 0 else value k

theorem swrReads_ne {x : Issue} {r : SrInfo} {n m : Nat} (value : Nat → Nat) (l : Nat) (h : m ≠ n) :
    swrReads x r n value m l = x.srValue m l := if_pos h

theorem swrReads_wide {x : Issue} {r : SrInfo} {low : Nat} (n : Nat) (value : Nat → Nat) (l : Nat) (hr : r.lane = false)
    (hlow : lowLane x.tp = some low) :
    swrReads x r n value n l = if n = 0x11 ∧ value low = 2 ^ 63 then 0 else value low := by
  simp [swrReads, hr, hlow]

theorem swrReads_lane {x : Issue} {r : SrInfo} (value : Nat → Nat) (l : Nat) (hr : r.lane = true) :
    swrReads x r 0x1B value 0x1B l = if x.tp.getLsbD l then value l else x.srValue 0x1B l := by
  by_cases ht : x.tp.getLsbD l <;> simp [swrReads, hr, ht]

/-- What the statement says of an accepted write, for the state `t` and the warp `w'` after it. -/
structure SwrWritten (f : Fields) (s : State) (uid : Nat) (side : Side) (w : Warp) (t : State) (w' : Warp)
    (reads : Nat → Nat → Nat) : Prop where
  warp : t.warp? uid = some w'
  sregs : w'.sregs = w.sregs
  lanes : ∀ l < 32, { w'.lane l with heir := (w.lane l).heir } = w.lane l
  mem : t.mem = s.mem
  pc : (w'.slot side).pc = (w.slot side).pc + 16
  reads : ∀ l < 32, ∀ m < 0x33, m ≠ 0x0C → (issueOf (.swr f) t side w').srValue m l = reads m l

theorem StatusWrite.swrWritten {f : Fields} {s s' : State} {uid : Nat} {side : Side} {w v : Warp}
    (hi : Issues (.swr f) s uid side w) (h : StatusWrite s s' w v) {r : SrInfo} {n : Nat} {value : Nat → Nat}
    (hn : n ∈ rwRegs)
    (hself : ∀ l < 32, (issueOf (.swr f) s' side v).srValue n l = swrReads (issueOf (.swr f) s side w) r n value n l)
    (hother : ∀ l < 32, ∀ m ∈ rwRegs, m ≠ n →
      (issueOf (.swr f) s' side v).srValue m l = (issueOf (.swr f) s side w).srValue m l) :
    SwrWritten f s uid side w (s'.setWarp (v.advance side (.swr f))) (v.advance side (.swr f))
      (swrReads (issueOf (.swr f) s side w) r n value) := by
  obtain ⟨lanes, flags, rmode, mqp, hv⟩ := h.warp
  have hu := State.warp?_uid hi.warp
  have huid : v.uid = uid := by rw [hv]; exact hu
  refine ⟨?_, by rw [Warp.advance_sregs, hv], fun l hl => ?_, h.mem, ?_, fun l hl m _ hsig => ?_⟩
  · have hs : s'.warp? (v.advance side (.swr f)).uid = some w := by
      rw [Warp.advance_uid, huid, State.warp?, h.warps]; exact hi.warp
    simpa [huid] using State.warp?_setWarp _ hs
  · obtain ⟨heir, hlane⟩ := h.lanes l hl
    rw [Warp.lane_advance, hlane]
  · rw [Warp.slot_advance_pc, hv]; cases side <;> rfl
  · by_cases hm : m ∈ rwRegs
    · have hpast : (issueOf (.swr f) (s'.setWarp (v.advance side (.swr f))) side (v.advance side (.swr f))).srValue m l =
          (issueOf (.swr f) s' side v).srValue m l :=
        srValue_congr_rw hm (fun _ => by simp [issueOf]) (fun _ => by simp [issueOf])
          (fun _ => by simp [issueOf, State.crew, State.crew?]) (fun _ _ => by simp [issueOf, Warp.mqpAt])
          fun _ => by simp [issueOf]
      rw [hpast]
      by_cases hne : m = n
      · rw [hne]; exact hself l hl
      · rw [swrReads_ne _ _ hne]; exact hother l hl m hm hne
    · rw [h.srValue _ side hl hsig hm, swrReads_ne]
      rintro rfl; exact hm hn

/-! ### The writes -/

theorem statusWrite_warp (s : State) (w : Warp) (flags rmode : Word) (mqp : List DWord) :
    StatusWrite s s w { w with flags := flags, rmode := rmode, mqp := mqp } :=
  ⟨rfl, rfl, rfl, rfl, rfl, fun _ _ => rfl, ⟨_, _, _, _, rfl⟩, fun _ _ => ⟨_, rfl⟩⟩

theorem statusWrite_heir (s : State) (w : Warp) (m : Word) (heir : Nat → Word) :
    StatusWrite s s w (w.mapLanes m fun l y => { y with heir := heir l }) := by
  refine ⟨rfl, rfl, rfl, rfl, rfl, fun _ _ => rfl, ⟨_, _, _, _, rfl⟩, fun l hl => ?_⟩
  rw [Warp.lane_mapLanes _ _ _ hl]
  split <;> exact ⟨_, rfl⟩

theorem statusWrite_etol {s : State} (hs : (s.crews.map Crew.uid).Nodup) (w : Warp) {c : Crew} (hc : c ∈ s.crews)
    (etol : DWord) : StatusWrite s (s.setCrew { c with etol := etol }) w w :=
  ⟨rfl, rfl, rfl, rfl, rfl, tagsOf_setCrew_etol hs hc etol, ⟨_, _, _, _, rfl⟩, fun _ _ => ⟨_, rfl⟩⟩

/-- A value of `k` registers that no immediate gives fits them. -/
theorem operandAt_lt_of_oVS {f : Fields} {al : Allot} {j : Nat} (h : OSpec.ok (oVS j) al f.a = true) {k : Nat} (hk : 0 < k)
    (w : Warp) (l : Nat) : operandAt k f w l f.a < 2 ^ (32 * k) := by
  refine Warp.opnd_lt w l k _ f.a hk fun hi => ?_
  rw [hi] at h
  simp [OSpec.ok, oVS] at h

theorem srAccepts_flags {v : Nat} (h : srAccepts 0x0D v = true) : v < 256 := by simpa [srAccepts] using h

theorem srAccepts_rmode {v : Nat} (h : srAccepts 0x0E v = true) : v < 4 := by simpa [srAccepts] using h

/-- −0.0 is stored as +0.0. -/
theorem toNat_etol {v : Nat} (h : v < 2 ^ 64) :
    (if v == 2 ^ 63 then 0 else BitVec.ofNat 64 v : DWord).toNat = if v = 2 ^ 63 then 0 else v := by
  by_cases hv : v = 2 ^ 63
  · rw [if_pos (beq_iff_eq.mpr hv), if_pos hv]; rfl
  · rw [if_neg (mt beq_iff_eq.mp hv), if_neg hv, BitVec.toNat_ofNat, Nat.mod_eq_of_lt h]

theorem srPut_mqp (x : Issue) {q : Nat} (hq : q < 4) (v : Nat) :
    x.srPut (0x12 + q) v = x.done { x.w with mqp := tset 0 x.w.mqp q (BitVec.ofNat 64 v) } := by
  match q with
  | 0 | 1 | 2 | 3 => rfl

/-- The write of ETOL, in a state that holds the crew. -/
theorem srPut_etol {f : Fields} {s : State} {uid : Nat} {side : Side} {w : Warp} (hi : Issues (.swr f) s uid side w)
    (v : Nat) : (issueOf (.swr f) s side w).srPut 0x11 v =
      (s.setCrew { s.crew w.crew with etol := if v == 2 ^ 63 then 0 else BitVec.ofNat 64 v }).setWarp
        (w.advance side (.swr f)) := by
  have hw (c : Crew) : (s.setCrew c).warp? w.uid = some w := by
    rw [State.warp?_uid hi.warp]; exact hi.warp
  simp only [Issue.srPut, Issue.doneIn, issueOf, hw]

section
variable {f : Fields} {s : State} {uid : Nat} {side : Side} {w : Warp} (hi : Issues (.swr f) s uid side w) {r : SrInfo}
  {value : Nat → Nat}
include hi

/-- R79: a register of wider scope takes the value of the lowest lane that takes part. -/
theorem swrWritten_srPut {n low : Nat} (hs : (s.crews.map Crew.uid).Nodup) (hc : (s.crew? w.crew).isSome)
    (hn : n ∈ rwRegs) (hr : r.lane = false) (hr' : n ≠ 0x1B) (hlow : lowLane (partOf (.swr f) w side) = some low)
    (hacc : srAccepts n (value low) = true) (hlt : value low < 2 ^ 64) :
    ∃ w', SwrWritten f s uid side w ((issueOf (.swr f) s side w).srPut n (value low)) w'
      (swrReads (issueOf (.swr f) s side w) r n value) := by
  have hself (l : Nat) := swrReads_wide (x := issueOf (.swr f) s side w) n value l hr hlow
  rcases mem_rwRegs.mp hn with rfl | rfl | rfl | ⟨q, hq, rfl⟩ | rfl
  case inr.inr.inr.inr => exact absurd rfl hr'
  case inl =>
    refine ⟨_, (statusWrite_warp s w (BitVec.ofNat 32 (value low)) w.rmode w.mqp).swrWritten hi hn (fun l _ => ?_)
      fun l _ m hm hne => ?_⟩
    · rw [hself, if_neg (by simp)]
      exact (BitVec.toNat_ofNat _ _).trans (Nat.mod_eq_of_lt (Nat.lt_trans (srAccepts_flags hacc) (by decide)))
    · exact srValue_congr_rw hm (absurd · hne) (fun _ => rfl) (fun _ => rfl) (fun _ _ => rfl) fun _ => rfl
  case inr.inl =>
    refine ⟨_, (statusWrite_warp s w w.flags (BitVec.ofNat 32 (value low)) w.mqp).swrWritten hi hn (fun l _ => ?_)
      fun l _ m hm hne => ?_⟩
    · rw [hself, if_neg (by simp)]
      exact (BitVec.toNat_ofNat _ _).trans (Nat.mod_eq_of_lt (Nat.lt_trans (srAccepts_rmode hacc) (by decide)))
    · exact srValue_congr_rw hm (fun _ => rfl) (absurd · hne) (fun _ => rfl) (fun _ _ => rfl) fun _ => rfl
  case inr.inr.inl =>
    obtain ⟨c, hcrew⟩ := Option.isSome_iff_exists.mp hc
    have hcu : c.uid = w.crew := by simpa using List.find?_some hcrew
    have hgot : s.crew w.crew = c := by rw [State.crew, hcrew]; rfl
    rw [srPut_etol hi, hgot]
    refine ⟨_, (statusWrite_etol hs w (List.mem_of_find?_eq_some hcrew) _).swrWritten hi hn (fun l _ => ?_)
      fun l _ m hm hne => ?_⟩
    · have hnew (e : DWord) : (s.setCrew { c with etol := e }).crew w.crew = { c with etol := e } := by
        rw [State.crew, ← hcu, State.crew?_setCrew (c := { c with etol := e }) (hcu ▸ hcrew)]; rfl
      rw [hself]
      show ((s.setCrew _).crew w.crew).etol.toNat = _
      rw [hnew]
      simpa using toNat_etol hlt
    · exact srValue_congr_rw hm (fun _ => rfl) (fun _ => rfl) (absurd · hne) (fun _ _ => rfl) fun _ => rfl
  case inr.inr.inr.inl =>
    rw [srPut_mqp _ hq]
    refine ⟨_, (statusWrite_warp s w w.flags w.rmode (tset 0 w.mqp q (BitVec.ofNat 64 (value low)))).swrWritten hi hn
      (fun l _ => ?_) fun l _ m hm hne => ?_⟩
    · rw [hself, if_neg (by omega), srValue_mqp _ hq]
      show (tget 0 (tset 0 w.mqp q _) q).toNat = _
      rw [tget_tset_self, BitVec.toNat_ofNat, Nat.mod_eq_of_lt hlt]
    · refine srValue_congr_rw hm (fun _ => rfl) (fun _ => rfl) (fun _ => rfl) (fun p hp => ?_) fun _ => rfl
      simp only [issueOf, Warp.mqpAt, tget_tset]
      rw [if_neg (by omega)]

/-- R79: each lane that takes part writes its own heir. -/
theorem swrWritten_heir (hr : r.lane = true) (hlt : ∀ l, value l < 2 ^ 32) :
    ∃ w', SwrWritten f s uid side w ((issueOf (.swr f) s side w).done
      (w.mapLanes (partOf (.swr f) w side) fun l y => { y with heir := BitVec.ofNat 32 (value l) })) w'
      (swrReads (issueOf (.swr f) s side w) r 0x1B value) := by
  refine ⟨_, (statusWrite_heir s w _ fun l => BitVec.ofNat 32 (value l)).swrWritten hi (by decide) (fun l hl => ?_)
    fun l hl m hm hne => ?_⟩
  · rw [swrReads_lane value l hr]
    show ((w.mapLanes _ _).lane l).heir.toNat = _
    rw [Warp.lane_mapLanes _ _ _ hl]
    split
    · rw [if_pos ‹_›]; exact (BitVec.toNat_ofNat _ _).trans (Nat.mod_eq_of_lt (hlt l))
    · rw [if_neg ‹_›]; rfl
  · exact srValue_congr_rw hm (fun _ => rfl) (fun _ => rfl) (fun _ => rfl) (fun _ _ => rfl) (absurd · hne)

end

end Sys2Proof.Machine
end

section
/-! SUPPORT. The checks of `srd` and `swr` (R79), in their order. -/

namespace Sys2Proof.Machine

/-! ### The checks -/

/-- What R79 says of `srd`, as the statement has it. -/
def SrdAccess (f : Fields) (s : State) (uid : Nat) (side : Side) (w : Warp) : Prop :=
  let n := f.imm.toNat % 256
  let am := w.active side
  Issues (.srd f) s uid side w →
    match srInfo n with
    | none => exec (.srd f) s = .next (s.trap w side 3 (BitVec.ofNat 64 n) am)
    | some r =>
      if r.lane ∧ isScalar f.d then exec (.srd f) s = .next (s.trap w side 3 (BitVec.ofNat 64 n) am)
      else if r.wide ∧ ¬wideOk (s.allotOf w) f.d then exec (.srd f) s = .next (s.trapField w side (.srd f) .d am)
      else Gives (.srd f) s uid side w f.d (if r.wide then 2 else 1) ((issueOf (.srd f) s side w).srValue n) 0

/-- What R79 says of `swr`, as the statement has it. -/
def SwrAccess (f : Fields) (s : State) (uid : Nat) (side : Side) (w : Warp) : Prop :=
  let n := f.imm.toNat % 256
  let am := w.active side
  Issues (.swr f) s uid side w → (s.crew? w.crew).isSome →
    let x := issueOf (.swr f) s side w
    match srInfo n with
    | none => exec (.swr f) s = .next (s.trap w side 3 (BitVec.ofNat 64 (n + 256)) am)
    | some r =>
      if ¬r.rw then exec (.swr f) s = .next (s.trap w side 3 (BitVec.ofNat 64 (n + 256)) am)
      else if r.wide ∧ ¬wideOk (s.allotOf w) f.a then exec (.swr f) s = .next (s.trapField w side (.swr f) .a am)
      else if x.tp = 0 then Skips (.swr f) s uid side w
      else
        let value (l : Nat) : Nat := operandAt (if r.wide then 2 else 1) f w l f.a
        let gives (l : Nat) : Prop := x.tp.getLsbD l ∧ (r.lane ∨ ∀ k < l, x.tp.getLsbD k = false)
        ((∃ l < 32, gives l ∧ ¬srAccepts n (value l)) →
          ∃ mask : Word, exec (.swr f) s = .next (s.trap w side 3 (BitVec.ofNat 64 (n + 256)) mask) ∧
            ∀ l < 32, mask.getLsbD l =
              if isScalar f.a then x.tp.getLsbD l else decide (gives l ∧ ¬srAccepts n (value l))) ∧
        ((∀ l < 32, gives l → srAccepts n (value l)) →
          ∃ t w', exec (.swr f) s = .next t ∧ t.warp? uid = some w' ∧ w'.sregs = w.sregs ∧
            (∀ l < 32, { w'.lane l with heir := (w.lane l).heir } = w.lane l) ∧ t.mem = s.mem ∧
            (w'.slot side).pc = (w.slot side).pc + 16 ∧
            ∀ l < 32, ∀ m < 0x33, m ≠ 0x0C → (issueOf (.swr f) t side w').srValue m l = swrReads x r n value m l)

theorem statusAccess_iff : Obligations.StatusAccess ↔
    ∀ f s uid side w, SrdAccess f s uid side w ∧ SwrAccess f s uid side w := Iff.rfl

section
variable {f : Fields} {s : State} {uid : Nat} {side : Side} {w : Warp} {r : SrInfo}

theorem exec_srd_none (hi : Issues (.srd f) s uid side w) (hr : srInfo (f.imm.toNat % 256) = none) :
    exec (.srd f) s = .next (s.trap w side 3 (BitVec.ofNat 64 (f.imm.toNat % 256)) (w.active side)) := by
  have he : exec (.srd f) s = execSrd f s := rfl
  simp only [he, execSrd, issue_eq hi, hr]
  rfl

theorem exec_srd_some (hi : Issues (.srd f) s uid side w) (hr : srInfo (f.imm.toNat % 256) = some r) :
    exec (.srd f) s = .next (
      if r.lane ∧ isScalar f.d then s.trap w side 3 (BitVec.ofNat 64 (f.imm.toNat % 256)) (w.active side)
      else if r.wide ∧ ¬wideOk (s.allotOf w) f.d then s.trapField w side (.srd f) .d (w.active side)
      else (issueOf (.srd f) s side w).alu f.d (if r.wide then 2 else 1)
        fun l => ((issueOf (.srd f) s side w).srValue (f.imm.toNat % 256) l, 0)) := by
  have he : exec (.srd f) s = execSrd f s := rfl
  simp only [he, execSrd, issue_eq hi, hr, Bool.and_eq_true, Bool.not_eq_true', Bool.not_eq_true]
  rfl

theorem exec_swr_none (hi : Issues (.swr f) s uid side w) (hr : srInfo (f.imm.toNat % 256) = none) :
    exec (.swr f) s = .next (s.trap w side 3 (BitVec.ofNat 64 (f.imm.toNat % 256 + 256)) (w.active side)) := by
  have he : exec (.swr f) s = execSwr f s := rfl
  simp only [he, execSwr, issue_eq hi, hr]
  rfl

/-- The write of `value` by the lanes that take part, `low` the lowest of them. -/
def Issue.swrWrite (x : Issue) (a : Opnd) (r : SrInfo) (n low : Nat) (value : Nat → Nat) : State :=
  let trap (mask : Word) : State := x.trap 3 (BitVec.ofNat 64 (n + 256)) (if isScalar a then x.tp else mask)
  if r.lane then
    let bad := maskOf fun l => x.tp.getLsbD l && !srAccepts n (value l)
    if bad ≠ 0 then trap bad
    else x.done (x.w.mapLanes x.tp fun l y => { y with heir := BitVec.ofNat 32 (value l) })
  else if srAccepts n (value low) then x.srPut n (value low)
  else trap (bitOf low)

theorem exec_swr_some (hi : Issues (.swr f) s uid side w) (hr : srInfo (f.imm.toNat % 256) = some r) :
    exec (.swr f) s = .next (
      if ¬r.rw then s.trap w side 3 (BitVec.ofNat 64 (f.imm.toNat % 256 + 256)) (w.active side)
      else if r.wide ∧ ¬wideOk (s.allotOf w) f.a then s.trapField w side (.swr f) .a (w.active side)
      else match lowLane (partOf (.swr f) w side) with
        | none => (issueOf (.swr f) s side w).skip
        | some low => (issueOf (.swr f) s side w).swrWrite f.a r (f.imm.toNat % 256) low
            fun l => operandAt (if r.wide then 2 else 1) f w l f.a) := by
  have he : exec (.swr f) s = execSwr f s := rfl
  simp only [he, execSwr, issue_eq hi, hr, Issue.swrWrite, Bool.and_eq_true, Bool.not_eq_true', Bool.not_eq_true, bne_iff_ne]
  rfl

end

/-- `srd` is as the rule says in every state. -/
theorem srdAccess (f : Fields) (s : State) (uid : Nat) (side : Side) (w : Warp) : SrdAccess f s uid side w := by
  intro hi
  cases hr : srInfo (f.imm.toNat % 256) with
  | none => exact exec_srd_none hi hr
  | some r =>
    have he := exec_srd_some hi hr
    dsimp only
    by_cases hlane : r.lane = true ∧ isScalar f.d = true
    · rw [if_pos hlane] at he ⊢; exact he
    rw [if_neg hlane] at he ⊢
    by_cases hwide : r.wide = true ∧ ¬wideOk (s.allotOf w) f.d = true
    · rw [if_pos hwide] at he ⊢; exact he
    rw [if_neg hwide] at he ⊢
    obtain ⟨w', hx, hu, hcomp, hwrote, hfl⟩ := alu_spec hi f.d (if r.wide then 2 else 1)
      fun l => ((issueOf (.srd f) s side w).srValue (f.imm.toNat % 256) l, 0)
    rw [resultFlags_zero] at hfl
    exact ⟨w', he.trans (congrArg _ hx), hu, hcomp, hwrote, hfl⟩

/-- The lanes that give a value to a register of wider scope: the lowest that takes part, alone. -/
theorem gives_wide {m : Word} {low l : Nat} (h : lowLane m = some low) :
    (m.getLsbD l = true ∧ ∀ k < l, m.getLsbD k = false) ↔ l = low := by
  obtain ⟨_, hbit, hmin⟩ := lowLane_some h
  constructor
  · rintro ⟨hl, hbelow⟩
    rcases Nat.lt_trichotomy l low with hlt | heq | hgt
    · exact absurd hl (by simp [hmin l hlt])
    · exact heq
    · exact absurd hbit (by simp [hbelow low hgt])
  · rintro rfl
    exact ⟨hbit, hmin⟩

/-- The mask of a rejected write: every lane for a scalar A, the lanes whose value was rejected otherwise. -/
theorem swrWrite_rejected {x : Issue} {low : Nat} (hlow : lowLane x.tp = some low) (a : Opnd) (r : SrInfo) (n : Nat)
    (value : Nat → Nat)
    (hbad : ∃ l < 32, (x.tp.getLsbD l ∧ (r.lane ∨ ∀ k < l, x.tp.getLsbD k = false)) ∧ ¬srAccepts n (value l)) :
    ∃ mask : Word, x.swrWrite a r n low value = x.trap 3 (BitVec.ofNat 64 (n + 256)) mask ∧
      ∀ l < 32, mask.getLsbD l = if isScalar a then x.tp.getLsbD l
        else decide ((x.tp.getLsbD l ∧ (r.lane ∨ ∀ k < l, x.tp.getLsbD k = false)) ∧ ¬srAccepts n (value l)) := by
  obtain ⟨b, hb32, hgives, hrej⟩ := hbad
  unfold Issue.swrWrite
  cases hr : r.lane with
  | true =>
    have hmask : (maskOf fun l => x.tp.getLsbD l && !srAccepts n (value l)) ≠ 0 :=
      mask_ne_zero (l := b) (by simp [hb32, hgives.1, hrej])
    simp only [if_true, if_pos hmask]
    refine ⟨_, rfl, fun l hl => ?_⟩
    split
    · rfl
    · rw [getLsbD_maskOf, decide_eq_true hl, Bool.true_and]; simp
  | false =>
    simp only [hr, Bool.false_eq_true, false_or, gives_wide hlow] at hgives
    subst hgives
    simp only [Bool.false_eq_true, if_false, if_neg hrej]
    refine ⟨_, rfl, fun l hl => ?_⟩
    split
    · rfl
    · rw [getLsbD_bitOf, decide_eq_true hb32, Bool.and_true, decide_eq_decide]
      simp only [false_or, gives_wide hlow]
      exact ⟨fun h => ⟨h, h ▸ hrej⟩, fun h => h.1⟩

/-- An accepted write puts each value where it belongs. -/
theorem swrWrite_accepted {f : Fields} {s : State} {uid : Nat} {side : Side} {w : Warp} (hs : (s.crews.map Crew.uid).Nodup)
    (hi : Issues (.swr f) s uid side w) (hc : (s.crew? w.crew).isSome) {n low : Nat} {r : SrInfo} (hn : n < 256)
    (hr : srInfo n = some r) (hrw : r.rw = true) (hlow : lowLane (partOf (.swr f) w side) = some low) {value : Nat → Nat}
    (hlt : ∀ l, value l < 2 ^ (32 * if r.wide then 2 else 1))
    (hok : ∀ l < 32, (partOf (.swr f) w side).getLsbD l ∧ (r.lane ∨ ∀ k < l, (partOf (.swr f) w side).getLsbD k = false) →
      srAccepts n (value l)) :
    ∃ w', SwrWritten f s uid side w ((issueOf (.swr f) s side w).swrWrite f.a r n low value) w'
      (swrReads (issueOf (.swr f) s side w) r n value) := by
  obtain ⟨hmem, hlane, hwide⟩ := srInfo_rw hn hr hrw
  obtain ⟨hlow32, hbit, hmin⟩ := lowLane_some hlow
  unfold Issue.swrWrite
  cases hl : r.lane with
  | true =>
    obtain rfl : n = 0x1B := by simpa [hl] using hlane
    have hmask : (maskOf fun l => (issueOf (.swr f) s side w).tp.getLsbD l && !srAccepts 0x1B (value l)) = 0 :=
      mask_eq_zero fun l hl32 => by
        have := hok l hl32
        simp only [getLsbD_maskOf, issueOf]
        cases ht : (partOf (.swr f) w side).getLsbD l <;> simp_all
    simp only [if_true, hmask, ne_eq, not_true_eq_false, if_false]
    exact swrWritten_heir hi hl fun l => by simpa [hwide] using hlt l
  | false =>
    have hacc := hok low hlow32 ⟨hbit, .inr hmin⟩
    simp only [Bool.false_eq_true, if_false, if_pos hacc]
    refine swrWritten_srPut hi hs hc hmem hl ?_ hlow hacc (Nat.lt_of_lt_of_le (hlt low) ?_)
    · rintro rfl; simp [hl] at hlane
    · exact Nat.pow_le_pow_right (by decide) (by split <;> decide)

/-- `swr` is as the rule says where the crews' serial numbers are distinct. -/
theorem swrAccess (f : Fields) (s : State) (uid : Nat) (side : Side) (w : Warp) (hs : (s.crews.map Crew.uid).Nodup) :
    SwrAccess f s uid side w := by
  intro hi hc
  cases hr : srInfo (f.imm.toNat % 256) with
  | none => exact exec_swr_none hi hr
  | some r =>
    have he := exec_swr_some hi hr
    dsimp only
    by_cases hrw : r.rw = true
    case neg => rw [if_pos hrw] at he ⊢; exact he
    rw [if_neg (fun h => h hrw)] at he ⊢
    by_cases hwide : r.wide = true ∧ ¬wideOk (s.allotOf w) f.a = true
    case pos => rw [if_pos hwide] at he ⊢; exact he
    rw [if_neg hwide] at he ⊢
    cases hlow : lowLane (partOf (.swr f) w side) with
    | none =>
      rw [hlow] at he
      rw [if_pos (show (issueOf (.swr f) s side w).tp = 0 from lowLane_none hlow)]
      exact skips_of_skip hi he
    | some low =>
      rw [hlow] at he
      rw [if_neg (show (issueOf (.swr f) s side w).tp ≠ 0 from mask_ne_zero (lowLane_some hlow).2.1)]
      refine ⟨fun hbad => ?_, fun hok => ?_⟩
      · obtain ⟨mask, hx, hmask⟩ := swrWrite_rejected (x := issueOf (.swr f) s side w) hlow f.a r _ _ hbad
        exact ⟨mask, he.trans (congrArg _ hx), hmask⟩
      · have hk := Instr.checked (i := .swr f) rfl rfl hi.ok
        obtain ⟨w', hw⟩ := swrWrite_accepted hs hi hc (Nat.mod_lt _ (by decide)) hr hrw hlow
          (fun l => operandAt_lt_of_oVS hk.a (by split <;> decide) w l) hok
        exact ⟨_, w', he, hw.warp, hw.sregs, hw.lanes, hw.mem, hw.pc, hw.reads⟩

/-- The statement of R79 fails only where two crews bear one serial number. -/
theorem statusAccess_of_nodup (f : Fields) (s : State) (uid : Nat) (side : Side) (w : Warp)
    (hs : (s.crews.map Crew.uid).Nodup) : SrdAccess f s uid side w ∧ SwrAccess f s uid side w :=
  ⟨srdAccess f s uid side w, swrAccess f s uid side w hs⟩

end Sys2Proof.Machine
end

section
/-! SUPPORT. Status access where two crews bear one serial number. -/

namespace Sys2Proof.Machine

/-- `swr ETOL, vz`: +0.0 for the crew's tolerance. -/
def swrEtol : Fields :=
  { sub := 0, g1 := .pt, g2 := .pt, d := .none, a := .v 255, b := .imm, c := .none, e := .none, imm := 0x11, ty := .u32,
    ord := .weak, scope := .none, cpol := .dflt, evp := .same, rsv := 0 }

/-- A warp with one live lane, of crew 0. -/
def loneWarp : Warp := { uid := 0, lanes := [{ st := .live }], port := { mask := 1 } }

/-- Two crews on one core bear the serial number 0: the second holds a tag that is done, the first holds none. -/
def twinCrews : State :=
  { State.reset with
    warps := [loneWarp]
    crews := [{ uid := 0 }, { uid := 0, tags := [{ n := 0, done := true }] }]
    turn := some (.slot 0 .port) }

theorem issues_swrEtol : Issues (.swr swrEtol) twinCrews 0 .port loneWarp := by
  constructor <;> decide +kernel

/-- TAGS of the core before the write: the second crew's tag. -/
theorem tagsOf_twinCrews : twinCrews.tagsOf 0 false = 1 := by decide +kernel

/-- The state after the write: both crews are now the first one. -/
def twinCrewsAfter : State := (issueOf (.swr swrEtol) twinCrews .port loneWarp).srPut 0x11 0

theorem exec_swrEtol : exec (.swr swrEtol) twinCrews = .next twinCrewsAfter := by
  rw [show exec (.swr swrEtol) twinCrews = execSwr swrEtol twinCrews from rfl, execSwr, issue_eq issues_swrEtol]
  have hl : lowLane (issueOf (.swr swrEtol) twinCrews .port loneWarp).tp = some 0 := by decide +kernel
  rw [hl]
  rfl

/-- TAGS of the core after the write: the tag is lost. -/
theorem tagsOf_twinCrewsAfter : twinCrewsAfter.tagsOf 0 false = 0 := by decide +kernel

theorem core_twinCrewsAfter : (twinCrewsAfter.warp? 0).map Warp.core = some 0 := by decide +kernel

end Sys2Proof.Machine

open Sys2Proof Sys2Proof.Machine

/-- Refutes O6: where two crews bear one serial number, which the statement does not exclude, the write of ETOL replaces
both by the first, and TAGS changes with the second. Where the serial numbers are distinct, `statusAccess_of_nodup` gives
all that the statement says. -/
theorem not_statusAccess : ¬ Obligations.StatusAccess := by
  intro h
  obtain ⟨_, hswr⟩ := h swrEtol twinCrews 0 .port loneWarp
  obtain ⟨_, haccept⟩ := hswr issues_swrEtol (by decide +kernel)
  obtain ⟨t, w', ht, hw', _, _, _, _, hread⟩ := haccept fun _ _ _ => (by decide : srAccepts 0x11 0 = true)
  obtain rfl : twinCrewsAfter = t := by rw [exec_swrEtol] at ht; exact Host.Outcome.next.inj ht
  have hcore : w'.core = 0 := by simpa [hw'] using core_twinCrewsAfter
  have htags : twinCrewsAfter.tagsOf w'.core false = twinCrews.tagsOf 0 false := hread 0 (by decide) 0x0F (by decide) (by decide)
  rw [hcore, tagsOf_twinCrewsAfter, tagsOf_twinCrews] at htags
  exact absurd htags (by decide)
end

section
/-! SUPPORT. Codes of the IEEE formats (R83, R84, R91): their three fields, the value they decode to, and the code that a
decoded value is written as. -/

namespace Sys2Proof.Machine

/-! ### The fields of a code -/

/-- The code with these fields. -/
def Fmt.code (f : Fmt) (s : Bool) (e m : Nat) : Nat := f.sign s + (e * 2 ^ f.fb + m)

theorem Fmt.code_eq (f : Fmt) (s : Bool) (e m : Nat) :
    f.code s e m = m + 2 ^ f.fb * (e + 2 ^ f.eb * s.toNat) := by
  cases s <;> simp [Fmt.code, Fmt.sign, Nat.pow_add, Nat.mul_add] <;> grind

theorem Fmt.code_frac {f : Fmt} {m : Nat} (s : Bool) (e : Nat) (hm : m < 2 ^ f.fb) : f.code s e m % 2 ^ f.fb = m := by
  rw [Fmt.code_eq, Nat.add_mul_mod_self_left, Nat.mod_eq_of_lt hm]

section
variable {f : Fmt} {e m : Nat} (s : Bool) (he : e < 2 ^ f.eb) (hm : m < 2 ^ f.fb)

include hm in
theorem Fmt.code_high (e : Nat) : f.code s e m / 2 ^ f.fb = e + 2 ^ f.eb * s.toNat := by
  rw [Fmt.code_eq, Nat.add_mul_div_left _ _ (Nat.two_pow_pos _), Nat.div_eq_of_lt hm, Nat.zero_add]

include he hm in
theorem Fmt.code_exp : f.code s e m / 2 ^ f.fb % 2 ^ f.eb = e := by
  rw [Fmt.code_high s hm, Nat.add_mul_mod_self_left, Nat.mod_eq_of_lt he]

include he hm in
theorem Fmt.testBit_code : (f.code s e m).testBit (f.eb + f.fb) = s := by
  rw [Nat.testBit_eq_decide_div_mod_eq, Nat.add_comm f.eb, Nat.pow_add, ← Nat.div_div_eq_div_mul, Fmt.code_high s hm,
    Nat.add_mul_div_left _ _ (Nat.two_pow_pos _), Nat.div_eq_of_lt he]
  cases s <;> rfl

include he hm in
theorem Fmt.magnitude_lt : e * 2 ^ f.fb + m < 2 ^ (f.eb + f.fb) := by
  have h : (e + 1) * 2 ^ f.fb ≤ 2 ^ f.eb * 2 ^ f.fb := Nat.mul_le_mul_right _ he
  rw [Nat.pow_add]
  rw [Nat.add_mul] at h
  omega

include he hm in
theorem Fmt.code_lt : f.code s e m < 2 ^ f.width := by
  have h := Fmt.magnitude_lt he hm
  have hw : 2 ^ f.width = 2 * 2 ^ (f.eb + f.fb) := by rw [Fmt.width, Nat.add_assoc, Nat.add_comm, Nat.pow_succ, Nat.mul_comm]
  cases s <;> simp [Fmt.code, Fmt.sign] <;> omega
end

/-- Every code of the format has its three fields. -/
theorem Fmt.exists_code {f : Fmt} {x : Nat} (hx : x < 2 ^ f.width) :
    ∃ s e m, e < 2 ^ f.eb ∧ m < 2 ^ f.fb ∧ x = f.code s e m := by
  refine ⟨decide (x / 2 ^ f.fb / 2 ^ f.eb = 1), x / 2 ^ f.fb % 2 ^ f.eb, x % 2 ^ f.fb, Nat.mod_lt _ (Nat.two_pow_pos _),
    Nat.mod_lt _ (Nat.two_pow_pos _), ?_⟩
  have hs : x / 2 ^ f.fb / 2 ^ f.eb < 2 := by
    rw [Nat.div_div_eq_div_mul, Nat.div_lt_iff_lt_mul (Nat.mul_pos (Nat.two_pow_pos _) (Nat.two_pow_pos _)), ← Nat.pow_add,
      ← Nat.pow_succ']
    exact Nat.lt_of_lt_of_eq hx (by rw [Fmt.width]; congr 1; omega)
  have hb : (decide (x / 2 ^ f.fb / 2 ^ f.eb = 1)).toNat = x / 2 ^ f.fb / 2 ^ f.eb := by
    generalize x / 2 ^ f.fb / 2 ^ f.eb = y at hs ⊢
    obtain rfl | rfl : y = 0 ∨ y = 1 := by omega
    all_goals rfl
  rw [Fmt.code_eq, hb, Nat.mod_add_div, Nat.mod_add_div]

/-! ### The IEEE formats (R83) -/

/-- A format laid out as IEEE 754 has it: the top exponent is for infinities and NaNs, quiet and signalling. -/
structure Fmt.Ieee (f : Fmt) : Prop where
  top : f.top = .ieee
  snan : f.snan = true
  eb : 2 ≤ f.eb
  fb : 1 ≤ f.fb

theorem ieee_fmtOf (ty : DType) : (fmtOf ty).Ieee := by
  cases ty <;> exact ⟨rfl, rfl, by decide, by decide⟩

/-- R83 to R85, R91: the value of a code by its fields. -/
theorem Fmt.Ieee.decode_eq {f : Fmt} (hf : f.Ieee) (x : Nat) :
    f.decode x =
      let s := x.testBit (f.eb + f.fb)
      let e := x / 2 ^ f.fb % 2 ^ f.eb
      let m := x % 2 ^ f.fb
      if e = 0 then (if f.flush then .num s 0 0 else .num s m (f.emin - f.fb))
      else if e = 2 ^ f.eb - 1 then (if m = 0 then .inf s else .nan (m < 2 ^ (f.fb - 1)))
      else .num s (2 ^ f.fb + m) (e - f.bias - f.fb) := by
  simp [Fmt.decode, hf.top, hf.snan, Nat.testBit_eq_decide_div_mod_eq, Bool.beq_eq_decide_eq]

/-- The fraction that a reader of numbers takes: none of a subnormal that is flushed (R91). -/
def Fmt.kept (f : Fmt) (e m : Nat) : Nat := if f.flush = true ∧ e = 0 then 0 else m

theorem Fmt.kept_lt {f : Fmt} {m : Nat} (e : Nat) (hm : m < 2 ^ f.fb) : f.kept e m < 2 ^ f.fb := by
  unfold Fmt.kept
  split
  · exact Nat.two_pow_pos _
  · exact hm

section
variable {f : Fmt} (hf : f.Ieee) (s : Bool) {e m : Nat} (he : e < 2 ^ f.eb) (hm : m < 2 ^ f.fb)

include hf he hm in
theorem Fmt.Ieee.decode_code :
    f.decode (f.code s e m) =
      if e = 0 then (if f.flush then .num s 0 0 else .num s m (f.emin - f.fb))
      else if e = 2 ^ f.eb - 1 then (if m = 0 then .inf s else .nan (m < 2 ^ (f.fb - 1)))
      else .num s (2 ^ f.fb + m) (e - f.bias - f.fb) := by
  rw [hf.decode_eq, Fmt.testBit_code s he hm, Fmt.code_exp s he hm, Fmt.code_frac s e hm]

include he hm in
theorem Fmt.asRead_code : f.asRead (f.code s e m) = f.code s e (f.kept e m) := by
  rw [Fmt.asRead, Fmt.code_exp s he hm, Fmt.testBit_code s he hm, Nat.mod_eq_of_lt (Fmt.code_lt s he hm), Fmt.kept]
  by_cases h : f.flush = true ∧ e = 0
  · simp [h, Fmt.code]
  · rw [if_neg h, if_neg (by simpa using h)]

include hf he hm in
/-- Reading a code again changes nothing. -/
theorem Fmt.Ieee.decode_asRead_code : f.decode (f.asRead (f.code s e m)) = f.decode (f.code s e m) := by
  rw [Fmt.asRead_code s he hm, hf.decode_code s he (Fmt.kept_lt e hm), hf.decode_code s he hm, Fmt.kept]
  by_cases h0 : e = 0
  · cases f.flush <;> simp [h0]
  · simp [h0]

include hf he hm in
theorem Fmt.Ieee.negate_decode : (f.decode (f.code s e m)).negate = f.decode (f.code (!s) e m) := by
  rw [hf.decode_code s he hm, hf.decode_code (!s) he hm]
  repeat' split
  all_goals rfl

include hf he hm in
theorem Fmt.Ieee.neg_decode (hn : (f.decode (f.code s e m)).isNan = false) : (f.decode (f.code s e m)).neg = s := by
  rw [hf.decode_code s he hm] at hn ⊢
  by_cases h0 : e = 0
  · cases hfl : f.flush <;> simp [h0, Val.neg]
  · by_cases ht : e = 2 ^ f.eb - 1
    · by_cases hm0 : m = 0
      · simp [h0, ← ht, hm0, Val.neg]
      · simp [h0, ← ht, hm0, Val.isNan] at hn
    · simp [h0, ht, Val.neg]
end

/-! ### A decoded value written again -/

/-- A magnitude that fits its format is not beyond the largest finite one. -/
theorem Fmt.beyond_eq_false {f : Fmt} {m : Nat} {q : Int} (hm : m ≤ f.maxM) (hq : q ≤ f.maxE) : f.beyond m q = false := by
  unfold Fmt.beyond
  split
  · have h0 : q - f.maxE = 0 := by omega
    simpa [Fmt.above, h0] using hm
  · have := Nat.mul_le_mul hm (Nat.one_le_two_pow (n := (f.maxE - q).toNat))
    simp
    omega

/-- A magnitude whose last bit already stands where rounding cuts is written as it is. -/
theorem Fmt.round_exact (f : Fmt) (r : RM) (sat neg : Bool) {m : Nat} {e : Int} (h0 : m ≠ 0) (hm : m ≤ f.maxM)
    (he : e ≤ f.maxE) (hq : max ((bitLen m : Int) + e - 1 - f.fb) (f.emin - f.fb) = e) :
    (f.round r sat neg m e false).1 = f.encode neg m e := by
  have hup : r.up neg m false false false = false := by cases r <;> simp [RM.up]
  simp [Fmt.round, h0, hq, cut, hup, Fmt.beyond_eq_false hm he]

theorem Fmt.round_zero (f : Fmt) (r : RM) (sat neg : Bool) (e : Int) : (f.round r sat neg 0 e false).1 = f.sign neg := rfl

theorem bitLen_of_bounds {m k : Nat} (hlo : 2 ^ k ≤ m) (hhi : m < 2 ^ (k + 1)) : bitLen m = k + 1 := by
  have h0 : m ≠ 0 := by have := Nat.two_pow_pos k; omega
  rw [bitLen_of_ne_zero h0, (Nat.log2_eq_iff h0).mpr ⟨hlo, hhi⟩]

section
variable {f : Fmt} (hf : f.Ieee) (r : RM) (sat s : Bool)

include hf in
theorem Fmt.Ieee.maxM_eq : f.maxM = 2 ^ (f.fb + 1) - 1 := by simp [Fmt.maxM, hf.top]

include hf in
theorem Fmt.Ieee.maxE_eq : f.maxE = 2 ^ f.eb - 2 - f.bias - f.fb := by simp [Fmt.maxE, hf.top]

include hf in
theorem Fmt.Ieee.round_subnormal {m : Nat} (hm : m < 2 ^ f.fb) :
    (f.round r sat s m (f.emin - f.fb) false).1 = f.code s 0 m := by
  by_cases h0 : m = 0
  · subst h0; simp [Fmt.round_zero, Fmt.code]
  · have hb : bitLen m ≤ f.fb := bitLen_le hm
    have he4 : (4 : Int) ≤ 2 ^ f.eb := by exact_mod_cast Nat.pow_le_pow_right (n := 2) (by decide) hf.eb
    rw [Fmt.round_exact f r sat s h0 _ _ _]
    · have hl : ¬f.fb + 1 < bitLen m := by omega
      simp [Fmt.encode, h0, hl, hm, Fmt.code]
    · rw [hf.maxM_eq, Nat.pow_succ]; omega
    · rw [hf.maxE_eq, Fmt.emin]; omega
    · omega

include hf in
theorem Fmt.Ieee.round_normal {e m : Nat} (h1 : e ≠ 0) (he : e < 2 ^ f.eb - 1) (hm : m < 2 ^ f.fb) :
    (f.round r sat s (2 ^ f.fb + m) (e - f.bias - f.fb) false).1 = f.code s e m := by
  have hb : bitLen (2 ^ f.fb + m) = f.fb + 1 := bitLen_of_bounds (by omega) (by rw [Nat.pow_succ]; omega)
  have hpos := Nat.two_pow_pos f.fb
  have heI : (e : Int) ≤ 2 ^ f.eb - 2 := by
    have : ((e + 2 : Nat) : Int) ≤ (2 ^ f.eb : Nat) := by exact_mod_cast (by omega : e + 2 ≤ 2 ^ f.eb)
    push_cast at this
    omega
  rw [Fmt.round_exact f r sat s (by omega) _ _ _]
  · have hl : ¬2 ^ f.fb + m < 2 ^ f.fb := by omega
    have hq : ((e : Int) - f.bias - f.fb + f.fb + f.bias).toNat = e := by omega
    have h0 : 2 ^ f.fb + m ≠ 0 := by omega
    simp only [Fmt.encode, beq_iff_eq, h0, hb, Nat.lt_irrefl, if_false, hl, hq]
    simp [Fmt.code, Nat.add_assoc]
  · rw [hf.maxM_eq, Nat.pow_succ]; omega
  · rw [hf.maxE_eq]; omega
  · rw [hb, Fmt.emin]; omega

include hf in
/-- R106: a number read is written as the code that was read, a flushed one as a zero of its sign. -/
theorem Fmt.Ieee.write_decode {x : Nat} (hx : x < 2 ^ f.width) (hn : (f.decode x).isNan = false) :
    ((f.decode x).write f r sat).1 = f.asRead x := by
  obtain ⟨s, e, m, he, hm, rfl⟩ := Fmt.exists_code hx
  rw [Fmt.asRead_code s he hm, Fmt.kept]
  rw [hf.decode_code s he hm] at hn ⊢
  by_cases h0 : e = 0
  · subst h0
    by_cases hfl : f.flush = true
    · simp [hfl, Val.write, Fmt.round_zero, Fmt.code]
    · simpa [hfl, Val.write] using hf.round_subnormal r sat s hm
  · have hk : ¬(f.flush = true ∧ e = 0) := fun h => h0 h.2
    rw [if_neg hk]
    rw [if_neg h0] at hn ⊢
    by_cases ht : e = 2 ^ f.eb - 1
    · rw [if_pos ht] at hn ⊢
      by_cases hm0 : m = 0
      · simp [hm0, Val.write, hf.top, Fmt.inf, Fmt.code, ht]
      · rw [if_neg hm0] at hn; cases hn
    · rw [if_neg ht]
      exact hf.round_normal r sat s h0 (by omega) hm
end

end Sys2Proof.Machine
end

section
/-! SUPPORT. Minimum and maximum, signs, comparison and classes (R106 to R108). -/

namespace Sys2Proof.Machine

/-! ### Instructions with flags (R96) -/

/-- An `Issue.floats` computes its function element by element, with the flags of the elements. -/
theorem floatOp_of_floats {i : Instr} {f : Fields} (os : List Opnd) (g : RM → List Nat → Nat × Word)
    (he : ∀ s, exec i s = issue i s fun x => x.floats f os (g (x.rm f))) : FloatOp i f os g := by
  refine computes_of_alu _ he (fun s uid side w _ l _ e hee => ?_) fun _ _ _ _ _ => rfl
  rw [element_mapElems _ _ _ _ hee, Issue.srcs, List.map_map]
  rfl

/-- An `Issue.alu` computes its value and its flags. -/
theorem floatValue_of_alu {i : Instr} {f : Fields} {k : Nat} {g : RM → Warp → Nat → Nat × Word}
    (op : Issue → Nat → Nat × Word) (he : ∀ s, exec i s = issue i s fun x => x.alu f.d k (op x))
    (hv : ∀ x l, op x l = g (x.rm f) x.w l) : FloatValue i f k g :=
  computes_of_alu op he (fun _ _ _ _ _ _ _ => congrArg Prod.fst (hv _ _))
    fun _ _ _ _ _ => congrArg _ (funext fun _ => congrArg Prod.snd (hv _ _))

/-! ### Minimum and maximum (R106) -/

theorem Val.cmp_swap (a b : Val) : (a.cmp b).swap = b.cmp a := by
  match a, b with
  | .num n m e, .num k l j =>
    simp only [Val.cmp, Int.min_comm j e]
    exact Std.OrientedOrd.eq_swap.symm
  | .inf true, .inf true | .inf true, .inf false | .inf false, .inf true | .inf false, .inf false
  | .inf true, .num .. | .inf false, .num .. | .num .., .inf true | .num .., .inf false
  | .inf true, .nan _ | .inf false, .nan _ | .nan _, .inf true | .nan _, .inf false
  | .nan _, .nan _ | .nan _, .num .. | .num .., .nan _ => rfl

theorem Val.below_asymm {a b : Val} (h : a.below b = true) : b.below a = false := by
  unfold Val.below at h ⊢
  rw [← Val.cmp_swap a b]
  cases hc : a.cmp b <;> simp_all

theorem Val.below_irrefl (a : Val) : a.below a = false := by
  cases h : a.below a with
  | false => rfl
  | true => exact h.symm.trans (Val.below_asymm h)

/-- R106: the flags and the code of `fmin` and `fmax`, where each operand is a NaN and where none is. -/
theorem Fmt.Ieee.pick_eq {f : Fmt} (hf : f.Ieee) (larger : Bool) {a b : Nat} (ha : a < 2 ^ f.width) (hb : b < 2 ^ f.width) :
    f.pick larger a b =
      (if (f.decode a).isNan then (if (f.decode b).isNan then f.nan else f.asRead b)
        else if (f.decode b).isNan then f.asRead a
        else if (f.decode a).below (f.decode b) == larger then f.asRead b else f.asRead a,
        flagIf ((f.decode a).isSnan || (f.decode b).isSnan) NV) := by
  have hwa := hf.write_decode .rne false ha
  have hwb := hf.write_decode .rne false hb
  unfold Fmt.pick
  cases hna : (f.decode a).isNan <;> cases hnb : (f.decode b).isNan
  case true.true => simp [hna, hnb]
  case true.false => simp [hna, hnb, hwb hnb]
  case false.true => simp [hna, hnb, hwa hna]
  case false.false =>
    cases hl : (f.decode a).below (f.decode b) == larger
    · simp [hna, hnb, hl, hwa hna]
    · simp [hna, hnb, hl, hwb hnb]

theorem Fmt.Ieee.decode_asRead {f : Fmt} (hf : f.Ieee) {x : Nat} (hx : x < 2 ^ f.width) :
    f.decode (f.asRead x) = f.decode x := by
  obtain ⟨s, e, m, he, hm, rfl⟩ := Fmt.exists_code hx
  exact hf.decode_asRead_code s he hm

/-- The order in which `fmin` (`fmax`) puts a value past another. -/
def beyondFor (larger : Bool) (u z : Val) : Bool := if larger then z.below u else u.below z

/-- The pick of two values has neither beyond it. -/
theorem beyondFor_picked (larger : Bool) (x y : Val) {z : Val} (hz : z = if x.below y == larger then y else x) :
    beyondFor larger x z = false ∧ beyondFor larger y z = false := by
  subst hz
  have hx := Val.below_irrefl x
  have hy := Val.below_irrefl y
  cases hl : x.below y
  · cases larger <;> simp [beyondFor, hl, hx, hy]
  · have hyx := Val.below_asymm hl
    cases larger <;> simp [beyondFor, hyx, hx, hy]

/-- R106: what `fmin` or `fmax` gives: the canonical NaN, the numeric operand, or the one beyond which none lies. -/
theorem Fmt.Ieee.pick_spec {f : Fmt} (hf : f.Ieee) (larger : Bool) {a b : Nat} (ha : a < 2 ^ f.width) (hb : b < 2 ^ f.width) :
    let x := f.decode a
    let y := f.decode b
    let p := f.pick larger a b
    let z := f.decode p.1
    p.2 = flagIf (x.isSnan || y.isSnan) NV ∧
      (x.isNan → y.isNan → p.1 = f.nan) ∧
      (x.isNan → ¬y.isNan → p.1 = f.asRead b) ∧
      (¬x.isNan → y.isNan → p.1 = f.asRead a) ∧
      (¬x.isNan → ¬y.isNan →
        (p.1 = f.asRead a ∨ p.1 = f.asRead b) ∧ beyondFor larger x z = false ∧ beyondFor larger y z = false) := by
  intro x y p z
  have hp : p = _ := hf.pick_eq larger ha hb
  refine ⟨by rw [hp], fun hx hy => ?_, fun hx hy => ?_, fun hx hy => ?_, fun hx hy => ?_⟩
  · simp [hp, x, y, hx, hy]
  · simp [hp, x, y, hx, hy]
  · simp [hp, x, y, hx, hy]
  · have hp1 : p.1 = if x.below y == larger then f.asRead b else f.asRead a := by simp [hp, x, y, hx, hy]
    have hz : z = if x.below y == larger then y else x := by
      simp only [z, hp1, x, y]
      split
      · exact hf.decode_asRead hb
      · exact hf.decode_asRead ha
    refine ⟨?_, beyondFor_picked larger x y hz⟩
    rw [hp1]
    split
    · exact .inr rfl
    · exact .inl rfl

/-! ### Signs (R106) -/

/-- The sign that `fabs` gives a number (R106). -/
def signOf (op : Nat) (s : Bool) : Bool := match op with | 0 => false | 1 => true | _ => !s

/-- R106: `fabs` of a NaN is the canonical one; of a number, the number itself or its negation. -/
theorem Fmt.signOp_eq (f : Fmt) (op x : Nat) :
    f.signOp op x =
      if (f.decode x).isNan then (f.nan, flagIf (f.decode x).isSnan NV)
      else (((if signOf op (f.decode x).neg = (f.decode x).neg then f.decode x else (f.decode x).negate).write f .rne false).1, 0) := by
  unfold Fmt.signOp
  cases f.decode x with
  | nan q => rfl
  | inf s => cases s <;> match op with | 0 | 1 | _ + 2 => rfl
  | num s m e => cases s <;> match op with | 0 | 1 | _ + 2 => rfl

section
variable {f : Fmt} (hf : f.Ieee) (s : Bool) {e m : Nat} (he : e < 2 ^ f.eb) (hm : m < 2 ^ f.fb)

include hf he hm in
/-- The code with another sign has the negated value. -/
theorem Fmt.Ieee.decode_signed (t : Bool) :
    f.decode (f.code t e m) = if t = s then f.decode (f.code s e m) else (f.decode (f.code s e m)).negate := by
  rw [hf.negate_decode s he hm]
  cases t <;> cases s <;> rfl

include hf he hm in
theorem Fmt.Ieee.isNan_signed (t : Bool) : (f.decode (f.code t e m)).isNan = (f.decode (f.code s e m)).isNan := by
  rw [hf.decode_signed s he hm t]
  split
  · rfl
  · cases f.decode (f.code s e m) <;> rfl

include hf he hm in
/-- R106: a number keeps all but its sign. -/
theorem Fmt.Ieee.signOp_code (op : Nat) :
    f.signOp op (f.code s e m) =
      if (f.decode (f.code s e m)).isNan then (f.nan, flagIf (f.decode (f.code s e m)).isSnan NV)
      else (f.asRead (f.code (signOf op s) e m), 0) := by
  rw [Fmt.signOp_eq]
  cases hn : (f.decode (f.code s e m)).isNan
  · have hn' : (f.decode (f.code (signOf op s) e m)).isNan = false := (hf.isNan_signed s he hm _).trans hn
    rw [hf.neg_decode s he hm hn, ← hf.decode_signed s he hm, hf.write_decode .rne false (Fmt.code_lt _ he hm) hn']
  · rfl

include he hm in
/-- R106, as the statement gives it: the sign bit of the code as it is read is cleared, set or flipped. -/
theorem Fmt.asRead_signed (op : Nat) :
    let r := f.asRead (f.code s e m)
    let top := 2 ^ (f.eb + f.fb)
    f.asRead (f.code (signOf op s) e m) =
      match op with | 0 => r % top | 1 => r % top + top | _ => if r < top then r + top else r - top := by
  intro r top
  have hy := Fmt.magnitude_lt he (Fmt.kept_lt e hm)
  have hr : r = f.sign s + (e * 2 ^ f.fb + f.kept e m) := Fmt.asRead_code s he hm
  have htop : top = 2 ^ (f.eb + f.fb) := rfl
  rw [Fmt.asRead_code _ he hm, Fmt.code, hr]
  generalize e * 2 ^ f.fb + f.kept e m = y at hy
  rw [← htop] at hy
  have h0 : f.sign false = 0 := rfl
  have h1 : f.sign true = top := rfl
  have hmod : (f.sign s + y) % top = y := by
    cases s
    · rw [h0, Nat.zero_add, Nat.mod_eq_of_lt hy]
    · rw [h1, Nat.add_mod_left, Nat.mod_eq_of_lt hy]
  match op with
  | 0 =>
    show f.sign false + y = (f.sign s + y) % top
    rw [hmod, h0, Nat.zero_add]
  | 1 =>
    show f.sign true + y = (f.sign s + y) % top + top
    rw [hmod, h1, Nat.add_comm]
  | _ + 2 =>
    show f.sign (!s) + y = if f.sign s + y < top then f.sign s + y + top else f.sign s + y - top
    cases s
    · rw [h0, Nat.zero_add, if_pos hy, Bool.not_false, h1, Nat.add_comm]
    · rw [h1, if_neg (by omega), Bool.not_true, h0, Nat.zero_add, Nat.add_sub_cancel_left]
end

/-! ### Classes (R108) -/

/-- The number of the class of a code (R108). -/
def classNo (f : Fmt) (x : Nat) : Nat :=
  let neg := x.testBit (f.eb + f.fb)
  let e := x / 2 ^ f.fb % 2 ^ f.eb
  let m := x % 2 ^ f.fb
  if e = 2 ^ f.eb - 1 then (if m = 0 then (if neg then 2 else 9) else if m < 2 ^ (f.fb - 1) then 0 else 1)
  else if e = 0 then (if m = 0 ∨ f.flush then (if neg then 5 else 6) else if neg then 4 else 7)
  else if neg then 3 else 8

theorem Fmt.Ieee.classOf_eq {f : Fmt} (hf : f.Ieee) (x : Nat) : f.classOf x = 2 ^ classNo f x := by
  have htop : 2 ^ f.eb - 1 ≠ 0 := by
    have := Nat.pow_le_pow_right (n := 2) (by decide) hf.eb
    omega
  rw [Fmt.classOf, hf.decode_eq, classNo]
  simp only
  generalize x.testBit (f.eb + f.fb) = s
  generalize x / 2 ^ f.fb % 2 ^ f.eb = e
  generalize x % 2 ^ f.fb = m
  by_cases h0 : e = 0
  · subst h0
    have ht : ¬0 = 2 ^ f.eb - 1 := htop.symm
    by_cases hfl : f.flush = true
    · cases s <;> simp [hfl, ht]
    · by_cases hm : m = 0
      · cases s <;> simp [hfl, ht, hm]
      · cases s <;> simp [hfl, ht, hm]
  · by_cases ht : e = 2 ^ f.eb - 1
    · by_cases hm : m = 0
      · cases s <;> simp [h0, ← ht, hm]
      · by_cases hq : m < 2 ^ (f.fb - 1)
        · simp [h0, ← ht, hm, hq]
        · simp [h0, ← ht, hm, hq]
    · cases s <;> simp [h0, ht]

/-- R108: one class bit, or one for each half. -/
theorem classMask_eq (ty : DType) (a : Nat) :
    let fm := fmtOf ty
    (if ty == .f16x2 || ty == .bf16x2 then fm.classOf (a % 2 ^ 16) + fm.classOf (a / 2 ^ 16 % 2 ^ 16) * 2 ^ 16
      else fm.classOf a) =
      if ty = .f16x2 ∨ ty = .bf16x2 then 2 ^ classNo fm (element 16 a 0) + 2 ^ (classNo fm (element 16 a 1) + 16)
      else 2 ^ classNo fm a := by
  intro fm
  have hf : fm.Ieee := ieee_fmtOf ty
  rw [hf.classOf_eq, hf.classOf_eq, hf.classOf_eq, ← Nat.pow_add]
  simp [element]

end Sys2Proof.Machine

open Sys2Proof Sys2Proof.Machine

/-- Settles O10: the pick of two codes, the sign operation and the class of a code as the lemmas above give them; the
relations of `fcmp` are the model's own table. -/
theorem floatCompare : Obligations.FloatCompare := by
  intro f fm
  have hf : fm.Ieee := ieee_fmtOf f.ty
  refine ⟨⟨_, floatOp_of_floats _ _ fun s => show execFmin f s = _ from rfl, fun a ha b hb => hf.pick_spec false ha hb⟩,
    ⟨_, floatOp_of_floats _ _ fun s => show execFmax f s = _ from rfl, fun a ha b hb => hf.pick_spec true ha hb⟩,
    ⟨_, floatOp_of_floats _ _ fun s => show execFabs f s = _ from rfl, fun a ha => ?fabs⟩,
    floatValue_of_alu _ (fun s => show execFcmp f s = _ from rfl) fun _ _ => rfl,
    floatValue_of_alu _ (fun s => show execFclass f s = _ from rfl) fun x l => ?fclass⟩
  case fabs =>
    obtain ⟨s, e, m, he, hm, rfl⟩ := Fmt.exists_code ha
    have h := hf.signOp_code s he hm f.sub.toNat
    rw [Fmt.asRead_signed s he hm] at h
    exact h
  case fclass =>
    exact congrArg (·, 0) (classMask_eq f.ty (operand f x.w l f.a))
end

section
/-! SUPPORT. Values written as integers (R94, R111), and instructions that use a format slot (R93). -/

namespace Sys2Proof.Machine

/-! ### Rounding to an integer (R87) -/

/-- The cut at the unit of a magnitude with `k + 1` bits below it: quotient and remainder, and what is left beside half a
unit. -/
theorem cut_unit (m k : Nat) {e : Int} (he : e = -(k + 1 : Nat)) :
    let d := 2 ^ (k + 1)
    cut m e false 0 = (m / d, m % d != 0, decide (d < 2 * (m % d)), 2 * (m % d) == d) := by
  intro d
  have hd : d = 2 * 2 ^ k := Nat.pow_succ'
  have hneg : ¬(0 : Int) ≤ e := by omega
  have hk : (0 - e).toNat = k + 1 := by omega
  simp only [cut, hneg, if_false, hk]
  rcases Nat.le_total (k + 1) (bitLen m + 2) with h | h
  · rw [Nat.min_eq_left h, Nat.add_sub_cancel, show 2 ^ (k + 1) = d from rfl]
    have hmore : 2 ^ k < m % d ↔ d < 2 * (m % d) := by omega
    have hhalf : (m % d == 2 ^ k) = (2 * (m % d) == d) := by rw [Bool.eq_iff_iff, beq_iff_eq, beq_iff_eq]; omega
    simp only [hmore, hhalf, Bool.or_false, Bool.and_false, Bool.not_false, Bool.and_true]
  · have hlen := lt_two_pow_bitLen m
    have h1 : 2 ^ (bitLen m + 2) = 4 * 2 ^ bitLen m := by rw [Nat.pow_add, Nat.mul_comm]
    have h2 : 2 ^ (bitLen m + 1) = 2 * 2 ^ bitLen m := Nat.pow_succ'
    have hle : 2 ^ (bitLen m + 2) ≤ d := Nat.pow_le_pow_right (by decide) h
    rw [Nat.min_eq_right h, Nat.add_succ_sub_one, Nat.div_eq_of_lt (by omega), Nat.mod_eq_of_lt (by omega),
      Nat.div_eq_of_lt (by omega), Nat.mod_eq_of_lt (by omega)]
    have hmore : 2 ^ (bitLen m + 1) < m ↔ d < 2 * m := by omega
    have hhalf : (m == 2 ^ (bitLen m + 1)) = (2 * m == d) := by rw [Bool.eq_iff_iff, beq_iff_eq, beq_iff_eq]; omega
    simp only [hmore, hhalf, Bool.or_false, Bool.and_false, Bool.not_false, Bool.and_true]

/-- The integer that a mode takes for `q` units and `c` of the `d` parts of another. -/
def unitsUp (r : RM) (neg : Bool) (q c d : Nat) : Nat :=
  if r.up neg q (c != 0) (decide (d < 2 * c)) (2 * c == d) then q + 1 else q

theorem unitsUp_cases (r : RM) (neg : Bool) {q c d : Nat} (hd : 0 < d) :
    unitsUp r neg q c d = q ∨ (unitsUp r neg q c d = q + 1 ∧ c ≠ 0) := by
  by_cases hc : c = 0
  · left
    subst hc
    have h : (0 == d) = false := by simp; omega
    cases r <;> simp [unitsUp, RM.up, h]
  · unfold unitsUp
    split
    · exact .inr ⟨rfl, hc⟩
    · exact .inl rfl

/-- The units taken are the exact value when no part is left. -/
theorem mul_unitsUp_eq_iff (r : RM) (neg : Bool) {q c d : Nat} (hd : 0 < d) (hc : c < d) :
    d * q + c = d * unitsUp r neg q c d ↔ c = 0 := by
  obtain h | ⟨h, h0⟩ := unitsUp_cases r neg (q := q) (c := c) hd
  · rw [h]; omega
  · rw [h, Nat.mul_succ]; omega

/-- Floor division of a negated number. -/
theorem neg_ediv_emod {q c d : Nat} (hc : c < d) :
    -((d * q + c : Nat) : Int) / d = (if c = 0 then -(q : Int) else -q - 1) ∧
      -((d * q + c : Nat) : Int) % d = (if c = 0 then 0 else (d : Int) - c) := by
  rw [Int.ediv_emod_unique (by omega), Int.natCast_add, Int.natCast_mul]
  split
  · rw [Int.mul_neg]; omega
  · rw [Int.mul_sub, Int.mul_neg, Int.mul_one]; omega

theorem pos_ediv_emod {q c d : Nat} (hc : c < d) :
    ((d * q + c : Nat) : Int) / d = q ∧ ((d * q + c : Nat) : Int) % d = c := by
  rw [Int.ediv_emod_unique (by omega)]
  push_cast
  omega

/-- R87: of the exact value `m / d`, `unitsUp` is the magnitude of the nearest integer that the mode allows. -/
theorem nearInt_neg_exp (r : RM) (neg : Bool) {m q c k : Nat} {e : Int} (he : e = -(k : Nat)) (hm : m = 2 ^ k * q + c)
    (hc : c < 2 ^ k) :
    nearInt r neg m e = if neg then -(unitsUp r neg q c (2 ^ k) : Int) else unitsUp r neg q c (2 ^ k) := by
  have hk : (-e).toNat = k := by omega
  have h0 : e.toNat = 0 := by omega
  obtain ⟨hpd, hpm⟩ := pos_ediv_emod (q := q) hc
  obtain ⟨hnd, hnm⟩ := neg_ediv_emod (q := q) hc
  have ht : Int.tdiv ((2 ^ k * q + c : Nat) : Int) ((2 ^ k : Nat) : Int) = q := by
    rw [Int.tdiv_eq_ediv_of_nonneg (Int.natCast_nonneg _), hpd]
  simp only [nearInt, hk, h0, Nat.pow_zero, Nat.mul_one, hm]
  generalize 2 ^ k = d at *
  cases neg
  · simp only [Bool.false_eq_true, if_false, Int.one_mul, hpd, hpm, hnd, ht]
    cases r
    case rne =>
      simp only [unitsUp, RM.up, Bool.or_eq_true, Bool.and_eq_true, decide_eq_true_eq, beq_iff_eq]
      repeat' split
      all_goals omega
    case ru =>
      by_cases h : c = 0
      · simp [unitsUp, RM.up, h]
      · simp [unitsUp, RM.up, h]; omega
    all_goals simp [unitsUp, RM.up]
  · simp only [if_true, Int.neg_mul, Int.one_mul, Int.neg_neg, Int.neg_tdiv, hpd, hnd, hnm, ht]
    cases r
    case rne =>
      simp only [unitsUp, RM.up, Bool.or_eq_true, Bool.and_eq_true, decide_eq_true_eq, beq_iff_eq]
      repeat' split
      all_goals omega
    case rd =>
      by_cases h : c = 0
      · simp [unitsUp, RM.up, h]
      · simp [unitsUp, RM.up, h]; omega
    all_goals simp [unitsUp, RM.up]

/-- R87: a value with no bits below the unit is its own integer. -/
theorem nearInt_nonneg_exp (r : RM) (neg : Bool) (m : Nat) {e : Int} (he : 0 ≤ e) : nearInt r neg m e = intAt neg m e 0 := by
  have hk : (-e).toNat = 0 := by omega
  have h : (if neg = true then (-1 : Int) else 1) * (m * 2 ^ e.toNat : Nat) = intAt neg m e 0 := by
    cases neg <;> simp [intAt]
  simp only [nearInt, hk, h]
  cases r <;> simp

theorem roundInt_nonneg_exp (r : RM) (neg : Bool) (m : Nat) {e : Int} (he : 0 ≤ e) :
    roundInt r neg m e = (intAt neg m e 0, false) := by
  have hup (n : Nat) : r.up neg n false false false = false := by cases r <;> simp [RM.up]
  simp [roundInt, cut, he, hup, intAt]

/-- R87, R88: rounding to an integer gives `nearInt`, and tells whether that is the exact value. -/
theorem roundInt_eq (r : RM) (neg : Bool) (m : Nat) (e : Int) :
    roundInt r neg m e = (nearInt r neg m e, intAt neg m e (min e 0) != nearInt r neg m e * 2 ^ (-(min e 0)).toNat) := by
  by_cases he : 0 ≤ e
  · rw [roundInt_nonneg_exp r neg m he, nearInt_nonneg_exp r neg m he, Int.min_eq_right he]
    simp
  · obtain ⟨k, hk⟩ : ∃ k : Nat, e = -(k + 1 : Nat) := ⟨(-e).toNat - 1, by omega⟩
    have hd := Nat.two_pow_pos (k + 1)
    have hdiv := Nat.div_add_mod m (2 ^ (k + 1))
    have hc := Nat.mod_lt m hd
    have hexact := mul_unitsUp_eq_iff r neg (q := m / 2 ^ (k + 1)) hd hc
    rw [hdiv] at hexact
    have hround : roundInt r neg m e = (nearInt r neg m e, m % 2 ^ (k + 1) != 0) := by
      rw [nearInt_neg_exp r neg hk hdiv.symm hc, roundInt, cut_unit m k hk]
      rfl
    rw [hround, nearInt_neg_exp r neg hk hdiv.symm hc, Int.min_eq_left (by omega), hk, Int.neg_neg, Int.toNat_natCast, intAt,
      Int.sub_self]
    generalize unitsUp r neg (m / 2 ^ (k + 1)) (m % 2 ^ (k + 1)) (2 ^ (k + 1)) = u at hexact
    have hcast : (m : Int) = u * 2 ^ (k + 1) ↔ m % 2 ^ (k + 1) = 0 := by
      rw [← hexact, Nat.mul_comm]; norm_cast
    have hflag : (m % 2 ^ (k + 1) != 0) = ((m : Int) != u * 2 ^ (k + 1)) := by
      rw [Bool.eq_iff_iff, bne_iff_ne, bne_iff_ne, Ne, Ne, hcast]
    have hneg : (-(m : Int) != -(u : Int) * 2 ^ (k + 1)) = ((m : Int) != u * 2 ^ (k + 1)) := by
      rw [Bool.eq_iff_iff, bne_iff_ne, bne_iff_ne, Ne, Ne, Int.neg_mul, Int.neg_inj]
    rw [hflag]
    cases neg
    · simp only [Bool.false_eq_true, if_false, Int.toNat_zero, Int.pow_zero, Int.mul_one]
    · simp only [if_true, Int.toNat_zero, Int.pow_zero, Int.mul_one, hneg]

/-! ### Integer formats (R94, R111) -/

theorem limits_eq (w : Nat) (signed : Bool) : limits w signed = (intMin w signed, intMax w signed) := by
  cases signed <;> simp [limits, intMin, intMax]

theorem intMin_le_intMax (w : Nat) (signed : Bool) : intMin w signed ≤ intMax w signed := by
  have h (k : Nat) : (1 : Int) ≤ 2 ^ k := by exact_mod_cast Nat.one_le_two_pow
  have h1 := h (w - 1)
  have h2 := h w
  cases signed <;> simp only [intMin, intMax, if_true, Bool.false_eq_true, if_false] <;> omega

theorem clampInt_eq (w : Nat) (signed : Bool) (x : Int) :
    clampInt w signed x =
      (max (limits w signed).1 (min (limits w signed).2 x),
        decide (x < (limits w signed).1) || decide ((limits w signed).2 < x)) := by
  have h := intMin_le_intMax w signed
  rw [limits_eq, clampInt]
  dsimp only
  by_cases hlo : x < intMin w signed
  · simp [hlo]; omega
  · by_cases hhi : intMax w signed < x
    · simp [hlo, hhi]; omega
    · simp [hlo, hhi]; omega

/-- R111: a value is written as an integer as the statements write it. -/
theorem Val.toInt_eq_toInteger (v : Val) (w : Nat) (signed : Bool) (r : RM) : v.toInt w signed r = toInteger w signed r v := by
  cases v with
  | nan s => rfl
  | inf n => cases n <;> simp [Val.toInt, toInteger, limits_eq, intBits]
  | num n m e =>
    simp only [Val.toInt, toInteger, roundInt_eq, limits_eq, clampInt, Val.at]
    generalize nearInt r n m e = x
    by_cases hlo : x < intMin w signed
    · simp [hlo, intBits]
    · by_cases hhi : intMax w signed < x
      · simp [hlo, hhi, intBits]
      · simp [hlo, hhi, intBits]

theorem subBits_one (f : Fields) (k : Nat) : (f.subBits k 1 == 1) = f.sub.getLsbD k := by
  rw [Fields.subBits, BitVec.getLsbD, Nat.testBit_eq_decide_div_mod_eq, Nat.pow_one, Bool.beq_eq_decide_eq]

/-! ### Format slots (R93) -/

/-- The check of a slot, and then what the instruction does with it. -/
theorem usesSlot_of_withSlot {i : Instr} {n : Nat} {s : State} {uid : Nat} {side : Side} {w : Warp} {takes : DWord → Bool}
    {goes : DWord → Prop} (act : Issue → DWord → State) (h : Issues i s uid side w)
    (he : exec i s = issue i s fun x => x.withSlot n takes (act x))
    (hgoes : ∀ fs, slotFault fs = none → takes fs = true → exec i s = .next (act (issueOf i s side w) fs) → goes fs) :
    UsesSlot i n s uid side w takes goes := by
  unfold UsesSlot
  intro tp fs
  have hx : exec i s = .next ((issueOf i s side w).withSlot n takes (act (issueOf i s side w))) := he.trans (issue_eq h _)
  have hfs : (issueOf i s side w).fslot n = fs := rfl
  have htp : (issueOf i s side w).tp = tp := rfl
  simp only [Issue.withSlot, hfs, htp, beq_iff_eq] at hx
  by_cases ht : tp = 0
  · rw [if_pos ht] at hx ⊢
    exact skips_of_skip h hx
  · rw [if_neg ht] at hx ⊢
    cases hf : slotFault fs with
    | some reason => rw [hf] at hx; exact hx
    | none =>
      rw [hf] at hx
      cases htk : takes fs
      · simp only [htk] at hx
        exact hx
      · simp only [htk, if_true] at hx
        exact hgoes fs hf htk hx

/-- An `Issue.alu` completes with its values and their flags. -/
theorem gives_of_alu {i : Instr} {s : State} {uid : Nat} {side : Side} {w : Warp} (h : Issues i s uid side w) {d : Opnd}
    {k : Nat} {op op' : Nat → Nat × Word} (he : exec i s = .next ((issueOf i s side w).alu d k op)) (hop : ∀ l, op l = op' l) :
    Gives i s uid side w d k (fun l => (op' l).1) (resultFlags (partOf i w side) d fun l => (op' l).2) := by
  obtain rfl : op = op' := funext hop
  obtain ⟨w', h1, h2, h3, h4, h5⟩ := alu_spec h d k op
  exact ⟨w', he.trans (congrArg _ h1), h2, h3, h4, h5⟩

/-- R94: an integer element saturates, a floating one is rounded as the slot says. -/
theorem slotWrite_eq (fs : DWord) (v : Val) :
    slotWrite fs v =
      if slotElem fs = 8 ∨ slotElem fs = 9 then toInteger 8 (slotElem fs == 8) (slotRound fs) v
      else v.write (slotFmt fs) (slotRound fs) (slotSat fs) := by
  unfold slotWrite
  split
  next h => simp [h, Val.toInt_eq_toInteger]
  next h => simp [h, Val.toInt_eq_toInteger]
  next h8 h9 => simp [show slotElem fs ≠ 8 from h8, show slotElem fs ≠ 9 from h9]

theorem slotRead_eq (fs : DWord) (c : Nat) :
    slotRead fs c =
      if slotElem fs = 8 ∨ slotElem fs = 9 then intVal (toInt 8 (slotElem fs == 8) c)
      else (slotFmt fs).decode (c % 2 ^ (slotFmt fs).width) := by
  unfold slotRead
  split
  next h => simp [h, toInt_eq]
  next h => simp [h, toInt_eq]
  next h8 h9 => simp [show slotElem fs ≠ 8 from h8, show slotElem fs ≠ 9 from h9]

/-- R93: only a slot of scaled E2M1 elements has a special value. -/
theorem slotElem_of_special {fs : DWord} (hok : slotFault fs = none) (hsp : slotSpecial fs = true) : slotElem fs = 7 := by
  simp only [slotFault, ite_none, hsp] at hok
  obtain ⟨_, _, _, hspecial, _⟩ := hok
  simp at hspecial
  exact hspecial.1

/-- Reading an element of at most 8 bits takes the byte it lies in. -/
theorem slotRead_byte {fs : DWord} (htk : bunpackTakes fs = true) (a : Nat) :
    slotRead fs a = (slotFmt fs).decode (element 8 a 0 % 2 ^ (slotFmt fs).width) := by
  have hcode : element 8 a 0 = a % 2 ^ 8 := by simp [element]
  have hel : slotElem fs = 5 ∨ slotElem fs = 6 ∨ slotElem fs = 7 := by simpa [bunpackTakes, or_assoc] using htk
  have hint : ¬(slotElem fs = 8 ∨ slotElem fs = 9) := by omega
  have hw : (slotFmt fs).width ≤ 8 := by
    rcases hel with h | h | h <;> rw [slotFmt, h] <;> decide
  rw [slotRead_eq, if_neg hint, hcode, Nat.mod_mod_of_dvd _ (Nat.pow_dvd_pow 2 hw)]

/-- R86, R116: the value of an element, scaled or not. -/
def blockValue (fs : DWord) (a : Nat) : Val :=
  let code := element 8 a 0
  let scale := element 8 a 1
  let plain := (slotFmt fs).decode (code % 2 ^ (slotFmt fs).width)
  if !slotScaled fs then plain
  else if scale = 0xFF then .nan false
  else if slotSpecial fs && code % 16 == 8 then (e4m3.decode (element 8 a 2)).scale ((scale : Int) - 127)
  else plain.scale ((scale : Int) - 127)

theorem bunpack_value {fs : DWord} (hok : slotFault fs = none) (htk : bunpackTakes fs = true) (a : Nat) :
    (if slotScaled fs then blockRead fs (a % 256) (a / 2 ^ 8 % 256) (a / 2 ^ 16 % 256) else slotRead fs a) =
      blockValue fs a := by
  have h0 : element 8 a 0 = a % 256 := by simp [element]
  have hread : slotRead fs (a % 256) = slotRead fs a := by
    rw [slotRead_byte htk, slotRead_byte htk, h0]
    simp [element]
  have hsp : (slotElem fs == 7 && slotSpecial fs) = slotSpecial fs := by
    cases h : slotSpecial fs
    · simp
    · simp [slotElem_of_special hok h]
  unfold blockValue blockRead
  rw [hread, hsp, slotRead_byte htk]
  cases hs : slotScaled fs
  · rfl
  · simp only [h0, beq_iff_eq]
    rfl

/-! ### Packed conversions (R113, R114) -/

theorem join4_eq (w : Nat) (g : Nat → Nat × Word) :
    join4 w g = ((g 0).1 + (g 1).1 * 2 ^ w + (g 2).1 * 2 ^ (w * 2) + (g 3).1 * 2 ^ (w * 3),
      (g 0).2 ||| (g 1).2 ||| (g 2).2 ||| (g 3).2) := by
  simp [join4, List.range_succ]

theorem fmt8_eq (f : Fields) : fmt8 f = if f.sub.getLsbD 3 then e5m2 else e4m3 := by rw [fmt8, subBits_one]

/-! ### One conversion (R111) -/

theorem convert_eq (src dst : DType) (r : RM) (sat : Bool) (a : Nat) :
    convert src dst r sat a =
      if isFloat src then
        let v := (fmtOf src).decode a
        if isFloat dst then v.write (fmtOf dst) r sat else toInteger dst.elem dst.signed r v
      else
        let x := toInt src.elem src.signed a
        if isFloat dst then (Val.num (x < 0) x.natAbs 0).write (fmtOf dst) r sat
        else
          let lo := (limits dst.elem dst.signed).1
          let hi := (limits dst.elem dst.signed).2
          ((max lo (min hi x) % (2 ^ dst.elem : Nat)).toNat, flagIf (x < lo || hi < x) SAT) := by
  simp only [convert, Val.toInt_eq_toInteger, ← toInt_eq, clampInt_eq, intBits, intVal]
  push_cast
  rfl

end Sys2Proof.Machine

open Sys2Proof Sys2Proof.Machine

/-- Settles O12: integers by `convert_eq`, packed values part by part by `join4_eq`, and elements through a slot, after its
check, by `slotWrite_eq`, `slotRead_eq` and `bunpack_value`. -/
theorem conversions : Obligations.Conversions := by
  intro f
  refine ⟨floatValue_of_alu _ (fun s => show execCvt f s = _ from rfl) fun x l => ?cvt,
    floatValue_of_alu _ (fun s => show execCvtx2 f s = _ from rfl) fun x l => ?cvtx2,
    floatValue_of_alu _ (fun s => show execCvtx2Unp f s = _ from rfl) fun x l => rfl,
    floatValue_of_alu _ (fun s => show execCvt8x4 f s = _ from rfl) fun x l => ?cvt8x4,
    floatValue_of_alu _ (fun s => show execCvt8x4Unp f s = _ from rfl) fun x l => ?cvt8x4Unp,
    fun s uid side w => ⟨fun h => ?cvtf, fun h => ?cvtfDec, fun h => ?bunpack⟩⟩
  case cvt =>
    simp only [subBits_one, convert_eq]
    rfl
  case cvtx2 =>
    simp only [subBits_one]
    rfl
  case cvt8x4 =>
    simp only [subBits_one, fmt8_eq, join4_eq]
    rfl
  case cvt8x4Unp =>
    simp only [fmt8_eq, join4_eq]
    rfl
  case cvtf =>
    exact usesSlot_of_withSlot _ h (show execCvtf f s = _ from rfl) fun fs _ _ he =>
      gives_of_alu h he fun l => slotWrite_eq fs _
  case cvtfDec =>
    exact usesSlot_of_withSlot _ h (show execCvtfDec f s = _ from rfl) fun fs _ _ he =>
      gives_of_alu h he fun l => congrArg (·.write fp32 .rne false) (slotRead_eq fs _)
  case bunpack =>
    exact usesSlot_of_withSlot _ h (show execBunpack f s = _ from rfl) fun fs hok htk he =>
      gives_of_alu h he fun l => congrArg (·.write fp32 ((issueOf (.bunpack f) s side w).rm f) false) (bunpack_value hok htk _)
end

section
/-! SUPPORT. Paths that go on at a PC or divide (R121 to R125): the checks that close a block, the jump of a slot, a path
that is added, and the region that a fork opens. -/

namespace Sys2Proof.Machine

/-! ### Slots, stack and lanes under the operations that move paths -/

section
variable (w : Warp) (side : Side) (x : Slot) (e : SEntry) (pc : DWord) (l : Nat)

@[simp] theorem Warp.slot_setSlot_of_other : (w.setSlot (otherSide side) x).slot side = w.slot side := by
  cases side <;> rfl

@[simp] theorem Warp.stack_setSlot : (w.setSlot side x).stack = w.stack := by cases side <;> rfl

@[simp] theorem Warp.lane_setSlot : (w.setSlot side x).lane l = w.lane l := by cases side <;> rfl

@[simp] theorem Warp.slot_push : (w.push e).slot side = w.slot side := by cases side <;> rfl

@[simp] theorem Warp.stack_push : (w.push e).stack = e :: w.stack := rfl

@[simp] theorem Warp.lane_push : (w.push e).lane l = w.lane l := rfl

@[simp] theorem Warp.slot_addNc (m : Word) (d : Byte) : (w.addNc m d).slot side = w.slot side := by cases side <;> rfl

theorem Warp.lane_addNc (m : Word) (d : Byte) {l : Nat} (hl : l < 32) :
    (w.addNc m d).lane l = if m.getLsbD l then { w.lane l with nc := (w.lane l).nc + d } else w.lane l :=
  Warp.lane_mapLanes w m _ hl

@[simp] theorem Warp.stack_jump : (w.jump side pc).stack = w.stack := by cases side <;> rfl

@[simp] theorem Warp.lane_jump : (w.jump side pc).lane l = w.lane l := by cases side <;> rfl

theorem Warp.jumps_jump : Jumps side w (w.jump side pc) pc := by
  cases side <;> exact ⟨rfl, rfl, rfl, rfl⟩

end

@[simp] theorem otherSide_otherSide (side : Side) : otherSide (otherSide side) = side := by cases side <;> rfl

/-- A path is added in the named slot when that is free (R127). -/
theorem Warp.addPath_of_free {w : Warp} {side : Side} (h : (w.slot side).mask = 0) (x : Slot) (depth : Byte) :
    w.addPath side x depth = w.setSlot side x := by
  rw [Warp.addPath, if_pos (by simpa using h)]

/-- A path is added as a pending entry when neither slot is free. -/
theorem Warp.addPath_of_taken {w : Warp} {side : Side} (h : (w.slot side).mask ≠ 0)
    (ho : (w.slot (otherSide side)).mask ≠ 0) (x : Slot) (depth : Byte) :
    w.addPath side x depth = w.push ⟨x.pc, x.mask, 3, depth, 0⟩ := by
  rw [Warp.addPath, if_neg (by simpa using h), if_neg (by simpa using ho)]

/-- A path that is added leaves the other slot as it is where that has lanes. -/
theorem Warp.slot_addPath_of_other {w : Warp} {side : Side} (h : (w.slot side).mask ≠ 0) (x : Slot) (depth : Byte) :
    (w.addPath (otherSide side) x depth).slot side = w.slot side := by
  by_cases hq : (w.slot (otherSide side)).mask = 0
  · rw [Warp.addPath_of_free hq, Warp.slot_setSlot_of_other]
  · rw [Warp.addPath_of_taken hq (by rwa [otherSide_otherSide]), Warp.slot_push]

@[simp] theorem Warp.lane_addPath (w : Warp) (side : Side) (x : Slot) (depth : Byte) (l : Nat) :
    (w.addPath side x depth).lane l = w.lane l := by
  unfold Warp.addPath
  split
  · exact Warp.lane_setSlot _ _ _ _
  · split
    · exact Warp.lane_setSlot _ _ _ _
    · exact Warp.lane_push _ _ _

/-- R120: the nesting counter of a slot that holds a lane is that of its lowest one. -/
theorem Warp.nc_of_mask_ne_zero {w : Warp} {side : Side} (h : (w.slot side).mask ≠ 0) :
    w.nc side = (w.lane ((lowLane (w.slot side).mask).getD 0)).nc := by
  cases hl : lowLane (w.slot side).mask with
  | none => exact absurd (lowLane_none hl) h
  | some l => simp [Warp.nc, hl]

/-! ### What changes paths alone -/

section
variable {w v : Warp} (h : OnlyPaths w v)
include h

theorem OnlyPaths.uid : v.uid = w.uid := by
  have := congrArg Warp.uid (show { v with lanes := w.lanes, port := w.port, star := w.star, stack := w.stack,
                                           last := w.last, promoted := w.promoted } = w from h)
  exact this

theorem OnlyPaths.setSlot (side : Side) (x : Slot) : OnlyPaths w (v.setSlot side x) := by cases side <;> exact h

theorem OnlyPaths.push (e : SEntry) : OnlyPaths w (v.push e) := h

theorem OnlyPaths.addNc (m : Word) (d : Byte) : OnlyPaths w (v.addNc m d) := h

theorem OnlyPaths.jump (side : Side) (pc : DWord) : OnlyPaths w (v.jump side pc) := by cases side <;> exact h

theorem OnlyPaths.addPath (side : Side) (x : Slot) (depth : Byte) : OnlyPaths w (v.addPath side x depth) := by
  unfold Warp.addPath
  split
  · exact h.setSlot _ _
  · split
    · exact h.setSlot _ _
    · exact h.push _

end

theorem OnlyPaths.refl (w : Warp) : OnlyPaths w w := rfl

/-! ### An instruction that closes its block (R121, R122) -/

/-- R122: an instruction whose signature checks pass acts. -/
theorem Issue.checked_of_sigFine {i : Instr} {s : State} {side : Side} {w : Warp} {sigx : Word} (h : SigFine w side sigx)
    (act : State) : (issueOf i s side w).checked sigx act = act := by
  refine if_pos ?_
  simpa [Issue.sigOk, issueOf, SigFine, or_assoc] using h

/-- A warp of which nothing but its paths has changed is found in its place. -/
theorem OnlyPaths.warp?_setWarp {s : State} {uid : Nat} {w v : Warp} (h : OnlyPaths w v) (hw : s.warp? uid = some w) :
    (s.setWarp v).warp? uid = some v := by
  obtain rfl : v.uid = uid := h.uid.trans (State.warp?_uid hw)
  exact State.warp?_setWarp v hw

/-- An instruction whose meaning is a transfer takes its path to the PC. -/
theorem goesTo_of_goto {i : Instr} {s : State} {uid : Nat} {side : Side} {w : Warp} {pc : DWord}
    (h : Issues i s uid side w) (he : exec i s = .next ((issueOf i s side w).goto pc)) : GoesTo i s uid side w pc :=
  ⟨w.jump side pc, he, ((OnlyPaths.refl w).jump side pc).warp?_setWarp h.warp, w.jumps_jump side pc⟩

/-! ### The region of a fork (R125) -/

/-- A region that joins at `j` opened over the lanes of a slot, of which those of `ft` go on at a PC in the slot. -/
def Warp.openRegion (w : Warp) (side : Side) (j : DWord) (ft : Word) (pc : DWord) : Warp :=
  let p := w.slot side
  (((w.push ⟨j, p.mask, 0, w.nc side, 0⟩).addNc p.mask 1).setSlot side { p with mask := ft }).jump side pc

section
variable (w : Warp) (side : Side) (j : DWord) (ft : Word) (pc : DWord)

theorem Warp.slot_openRegion : (w.openRegion side j ft pc).slot side =
    { w.slot side with pc := pc, mask := ft, latched := ft, sig := 0, resumed := false, wait := none, fetch := none,
                       denied := [] } := by
  rw [Warp.openRegion, (Warp.jumps_jump _ side pc).slot, Warp.slot_setSlot]

theorem Warp.slot_openRegion_other :
    (w.openRegion side j ft pc).slot (otherSide side) = w.slot (otherSide side) := by
  rw [Warp.openRegion, (Warp.jumps_jump _ side pc).other]
  simp

theorem Warp.stack_openRegion :
    (w.openRegion side j ft pc).stack = ⟨j, (w.slot side).mask, 0, w.nc side, 0⟩ :: w.stack := by
  simp [Warp.openRegion]

theorem Warp.lane_openRegion {l : Nat} (hl : l < 32) : (w.openRegion side j ft pc).lane l =
    { w.lane l with nc := if (w.slot side).mask.getLsbD l then (w.lane l).nc + 1 else (w.lane l).nc } := by
  rw [Warp.openRegion, Warp.lane_jump, Warp.lane_setSlot, Warp.lane_addNc _ _ _ hl, Warp.lane_push]
  split <;> rfl

theorem Warp.onlyPaths_openRegion : OnlyPaths w (w.openRegion side j ft pc) :=
  ((((OnlyPaths.refl w).push _).addNc _ _).setSlot side _).jump side pc

end

/-! ### The outcomes of a fork (R125) -/

section
variable {x : Issue} {f : CFields}

/-- The lanes of a fork's slot that fall through. -/
def Issue.fallsThrough (x : Issue) (f : CFields) : Word := (x.w.slot x.side).mask &&& ~~~x.taken f

/-- A fork that divides finds no room: its lanes are at the last nesting level, or the stack cannot take what it pushes. -/
def Issue.ForkOverflows (x : Issue) : Prop :=
  x.w.nc x.side = 255 ∨ 512 < x.w.depth + (if (x.w.slot (otherSide x.side)).mask = 0 then 1 else 2)

theorem Issue.fork_of_none_taken (h : x.taken f = 0) : x.fork f = x.goto x.next := if_pos (by simpa using h)

theorem Issue.fork_of_all_taken (h : x.taken f ≠ 0) (hft : x.fallsThrough f = 0) :
    x.fork f = x.goto (x.target f.ofs1) :=
  (if_neg (by simpa using h)).trans (if_pos (beq_iff_eq.mpr hft))

theorem Issue.fork_of_divided (h : x.taken f ≠ 0) (hft : x.fallsThrough f ≠ 0) :
    x.fork f =
      if x.w.nc x.side = 255 then x.overflow
      else if 512 < x.w.depth + (if (x.w.slot (otherSide x.side)).mask = 0 then 1 else 2) then x.overflow
      else x.s.setWarp ((x.w.openRegion x.side (x.target f.ofs2) (x.fallsThrough f) x.next).addPath (otherSide x.side)
        (freshPath (x.target f.ofs1) (x.taken f)) (x.w.nc x.side + 1)) := by
  refine (if_neg (by simpa using h)).trans ((if_neg fun h => hft (beq_iff_eq.mp h)).trans ?_)
  simp only [beq_iff_eq]
  rfl

theorem Issue.fork_of_overflows (h : x.taken f ≠ 0) (hft : x.fallsThrough f ≠ 0) (ho : x.ForkOverflows) :
    x.fork f = x.overflow := by
  rw [Issue.fork_of_divided h hft]
  rcases ho with hnc | hdepth
  · rw [if_pos hnc]
  · rw [if_pos hdepth, ite_self]

theorem Issue.fork_of_room (h : x.taken f ≠ 0) (hft : x.fallsThrough f ≠ 0) (ho : ¬x.ForkOverflows) :
    x.fork f = x.s.setWarp ((x.w.openRegion x.side (x.target f.ofs2) (x.fallsThrough f) x.next).addPath
      (otherSide x.side) (freshPath (x.target f.ofs1) (x.taken f)) (x.w.nc x.side + 1)) := by
  obtain ⟨hnc, hdepth⟩ := not_or.mp ho
  rw [Issue.fork_of_divided h hft, if_neg hnc, if_neg hdepth]

end

end Sys2Proof.Machine

open Sys2Proof Sys2Proof.Machine

/-- Settles O16: the four outcomes of `Issue.fork`. Where it opens a region, the second path takes the free slot
(`Warp.addPath_of_free`) or becomes a pending entry (`Warp.addPath_of_taken`); the fall-through path and the lanes are
those of the opened region. -/
theorem fork : Obligations.Fork := by
  intro f s uid side w h hsig p q nc target tk ft
  have he : exec (.fork f) s = .next ((issueOf (.fork f) s side w).fork f) :=
    (show execFork f s = _ from issue_eq h _).trans (congrArg _ (Issue.checked_of_sigFine hsig _))
  by_cases htk : tk = 0
  · rw [if_pos htk]
    exact goesTo_of_goto h (he.trans (congrArg _ (Issue.fork_of_none_taken htk)))
  rw [if_neg htk]
  by_cases hft : ft = 0
  · rw [if_pos hft]
    exact goesTo_of_goto h (he.trans (congrArg _ (Issue.fork_of_all_taken htk hft)))
  rw [if_neg hft]
  have hnc : w.nc side = nc := Warp.nc_of_mask_ne_zero fun h0 => hft (by simp [ft, p, h0])
  rw [← hnc]
  by_cases hroom : w.nc side = 255 ∨ 512 < w.depth + (if q.mask = 0 then 1 else 2)
  · rw [if_pos hroom]
    exact he.trans (congrArg _ (Issue.fork_of_overflows htk hft hroom))
  rw [if_neg hroom]
  replace he := he.trans (congrArg _ (Issue.fork_of_room htk hft hroom))
  change exec (.fork f) s = .next (s.setWarp ((w.openRegion side (target f.ofs2) ft (p.pc + 16)).addPath (otherSide side)
    (freshPath (target f.ofs1) tk) (w.nc side + 1))) at he
  have hmask : ((w.openRegion side (target f.ofs2) ft (p.pc + 16)).slot side).mask ≠ 0 := by
    rwa [Warp.slot_openRegion]
  have honly := (w.onlyPaths_openRegion side (target f.ofs2) ft (p.pc + 16)).addPath (otherSide side)
    (freshPath (target f.ofs1) tk) (w.nc side + 1)
  refine ⟨_, he, honly.warp?_setWarp h.warp, ?fallThrough, ?taken, fun l hl => ?lane, honly⟩
  case fallThrough => rw [Warp.slot_addPath_of_other hmask, Warp.slot_openRegion]
  case taken =>
    by_cases hq : q.mask = 0
    · rw [if_pos hq, Warp.addPath_of_free (by rwa [Warp.slot_openRegion_other])]
      exact ⟨Warp.slot_setSlot _ _ _, by rw [Warp.stack_setSlot, Warp.stack_openRegion]⟩
    · rw [if_neg hq, Warp.addPath_of_taken (by rwa [Warp.slot_openRegion_other]) (by rwa [otherSide_otherSide])]
      exact ⟨by rw [Warp.slot_push, Warp.slot_openRegion_other], by rw [Warp.stack_push, Warp.stack_openRegion]; rfl⟩
  case lane => rw [Warp.lane_addPath, Warp.lane_openRegion _ _ _ _ _ hl]
end

section
/-! SUPPORT. Numbers in order (R106, R177): the order of two values at one common exponent, and the pick of one code out of
several. -/

namespace Sys2Proof.Machine

/-! ### Numeric values in a row -/

/-- A number as an integer at a lower exponent. -/
theorem intAt_mul (n : Bool) (m : Nat) {e k q : Int} (hk : k ≤ e) (hq : q ≤ k) :
    intAt n m e q = intAt n m e k * 2 ^ (k - q).toNat := by
  have he : (e - q).toNat = (e - k).toNat + (k - q).toNat := by omega
  cases n <;>
    simp only [intAt, he, Int.pow_add, Int.mul_assoc, Int.neg_mul, Bool.false_eq_true, if_false, if_true]

/-- Infinities lie beyond all numbers. -/
def Val.tier : Val → Int
  | .inf true => -1
  | .inf false => 1
  | _ => 0

/-- Where a number stands in the order of R106, in halves of 2^q: −0 half a step below +0. -/
def Val.place (q : Int) : Val → Int
  | .num n m e => 2 * intAt n m e q + (if n then 0 else 1)
  | _ => 0

/-- Whether a number has an exponent of at least `q`. -/
def Val.above (q : Int) : Val → Prop
  | .num _ _ e => q ≤ e
  | _ => True

theorem Val.above_mono {v : Val} {p q : Int} (h : p ≤ q) (hv : v.above q) : v.above p := by
  cases v with
  | num n m e => exact Int.le_trans h hv
  | _ => trivial

theorem Val.exists_above (v : Val) : ∃ q, v.above q := by
  cases v with
  | num n m e => exact ⟨e, Int.le_refl e⟩
  | _ => exact ⟨0, trivial⟩

/-- The order of R106 is that of the places. -/
theorem Val.below_iff_place_lt {q : Int} {a b : Val} (ha : a.isNan = false) (hb : b.isNan = false) (hqa : a.above q)
    (hqb : b.above q) : a.below b = true ↔ a.tier < b.tier ∨ a.tier = b.tier ∧ a.place q < b.place q := by
  match a, b with
  | .num n m e, .num k l j =>
    have hx := intAt_mul n m (Int.min_le_left e j) (Int.le_min.mpr ⟨hqa, hqb⟩)
    have hy := intAt_mul k l (Int.min_le_right e j) (Int.le_min.mpr ⟨hqa, hqb⟩)
    have hpos : (0 : Int) < 2 ^ (min e j - q).toNat := Int.pow_pos (by decide)
    simp only [Val.place, Val.tier, hx, hy, Val.below, Val.cmp, Int.lt_irrefl, false_or, true_and]
    generalize intAt n m e (min e j) = x
    generalize intAt k l j (min e j) = y
    generalize (2 : Int) ^ (min e j - q).toNat = p at hpos
    rcases Int.lt_trichotomy x y with h | h | h
    · have hc : compare x y = .lt := Int.compare_eq_lt.mpr h
      have := Int.mul_lt_mul_of_pos_right h hpos
      simp only [hc, true_iff]
      split <;> split <;> omega
    · subst h
      have hc : compare x x = .eq := Int.compare_eq_eq.mpr rfl
      have hz : (n && !k) = true ↔ ((if n then 0 else 1 : Int) < if k then 0 else 1) := by
        cases n <;> cases k <;> decide
      simp only [hc, Val.neg]
      exact hz.trans ⟨fun h => Int.add_lt_add_left h _, Int.lt_of_add_lt_add_left⟩
    · have hc : compare x y = .gt := Int.compare_eq_gt.mpr h
      have := Int.mul_lt_mul_of_pos_right h hpos
      simp only [hc, Bool.false_eq_true, false_iff]
      split <;> split <;> omega
  | .inf true, .inf true | .inf true, .inf false | .inf false, .inf true | .inf false, .inf false
  | .inf true, .num .. | .inf false, .num .. | .num .., .inf true | .num .., .inf false =>
    simp [Val.below, Val.cmp, Val.neg, Val.tier, Val.place]

/-- Of numeric values none of which lies below the next, the first does not lie below the last. -/
theorem Val.not_below_trans {a b c : Val} (ha : a.isNan = false) (hb : b.isNan = false) (hc : c.isNan = false)
    (hab : a.below b = false) (hbc : b.below c = false) : a.below c = false := by
  obtain ⟨qa, ha'⟩ := a.exists_above
  obtain ⟨qb, hb'⟩ := b.exists_above
  obtain ⟨qc, hc'⟩ := c.exists_above
  have hqa := Val.above_mono (show min qa (min qb qc) ≤ qa by omega) ha'
  have hqb := Val.above_mono (show min qa (min qb qc) ≤ qb by omega) hb'
  have hqc := Val.above_mono (show min qa (min qb qc) ≤ qc by omega) hc'
  rw [← Bool.not_eq_true, Val.below_iff_place_lt ‹_› ‹_› ‹_› ‹_›] at hab hbc ⊢
  omega

theorem beyondFor_trans {larger : Bool} {a b c : Val} (ha : a.isNan = false) (hb : b.isNan = false)
    (hc : c.isNan = false) (hab : beyondFor larger a b = false) (hbc : beyondFor larger b c = false) :
    beyondFor larger a c = false := by
  cases larger
  · exact Val.not_below_trans ha hb hc hab hbc
  · exact Val.not_below_trans hc hb ha hbc hab

/-! ### The pick of one code of several (R106, R177) -/

theorem flagIf_or (a b : Bool) (c : Word) : flagIf a c ||| flagIf b c = flagIf (a || b) c := by
  cases a <;> cases b <;> simp [flagIf]

theorem Val.isSnan_of_not_isNan {v : Val} (h : v.isNan = false) : v.isSnan = false := by
  cases v with
  | nan s => cases h
  | _ => rfl

/-- The canonical NaN is a quiet NaN of its format. -/
theorem Fmt.Ieee.nan_spec {f : Fmt} (hf : f.Ieee) : f.nan < 2 ^ f.width ∧ f.decode f.nan = .nan false := by
  have he : 2 ^ f.eb - 1 < 2 ^ f.eb := by have := Nat.two_pow_pos f.eb; omega
  have h4 : 4 ≤ 2 ^ f.eb := Nat.pow_le_pow_right (n := 2) (by decide) hf.eb
  have hm : 2 ^ (f.fb - 1) < 2 ^ f.fb := Nat.pow_lt_pow_right (by decide) (by have := hf.fb; omega)
  have hn : f.nan = f.code false (2 ^ f.eb - 1) (2 ^ (f.fb - 1)) := by simp [Fmt.nan, hf.top, Fmt.code, Fmt.sign]
  rw [hn, hf.decode_code false he hm, if_neg (by omega), if_pos rfl, if_neg (Nat.ne_of_gt (Nat.two_pow_pos _)),
    decide_eq_false (Nat.lt_irrefl _)]
  exact ⟨Fmt.code_lt false he hm, rfl⟩

/-- What the pick of the codes `vs`, with its flags, comes to (R106): NV for a signalling NaN, the canonical NaN out of
NaNs alone, and else a numeric code beyond which no other lies. -/
structure Fmt.Picked (f : Fmt) (larger : Bool) (vs : List Nat) (r : Nat × Word) : Prop where
  flags : r.2 = flagIf (vs.any fun v => (f.decode v).isSnan) NV
  nan : (∀ v ∈ vs, (f.decode v).isNan = true) → r.1 = f.nan
  num : ∀ v ∈ vs, (f.decode v).isNan = false →
    r.1 ∈ vs ∧ (f.decode r.1).isNan = false ∧ beyondFor larger (f.decode v) (f.decode r.1) = false

/-- A further code picked, the flags gathered. -/
def Fmt.pickNext (f : Fmt) (larger : Bool) (r : Nat × Word) (u : Nat) : Nat × Word :=
  ((f.pick larger r.1 u).1, r.2 ||| (f.pick larger r.1 u).2)

section
variable {f : Fmt} (hf : f.Ieee) (hfl : f.flush = false) {larger : Bool}

include hfl in
theorem Fmt.asRead_of_not_flush {x : Nat} (hx : x < 2 ^ f.width) : f.asRead x = x := by
  simp [Fmt.asRead, hfl, Nat.mod_eq_of_lt hx]

include hf hfl in
theorem Fmt.Ieee.picked_single {v : Nat} (hv : v < 2 ^ f.width) : f.Picked larger [v] (f.pick larger v v) := by
  obtain ⟨hflags, hnan, -, -, hnum⟩ := hf.pick_spec larger hv hv
  rw [Fmt.asRead_of_not_flush hfl hv] at hnum
  refine ⟨by simpa using hflags, fun h => hnan (h v (by simp)) (h v (by simp)), ?_⟩
  simp only [List.mem_singleton, forall_eq]
  intro hn
  obtain ⟨hp, hb, -⟩ := hnum (by simp [hn]) (by simp [hn])
  have hp : (f.pick larger v v).1 = v := hp.elim id id
  rw [hp] at hb ⊢
  exact ⟨rfl, hn, hb⟩

section
variable {vs : List Nat} {r : Nat × Word} (h : f.Picked larger vs r) {u : Nat} (hu : u < 2 ^ f.width)

include hf hfl h hu in
/-- After NaNs alone the next code is picked. -/
theorem Fmt.Ieee.picked_snoc_of_nan (hall : ∀ v ∈ vs, (f.decode v).isNan = true) :
    f.Picked larger (vs ++ [u]) (f.pickNext larger r u) := by
  obtain ⟨hlt, hdec⟩ := hf.nan_spec
  obtain ⟨hflags, hnan, hnum, -, -⟩ := hf.pick_spec larger hlt hu
  rw [hdec] at hflags hnan hnum
  rw [Fmt.asRead_of_not_flush hfl hu] at hnum
  have hr := h.nan hall
  refine ⟨?_, fun hn => ?_, fun v hv hn => ?_⟩
  · simp [Fmt.pickNext, hr, h.flags, hflags, flagIf_or, Val.isSnan]
  · simp only [Fmt.pickNext, hr]
    exact hnan rfl (hn u (by simp))
  · rcases List.mem_append.mp hv with hv | hv
    · rw [hall v hv] at hn; cases hn
    · obtain rfl := List.mem_singleton.mp hv
      have hp : (f.pick larger f.nan v).1 = v := hnum rfl (by simp [hn])
      simp only [Fmt.pickNext, hr, hp]
      refine ⟨by simp, hn, ?_⟩
      cases larger <;> exact Val.below_irrefl _

include hf hfl h hu in
/-- After a numeric code the next one is picked if it is numeric and comes first. -/
theorem Fmt.Ieee.picked_snoc_of_num (hvs : ∀ v ∈ vs, v < 2 ^ f.width) {a : Nat} (ha : a ∈ vs)
    (han : (f.decode a).isNan = false) : f.Picked larger (vs ++ [u]) (f.pickNext larger r u) := by
  obtain ⟨hmem, hrn, -⟩ := h.num a ha han
  have hr := hvs _ hmem
  obtain ⟨hflags, -, -, hold, hnum⟩ := hf.pick_spec larger hr hu
  rw [Fmt.asRead_of_not_flush hfl hr] at hold hnum
  rw [Fmt.asRead_of_not_flush hfl hu] at hnum
  refine ⟨?_, fun hn => ?_, fun v hv hn => ?_⟩
  · simp [Fmt.pickNext, h.flags, hflags, flagIf_or, Val.isSnan_of_not_isNan hrn]
  · rw [hn a (by simp [ha])] at han; cases han
  · cases hun : (f.decode u).isNan with
    | true =>
      have hp : (f.pick larger r.1 u).1 = r.1 := hold (by simp [hrn]) hun
      simp only [Fmt.pickNext, hp]
      rcases List.mem_append.mp hv with hv | hv
      · exact ⟨by simp [hmem], hrn, (h.num v hv hn).2.2⟩
      · rw [List.mem_singleton.mp hv, hun] at hn; cases hn
    | false =>
      obtain ⟨hp, hbr, hbu⟩ := hnum (by simp [hrn]) (by simp [hun])
      have hpn : (f.decode (f.pick larger r.1 u).1).isNan = false := by
        rcases hp with hp | hp <;> rw [hp] <;> assumption
      refine ⟨?_, hpn, ?_⟩
      · show (f.pick larger r.1 u).1 ∈ vs ++ [u]
        rcases hp with hp | hp <;> simp [hp, hmem]
      · rcases List.mem_append.mp hv with hv | hv
        · exact beyondFor_trans hn hrn hpn (h.num v hv hn).2.2 hbr
        · rw [List.mem_singleton.mp hv]; exact hbu

include hf hfl h hu in
/-- The pick of several codes, and then of one more. -/
theorem Fmt.Ieee.picked_snoc (hvs : ∀ v ∈ vs, v < 2 ^ f.width) :
    f.Picked larger (vs ++ [u]) (f.pickNext larger r u) := by
  by_cases hall : ∀ v ∈ vs, (f.decode v).isNan = true
  · exact hf.picked_snoc_of_nan hfl h hu hall
  · obtain ⟨a, ha, han⟩ : ∃ a ∈ vs, (f.decode a).isNan = false := by simpa using hall
    exact hf.picked_snoc_of_num hfl h hu hvs ha han
end

include hf hfl in
theorem Fmt.Ieee.picked_foldl {vs : List Nat} {r : Nat × Word} (h : f.Picked larger vs r) (hvs : ∀ v ∈ vs, v < 2 ^ f.width)
    (us : List Nat) (hus : ∀ u ∈ us, u < 2 ^ f.width) : f.Picked larger (vs ++ us) (us.foldl (f.pickNext larger) r) := by
  induction us generalizing vs r with
  | nil => simpa using h
  | cons u us ih =>
    have hu := hus u (by simp)
    have := ih (hf.picked_snoc hfl h hu hvs) (by simpa [or_imp, forall_and] using ⟨hvs, hu⟩)
      fun x hx => hus x (by simp [hx])
    simpa using this
end

end Sys2Proof.Machine
end

section
/-! SUPPORT. The combination of several lanes' values (R177). -/

namespace Sys2Proof.Machine

/-! ### Folds of integers -/

theorem foldl_add_mod {M : Nat} (vs : List Nat) {a : Nat} (ha : a < M) :
    vs.foldl (fun a b => (a + b) % M) a = (a + vs.sum) % M := by
  induction vs generalizing a with
  | nil => simp [Nat.mod_eq_of_lt ha]
  | cons v vs ih =>
    rw [List.foldl_cons, ih (Nat.mod_lt _ (by omega)), List.sum_cons, Nat.mod_add_mod, Nat.add_assoc]

theorem testBit_foldl_and (vs : List Nat) (a j : Nat) :
    (vs.foldl (fun a b => a &&& b) a).testBit j = (a.testBit j && vs.all fun v => v.testBit j) := by
  induction vs generalizing a with
  | nil => simp
  | cons v vs ih => rw [List.foldl_cons, ih, Nat.testBit_and, List.all_cons, Bool.and_assoc]

theorem testBit_foldl_or (vs : List Nat) (a j : Nat) :
    (vs.foldl (fun a b => a ||| b) a).testBit j = (a.testBit j || vs.any fun v => v.testBit j) := by
  induction vs generalizing a with
  | nil => simp
  | cons v vs ih => rw [List.foldl_cons, ih, Nat.testBit_or, List.any_cons, Bool.or_assoc]

theorem testBit_foldl_xor (vs : List Nat) (a j : Nat) :
    (vs.foldl (fun a b => a ^^^ b) a).testBit j =
      (a.testBit j ^^ decide ((vs.filter fun v => v.testBit j).length % 2 = 1)) := by
  induction vs generalizing a with
  | nil => simp
  | cons v vs ih =>
    rw [List.foldl_cons, ih, Nat.testBit_xor, Bool.xor_assoc]
    congr 1
    by_cases hv : v.testBit j
    · have hodd (n : Nat) : (true ^^ decide (n % 2 = 1)) = decide ((n + 1) % 2 = 1) := by
        rw [Bool.true_xor, ← decide_not]; exact decide_eq_decide.mpr (by omega)
      simp only [hv, List.filter_cons_of_pos, List.length_cons, hodd]
    · simp [hv]

/-- A fold that keeps one of two values, the one that comes first in an order, keeps one of all that comes first. -/
theorem foldl_keeps_first {P : Nat → Prop} {first : Nat → Nat → Prop} (g : Nat → Nat → Nat) (hrefl : ∀ a, first a a)
    (htrans : ∀ a b c, first a b → first b c → first a c)
    (hg : ∀ a b, P a → P b → (g a b = a ∨ g a b = b) ∧ first (g a b) a ∧ first (g a b) b) (a : Nat) (vs : List Nat)
    (hP : ∀ v ∈ a :: vs, P v) : vs.foldl g a ∈ a :: vs ∧ ∀ v ∈ a :: vs, first (vs.foldl g a) v := by
  induction vs generalizing a with
  | nil => simp [hrefl]
  | cons v vs ih =>
    obtain ⟨ha, hv, hvs⟩ : P a ∧ P v ∧ ∀ x ∈ vs, P x := by simpa using hP
    obtain ⟨hor, h1, h2⟩ := hg a v ha hv
    have hgP : P (g a v) := by rcases hor with h | h <;> rw [h] <;> assumption
    obtain ⟨hmem, hfirst⟩ := ih (g a v) (by simpa using ⟨hgP, hvs⟩)
    have hhead := hfirst (g a v) (by simp)
    rw [List.foldl_cons]
    refine ⟨?_, ?_⟩
    · rcases List.mem_cons.mp hmem with h | h
      · rw [h]; rcases hor with h | h <;> simp [h]
      · simp [h]
    · simp only [List.mem_cons, forall_eq_or_imp]
      exact ⟨htrans _ _ _ hhead h1, htrans _ _ _ hhead h2, fun x hx => hfirst x (by simp [hx])⟩

/-! ### The operations of R177 -/

/-- The types of `lred` and `lscan` under an operation (R177). -/
def combineTypes (op : Nat) : List DType := if op ≤ 2 then setN else [.u32, .u64]

theorem combineTypes_subset (op : Nat) : combineTypes op ⊆ setN := by
  unfold combineTypes
  split
  · exact List.Subset.refl _
  · decide

/-- The identity of an operation is what no lanes give. -/
theorem combines_nil (op : Nat) (ty : DType) : Combines op ty [] (combineAll op ty []) := by
  have hinf (n : Bool) : (Val.inf n).write (fmtOf ty) .rne false = ((fmtOf ty).inf n, 0) := by
    simp [Val.write, (ieee_fmtOf ty).top]
  have hmax : intBits ty.elem (intMax ty.elem ty.signed) =
      if ty.signed then 2 ^ (ty.elem - 1) - 1 else 2 ^ ty.elem - 1 := by cases ty <;> rfl
  have hmin : intBits ty.elem (intMin ty.elem ty.signed) = if ty.signed then 2 ^ (ty.elem - 1) else 0 := by
    cases ty <;> rfl
  match op with
  | 0 => cases h : isFloat ty <;> simp only [combineAll, h] <;> rfl
  | 1 => simp only [combineAll, identity, hinf, hmax]; rfl
  | 2 => simp only [combineAll, identity, hinf, hmin]; rfl
  | 3 => rfl
  | 4 => rfl
  | _ + 5 => rfl

/-- The order in which integer `.min` (`.max`) puts an element first. -/
def firstFor (larger : Bool) (ty : DType) (x y : Nat) : Prop :=
  if larger then toInt ty.elem ty.signed y ≤ toInt ty.elem ty.signed x
  else toInt ty.elem ty.signed x ≤ toInt ty.elem ty.signed y

theorem firstFor_refl (larger : Bool) (ty : DType) (x : Nat) : firstFor larger ty x x := by
  cases larger <;> exact Int.le_refl (toInt ty.elem ty.signed x)

theorem firstFor_trans {larger : Bool} {ty : DType} {x y z : Nat} (hxy : firstFor larger ty x y)
    (hyz : firstFor larger ty y z) : firstFor larger ty x z := by
  cases larger
  · exact Int.le_trans (show toInt .. ≤ toInt .. from hxy) hyz
  · exact Int.le_trans (show toInt .. ≤ toInt .. from hyz) hxy

/-- Integer `.min` and `.max` keep one of two values, the first in their order. -/
theorem combine_minMax {ty : DType} (h : isFloat ty = false) (larger : Bool) {a b : Nat} (ha : a < 2 ^ ty.elem)
    (hb : b < 2 ^ ty.elem) :
    let c := combine (if larger then .max else .min) ty a b
    (c = a ∨ c = b) ∧ firstFor larger ty c a ∧ firstFor larger ty c b := by
  intro c
  have hc : c = if larger then (if toInt ty.elem ty.signed a < toInt ty.elem ty.signed b then b else a)
      else if toInt ty.elem ty.signed b < toInt ty.elem ty.signed a then b else a := by
    cases larger <;> simp [c, combine, h, Nat.mod_eq_of_lt ha, Nat.mod_eq_of_lt hb, toInt_eq]
  rw [hc]
  cases larger
  · simp only [firstFor, Bool.false_eq_true, if_false]
    split
    · exact ⟨.inr rfl, by omega, by omega⟩
    · exact ⟨.inl rfl, by omega, by omega⟩
  · simp only [firstFor, if_true]
    split
    · exact ⟨.inr rfl, by omega, by omega⟩
    · exact ⟨.inl rfl, by omega, by omega⟩

section
variable {ty : DType} {v : Nat} {vs : List Nat}

/-! `Combines` is opened by `delta` here: `simp` and `unfold` fail to generate its equation. -/

theorem combines_float_add (h : isFloat ty = true) : Combines 0 ty (v :: vs) (combineAll 0 ty (v :: vs)) := by
  delta Combines
  simp [combineAll, h]

/-- The types of R177 that are floating: their elements are codes of a format that is not flushed. -/
theorem fmtOf_of_setN (hty : ty ∈ setN) (h : isFloat ty = true) :
    (fmtOf ty).flush = false ∧ (fmtOf ty).width = ty.elem := by
  cases ty with
  | f32 | f64 => exact ⟨rfl, rfl⟩
  | _ => exact absurd (And.intro hty h) (by decide)

/-- Float `.min` and `.max` are the pick of R106 over all the values. -/
theorem picked_of_float (hty : ty ∈ setN) (h : isFloat ty = true) (hv : ∀ u ∈ v :: vs, u < 2 ^ ty.elem) (larger : Bool) :
    (fmtOf ty).Picked larger (v :: vs) (combineAll (if larger then 2 else 1) ty (v :: vs)) := by
  obtain ⟨hfl, hw⟩ := fmtOf_of_setN hty h
  rw [← hw] at hv
  have hfold := (ieee_fmtOf ty).picked_foldl hfl ((ieee_fmtOf ty).picked_single hfl (larger := larger) (hv v (by simp)))
    (by simpa using hv v (by simp)) vs fun u hu => hv u (by simp [hu])
  have he : combineAll (if larger then 2 else 1) ty (v :: vs) =
      vs.foldl ((fmtOf ty).pickNext larger) ((fmtOf ty).pick larger v v) := by
    cases larger <;> simp only [combineAll, h, if_true] <;> rfl
  rw [he]
  exact hfold

theorem combines_float_pick (hty : ty ∈ setN) (h : isFloat ty = true) (hv : ∀ u ∈ v :: vs, u < 2 ^ ty.elem)
    (larger : Bool) :
    Combines (if larger then 2 else 1) ty (v :: vs) (combineAll (if larger then 2 else 1) ty (v :: vs)) := by
  obtain ⟨hflags, hnan, hnum⟩ := picked_of_float hty h hv larger
  delta Combines
  dsimp only
  rw [if_neg (List.cons_ne_nil v vs), if_pos h]
  cases larger <;> exact ⟨hflags, fun hn => hnan (List.all_eq_true.mp hn), hnum⟩

theorem combines_int_minMax (h : isFloat ty = false) (hv : ∀ u ∈ v :: vs, u < 2 ^ ty.elem) (larger : Bool) :
    Combines (if larger then 2 else 1) ty (v :: vs) (combineAll (if larger then 2 else 1) ty (v :: vs)) := by
  have hfold := foldl_keeps_first (combine (if larger then .max else .min) ty) (firstFor_refl larger ty)
    (fun _ _ _ => firstFor_trans) (fun _ _ ha hb => combine_minMax h larger ha hb) v vs hv
  delta Combines
  cases larger <;> simpa [combineAll, h, firstFor] using hfold

/-- Integer `.add` and the logic operations (R177). -/
theorem combines_int_fold (h : isFloat ty = false) (op : Nat) (h1 : op ≠ 1) (h2 : op ≠ 2) :
    Combines op ty (v :: vs) (combineAll op ty (v :: vs)) := by
  delta Combines
  dsimp only
  rw [if_neg (List.cons_ne_nil v vs), if_neg (by simp [h])]
  match op with
  | 0 =>
    refine ⟨by simp [combineAll, h], ?_⟩
    simp only [combineAll, h, Bool.false_eq_true, if_false]
    rw [foldl_add_mod _ (Nat.two_pow_pos _), Nat.zero_add]
  | 3 => exact ⟨rfl, fun j => (testBit_foldl_and _ _ j).trans (by rw [Nat.testBit_two_pow_sub_one])⟩
  | 4 => exact ⟨rfl, fun j => (testBit_foldl_or _ _ j).trans (by rw [Nat.zero_testBit, Bool.false_or])⟩
  | _ + 5 => exact ⟨rfl, fun j => (testBit_foldl_xor _ _ j).trans (by rw [Nat.zero_testBit, Bool.false_xor])⟩
end

/-- R177: the model's combination is that of the statement. -/
theorem combines_combineAll {op : Nat} {ty : DType} (hty : ty ∈ combineTypes op) (vs : List Nat)
    (hv : ∀ v ∈ vs, v < 2 ^ ty.elem) : Combines op ty vs (combineAll op ty vs) := by
  cases vs with
  | nil => exact combines_nil op ty
  | cons v vs =>
    cases h : isFloat ty with
    | false =>
      by_cases h1 : op = 1
      · exact h1 ▸ combines_int_minMax h hv false
      by_cases h2 : op = 2
      · exact h2 ▸ combines_int_minMax h hv true
      exact combines_int_fold h op h1 h2
    | true =>
      match op with
      | 0 => exact combines_float_add h
      | 1 => exact combines_float_pick (combineTypes_subset _ hty) h hv false
      | 2 => exact combines_float_pick (combineTypes_subset _ hty) h hv true
      | _ + 3 =>
        rcases (by simpa [combineTypes] using hty : ty = .u32 ∨ ty = .u64) with rfl | rfl <;> cases h

end Sys2Proof.Machine
end

section
/-! SUPPORT. Cross-lane instructions (R172 to R178): the lanes that act when no fault-split is open, the sources of `nbr` and
`xsh`, and what a vote finds. -/

namespace Sys2Proof.Machine

/-! ### Reconvergence and flags -/

/-- R132: with no fault-split open above the path, a reconvergence point acts at once. -/
theorem Issue.converge_of_noSplit {x : Issue} (h : NoSplit x.w x.side) (act : Issue → State) : x.converge act = act x := by
  unfold Issue.converge
  dsimp only
  cases he : x.w.topEntry (x.w.slot x.side).mask with
  | none => rfl
  | some e => exact if_pos (bne_iff_ne.mpr (h e he))

/-- A reconvergence point whose checks pass acts (R172). -/
theorem exec_of_converge {i : Instr} {s : State} {uid : Nat} {side : Side} {w : Warp} (h : Issues i s uid side w)
    (hn : NoSplit w side) {act : Issue → State} (he : exec i s = issue i s fun x => x.converge act) :
    exec i s = .next (act (issueOf i s side w)) := by
  rw [he, issue_eq h, Issue.converge_of_noSplit hn]

theorem foldl_or_flagIf (ls : List Nat) (b : Nat → Bool) (c a : Word) :
    ls.foldl (fun a l => a ||| flagIf (b l) c) a = a ||| flagIf (ls.any b) c := by
  induction ls generalizing a with
  | nil => simp [flagIf]
  | cons l ls ih => rw [List.foldl_cons, ih, List.any_cons, ← flagIf_or, BitVec.or_assoc]

/-- A mask is empty unless some lane passes its test. -/
theorem maskOf_bne_zero (p : Nat → Bool) : (maskOf p != 0) = (List.range 32).any p := by
  rw [Bool.eq_iff_iff, List.any_eq_true, bne_iff_ne]
  constructor
  · intro h
    obtain ⟨l, hl, hp⟩ := exists_lane h
    rw [getLsbD_maskOf, decide_eq_true hl, Bool.true_and] at hp
    exact ⟨l, List.mem_range.mpr hl, hp⟩
  · rintro ⟨l, hl, hp⟩
    exact mask_ne_zero (l := l) (by rw [getLsbD_maskOf, decide_eq_true (List.mem_range.mp hl), hp]; rfl)

/-- One flag, raised in the lanes that pass a test. -/
theorem orAll_flagIf (m : Word) (b : Nat → Bool) (c : Word) :
    orAll m (fun l => flagIf (b l) c) = if maskOf (fun l => m.getLsbD l && b l) = 0 then 0 else c := by
  rw [orAll, foldl_or_flagIf, lanesOf, List.any_filter, ← maskOf_bne_zero, show (0 : Word) ||| _ = _ from BitVec.zero_or]
  by_cases h : maskOf (fun l => m.getLsbD l && b l) = 0 <;> simp [flagIf, h]

/-- The flags that all lanes share (R96). -/
theorem resultFlags_const (tp : Word) (d : Opnd) (c : Word) :
    resultFlags tp d (fun _ => c) = if tp = 0 then 0 else c := by
  have hv : orAll tp (fun _ => c) = if tp = 0 then 0 else c := by
    have := orAll_flagIf tp (fun _ => true) c
    simpa [flagIf] using this
  cases d with
  | s n => simp [resultFlags]
  | _ => exact hv

/-! ### The sources of `nbr` and `xsh` (R174 to R176) -/

/-- Whether lane `l` reads lane `m`, which is neither taking part nor dead, with no `.z` (R174). -/
def readsAbsent (f : Fields) (w : Warp) (tp : Word) (src : Nat → Option Nat) (l m : Nat) : Bool :=
  src l == some m && !tp.getLsbD m && !((w.lane m).st == .dead) && !f.sub.getLsbD 2

/-- Whether lane `l` reads lane `m`, which is dead (R174). -/
def readsDead (w : Warp) (tp : Word) (src : Nat → Option Nat) (l m : Nat) : Bool :=
  src l == some m && !tp.getLsbD m && (w.lane m).st == .dead

/-- The value that lane `l` reads from its source or the edge. -/
def readValue (f : Fields) (w : Warp) (tp : Word) (src : Nat → Option Nat) (edge : Nat → Nat) (l : Nat) : Nat :=
  match src l with
  | some m => if tp.getLsbD m then operand f w m f.a else 0
  | none => edge l

/-- R174 for an instruction that reads, in each lane, a source lane or an edge value: trap 0x06, or the values. -/
def LaneReads (f : Fields) (s : State) (uid : Nat) (side : Side) (w : Warp) (i : Instr) (src : Nat → Option Nat)
    (edge : Nat → Nat) : Prop :=
  let tp := partOf i w side
  let readers := maskOf fun l => tp.getLsbD l && (List.range 32).any (readsAbsent f w tp src l)
  let sources := maskOf fun m => (List.range 32).any fun l => tp.getLsbD l && readsAbsent f w tp src l m
  let ofDead := maskOf fun l => tp.getLsbD l && (List.range 32).any (readsDead w tp src l)
  if readers ≠ 0 then exec i s = .next (s.trap w side 6 (readers.setWidth 64) sources)
  else Gives i s uid side w f.d f.ty.regs
    (readValue f w tp src edge) (if ofDead = 0 then 0 else DEADREAD)

/-- What the model lets a lane receive, from its source lane or the edge. -/
def Issue.receives (x : Issue) (f : Fields) (src : Nat → Option Nat) (edge : Nat → Nat) (l : Nat) : Got :=
  match src l with
  | some m => x.from f (f.sub.getLsbD 2) m
  | none => .val (edge l)

def Got.isAbsent : Got → Bool
  | .absent _ => true
  | _ => false

/-- The value and the flags that a received value gives. -/
def Got.result : Got → Nat × Word
  | .val v => (v, 0)
  | .dead => (0, DEADREAD)
  | .absent _ => (0, 0)

theorem Issue.gather_eq (x : Issue) (f : Fields) (got : Nat → Got) :
    x.gather f got =
      if maskOf (fun l => x.tp.getLsbD l && (got l).isAbsent) != 0 then
        x.trap 6 ((maskOf fun l => x.tp.getLsbD l && (got l).isAbsent).setWidth 64)
          (maskOf fun m => (lanesOf x.tp).any fun l => got l == .absent m)
      else x.alu f.d f.ty.regs fun l => (got l).result := rfl

/-- What an optional source satisfies, as a search through the lanes. -/
theorem any_range_source {o : Option Nat} (ho : ∀ m, o = some m → m < 32) (p : Nat → Bool) :
    (List.range 32).any (fun m => o == some m && p m) = o.any p := by
  cases o with
  | none => simp
  | some k =>
    rw [Bool.eq_iff_iff, List.any_eq_true]
    constructor
    · rintro ⟨m, -, hm⟩
      obtain ⟨hk, hp⟩ := Bool.and_eq_true_iff.mp hm
      obtain rfl := Option.some.inj (beq_iff_eq.mp hk)
      exact hp
    · exact fun hp => ⟨k, List.mem_range.mpr (ho k rfl), Bool.and_eq_true_iff.mpr ⟨beq_iff_eq.mpr rfl, hp⟩⟩

section
variable (x : Issue) (f : Fields) (z : Bool) (m k : Nat)

/-! The rows of the table of R174, for a source inside the warp. -/

theorem Issue.from_isAbsent :
    (x.from f z m).isAbsent = (!x.tp.getLsbD m && !((x.w.lane m).st == .dead) && !z) := by
  unfold Issue.from
  generalize x.tp.getLsbD m = t
  cases t <;> cases (x.w.lane m).st == .dead <;> cases z <;> rfl

theorem Issue.from_beq_absent :
    (x.from f z m == .absent k) = (m == k && (!x.tp.getLsbD m && !((x.w.lane m).st == .dead) && !z)) := by
  have hk : (Got.absent m == .absent k) = (m == k) := by
    rw [Bool.eq_iff_iff, beq_iff_eq, beq_iff_eq, Got.absent.injEq]
  unfold Issue.from
  generalize x.tp.getLsbD m = t
  cases t <;> cases (x.w.lane m).st == .dead <;> cases z <;> simp [hk]

theorem Issue.from_result :
    (x.from f z m).result =
      (if x.tp.getLsbD m then operand f x.w m f.a else 0,
        flagIf (!x.tp.getLsbD m && (x.w.lane m).st == .dead) DEADREAD) := by
  unfold Issue.from
  generalize x.tp.getLsbD m = t
  cases t <;> cases (x.w.lane m).st == .dead <;> cases z <;> rfl
end

section
variable (x : Issue) (f : Fields) (src : Nat → Option Nat) (edge : Nat → Nat) (l : Nat)

theorem Issue.receives_beq_absent (m : Nat) :
    (x.receives f src edge l == .absent m) = readsAbsent f x.w x.tp src l m := by
  unfold Issue.receives readsAbsent
  cases src l with
  | none => rfl
  | some k =>
    have hkm : (some k == some m) = (k == m) := by simp
    by_cases h : k = m
    · subst h; simp only [Issue.from_beq_absent, hkm, Bool.and_assoc]
    · simp only [Issue.from_beq_absent, hkm, Bool.and_assoc, beq_false_of_ne h, Bool.false_and]

variable (hsrc : ∀ m, src l = some m → m < 32)

include hsrc in
theorem Issue.receives_isAbsent :
    (x.receives f src edge l).isAbsent = (List.range 32).any (readsAbsent f x.w x.tp src l) := by
  unfold readsAbsent Issue.receives
  simp only [Bool.and_assoc, any_range_source hsrc]
  cases src l with
  | none => rfl
  | some k => simp only [Issue.from_isAbsent, Bool.and_assoc]; rfl

include hsrc in
theorem Issue.receives_result :
    (x.receives f src edge l).result =
      (readValue f x.w x.tp src edge l, flagIf ((List.range 32).any (readsDead x.w x.tp src l)) DEADREAD) := by
  unfold readsDead Issue.receives readValue
  simp only [Bool.and_assoc, any_range_source hsrc]
  cases src l with
  | none => rfl
  | some k => exact Issue.from_result x f _ k
end

/-- R174: an instruction that gathers what its lanes receive from sources inside the warp, or else from the edge. -/
theorem laneReads_of_gather {f : Fields} {s : State} {uid : Nat} {side : Side} {w : Warp} {i : Instr}
    (h : Issues i s uid side w) {n : BitVec 8} (hd : f.d = .v n) {src : Nat → Option Nat} {edge : Nat → Nat}
    (hsrc : ∀ l m, src l = some m → m < 32)
    (he : exec i s = .next ((issueOf i s side w).gather f ((issueOf i s side w).receives f src edge))) :
    LaneReads f s uid side w i src edge := by
  unfold LaneReads
  intro tp readers sources ofDead
  have hr : (maskOf fun l => tp.getLsbD l && ((issueOf i s side w).receives f src edge l).isAbsent) = readers :=
    maskOf_congr fun l _ => by rw [Issue.receives_isAbsent _ _ _ _ _ (hsrc l)]; rfl
  have hs : (maskOf fun m => (lanesOf tp).any fun l => (issueOf i s side w).receives f src edge l == .absent m) = sources :=
    maskOf_congr fun m _ => by
      simp only [Issue.receives_beq_absent, lanesOf, List.any_filter]
      rfl
  have hg : (issueOf i s side w).gather f ((issueOf i s side w).receives f src edge) =
      if readers != 0 then s.trap w side 6 (readers.setWidth 64) sources
      else (issueOf i s side w).alu f.d f.ty.regs fun l => ((issueOf i s side w).receives f src edge l).result := by
    rw [← hr, ← hs]
    exact Issue.gather_eq _ _ _
  rw [hg] at he
  by_cases h0 : readers = 0
  · rw [if_neg (by rw [bne_iff_ne, Classical.not_not]; exact h0)] at he
    rw [if_neg (Classical.not_not.mpr h0)]
    have hx := gives_of_alu h he fun l => Issue.receives_result _ f src edge l (hsrc l)
    rw [hd] at hx ⊢
    have hfl : resultFlags tp (.v n) (fun l => flagIf ((List.range 32).any (readsDead w tp src l)) DEADREAD) =
        if ofDead = 0 then 0 else DEADREAD := orAll_flagIf _ _ _
    exact hfl ▸ hx
  · rw [if_pos (bne_iff_ne.mpr h0)] at he
    rw [if_pos h0]
    exact he

/-! ### The offsets and the lanes of `nbr` and `xsh` (R175, R176) -/

/-- The lane of a number, if the warp has one. -/
def laneAt (j : Int) : Option Nat := if 0 ≤ j ∧ j < 32 then some j.toNat else none

theorem laneAt_lt {j : Int} {m : Nat} (h : laneAt j = some m) : m < 32 := by
  unfold laneAt at h
  split at h
  next hj => obtain rfl := Option.some.inj h; omega
  next => cases h

theorem laneAt_mod (j : Int) : laneAt (j % 32) = some (j % 32).toNat := if_pos (by omega)

/-- The width term of R175 on a warp of 32 lanes. -/
def laneTerm (f : Fields) : Int := match f.subBits 3 2 with | 0 => 0 | 1 => 8 | 2 => 16 | _ => 32

theorem widthTerm_eq (f : Fields) : widthTerm f = laneTerm f := by
  have h : f.subBits 3 2 < 4 := Nat.mod_lt _ (by decide)
  unfold widthTerm laneTerm
  generalize f.subBits 3 2 = t at h
  match t, h with
  | 0, _ | 1, _ | 2, _ | 3, _ => rfl

/-- The source lane of `nbr` (R176). -/
def nbrSource (f : Fields) (w : Warp) (l : Nat) : Option Nat :=
  let j : Int := l + (toInt 32 true (operandAt 1 f w l f.b) + laneTerm f)
  if f.subBits 0 2 = 1 then laneAt (j % 32) else laneAt j

/-- What `nbr` gives for a source outside the warp (R176). -/
def nbrEdge (f : Fields) (w : Warp) (l : Nat) : Nat := if f.subBits 0 2 = 0 then 0 else operand f w l f.c

/-- The source lane of `xsh` (R176). -/
def xshSource (f : Fields) (w : Warp) (l : Nat) : Option Nat :=
  let b := operandAt 1 f w l f.b + (laneTerm f).toNat
  laneAt (if f.subBits 0 2 = 0 then b else l ^^^ b : Nat)

theorem nbr_eq_gather (x : Issue) (f : Fields) : x.nbr f = x.gather f (x.receives f (nbrSource f x.w) (nbrEdge f x.w)) := by
  refine congrArg (x.gather f) (funext fun l => ?_)
  have hk : intOf 32 true (x.get f l 1 f.b) = toInt 32 true (operandAt 1 f x.w l f.b) := (toInt_eq _ _ _).symm
  unfold Issue.receives nbrSource nbrEdge
  simp only [hk, widthTerm_eq]
  generalize (l : Int) + (toInt 32 true (operandAt 1 f x.w l f.b) + laneTerm f) = j
  by_cases hj : 0 ≤ j ∧ j < 32
  · have hm : j % 32 = j := by omega
    have hl : laneAt j = some j.toNat := if_pos hj
    simp [hj, hm, hl]
  · have hl : laneAt j = none := if_neg hj
    rw [if_neg (by simpa using hj), hl]
    match f.subBits 0 2 with
    | 0 => rfl
    | 1 => rw [if_pos rfl, laneAt_mod]; rfl
    | _ + 2 => rfl

theorem xsh_eq_gather (x : Issue) (f : Fields) : x.xsh f = x.gather f (x.receives f (xshSource f x.w) fun _ => 0) := by
  refine congrArg (x.gather f) (funext fun l => ?_)
  unfold Issue.receives xshSource
  have hb : x.get f l 1 f.b = operandAt 1 f x.w l f.b := rfl
  simp only [hb, beq_iff_eq, widthTerm_eq]
  generalize (if f.subBits 0 2 = 0 then operandAt 1 f x.w l f.b + (laneTerm f).toNat
    else l ^^^ (operandAt 1 f x.w l f.b + (laneTerm f).toNat)) = j
  by_cases hj : j < 32
  · have hl : laneAt j = some j := if_pos (by omega)
    rw [if_pos hj, hl]
  · have hl : laneAt j = none := if_neg (by omega)
    rw [if_neg hj, hl]

theorem nbr_laneReads {f : Fields} {s : State} {uid : Nat} {side : Side} {w : Warp} (h : Issues (.nbr f) s uid side w)
    (hn : NoSplit w side) : LaneReads f s uid side w (.nbr f) (nbrSource f w) (nbrEdge f w) := by
  obtain ⟨n, hd⟩ := OSpec.ok_v (Instr.checked (i := .nbr f) rfl rfl h.ok).d
  refine laneReads_of_gather h hd (fun l m hm => ?_)
    ((exec_of_converge h hn (show exec (.nbr f) s = execNbr f s from rfl)).trans (congrArg _ (nbr_eq_gather _ f)))
  unfold nbrSource at hm
  dsimp only at hm
  split at hm
  · exact laneAt_lt hm
  · exact laneAt_lt hm

theorem xsh_laneReads {f : Fields} {s : State} {uid : Nat} {side : Side} {w : Warp} (h : Issues (.xsh f) s uid side w)
    (hn : NoSplit w side) : LaneReads f s uid side w (.xsh f) (xshSource f w) fun _ => 0 := by
  obtain ⟨n, hd⟩ := OSpec.ok_v (Instr.checked (i := .xsh f) rfl rfl h.ok).d
  exact laneReads_of_gather h hd (fun l m hm => laneAt_lt hm)
    ((exec_of_converge h hn (show exec (.xsh f) s = execXsh f s from rfl)).trans (congrArg _ (xsh_eq_gather _ f)))

/-! ### Reductions and scans (R177) -/

/-- The values that `lred` and `lscan` combine fit their elements. -/
theorem values_lt {f : Fields} {w : Warp} {n : BitVec 8} {op : Nat} (ha : f.a = .v n) (hty : f.ty ∈ combineTypes op)
    (ls : List Nat) : ∀ v ∈ ls.map fun l => operand f w l f.a, v < 2 ^ f.ty.elem := by
  have hel : f.ty.elem = 32 * f.ty.regs := by
    have hN : f.ty ∈ setN := combineTypes_subset op hty
    simp only [setN, List.mem_cons, List.not_mem_nil, or_false] at hN
    rcases hN with h | h | h | h | h | h <;> rw [h] <;> rfl
  intro v hv
  obtain ⟨l, -, rfl⟩ := List.mem_map.mp hv
  rw [ha, hel]
  exact Lane.num_lt _ _ _

theorem lred_combines {f : Fields} {s : State} {uid : Nat} {side : Side} {w : Warp} (h : Issues (.lred f) s uid side w)
    (hn : NoSplit w side) :
    let tp := partOf (.lred f) w side
    let r := combineAll (f.subBits 0 3) f.ty ((lanesOf tp).map fun l => operand f w l f.a)
    Combines (f.subBits 0 3) f.ty ((lanesOf tp).map fun l => operand f w l f.a) r ∧
      Gives (.lred f) s uid side w f.d f.ty.regs (fun _ => r.1) (if tp = 0 then 0 else r.2) := by
  intro tp r
  have hk := Instr.checked (i := .lred f) rfl rfl h.ok
  obtain ⟨n, ha⟩ := OSpec.ok_v hk.a
  have hty : f.ty ∈ combineTypes (f.subBits 0 3) := List.contains_iff_mem.mp hk.ty
  refine ⟨combines_combineAll hty _ (values_lt ha hty _), ?_⟩
  have hx := gives_of_alu h (exec_of_converge h hn (show exec (.lred f) s = execLred f s from rfl)) fun _ => rfl
  rw [resultFlags_const] at hx
  exact hx

theorem lscan_combines {f : Fields} {s : State} {uid : Nat} {side : Side} {w : Warp} (h : Issues (.lscan f) s uid side w)
    (hn : NoSplit w side) :
    let tp := partOf (.lscan f) w side
    let upTo (l : Nat) : List Nat := (lanesOf tp).filter fun j => if f.sub.getLsbD 3 then decide (j < l) else decide (j ≤ l)
    let r (l : Nat) : Nat × Word := combineAll (f.subBits 0 3) f.ty ((upTo l).map fun l => operand f w l f.a)
    (∀ l, Combines (f.subBits 0 3) f.ty ((upTo l).map fun l => operand f w l f.a) (r l)) ∧
      Gives (.lscan f) s uid side w f.d f.ty.regs (fun l => (r l).1) (orAll tp fun l => (r l).2) := by
  intro tp upTo r
  have hk := Instr.checked (i := .lscan f) rfl rfl h.ok
  obtain ⟨n, ha⟩ := OSpec.ok_v hk.a
  obtain ⟨m, hd⟩ := OSpec.ok_v hk.d
  have hty : f.ty ∈ combineTypes (f.subBits 0 3) := List.contains_iff_mem.mp hk.ty
  refine ⟨fun l => combines_combineAll hty _ (values_lt ha hty _), ?_⟩
  have hupTo (l j : Nat) : (decide (j < l) || (j == l && !f.sub.getLsbD 3)) =
      if f.sub.getLsbD 3 then decide (j < l) else decide (j ≤ l) := by
    cases f.sub.getLsbD 3
    · simp only [Bool.not_false, Bool.and_true, Bool.false_eq_true, if_false]
      rw [Bool.eq_iff_iff, Bool.or_eq_true, decide_eq_true_iff, decide_eq_true_iff, beq_iff_eq]
      omega
    · simp only [Bool.not_true, Bool.and_false, Bool.or_false, if_true]
  have hx := gives_of_alu h (exec_of_converge h hn (show exec (.lscan f) s = execLscan f s from rfl)) fun _ => rfl
  simp only [hupTo] at hx
  rw [hd] at hx ⊢
  exact hx

/-! ### Votes (R178) -/

/-- The result of a vote in which the lanes that take part hold `yes` or not (R178). -/
def voteValue (kind : Nat) (tp : Word) (yes : Nat → Bool) : Nat :=
  let lanes := List.range 32
  let bit (b : Bool) : Nat := if b then 1 else 0
  let no (l : Nat) : Bool := tp.getLsbD l && !yes l
  match kind with
  | 0 => bit (!lanes.any no)
  | 1 => bit (lanes.any yes)
  | 2 => bit (!lanes.any no || !lanes.any yes)
  | 3 => (maskOf yes).toNat
  | 4 => (lanes.filter yes).length
  | _ => (lanes.find? yes).getD 0xFFFFFFFF

theorem lanesOf_maskOf (p : Nat → Bool) : lanesOf (maskOf p) = (List.range 32).filter p :=
  List.filter_congr fun l hl => by rw [getLsbD_maskOf, decide_eq_true (List.mem_range.mp hl), Bool.true_and]

theorem lowFrom_eq_find? (m : Word) (k i : Nat) : lowFrom m k i = (List.range' i k).find? fun l => m.getLsbD l := by
  induction k generalizing i with
  | zero => rfl
  | succ k ih =>
    rw [lowFrom, List.range'_succ, List.find?_cons, ih]
    cases m.getLsbD i <;> rfl

/-- The lowest lane of a mask is the first that passes its test. -/
theorem lowLane_maskOf (p : Nat → Bool) : lowLane (maskOf p) = (List.range 32).find? p := by
  rw [lowLane, lowFrom_eq_find?, ← List.range_eq_range', ← List.head?_filter, ← List.head?_filter]
  exact congrArg _ (lanesOf_maskOf p)

/-- All lanes of a mask pass a test when none fails it. -/
theorem maskOf_beq {tp : Word} {yes : Nat → Bool} (h : ∀ l, yes l = true → tp.getLsbD l = true) :
    (maskOf yes == tp) = !(List.range 32).any fun l => tp.getLsbD l && !yes l := by
  rw [← maskOf_bne_zero, Bool.eq_iff_iff]
  simp only [beq_iff_eq, Bool.not_eq_true', bne_eq_false_iff_eq]
  constructor
  · intro he
    refine mask_eq_zero fun l hl => ?_
    rw [getLsbD_maskOf, ← he, getLsbD_maskOf]
    cases yes l <;> simp
  · intro hno
    refine mask_ext fun l hl => ?_
    have hl0 := congrArg (fun m : Word => m.getLsbD l) hno
    simp only [getLsbD_maskOf, decide_eq_true hl, Bool.true_and] at hl0 ⊢
    have hsub := h l
    cases hy : yes l with
    | true => exact (hsub hy).symm
    | false => rw [hy] at hl0; simpa using hl0.symm

/-- The result of a vote as the model has it, from the mask of the lanes that hold 1. -/
def maskVote (kind : Nat) (tp yes : Word) : Nat :=
  match kind with
  | 0 => if yes == tp then 1 else 0
  | 1 => if yes != 0 then 1 else 0
  | 2 => if yes == 0 || yes == tp then 1 else 0
  | 3 => yes.toNat
  | 4 => countOf yes
  | _ => (lowLane yes).getD 0xFFFFFFFF

theorem maskVote_maskOf {tp : Word} {yes : Nat → Bool} (h : ∀ l, yes l = true → tp.getLsbD l = true) (kind : Nat) :
    maskVote kind tp (maskOf yes) = voteValue kind tp yes := by
  have hnone : (maskOf yes == 0) = !(List.range 32).any yes := by rw [← maskOf_bne_zero, bne, Bool.not_not]
  unfold maskVote
  rw [maskOf_beq h, hnone, maskOf_bne_zero, countOf, lanesOf_maskOf, lowLane_maskOf]
  match kind with
  | 2 => rw [Bool.or_comm]; rfl
  | 0 | 1 | 3 | 4 | _ + 5 => rfl

/-- The lanes of a warp whose vote is 1 (R178). -/
def votesYes (f : Fields) (w : Warp) (tp : Word) (l : Nat) : Bool := tp.getLsbD l && operandAt 1 f w l f.a != 0

theorem vote_gives {f : Fields} {s : State} {uid : Nat} {side : Side} {w : Warp} (h : Issues (.vote f) s uid side w)
    (hn : NoSplit w side) :
    let tp := partOf (.vote f) w side
    Gives (.vote f) s uid side w f.d 1 (fun _ => voteValue (f.subBits 0 3) tp (votesYes f w tp)) 0 := by
  intro tp
  have hv := maskVote_maskOf (tp := tp) (yes := votesYes f w tp) (fun l hl => (Bool.and_eq_true_iff.mp hl).1) (f.subBits 0 3)
  have hx := gives_of_alu h (exec_of_converge h hn (show exec (.vote f) s = execVote f s from rfl))
    fun _ => congrArg (·, (0 : Word)) hv
  rw [resultFlags_const, ite_self] at hx
  exact hx

end Sys2Proof.Machine

open Sys2Proof Sys2Proof.Machine

/-- Settles O25: every source of `nbr` and `xsh` by the row of R174 that it falls in (`nbr_laneReads`, `xsh_laneReads`),
reductions and scans by `combines_combineAll`, and the votes. -/
theorem crossLane : Obligations.CrossLane := by
  refine ⟨fun f s uid side w hn => ⟨fun h => nbr_laneReads h hn, fun h => xsh_laneReads h hn⟩,
    fun f s uid side w hn => ⟨fun h => ⟨_, lred_combines h hn⟩, fun h => ?lscan, fun h => vote_gives h hn⟩⟩
  case lscan =>
    obtain ⟨hc, hg⟩ := lscan_combines h hn
    exact ⟨_, fun l _ => hc l, hg⟩
end

section
/-! SUPPORT. Words whose fields do not fit (R51, R52): every instruction with fields is an `issue`, whose checks come first. -/

namespace Sys2Proof.Machine

theorem exec_eq_issue_of_fields {i : Instr} {f : Fields} (hf : i.fields = some f) (s : State) :
    ∃ act, exec i s = issue i s act := by
  unfold Instr.fields at hf
  split at hf
  case h_160 => cases hf
  all_goals
    unfold exec
    exact ⟨_, rfl⟩

theorem exec_eq_issue_of_cfields {i : Instr} {f : CFields} (hf : i.cfields = some f) (s : State) :
    ∃ act, exec i s = issue i s act := by
  unfold Instr.cfields at hf
  split at hf
  case h_11 => cases hf
  all_goals
    unfold exec
    exact ⟨_, rfl⟩

/-- A word that fails a check has fields, so its meaning is an `issue`. -/
theorem exec_eq_issue_of_fault {i : Instr} {al : Allot} {fld : Fld} (h : i.fault al = some fld) (s : State) :
    ∃ act, exec i s = issue i s act := by
  unfold Instr.fault at h
  split at h
  next hf => exact exec_eq_issue_of_fields hf s
  next =>
    split at h
    next hf => exact exec_eq_issue_of_cfields hf s
    next => cases h

/-- R51: a word that fails a check takes trap 0x02 with the field at which decoding stops, and does not act. -/
theorem exec_of_fault {i : Instr} {s : State} {uid : Nat} {side : Side} {w : Warp} {fld : Fld}
    (ht : s.turn = some (.slot uid side)) (hw : s.warp? uid = some w) (hf : i.fault (s.allotOf w) = some fld) :
    exec i s = .next (s.trapField w side i fld (w.active side)) := by
  obtain ⟨act, he⟩ := exec_eq_issue_of_fault hf s
  exact he.trans (issue_fault ht hw hf act)

end Sys2Proof.Machine
end

section
/-! SUPPORT. Entry into the handler (R319 to R321): the registers that a trap spoils, and what the entry saves and sets. -/

namespace Sys2Proof.Machine

/-! ### The registers s120 to s127 (R19) -/

theorem tget_foldl_tset_if (p : Nat → Bool) (g : Nat → Word) (ls : List Nat) (l : List Word) (r : Nat) :
    tget 0 (ls.foldl (fun l i => if p i then tset 0 l (120 + i) (g i) else l) l) r = tget 0 l r ∨
      ∃ i ∈ ls, r = 120 + i ∧ p i = true := by
  induction ls generalizing l with
  | nil => exact .inl rfl
  | cons i ls ih =>
    rcases ih (if p i then tset 0 l (120 + i) (g i) else l) with he | ⟨k, hk, hr⟩
    · by_cases hi : r = 120 + i ∧ p i = true
      · exact .inr ⟨i, List.mem_cons_self, hi⟩
      · refine .inl (he.trans ?_)
        split
        next hp => rw [tget_tset, if_neg fun hr => hi ⟨hr, hp⟩]
        next => rfl
    · exact .inr ⟨k, List.mem_cons_of_mem i hk, hr⟩

/-- The scalar registers with those of s120 to s127 that code outside the handler has written replaced. -/
def Warp.spoiledRegs (w : Warp) (ws : List Word) : List Word :=
  (List.range 8).foldl (fun l i => if w.soiled.getLsbD i then tset 0 l (120 + i) (ws.getD i 0) else l) w.sregs

theorem Warp.sreg_spoiledRegs (w : Warp) (ws : List Word) (r : Nat) :
    tget 0 (w.spoiledRegs ws) r = w.sreg r ∨ (120 ≤ r ∧ r < 128 ∧ w.soiled.getLsbD (r - 120) = true) := by
  refine (tget_foldl_tset_if w.soiled.getLsbD (fun i => ws.getD i 0) (List.range 8) w.sregs r).imp id ?_
  rintro ⟨i, hi, rfl, hs⟩
  have := List.mem_range.mp hi
  exact ⟨by omega, by omega, by rwa [Nat.add_sub_cancel_left]⟩

/-- A trap replaces, of a warp, some of s120 to s127 that code outside the handler has written, and takes free words for
that alone. -/
theorem State.spoil_spec (s : State) (w : Warp) : ∃ n sregs,
    s.spoil w = ({ s with free := n }, { w with sregs := sregs, soiled := 0 }) ∧
      Spoiled w { w with sregs := sregs, soiled := 0 } ∧ (w.soiled = 0 → n = s.free) := by
  by_cases hz : w.soiled = 0
  · refine ⟨s.free, w.sregs, ?_, ⟨fun _ => .inl rfl, rfl⟩, fun _ => rfl⟩
    rw [State.spoil, if_pos (beq_iff_eq.mpr hz), ← hz]
  · refine ⟨s.free + 8, w.spoiledRegs (s.freeWords 8).2, ?_, ⟨fun r => ?_, rfl⟩, fun h => absurd h hz⟩
    · rw [State.spoil, if_neg (by simpa using hz)]
      rfl
    exact w.sreg_spoiledRegs _ r

/-! ### The entry -/

/-- The code of a warp's handler. -/
def State.handlerEntry (s : State) (w : Warp) : DWord :=
  (s.launch w.launch).lrec.code + (s.launch w.launch).lrec.trapEntry

/-- The trapping slot as it is saved: the refusals of an instruction that traps by itself are forgotten (R346). -/
def Warp.trapSlot (w : Warp) (side : Side) (vec : Nat) : Slot :=
  { w.slot side with denied := if vec = 0x10 ∨ vec = 0x0B then (w.slot side).denied else [] }

/-- What a trap entry saves of a warp (R319). -/
def Warp.saved (w : Warp) (side : Side) (vec : Nat) : Saved :=
  { port := (w.setSlot side (w.trapSlot side vec)).port
    star := (w.setSlot side (w.trapSlot side vec)).star
    ncs := (lanesOf w.live).map fun l => (l, (w.lane l).nc)
    stack := w.stack, parked := w.parked, side := side, vec := vec, last := w.last }

/-- A slot that was saved. -/
def Saved.slot (h : Saved) : Side → Slot
  | .port => h.port
  | .star => h.star

@[simp] theorem Warp.slot_saved (w : Warp) (side : Side) (vec : Nat) :
    (w.saved side vec).slot side = w.trapSlot side vec := by cases side <;> rfl

@[simp] theorem Warp.slot_saved_other (w : Warp) (side : Side) (vec : Nat) :
    (w.saved side vec).slot (otherSide side) = w.slot (otherSide side) := by cases side <;> rfl

/-- Warp `w'` is `w` at the start of its handler (R319 to R321): every live lane in the port slot, with nesting counter 0;
the trap registers written; the control state saved; and nothing else changed but registers that the trap spoils. -/
structure EntersHandler (w w' : Warp) (side : Side) (vec : Nat) (trapv : Word) (pc info : DWord) (mask : Word)
    (entry : DWord) : Prop where
  spoiled : Spoiled w w'
  trapv : w'.trapv = trapv
  trappc : w'.trappc = pc
  trapinfo : w'.trapinfo = info
  trapmask : w'.trapmask = mask
  port : w'.port = freshPath entry w.live
  star : w'.star = {}
  stack : w'.stack = []
  parked : w'.parked = []
  lane : ∀ l < 32, w'.lane l = if w.live.getLsbD l then { w.lane l with nc := 0 } else w.lane l
  handler : w'.handler = some (w.saved side vec)
  rest : { w' with trapv := w.trapv, trappc := w.trappc, trapinfo := w.trapinfo, trapmask := w.trapmask, port := w.port,
                   star := w.star, stack := w.stack, parked := w.parked, lanes := w.lanes, handler := w.handler,
                   sregs := w.sregs, soiled := w.soiled } = w

section
variable {w w' : Warp} {side : Side} {vec : Nat} {trapv : Word} {pc info : DWord} {mask : Word} {entry : DWord}
  (h : EntersHandler w w' side vec trapv pc info mask entry)
include h

theorem EntersHandler.uid : w'.uid = w.uid := by simpa using congrArg Warp.uid h.rest

theorem EntersHandler.flags : w'.flags = w.flags := by simpa using congrArg Warp.flags h.rest

/-- The warp is found in its handler where it stood, perhaps before its instruction completed. -/
theorem EntersHandler.warp?_setWarp {s : State} {uid : Nat} {v : Warp} (hv : w.uid = v.uid) (hw : s.warp? uid = some v) :
    (s.setWarp w').warp? uid = some w' := by
  obtain rfl : w'.uid = uid := (h.uid.trans hv).trans (State.warp?_uid hw)
  exact State.warp?_setWarp w' hw

end

/-- The asynchronous vectors (R322). -/
theorem asyncVec_iff (vec : Nat) : asyncVec vec = true ↔ vec = 0x10 ∨ vec = 0x0B := by
  rw [asyncVec, Bool.or_eq_true, beq_iff_eq, beq_iff_eq]

theorem Warp.handler_enterTrap (w : Warp) (side : Side) (vec : Nat) (trapv : Word) (pc info : DWord) (mask : Word)
    (entry : DWord) : (w.enterTrap side vec trapv pc info mask entry).handler = some (w.saved side vec) := by
  have hd : (if asyncVec vec then (w.slot side).denied else []) = (w.trapSlot side vec).denied :=
    ite_congr (propext (asyncVec_iff vec)) (fun _ => rfl) fun _ => rfl
  unfold Warp.enterTrap
  rw [hd]
  cases side <;> rfl

/-- The entry of a warp some of whose scalar registers have been spoiled. -/
theorem entersHandler_enterTrap {w : Warp} {sregs : List Word} (hs : Spoiled w { w with sregs := sregs, soiled := 0 })
    (side : Side) (vec : Nat) (trapv : Word) (pc info : DWord) (mask : Word) (entry : DWord) :
    EntersHandler w ({ w with sregs := sregs, soiled := 0 }.enterTrap side vec trapv pc info mask entry) side vec trapv pc
      info mask entry where
  spoiled := by
    obtain ⟨hr, hz⟩ := hs
    exact ⟨by cases side <;> exact hr, by cases side <;> exact hz⟩
  trapv := rfl
  trappc := rfl
  trapinfo := rfl
  trapmask := rfl
  port := rfl
  star := rfl
  stack := rfl
  parked := rfl
  lane l hl := by cases side <;> exact Warp.lane_mapLanes w w.live (fun _ x => { x with nc := 0 }) hl
  handler := by
    rw [Warp.handler_enterTrap]
    cases side <;> rfl
  rest := by cases side <;> rfl

/-- Outside its handler a warp enters it, and free words are taken only where registers are spoiled. -/
theorem State.takeTrap_of_outside {w : Warp} (h : w.handler = none) (s : State) (side : Side) (vec : Nat) (trapv : Word)
    (pc info : DWord) (mask : Word) : ∃ n w',
    s.takeTrap w side vec trapv pc info mask = ({ s with free := n } : State).setWarp w' ∧
      EntersHandler w w' side vec trapv pc info mask (s.handlerEntry w) ∧ (w.soiled = 0 → n = s.free) := by
  obtain ⟨n, sregs, he, hs, hn⟩ := s.spoil_spec w
  refine ⟨n, _, ?_, entersHandler_enterTrap hs side vec trapv pc info mask (s.handlerEntry w), hn⟩
  simp only [State.takeTrap, h, he]
  rfl

/-- Inside its handler a warp is killed, with the vector in the record (R323). -/
theorem State.takeTrap_of_inside {w : Warp} (h : w.handler ≠ none) (s : State) (side : Side) (vec : Nat) (trapv : Word)
    (pc info : DWord) (mask : Word) :
    s.takeTrap w side vec trapv pc info mask = s.killWarp w (w.slot side).pc (BitVec.ofNat 8 vec) := by
  obtain ⟨x, hx⟩ := Option.ne_none_iff_exists'.mp h
  simp only [State.takeTrap, hx]

end Sys2Proof.Machine
end

section
/-! SUPPORT. What the device's own writes leave alone: the warps, and what the contexts' fault logs hold. -/

namespace Sys2Proof.Machine

/-- The warps and the fault records of every context are as they were. -/
structure Undisturbed (s t : State) : Prop where
  warps : t.warps = s.warps
  log : ∀ pasid, (t.ctx pasid).log = (s.ctx pasid).log

theorem Undisturbed.refl (s : State) : Undisturbed s s := ⟨rfl, fun _ => rfl⟩

theorem Undisturbed.trans {s t u : State} (h : Undisturbed s t) (k : Undisturbed t u) : Undisturbed s u :=
  ⟨k.warps.trans h.warps, fun p => (k.log p).trans (h.log p)⟩

theorem Undisturbed.of_eq {s t : State} (hw : t.warps = s.warps) (hc : t.ctxs = s.ctxs) : Undisturbed s t :=
  ⟨hw, fun p => by simp only [State.ctx, hc]⟩

theorem Undisturbed.foldl {α : Type} {f : State → α → State} (hf : ∀ s x, Undisturbed s (f s x)) (l : List α)
    (s : State) : Undisturbed s (l.foldl f s) := by
  induction l generalizing s with
  | nil => exact .refl s
  | cons x l ih => exact (hf s x).trans (ih _)

theorem Undisturbed.warp? {s t : State} (h : Undisturbed s t) (uid : Nat) : t.warp? uid = s.warp? uid := by
  simp only [State.warp?, h.warps]

/-! ### Contexts -/

theorem State.pasid_ctx (s : State) (pasid : Nat) : (s.ctx pasid).pasid = pasid := by
  unfold State.ctx
  cases h : s.ctxs.find? fun c => c.pasid == pasid with
  | none => rfl
  | some c => simpa using List.find?_some h

theorem State.ctx_setCtx (s : State) (c : Ctx) (pasid : Nat) :
    (s.setCtx c).ctx pasid = if pasid = c.pasid then c else s.ctx pasid := by
  by_cases hp : pasid = c.pasid
  · subst hp
    have hf := find?_putBy (fun x : Ctx => x.pasid == c.pasid) c s.ctxs (beq_self_eq_true _)
    simp only [State.ctx, State.setCtx, hf, Option.getD_some, if_true]
  · have hf := find?_putBy_ne (fun x : Ctx => x.pasid == c.pasid) (fun x => x.pasid == pasid) c s.ctxs
      (by simpa using Ne.symm hp) (by simp; omega)
    simp only [State.ctx, State.setCtx, hf, if_neg hp]

/-- A context replaced by one with the same fault records. -/
theorem Undisturbed.setCtx {s : State} {c : Ctx} (h : c.log = (s.ctx c.pasid).log) : Undisturbed s (s.setCtx c) := by
  refine ⟨rfl, fun p => ?_⟩
  rw [State.ctx_setCtx]
  split
  next hp => rw [hp, h]
  next => rfl

theorem Undisturbed.addLate (s : State) (pasid : Nat) (what : LateDo) (groups : List Nat) :
    Undisturbed s (s.addLate pasid what groups) :=
  .setCtx (by rw [State.pasid_ctx])

/-! ### Writes at their homes (R140, R336 to R340) -/

theorem Undisturbed.addParts (line : Nat) (op : ROp) (ty : DType) (parts : List (Nat × DWord)) (s : State) :
    Undisturbed s (addParts s line op ty parts) := by
  induction parts generalizing s with
  | nil => exact .refl s
  | cons x parts ih =>
    unfold Machine.addParts
    refine Undisturbed.trans ?_ (ih _)
    split
    · exact .refl s
    · exact .of_eq rfl rfl

theorem Undisturbed.sendPartial (s : State) (core line : Nat) : Undisturbed s (s.sendPartial core line) := by
  unfold State.sendPartial
  split
  · refine Undisturbed.trans ?_ (.addParts line _ _ _ _)
    exact .of_eq rfl rfl
  · exact .refl s

theorem Undisturbed.arrivals (n : Nat) (l : List Nat) (s : State) : Undisturbed s (arrivals n l s).1 := by
  induction n generalizing l s with
  | zero => exact .refl s
  | succ n ih =>
    unfold Machine.arrivals
    split
    · exact .refl s
    · exact Undisturbed.trans (t := { s with free := s.free + 1 }) (.of_eq rfl rfl) (ih _ _)

theorem Undisturbed.collect (s : State) (key n : Nat) : Undisturbed s (s.collect key n) := by
  refine .foldl (fun s line => ?_) _ s
  exact (Undisturbed.arrivals _ _ s).trans (.foldl (fun s c => .sendPartial s c line) _ _)

theorem Undisturbed.l2Room (s : State) (unit line : Nat) : Undisturbed s (s.l2Room unit line) := by
  unfold State.l2Room
  dsimp only
  split
  · exact .refl s
  · split
    · exact .of_eq rfl rfl
    · exact .refl s

theorem Undisturbed.putL2 (s : State) (x : L2Line) : Undisturbed s (s.putL2 x) := by
  unfold State.putL2
  split
  · exact .refl s
  · exact (Undisturbed.l2Room s x.unit x.line).trans (.of_eq rfl rfl)

theorem Undisturbed.touch (s : State) (key n : Nat) : Undisturbed s (s.touch key n) := by
  unfold State.touch
  split
  · exact .refl s
  · exact .foldl (fun s l => .putL2 s _) _ s

theorem Undisturbed.homeWrite (s : State) (key : Nat) (bs : List Byte) : Undisturbed s (s.homeWrite key bs) := by
  refine Undisturbed.trans ?_ (.touch ((s.collect key bs.length).put key bs) key bs.length)
  exact (Undisturbed.collect s key bs.length).trans (.of_eq rfl rfl)

theorem Undisturbed.putPieces (ps : List (Loc × Nat)) (bs : List Byte) (s : State) : Undisturbed s (putPieces s ps bs) := by
  induction ps generalizing bs s with
  | nil => exact .refl s
  | cons p ps ih => exact (Undisturbed.homeWrite s p.1.key _).trans (ih _ _)

/-! ### A context's own structures -/

theorem Undisturbed.askPage (s : State) (pasid queue : Nat) (va : DWord) (n : Need) :
    Undisturbed s (s.askPage pasid queue va n).1 := by
  unfold State.askPage
  dsimp only
  split
  · exact .refl s
  · split
    · exact .refl s
    · exact .of_eq rfl rfl

theorem Undisturbed.askAts (s : State) (pasid : Nat) (va : DWord) : Undisturbed s (s.askAts pasid va) := by
  unfold State.askAts
  dsimp only
  split
  · exact .refl s
  · exact .of_eq rfl rfl

theorem Undisturbed.ctxAsk (s : State) (pasid : Nat) (va : DWord) (n : Need) (t : Tr) :
    Undisturbed s (s.ctxAsk pasid va n t).1 := by
  cases t with
  | absent => exact Undisturbed.askPage s pasid ((s.ctxQueue pasid).getD 0) va n
  | pending => exact .askAts s pasid va
  | _ => exact .refl s

theorem Undisturbed.ctxWrite (s : State) (pasid : Nat) (va : DWord) (bs : List Byte) :
    Undisturbed s (s.ctxWrite pasid va bs) := by
  unfold State.ctxWrite
  split
  · exact .addLate s pasid _ _
  · split
    · exact .putPieces _ bs s
    · next a t _ =>
      have hq := Undisturbed.ctxAsk s pasid a { w := true } t
      split
      next he => rw [he] at hq; exact hq.trans (.addLate _ pasid _ _)
      next he => rw [he] at hq; exact hq

theorem Undisturbed.raiseCtx (s : State) (pasid : Nat) : Undisturbed s (s.raiseCtx pasid) := by
  unfold State.raiseCtx
  split
  · unfold State.raiseQueue
    dsimp only
    split <;> exact .of_eq rfl rfl
  · exact .refl s

/-! ### Death events (R233, R234) -/

theorem Undisturbed.freeEntry (s : State) (pasid : Nat) : Undisturbed s (s.freeEntry pasid).1 := by
  unfold State.freeEntry
  dsimp only
  split
  · exact .refl s
  · exact .of_eq rfl rfl

theorem Undisturbed.setEntry (s : State) (pasid idx : Nat) (e : Entry) : Undisturbed s (s.setEntry pasid idx e) :=
  (Undisturbed.setCtx (by rw [State.pasid_ctx])).trans (.ctxWrite _ pasid _ _)

theorem Undisturbed.forwards (pasid : Nat) (dead : List Dead) (s : State) : Undisturbed s (s.forwards pasid dead) := by
  induction dead generalizing s with
  | nil => exact .refl s
  | cons d dead ih =>
    unfold State.forwards
    refine Undisturbed.trans ?_ (ih _)
    split
    · have hq := Undisturbed.freeEntry s pasid
      split
      next he => rw [he] at hq; exact hq.trans (.setEntry _ pasid _ _)
      next he => rw [he] at hq; exact hq
    · exact .refl s

theorem Undisturbed.addDeath (s : State) (pasid : Nat) (dead : List Dead) (reset : Option Nat) :
    Undisturbed s (s.addDeath pasid dead reset) := by
  unfold State.addDeath
  split
  · exact .refl s
  · exact (Undisturbed.forwards pasid dead s).trans (.setCtx (by rw [State.pasid_ctx]))

/-! ### Fault records (R377) -/

/-- A record appended: the context `c` that has taken it, or has counted it while the log is full, and then writes to the
context's memory and an interrupt. -/
theorem State.append_spec (s : State) (pasid : Nat) (r : FaultRec) : ∃ c : Ctx, c.pasid = pasid ∧
    Undisturbed (s.setCtx c) (s.append pasid r) ∧
      ((s.ctx pasid).logW - s.ctxNum pasid ((s.ctx pasid).crec.log + 8) 8 ≠ 2 ^ (s.ctx pasid).crec.logLog →
        c.log = (s.ctx pasid).log ++ [r]) := by
  unfold State.append
  dsimp only
  split
  next hfull =>
    exact ⟨{ s.ctx pasid with dropped := (s.ctx pasid).dropped + 1 }, s.pasid_ctx pasid, .ctxWrite _ pasid _ _,
      fun h => absurd (beq_iff_eq.mp hfull) h⟩
  next =>
    refine ⟨{ s.ctx pasid with log := (s.ctx pasid).log ++ [r], logW := (s.ctx pasid).logW + 1 }, s.pasid_ctx pasid, ?_,
      fun _ => rfl⟩
    have hwrites (t : State) (a b : DWord) (x y : List Byte) : Undisturbed t ((t.ctxWrite pasid a x).ctxWrite pasid b y) :=
      (Undisturbed.ctxWrite t pasid a x).trans (.ctxWrite _ pasid b y)
    split
    · exact (hwrites _ _ _ _ _).trans (.raiseCtx _ pasid)
    · exact hwrites _ _ _ _ _

theorem State.warps_append (s : State) (pasid : Nat) (r : FaultRec) : (s.append pasid r).warps = s.warps := by
  obtain ⟨c, -, hq, -⟩ := s.append_spec pasid r
  exact hq.warps

theorem State.warps_log (s : State) (pasid : Nat) (r : FaultRec) : (s.log pasid r).warps = s.warps := by
  unfold State.log
  dsimp only
  split
  · exact (Undisturbed.addLate s pasid _ _).warps
  · split
    · exact s.warps_append pasid r
    · next a t _ =>
      have hq := Undisturbed.ctxAsk s pasid a { r := true } t
      split
      next he => rw [he] at hq; exact (hq.trans (.addLate _ pasid _ _)).warps
      next he => rw [he] at hq; exact (State.warps_append _ pasid r).trans hq.warps

/-- A context's fault log takes records at once and has room: nothing waits to be written, the log's header is mapped, and
the indices are not a whole log apart. -/
structure LogRoom (s : State) (pasid : Nat) : Prop where
  late : (s.ctx pasid).late = []
  mapped : ∃ ps, s.run pasid (s.ctx pasid).crec.log 24 { r := true } = .ok ps
  room : (s.ctx pasid).logW - s.ctxNum pasid ((s.ctx pasid).crec.log + 8) 8 ≠ 2 ^ (s.ctx pasid).crec.logLog

theorem State.log_append {s : State} {pasid : Nat} (r : FaultRec)
    (h : (s.ctx pasid).logW - s.ctxNum pasid ((s.ctx pasid).crec.log + 8) 8 ≠ 2 ^ (s.ctx pasid).crec.logLog) :
    ((s.append pasid r).ctx pasid).log = (s.ctx pasid).log ++ [r] := by
  obtain ⟨c, hc, hq, hlog⟩ := s.append_spec pasid r
  rw [hq.log, State.ctx_setCtx, if_pos hc.symm, hlog h]

/-- A log with room takes a record at once. -/
theorem State.log_log {s : State} {pasid : Nat} (h : LogRoom s pasid) (r : FaultRec) :
    ((s.log pasid r).ctx pasid).log = (s.ctx pasid).log ++ [r] := by
  obtain ⟨ps, hps⟩ := h.mapped
  have he : s.log pasid r = s.append pasid r := by simp only [State.log, h.late, List.find?_nil, hps]
  rw [he, State.log_append r h.room]

end Sys2Proof.Machine
end

section
/-! SUPPORT. Lanes that die (R13, R129, R323): what a kill leaves of its warp and writes into the log. -/

namespace Sys2Proof.Machine

/-! ### The lanes of a warp whose paths settle -/

/-- The same warp, with every lane as live as it was. -/
structure SameLife (w v : Warp) : Prop where
  uid : v.uid = w.uid
  st : ∀ l < 32, (v.lane l).st = (w.lane l).st

theorem SameLife.trans {u v w : Warp} (h : SameLife u v) (k : SameLife v w) : SameLife u w :=
  ⟨k.uid.trans h.uid, fun l hl => (k.st l hl).trans (h.st l hl)⟩

theorem SameLife.of_eq {w v : Warp} (hu : v.uid = w.uid) (hl : v.lanes = w.lanes) : SameLife w v :=
  ⟨hu, fun l _ => by simp only [Warp.lane, hl]⟩

theorem SameLife.addNc (w : Warp) (m : Word) (d : Byte) : SameLife w (w.addNc m d) := by
  refine ⟨rfl, fun l hl => ?_⟩
  rw [Warp.lane_addNc _ _ _ hl]
  split <;> rfl

theorem SameLife.takePath (w : Warp) (side : Side) : SameLife w (w.takePath side) := by
  unfold Warp.takePath
  split
  · exact .of_eq rfl rfl
  · split
    · exact .of_eq (Warp.setSlot_uid _ _ _) (Warp.setSlot_lanes _ _ _)
    · split
      · exact .of_eq (Warp.setSlot_uid _ _ _) (Warp.setSlot_lanes _ _ _)
      · split
        · exact .of_eq rfl rfl
        · exact .of_eq (Warp.setSlot_uid _ _ _) (Warp.setSlot_lanes _ _ _)

theorem SameLife.settleOne {w v : Warp} (h : w.settleOne = some v) : SameLife w v := by
  unfold Warp.settleOne at h
  split at h
  · cases h
  · next above e rest _ =>
    have hn := SameLife.addNc w e.mask (-1)
    dsimp only at h
    split at h
    · cases h; exact .of_eq rfl rfl
    split at h
    · cases h; refine SameLife.trans ?_ (.addNc _ _ _); exact .of_eq rfl rfl
    split at h
    · cases h; exact hn.trans (.of_eq rfl rfl)
    split at h
    · cases h; exact hn.trans (.of_eq rfl rfl)
    · cases h; exact hn.trans (.of_eq rfl rfl)

theorem SameLife.settleAll (n : Nat) (w : Warp) : SameLife w (Warp.settleAll n w) := by
  induction n generalizing w with
  | zero => exact .of_eq rfl rfl
  | succ n ih =>
    unfold Warp.settleAll
    split
    next h => exact (SameLife.settleOne h).trans (ih _)
    next => exact .of_eq rfl rfl

theorem SameLife.settle (w : Warp) : SameLife w w.settle :=
  ((SameLife.settleAll _ w).trans (.takePath _ .port)).trans (.takePath _ .star)

theorem Warp.uid_lose (w : Warp) (m : Word) (st : LaneSt) : (w.lose m st).uid = w.uid := (SameLife.settle _).uid

theorem Warp.st_lose (w : Warp) (m : Word) (st : LaneSt) {l : Nat} (hl : l < 32) (hm : m.getLsbD l = true) :
    ((w.lose m st).lane l).st = st := by
  refine ((SameLife.settle _).st l hl).trans ?_
  have hx := Warp.lane_mapLanes w m (fun _ x => { x with st := st }) hl
  rw [if_pos hm] at hx
  exact congrArg Lane.st hx

/-! ### A warp that is left with no live lane -/

@[simp] theorem State.warps_crewOut (s : State) (uid : Nat) : (s.crewOut uid).warps = s.warps := by
  unfold State.crewOut
  dsimp only
  split <;> rfl

@[simp] theorem State.ctxs_crewOut (s : State) (uid : Nat) : (s.crewOut uid).ctxs = s.ctxs := by
  unfold State.crewOut
  dsimp only
  split <;> rfl

theorem State.warps_retire (s : State) (w : Warp) : (s.retire w).warps = s.warps.filter fun x => x.uid != w.uid := by
  unfold State.retire
  dsimp only
  split
  · rw [State.warps_crewOut]; rfl
  · rfl

theorem State.ctxs_retire (s : State) (w : Warp) : (s.retire w).ctxs = s.ctxs := by
  unfold State.retire
  dsimp only
  split
  · rw [State.ctxs_crewOut]; rfl
  · rfl

/-- A warp that retires is gone. -/
theorem State.warp?_retire (s : State) (w : Warp) : (s.retire w).warp? w.uid = none := by
  rw [State.warp?, State.warps_retire, List.find?_eq_none]
  intro x hx
  simpa using (List.mem_filter.mp hx).2

theorem State.ctxs_checkRetire (s : State) (uid : Nat) : (s.checkRetire uid).ctxs = s.ctxs := by
  unfold State.checkRetire
  split
  · rfl
  · split
    · rfl
    · split
      · rfl
      · exact State.ctxs_retire _ _

/-- A warp that is still there when it has been asked whether it retires has the lanes that it had. -/
theorem State.lanes_of_checkRetire {s : State} {uid : Nat} {w v : Warp} (hw : s.warp? uid = some w)
    (hv : (s.checkRetire uid).warp? uid = some v) : v.lanes = w.lanes := by
  obtain rfl := State.warp?_uid hw
  simp only [State.checkRetire, hw] at hv
  split at hv
  · rw [hw] at hv; cases hv; rfl
  split at hv
  · have hp := State.warp?_setWarp (s := s) { w with
      port := { wait := some ⟨.packer, s.now⟩ }, star := {}, stack := [], parked := [], handler := none, due := none,
      custDue := none } hw
    rw [hp] at hv; cases hv; rfl
  · rw [State.warp?_retire] at hv; cases hv

theorem State.ctxs_lose (s : State) (uid : Nat) (m : Word) (st : LaneSt) : (s.lose uid m st).ctxs = s.ctxs := by
  unfold State.lose
  split
  · rfl
  · exact State.ctxs_checkRetire _ _

/-- R13: the lanes lost have their new state, if their warp is still there. -/
theorem State.st_of_lose {s : State} {uid : Nat} {w v : Warp} {m : Word} {st : LaneSt} (hw : s.warp? uid = some w)
    (hv : (s.lose uid m st).warp? uid = some v) {l : Nat} (hl : l < 32) (hm : m.getLsbD l = true) : (v.lane l).st = st := by
  have hu : (w.lose m st).uid = uid := (w.uid_lose m st).trans (State.warp?_uid hw)
  have hset : ((s.dropMonitors uid m).setWarp (w.lose m st)).warp? uid = some (w.lose m st) := by
    rw [← hu]
    exact State.warp?_setWarp (s := s.dropMonitors (w.lose m st).uid m) _ (by rw [hu]; exact hw)
  simp only [State.lose, hw] at hv
  have hlanes := State.lanes_of_checkRetire hset hv
  rw [Warp.lane, hlanes]
  exact w.st_lose m st hl hm

/-! ### A kill (R323, R377) -/

theorem Warp.getLsbD_live (w : Warp) {l : Nat} (hl : l < 32) : w.live.getLsbD l = true ↔ (w.lane l).st = .live := by
  rw [Warp.live, getLsbD_maskOf]
  simp [hl]

/-- A kill is a death event, which leaves warps and logs alone, and then the loss of the live lanes it names. -/
theorem State.kill_eq {s : State} {uid : Nat} {w : Warp} (hw : s.warp? uid = some w) (m : Word) (pc : DWord) :
    ∃ t, Undisturbed s t ∧ s.kill uid m pc = t.lose uid (m &&& w.live) .dead := by
  refine ⟨_, Undisturbed.addDeath s (s.pasidOf w) (s.deadOf w (m &&& w.live) pc true) none, ?_⟩
  simp only [State.kill, hw]

/-- R323: every live lane of a warp that is killed is dead afterwards. -/
theorem State.st_of_killWarp {s : State} {uid : Nat} {w v : Warp} {pc : DWord} {aux : Byte} (hw : s.warp? uid = some w)
    (hv : (s.killWarp w pc aux).warp? uid = some v) {l : Nat} (hl : l < 32) (hlive : (w.lane l).st = .live) :
    (v.lane l).st = .dead := by
  obtain rfl := State.warp?_uid hw
  have hrec : (s.killRec w w.live 0x0C 0 1 aux pc 0).warp? w.uid = some w := by
    rw [State.warp?, State.killRec, State.warps_log]; exact hw
  obtain ⟨t, hq, he⟩ := State.kill_eq hrec w.live pc
  rw [State.killWarp, he, BitVec.and_self] at hv
  exact State.st_of_lose ((hq.warp? _).trans hrec) hv hl ((w.getLsbD_live hl).mpr hlive)

/-- R323, R377: a kill that finds room in the log adds one record to it, of code 0x0C, with its cause, place and lanes. -/
theorem State.log_killWarp {s : State} {uid : Nat} {w : Warp} (hw : s.warp? uid = some w) (h : LogRoom s (s.pasidOf w))
    (pc : DWord) (aux : Byte) : ∃ r, ((s.killWarp w pc aux).ctx (s.pasidOf w)).log = (s.ctx (s.pasidOf w)).log ++ [r] ∧
      r.code = 0x0C ∧ r.aux = aux ∧ r.pc = pc ∧ r.lanes = w.live := by
  obtain rfl := State.warp?_uid hw
  have hrec : (s.killRec w w.live 0x0C 0 1 aux pc 0).warp? w.uid = some w := by
    rw [State.warp?, State.killRec, State.warps_log]; exact hw
  obtain ⟨t, hq, he⟩ := State.kill_eq hrec w.live pc
  have hlog : ((s.killWarp w pc aux).ctx (s.pasidOf w)).log =
      ((s.killRec w w.live 0x0C 0 1 aux pc 0).ctx (s.pasidOf w)).log := by
    rw [← hq.log, State.killWarp, he, State.ctx, State.ctxs_lose]; rfl
  exact ⟨_, hlog.trans (State.log_log h _), rfl, rfl, rfl, rfl⟩

end Sys2Proof.Machine
end

section
/-! SUPPORT. Return from the handler (R324) and the software traps (R325). -/

namespace Sys2Proof.Machine

/-! ### Return (R324) -/

/-- R324: the handler may return when the stack is at its entry mark and every live lane's nesting counter is 0. -/
theorem Warp.canReturn_iff (w : Warp) :
    w.canReturn = true ↔ w.stack = [] ∧ ∀ l < 32, (w.lane l).st = .live → (w.lane l).nc = 0 := by
  rw [Warp.canReturn, Bool.and_eq_true, List.isEmpty_iff, List.all_eq_true]
  refine and_congr_right fun _ => ⟨fun h l hl hlive => ?_, fun h l hm => ?_⟩
  · simpa using h l ((mem_lanesOf _ _).mpr ⟨hl, (w.getLsbD_live hl).mpr hlive⟩)
  · obtain ⟨hl, hb⟩ := (mem_lanesOf _ _).mp hm
    simpa using h l hl ((w.getLsbD_live hl).mp hb)

/-- A warp with the control state of its handler's entry restored, before its paths settle. -/
def Warp.restored (w : Warp) (h : Saved) (pc : DWord) : Warp :=
  let v := { w with port := h.port, star := h.star, stack := h.stack, parked := h.parked, last := h.last, handler := none }
  (v.setSlot h.side ((v.slot h.side).resumeAt pc (asyncVec h.vec))).mapLanes w.live h.restoreNc

section
variable (w : Warp) (h : Saved) (pc : DWord)

theorem Warp.leaveTrap_eq : w.leaveTrap h pc = (w.restored h pc).settle := by
  unfold Warp.leaveTrap Warp.restored
  cases h.side <;> rfl

theorem Warp.slot_restored : (w.restored h pc).slot h.side = (h.slot h.side).resumeAt pc (asyncVec h.vec) := by
  unfold Warp.restored
  cases h.side <;> rfl

theorem Warp.slot_restored_other : (w.restored h pc).slot (otherSide h.side) = h.slot (otherSide h.side) := by
  unfold Warp.restored
  cases h.side <;> rfl

theorem Warp.lane_restored {l : Nat} (hl : l < 32) : (w.restored h pc).lane l =
    if w.live.getLsbD l then h.restoreNc l (w.lane l) else w.lane l := by
  unfold Warp.restored
  cases h.side <;> exact Warp.lane_mapLanes w w.live h.restoreNc hl

/-- Return changes nothing of a warp but its control state. -/
theorem Warp.restored_rest :
    { w.restored h pc with port := w.port, star := w.star, stack := w.stack, parked := w.parked, lanes := w.lanes,
                           handler := w.handler, last := w.last } = w := by
  unfold Warp.restored
  cases h.side <;> rfl

theorem Warp.restored_control : (w.restored h pc).handler = none ∧ (w.restored h pc).stack = h.stack ∧
    (w.restored h pc).parked = h.parked ∧ (w.restored h pc).last = h.last := by
  unfold Warp.restored
  cases h.side <;> exact ⟨rfl, rfl, rfl, rfl⟩

end

theorem Slot.resumeAt_asyncVec (x : Slot) (pc : DWord) (vec : Nat) : x.resumeAt pc (asyncVec vec) =
    if (vec = 0x10 ∨ vec = 0x0B) ∧ pc = x.pc then { x with fetch := none }
    else { x with pc := pc, wait := none, fetch := none, denied := [] } :=
  ite_congr (by rw [Bool.and_eq_true, asyncVec_iff, beq_iff_eq]) (fun _ => rfl) fun _ => rfl

theorem Saved.restoreNc_eq (h : Saved) (l : Nat) (x : Lane) : h.restoreNc l x =
    { x with nc := ((h.ncs.find? fun (y : Nat × Byte) => y.1 == l).map Prod.snd).getD x.nc } := by
  unfold Saved.restoreNc
  cases h.ncs.find? fun (y : Nat × Byte) => y.1 == l <;> rfl

section
variable {f : Fields} {s : State} {uid : Nat} {side : Side} {w : Warp} (hi : Issues (.rte f) s uid side w)
include hi

/-- `rte` outside a handler is a word of no use: trap 0x02 with FIELD = 0. -/
theorem exec_rte_of_outside (hh : w.handler = none) :
    exec (.rte f) s = .next (s.trapField w side (.rte f) .op (w.active side)) := by
  refine (show execRte f s = _ from issue_eq hi _).trans ?_
  simp only [issueOf, hh]
  rfl

/-- `rte` inside a handler returns, or kills the warp with 0x04 in the record. -/
theorem exec_rte_of_inside {h : Saved} (hh : w.handler = some h) : exec (.rte f) s = .next (
    if w.canReturn then s.setWarp (w.restored h (if f.sub.getLsbD 0 then w.trappc + 16 else w.trappc)).settle
    else s.killWarp w (w.slot side).pc 4) := by
  refine (show execRte f s = _ from issue_eq hi _).trans ?_
  simp only [issueOf, hh, Warp.leaveTrap_eq]
  rfl

end

/-! ### Software traps (R325) -/

/-- `trap n` has the vector n, and for information the word A of the lowest lane that takes part. -/
theorem exec_trap {f : Fields} {s : State} {uid : Nat} {side : Side} {w : Warp} (h : Issues (.trap f) s uid side w) :
    exec (.trap f) s = .next (
      let x := issueOf (.trap f) s side w
      if x.tp == 0 then x.skip
      else x.software (f.imm.toNat % 256) (BitVec.ofNat 64 (operandAt 1 f w (lowOf x.tp) f.a % 2 ^ 32))) :=
  show execTrap f s = _ from issue_eq h _

/-- `bkpt code` has the vector 0x11, and its code for information. -/
theorem exec_bkpt {f : Fields} {s : State} {uid : Nat} {side : Side} {w : Warp} (h : Issues (.bkpt f) s uid side w) :
    exec (.bkpt f) s = .next (
      let x := issueOf (.bkpt f) s side w
      if x.tp == 0 then x.skip else x.software 0x11 (BitVec.ofNat 64 (f.imm.toNat % 65536))) :=
  show execBkpt f s = _ from issue_eq h _

section
variable (i : Instr) (s : State) (side : Side) {w : Warp} (vec : Nat) (info : DWord)

/-- R323: a software trap in the handler is a double trap. -/
theorem Issue.software_of_inside (h : w.handler ≠ none) :
    (issueOf i s side w).software vec info = s.killWarp w (w.slot side).pc (BitVec.ofNat 8 vec) := by
  obtain ⟨x, hx⟩ := Option.ne_none_iff_exists'.mp h
  simp only [Issue.software, issueOf, hx]
  rfl

/-- R325: outside the handler the instruction completes, and its warp enters the handler with TRAPPC past it. -/
theorem Issue.software_of_outside (h : w.handler = none) : ∃ n w',
    (issueOf i s side w).software vec info = ({ s with free := n } : State).setWarp w' ∧
      EntersHandler (w.advance side i) w' side vec (BitVec.ofNat 32 vec) ((w.slot side).pc + 16) info (partOf i w side)
        (s.handlerEntry w) := by
  obtain ⟨n, w', he, hw, -⟩ := s.takeTrap_of_outside ((Warp.advance_handler w side i).trans h) side vec
    (BitVec.ofNat 32 vec) ((w.slot side).pc + 16) info (partOf i w side)
  refine ⟨n, w', ?_, by rwa [State.handlerEntry, Warp.advance_launch] at hw⟩
  simp only [Issue.software, issueOf, h]
  exact he

end

@[simp] theorem Warp.trapSlot_advance (w : Warp) (side : Side) (i : Instr) (vec : Nat) :
    (w.advance side i).trapSlot side vec = (w.slot side).past i := by
  cases side <;> exact congrArg (fun d => { Slot.past _ i with denied := d }) (ite_self _)

theorem Spoiled.of_advance {w w' : Warp} {side : Side} {i : Instr} (h : Spoiled (w.advance side i) w') : Spoiled w w' := by
  obtain ⟨hs, hz⟩ := h
  exact ⟨by simpa using hs, hz⟩

theorem EntersHandler.registers_of_advance {i : Instr} {side : Side} {w w' : Warp} {vec : Nat} {trapv : Word}
    {pc info : DWord} {mask : Word} {entry : DWord}
    (h : EntersHandler (w.advance side i) w' side vec trapv pc info mask entry) {l : Nat} (hl : l < 32) :
    (w'.lane l).v = (w.lane l).v ∧ (w'.lane l).p = (w.lane l).p := by
  rw [h.lane l hl, Warp.lane_advance]
  split <;> exact ⟨rfl, rfl⟩

end Sys2Proof.Machine

open Sys2Proof Sys2Proof.Machine

/-- Settles O40: a word that fails a check is an `issue` and traps (`exec_of_fault`); a trap outside the handler enters it
(`EntersHandler`), and one inside kills the warp (`State.st_of_killWarp`, `State.log_killWarp`); `rte` restores the control
state that the entry saved (`Warp.restored`); `trap` and `bkpt` complete and then enter. -/
theorem traps : Obligations.Traps := by
  refine ⟨fun i s uid side w fld ht hw hf => exec_of_fault ht hw hf, fun s uid side w vec info mask hw => ?entry,
    fun f s uid side w => ⟨fun hi => ?rte, fun i hm hi => ?software, fun word hi => ?opcode, fun perm hi => ?fetch⟩⟩
  case entry =>
    refine ⟨fun hh => ?_, fun hh => ?_⟩
    · obtain ⟨n, w', he, h, hn⟩ := s.takeTrap_of_outside hh side vec (BitVec.ofNat 32 vec) (w.slot side).pc info mask
      have hfound : (s.trap w side vec info mask).warp? uid = some w' := by
        rw [State.trap, he]
        exact h.warp?_setWarp (s := { s with free := n }) rfl hw
      exact ⟨n, w', w.saved side vec, he, hfound, h.spoiled, hn, h.trapv, h.trappc, h.trapinfo, h.trapmask, h.port, h.star,
        h.stack, h.parked, h.lane, h.rest, h.handler, rfl, rfl, rfl, rfl, rfl, w.slot_saved side vec,
        by cases side <;> rfl, rfl⟩
    · have hk : s.trap w side vec info mask = s.killWarp w (w.slot side).pc (BitVec.ofNat 8 vec) :=
        State.takeTrap_of_inside hh s side vec _ _ info mask
      rw [hk]
      exact ⟨fun w' hw' l hl => State.st_of_killWarp hw hw' hl,
        fun hlate hmapped hroom => State.log_killWarp hw ⟨hlate, hmapped, hroom⟩ _ _⟩
  case rte =>
    refine ⟨exec_rte_of_outside hi, fun h hh => ?_⟩
    have he := exec_rte_of_inside hi hh
    refine ⟨fun hc => ?_, fun hc => ?_⟩
    · rwa [if_neg fun hr => hc (w.canReturn_iff.mp hr)] at he
    · rw [if_pos (w.canReturn_iff.mpr hc)] at he
      obtain ⟨hout, hstack, hparked, hlast⟩ := w.restored_control h (if f.sub.getLsbD 0 then w.trappc + 16 else w.trappc)
      refine ⟨_, he, hout, hstack, hparked, hlast, ?_, w.slot_restored_other h _, fun l hl => ?_, w.restored_rest h _⟩
      · rw [w.slot_restored h _, Slot.resumeAt_asyncVec]; rfl
      · rw [w.lane_restored h _ hl, Saved.restoreNc_eq]
  case software =>
    intro tp lo vec info
    have he : exec i s = .next (if tp == 0 then (issueOf i s side w).skip
        else (issueOf i s side w).software vec (BitVec.ofNat 64 info)) := by
      obtain rfl | rfl : i = .trap f ∨ i = .bkpt f := by simpa using hm
      · rw [show vec = f.imm.toNat % 256 from if_pos rfl, show info = operandAt 1 f w lo f.a % 2 ^ 32 from if_pos rfl]
        exact exec_trap hi
      · rw [show vec = 0x11 from if_neg nofun, show info = f.imm.toNat % 65536 from if_neg nofun]
        exact exec_bkpt hi
    by_cases htp : tp = 0
    · rw [if_pos (beq_iff_eq.mpr htp)] at he
      rw [if_pos htp]
      exact skips_of_skip hi he
    rw [if_neg fun h => htp (beq_iff_eq.mp h)] at he
    rw [if_neg htp]
    by_cases hh : w.handler = none
    · rw [if_neg (not_not_intro hh)]
      obtain ⟨n, w', hs, h⟩ := Issue.software_of_outside i s side vec (BitVec.ofNat 64 info) hh
      rw [hs] at he
      have hslot := ((w.advance side i).slot_saved side vec).trans (w.trapSlot_advance side i vec)
      exact ⟨n, w', (w.advance side i).saved side vec, he, h.warp?_setWarp (w.advance_uid side i) hi.warp,
        fun l hl => h.registers_of_advance hl, h.spoiled.of_advance, h.flags.trans (w.advance_flags side i), h.trapv,
        h.trappc, h.trapinfo, h.trapmask, congrArg Slot.pc h.port, (congrArg Slot.mask h.port).trans (w.live_advance side i), h.star, h.handler,
        rfl, rfl, hslot⟩
    · rw [if_pos hh]
      rwa [Issue.software_of_inside i s side vec _ hh] at he
  case opcode => exact show execIllegalOpcode word s = _ from issue_eq hi _
  case fetch => exact show execInstructionFetchFault perm s = _ from issue_eq hi _
end
